-- ==== Sys2Proof/Word.lean ====
section
/-! DEFINITION. The names and the plain data the manual's rules speak of: bytes, the fixed sets of names,
the containers for a fixed number of like things, keyed tables, and the records that cross the service link
(calibration set, class record, settings, register fields). Functions over them stand in Machine/. -/

namespace Sys2Proof

/-- One byte of a frame, or a set of at most eight names (R197). -/
abbrev Byte := BitVec 8

/-- A set of qualifier names, as the 4-byte bitmap of R197. -/
abbrev QualSet := BitVec 32

/-! ### The bridge (R1 to R3) -/

/-- The three wheel stations, in order from end 1 to end 3 (R1). -/
inductive Station where
  | s1 | s2 | s3
  deriving DecidableEq, Repr

/-- The two heads of a station: `a` is nearer end 1 (00, section 3.1). -/
inductive Head where
  | a | b
  deriving DecidableEq, Repr

/-- The two platforms (R1). -/
inductive Platform where
  | a | b
  deriving DecidableEq, Repr

/-- Direction of travel (R3). -/
inductive Direction where
  | up | down
  deriving DecidableEq, Repr

/-- The travel-order names of the stations: entry, middle, far (R3). -/
inductive Post where
  | e | m | f
  deriving DecidableEq, Repr

/-- The travel-order names of the platforms: FIRST and SECOND (R3). -/
inductive Side where
  | first | second
  deriving DecidableEq, Repr

/-- The recorded zone of an axle (R29, R31). No axle is recorded in APPROACH (R30). -/
inductive Zone where
  | first | second | exit
  deriving DecidableEq, Repr

/-! ### Containers for a fixed number of like things -/

/-- One thing for each station. -/
structure PerStation (α : Type) where
  s1 : α
  s2 : α
  s3 : α
  deriving DecidableEq, Repr

/-- One thing for each platform. -/
structure PerPlatform (α : Type) where
  a : α
  b : α
  deriving DecidableEq, Repr

/-- One thing for each travel-order platform. -/
structure PerSide (α : Type) where
  first : α
  second : α
  deriving DecidableEq, Repr

/-- One thing for each travel-order station. -/
structure PerPost (α : Type) where
  e : α
  m : α
  f : α
  deriving DecidableEq, Repr

/-- One thing for each load channel 0 to 7. -/
structure PerChannel (α : Type) where
  c0 : α
  c1 : α
  c2 : α
  c3 : α
  c4 : α
  c5 : α
  c6 : α
  c7 : α
  deriving DecidableEq, Repr

namespace PerStation
variable {α : Type}
/-- The thing of one station. -/
def get (x : PerStation α) : Station → α
  | .s1 => x.s1
  | .s2 => x.s2
  | .s3 => x.s3
/-- Replace the thing of one station. -/
def set (x : PerStation α) (k : Station) (v : α) : PerStation α :=
  match k with
  | .s1 => { x with s1 := v }
  | .s2 => { x with s2 := v }
  | .s3 => { x with s3 := v }
/-- The same change at every station. -/
def map (x : PerStation α) (f : α → α) : PerStation α := ⟨f x.s1, f x.s2, f x.s3⟩
end PerStation

namespace PerPlatform
variable {α : Type}
/-- The thing of one platform. -/
def get (x : PerPlatform α) : Platform → α
  | .a => x.a
  | .b => x.b
/-- Replace the thing of one platform. -/
def set (x : PerPlatform α) (k : Platform) (v : α) : PerPlatform α :=
  match k with
  | .a => { x with a := v }
  | .b => { x with b := v }
/-- The same change on both platforms. -/
def map (x : PerPlatform α) (f : α → α) : PerPlatform α := ⟨f x.a, f x.b⟩
end PerPlatform

namespace PerSide
variable {α : Type}
/-- The thing of one travel-order platform. -/
def get (x : PerSide α) : Side → α
  | .first => x.first
  | .second => x.second
/-- Replace the thing of one travel-order platform. -/
def set (x : PerSide α) (k : Side) (v : α) : PerSide α :=
  match k with
  | .first => { x with first := v }
  | .second => { x with second := v }
end PerSide

namespace PerPost
variable {α : Type}
/-- The thing of one travel-order station. -/
def get (x : PerPost α) : Post → α
  | .e => x.e
  | .m => x.m
  | .f => x.f
/-- Replace the thing of one travel-order station. -/
def set (x : PerPost α) (k : Post) (v : α) : PerPost α :=
  match k with
  | .e => { x with e := v }
  | .m => { x with m := v }
  | .f => { x with f := v }
end PerPost

namespace PerChannel
variable {α β : Type}
/-- The thing of one channel. -/
def get (x : PerChannel α) (c : Fin 8) : α :=
  match c with
  | 0 => x.c0
  | 1 => x.c1
  | 2 => x.c2
  | 3 => x.c3
  | 4 => x.c4
  | 5 => x.c5
  | 6 => x.c6
  | 7 => x.c7
/-- Replace the thing of one channel. -/
def set (x : PerChannel α) (c : Fin 8) (v : α) : PerChannel α :=
  match c with
  | 0 => { x with c0 := v }
  | 1 => { x with c1 := v }
  | 2 => { x with c2 := v }
  | 3 => { x with c3 := v }
  | 4 => { x with c4 := v }
  | 5 => { x with c5 := v }
  | 6 => { x with c6 := v }
  | 7 => { x with c7 := v }
/-- A thing for each channel, from its number. -/
def ofFn (f : Fin 8 → α) : PerChannel α := ⟨f 0, f 1, f 2, f 3, f 4, f 5, f 6, f 7⟩
/-- The same thing for every channel. -/
def all (v : α) : PerChannel α := ofFn fun _ => v
end PerChannel

/-- The channels in ascending order (R2). -/
def channels : List (Fin 8) := [0, 1, 2, 3, 4, 5, 6, 7]

/-! ### Keyed tables -/

/-- Things by number, as (key, thing) pairs with the keys strictly rising. An unlisted key holds nothing:
a FREE slot, an empty place, a code or a fleet number not in use. -/
abbrev Table (α : Type) := List (Nat × α)

/-! ### Fixed sets of names -/

/-- The calibration switch (R80, R83). -/
inductive SwitchPos where
  | operate | calibrate
  deriving DecidableEq, Repr

/-- The part's condition (R199). -/
inductive Condition where
  | starting | ready | restarting
  deriving DecidableEq, Repr

/-- A platform's excitation sense (R13). -/
inductive Sense where
  | present | absent
  deriving DecidableEq, Repr

/-- Kind of a vehicle (R105, R118). -/
inductive Kind where
  | wagon | traction
  deriving DecidableEq, Repr

/-- The qualifiers of an axle or a wagon, in the bit order of R197. -/
inductive Qual where
  | single | disagree | shared | outOfBand | uneven | interpolated | suspect | overcap | notWeighed
  | unclassified | incomplete | unverified | longDwell | reweighed | lateBound | noIdentity | unknownWagon
  deriving DecidableEq, Repr

/-- The attention bits, in the bit order of R197. -/
inductive AttBit where
  | wagons | opened | closed | fault | zero | store | permit | hold
  deriving DecidableEq, Repr

/-- The register flags, in the mask order of R155. -/
inductive RegFlag where
  | hold | learnTare | overloadSeen | user1 | user2 | user3 | user4
  deriving DecidableEq, Repr

/-- Severities, in rising order (R176). -/
inductive Severity where
  | notice | degrade | severe
  deriving DecidableEq, Repr

/-- The fault kinds, in kind-number order (R177). -/
inductive FaultKind where
  | headIncident | phantomCrossing | channelFault | platformOut | zeroDrift | zeroLost | tableFull
  | axleOverflow | passageDropped | storeFault | storeRecordsLost | calInvalid | calSwitch | linkDropped
  deriving DecidableEq, Repr

/-- The causes of a head incident (R9). -/
inductive IncidentCause where
  | repeatedHead | upstream | opening | pendingAtClose
  deriving DecidableEq, Repr

/-- The causes of a channel fault (R13). -/
inductive ChannelCause where
  | overrange | excitation
  deriving DecidableEq, Repr

/-- The store operations, in the order of R165. -/
inductive StoreOp where
  | load | registerCommit | calibrationCommit | passageNumber
  deriving DecidableEq, Repr

/-- How an operation ended (R80, R165). -/
inductive OpOutcome where
  | succeeded | failed
  deriving DecidableEq, Repr

/-- The outcomes a reply carries (R196). -/
inductive ReplyCode where
  | ok | started | badTarget | badCommand | badLength | badValue | busy | passageOpen | locked | notFound
  | alreadyExists | full | state | notReady | storeFault
  deriving DecidableEq, Repr

/-- The service-link targets (R198). -/
inductive Target where
  | sys | chan | cal | zero | pass | reg | cls
  deriving DecidableEq, Repr

/-! ### Records that cross the link -/

/-- One entry of the speed band table (R67, R81 field 14). -/
structure Band where
  upper : Nat
  k : Int
  deriving DecidableEq, Repr

/-- A calibration set (R81). Values are held as CAL_STAGE carries them, 4-byte signed integers, so that a
staging copy may hold a value outside its range until CAL_COMMIT (R85). -/
structure CalSet where
  fitted : Int
  gain : PerChannel Int
  zero : PerChannel Int
  headSpacing : Int
  lengthA : Int
  lengthB : Int
  guard : Int
  nMin : Int
  interval : Int
  maxAxle : Int
  zeroRange : Int
  tabs : Int
  trel : Int
  bands : List Band
  certMax : Int
  measMax : Int
  stamp : Int
  deriving DecidableEq, Repr

/-- A class record of the class table, keyed there by its code (R105). Its axle count n is one more than the
number of its spacings. -/
structure ClassRec where
  kind : Kind
  spacings : List Nat
  tolerance : Nat
  gapMin : Nat
  gapMax : Nat
  maxGross : Nat
  maxAxle : Nat
  deriving DecidableEq, Repr

/-- The fields CLASS_DEFINE carries, untested (R106, R198). -/
structure ClassFields where
  code : Nat
  kind : Nat
  n : Nat
  spacings : List Nat
  tolerance : Nat
  gapMin : Nat
  gapMax : Nat
  maxGross : Nat
  maxAxle : Nat
  deriving DecidableEq, Repr

/-- The eleven operating settings (R203). -/
structure Settings where
  triggerCount : Nat
  triggerIdle : Nat
  closeTimeout : Nat
  highWater : Nat
  lowWater : Nat
  sideLimit : Nat
  endLimit : Nat
  unevenLimit : Nat
  bogieMax : Nat
  attentionMask : Byte
  faultMask : BitVec 16
  deriving DecidableEq, Repr

/-- The values REG_CHANGE carries for fields 2 to 8 (R158); `none` is absent. -/
structure RegValues where
  cls : Option Nat
  tare : Option Nat
  maxGross : Option Nat
  flags : Option Byte
  lastGross : Option Int
  lastPassage : Option Nat
  weighCount : Option Nat
  deriving DecidableEq, Repr

/-- A record reference of RECORD_READ, ASSIGN and RETIRE_RECORD: selector, passage, position or slot (R197). -/
structure RecordRef where
  selector : Nat
  passage : Nat
  index : Nat
  deriving DecidableEq, Repr

/-- What the LCU reads at a sampling instant: eight raw counts and two excitation senses (R14). -/
structure Readings where
  raw : PerChannel Int
  sense : PerPlatform Sense
  deriving DecidableEq, Repr

end Sys2Proof
end

