-- ==== Sys2Proof/Syntax.lean ====
section
/-! DEFINITION. The commands of the part: one constructor for each row of spec/opcode_table.json.
`t` is the timebase value at which a command is taken, `tag` the TAG byte of a request (R191). A command that
ends a time the part itself keeps (an expiry, a store write, the load) carries no `t`: it is taken at its
deadline (notes/assumptions/2.md). -/

namespace Sys2Proof

/-- The commands (spec/opcode_table.json). -/
inductive Instr where
  /-- POWER_ON (R199) -/
  | powerOn
  /-- RESET (R200) -/
  | reset
  /-- STORE_LOAD_END (R171). `calInvalidFirst`: which of CAL_INVALID and STORE_RECORDS_LOST the FAU takes
  first when both are raised (R179). -/
  | storeLoadEnd (calInvalidFirst : Bool)
  /-- HEAD_EVENT (R5) -/
  | headEvent (t : Nat) (station : Station) (head : Head)
  /-- CLOSE_TIMEOUT (R48) -/
  | closeTimeout
  /-- SAMPLING_INSTANT (R14) -/
  | samplingInstant (t : Nat) (r : Readings)
  /-- SETTLING_COMPLETE (R15): the sampling instant at which channel `c` becomes ACTIVE -/
  | settlingComplete (t : Nat) (c : Fin 8) (r : Readings)
  /-- OVERRANGE_FAULT (R17): the sampling instant at which channel `c` faults for overrange -/
  | overrangeFault (t : Nat) (c : Fin 8) (r : Readings)
  /-- ACQUISITION_END (R99): the sampling instant at which the acquisition of `p` is decided -/
  | acquisitionEnd (t : Nat) (p : Platform) (r : Readings)
  /-- TRACKING_BLOCK (R102): the sampling instant at which the tracking block of `p` is judged -/
  | trackingBlock (t : Nat) (p : Platform) (r : Readings)
  /-- CALSW_CHANGE (R83) -/
  | calswChange (t : Nat) (pos : SwitchPos)
  /-- CALIBRATION_COMMIT_END (R88): the closing write ends; did it verify -/
  | calibrationCommitEnd (verified : Bool)
  /-- RESERVATION_WRITE_END (R169) -/
  | reservationWriteEnd (verified : Bool)
  /-- REGISTER_COMMIT_ITEM (R167) -/
  | registerCommitItem (verified : Bool)
  /-- REGISTER_COMMIT_END (R168): the closing write ends; did it verify -/
  | registerCommitEnd (verified : Bool)
  /-- PASSAGE_NUMBER_END (R169): the closing write ends; did it verify -/
  | passageNumberEnd (verified : Bool)
  /-- TRIGGER_IDLE_EXPIRY (R188) -/
  | triggerIdleExpiry
  /-- BYTE_RECEIVED (R192) -/
  | byteReceived (t : Nat) (byte : Byte) (framingError : Bool)
  /-- GAP_TIMEOUT (R192) -/
  | gapTimeout
  /-- LINK_BREAK (R194) -/
  | linkBreak (t : Nat)
  /-- REPLY_SENT (R195) -/
  | replySent (t : Nat)
  /-- IDENTIFY (R202) -/
  | identify (t : Nat) (tag : Byte)
  /-- CAPABILITIES (R202) -/
  | capabilities (t : Nat) (tag : Byte)
  /-- STATUS (R201) -/
  | status (t : Nat) (tag : Byte)
  /-- TIME (R202) -/
  | time (t : Nat) (tag : Byte)
  /-- SETTINGS_READ (R203) -/
  | settingsRead (t : Nat) (tag : Byte)
  /-- SETTINGS_WRITE (R203) -/
  | settingsWrite (t : Nat) (tag : Byte) (mask : BitVec 16) (block : Settings)
  /-- EXCHANGE_ATTENTION (R186) -/
  | exchangeAttention (t : Nat) (tag : Byte) (mask : Byte)
  /-- EXCHANGE_FAULT (R182) -/
  | exchangeFault (t : Nat) (tag : Byte)
  /-- RESTART (R200) -/
  | restart (t : Nat) (tag : Byte)
  /-- CHAN_READ (R23) -/
  | chanRead (t : Nat) (tag : Byte) (channel : Nat)
  /-- CHAN_ENABLE (R21) -/
  | chanEnable (t : Nat) (tag : Byte) (channel : Nat)
  /-- CHAN_DISABLE (R22) -/
  | chanDisable (t : Nat) (tag : Byte) (channel : Nat)
  /-- CAL_READ (R86): copy 0 is WORKING, 1 STAGING -/
  | calRead (t : Nat) (tag : Byte) (copy : Nat)
  /-- CAL_STAGE (R85): `bands` is read for field 14, `value` for every other field -/
  | calStage (t : Nat) (tag : Byte) (field : Nat) (channel : Nat) (value : Int) (bands : List Band)
  /-- CAL_COMMIT (R87) -/
  | calCommit (t : Nat) (tag : Byte)
  /-- CAL_DISCARD (R86) -/
  | calDiscard (t : Nat) (tag : Byte)
  /-- CAL_COUNTER (R86) -/
  | calCounter (t : Nat) (tag : Byte)
  /-- ZERO_ACQUIRE (R97): platform 0 is A, 1 is B -/
  | zeroAcquire (t : Nat) (tag : Byte) (platform : Nat)
  /-- ZERO_CANCEL (R100) -/
  | zeroCancel (t : Nat) (tag : Byte) (platform : Nat)
  /-- ZERO_STATE (R104) -/
  | zeroState (t : Nat) (tag : Byte) (platform : Nat)
  /-- PASSAGE_READ (R151) -/
  | passageRead (t : Nat) (tag : Byte) (passage : Nat)
  /-- PASSAGE_LIST (R151) -/
  | passageList (t : Nat) (tag : Byte)
  /-- RECORD_READ (R151) -/
  | recordRead (t : Nat) (tag : Byte) (ref : RecordRef)
  /-- EXPECT (R127) -/
  | expect (t : Nat) (tag : Byte) (passage : Nat) (position : Nat) (fleet : Option Nat) (cls : Option Nat)
  /-- ASSIGN (R142) -/
  | assign (t : Nat) (tag : Byte) (ref : RecordRef) (fleet : Nat)
  /-- RETIRE_RECORD (R149) -/
  | retireRecord (t : Nat) (tag : Byte) (ref : RecordRef)
  /-- RETIRE_PASSAGE (R150) -/
  | retirePassage (t : Nat) (tag : Byte) (passage : Nat)
  /-- PASS_CLOSE (R49) -/
  | passClose (t : Nat) (tag : Byte) (passage : Nat)
  /-- REG_ADD (R156) -/
  | regAdd (t : Nat) (tag : Byte) (fleet : Nat) (cls : Option Nat) (tare : Option Nat) (maxGross : Option Nat) (flags : Byte)
  /-- REG_READ (R157) -/
  | regRead (t : Nat) (tag : Byte) (fleet : Nat)
  /-- REG_CHANGE (R158): bit k of `mask` names field k + 1 -/
  | regChange (t : Nat) (tag : Byte) (fleet : Nat) (mask : Byte) (values : RegValues)
  /-- REG_FLAGS with AND (R159) -/
  | regFlagsAnd (t : Nat) (tag : Byte) (fleet : Nat) (mask : Byte)
  /-- REG_FLAGS with OR (R159) -/
  | regFlagsOr (t : Nat) (tag : Byte) (fleet : Nat) (mask : Byte)
  /-- REG_FLAGS with XOR (R159) -/
  | regFlagsXor (t : Nat) (tag : Byte) (fleet : Nat) (mask : Byte)
  /-- REG_RETIRE (R160) -/
  | regRetire (t : Nat) (tag : Byte) (fleet : Nat)
  /-- REG_NEXT (R161) -/
  | regNext (t : Nat) (tag : Byte) (fleet : Nat)
  /-- REG_COUNT (R157) -/
  | regCount (t : Nat) (tag : Byte)
  /-- REG_COMMIT (R166) -/
  | regCommit (t : Nat) (tag : Byte)
  /-- CLASS_DEFINE (R106) -/
  | classDefine (t : Nat) (tag : Byte) (fields : ClassFields)
  /-- CLASS_READ (R107) -/
  | classRead (t : Nat) (tag : Byte) (code : Nat)
  /-- CLASS_REMOVE (R107) -/
  | classRemove (t : Nat) (tag : Byte) (code : Nat)
  /-- LOSS_OF_POWER (R172) -/
  | lossOfPower
  /-- CALIBRATION_IMAGE_WRITE_END (R88): the image write and read-back end; did it verify -/
  | calibrationImageWriteEnd (verified : Bool)
  deriving DecidableEq, Repr

end Sys2Proof
end

