-- ==== Sys2Proof/Config.lean ====
section
/-! DEFINITION. What one implementation fixes, and the free values: constants with no body, so that no
statement can lean on a value the manual leaves open (notes/assumptions 12, 13, 14, 30, 44, 45 and 54). -/

namespace Sys2Proof.Config

/-- The revision of the part (R202), which the manual does not give. -/
opaque revision : BitVec 8

/-- The serial number of the part (R202), which the manual does not give. -/
opaque serial : BitVec 64

/-- Whether a calibration image fails its check after a write that failed its verify; else it stands as it was.
R88: "the stored image may fail its check at the next start-up" (notes/assumptions/13.md). -/
opaque imageFailsAfterFailedVerify : Nat → Bool

/-- What a store entry or a passage-number cell holds after a write that failed its verify: `none`, it fails its
check; `some true`, what the write carried; `some false`, what it held before. -/
opaque entryAfterFailedVerify : Nat → Option Bool

/-- Which class entry a cut class-area write was writing, as a number taken modulo 24. -/
opaque classEntryAtCut : Nat → Nat

/-! The order of occurrences that are reported together, which the world decides (R179; notes/assumptions 30, 44, 45, 54
and 55). Each is applied to the counter of free values. -/

/-- The rank of the channel faults of one instant: of channel c for an OVERRANGE fault, of 8 + the platform's number for
the EXCITATION faults of one platform, which are raised together in ascending order (R16). -/
opaque channelFaultRank : Nat → Nat → Nat

/-- Is platform B re-evaluated before platform A (R19). -/
opaque platformBFirst : Nat → Bool

/-- Is platform B's zero fault of an instant reported before platform A's (R102, R103). -/
opaque zeroBFirst : Nat → Bool

/-- Are the occurrences of an operation's end reported before the STORE_FAULT of its failed closing write (R165, R169). -/
opaque operationEndFirst : Nat → Bool

end Sys2Proof.Config
end

