-- ==== Sys2Proof/Machine/Defaults.lean ====
section
/-! DEFINITION. The values the manual gives for reset: the factory calibration set (R81) and the default
operating settings (R203); and the part's capacities and times. -/

namespace Sys2Proof.Machine

/-- The factory defaults of the calibration set (R81). -/
def factoryDefaults : CalSet where
  fitted := 255
  gain := .all 167772
  zero := .all 0
  headSpacing := 250
  lengthA := 1300
  lengthB := 1300
  guard := 150
  nMin := 20
  interval := 50
  maxAxle := 30000
  zeroRange := 300
  tabs := 200
  trel := 20000
  bands := [⟨999, 0⟩]
  certMax := 250
  measMax := 600
  stamp := 0

/-- The default operating settings (R203). -/
def defaultSettings : Settings where
  triggerCount := 8
  triggerIdle := 2000
  closeTimeout := 120
  highWater := 480
  lowWater := 320
  sideLimit := 100
  endLimit := 200
  unevenLimit := 100
  bogieMax := 2600
  attentionMask := 0xFF
  faultMask := 0

/-- The store load ends 5,000 ticks after the reset (R171). -/
def loadTicks : Nat := 5000
/-- A reservation or closing write takes 10 ms (R167, R169). -/
def cellTicks : Nat := 200
/-- An item of a register commit takes 3 ms (R167). -/
def itemTicks : Nat := 60
/-- A calibration commit's image part: its 60 ms less the two passage-number writes (R88, R169). -/
def imageTicks : Nat := 800

/-- Axle train capacity (R30). -/
def maxAxles : Nat := 2048
/-- History capacity (R52). -/
def maxHistory : Nat := 8192
/-- Wagon-record slots (R124). -/
def maxSlots : Nat := 640
/-- Positions in a passage (R117). -/
def maxPositions : Nat := 640
/-- Passage directory entries (R124). -/
def maxDirectory : Nat := 8
/-- Register records, and places of the register area (R154). -/
def maxRegister : Nat := 4096
/-- Frames that may wait (R193). -/
def maxQueue : Nat := 4
/-- The greatest passage number (R26, R124). -/
def maxPassage : Nat := 4294967295
/-- The greatest fleet number (R154). -/
def maxFleet : Nat := 999999999999
/-- One past the greatest timebase value (00, section 4.2). -/
def timebaseRange : Nat := 281474976710656

end Sys2Proof.Machine
end

