-- ==== Sys2Proof/Machine/State.lean ====
section
/-! DEFINITION. The state of the part, block by block, as plain data; the reasons a step can stop; and
State.reset, the part right after power-on with nothing yet loaded from its store. -/

namespace Sys2Proof.Machine

/-! ### Wheel Station Unit (R4) -/

/-- OK or FAULTED. -/
inductive StationState where
  | ok | faulted
  deriving DecidableEq, Repr

/-- A pending head: which, when it fired, its motion count 0-3 (R4). -/
structure Pending where
  head : Head
  time : Nat
  motion : Nat
  deriving DecidableEq, Repr

/-- A crossing: station, direction, time, head interval and station speed (R7). -/
structure Crossing where
  station : Station
  direction : Direction
  time : Nat
  interval : Nat
  speed : Nat
  deriving DecidableEq, Repr

/-- A station record (R4). -/
structure StationRec where
  state : StationState
  pending : Option Pending
  returns : Nat
  latest : Option Crossing
  deriving DecidableEq, Repr

/-- The three station records (R4). -/
abbrev Wsu := PerStation StationRec

/-! ### Load Channel Unit (R13) -/

/-- A channel's state (R13). -/
inductive ChannelState where
  | off | settling | active | faulted
  deriving DecidableEq, Repr

/-- A channel record (R13). `last` is the last raw sample with its timestamp. -/
structure Channel where
  fitted : Bool
  state : ChannelState
  settle : Nat
  last : Option (Int × Nat)
  overrange : Nat
  cause : Option ChannelCause
  onset : Option Nat
  deriving DecidableEq, Repr

/-- A platform's service state (R13, R19). -/
inductive Service where
  | inService | out
  deriving DecidableEq, Repr

/-- A platform record (R13). -/
structure PlatformRec where
  sense : Sense
  service : Service
  deriving DecidableEq, Repr

/-- The LCU's state (R13); `lastInstant` is the timestamp of the latest sampling instant (R14). -/
structure Lcu where
  channels : PerChannel Channel
  platforms : PerPlatform PlatformRec
  lastInstant : Option Nat
  deriving DecidableEq, Repr

/-! ### Axle Tracker (R26, R29) -/

/-- Status of a platform measurement (R29). -/
inductive MeasStatus where
  | valid | short | overspeed | crowded | poisoned | platformOut | unbounded | overrange
  deriving DecidableEq, Repr

/-- A platform measurement (R29, R71) with what the MEU keeps beside it: the rail means and the timestamp of the
last sample of its window (R52). `rails` are the corrected rail values in grams. -/
structure Measurement where
  status : MeasStatus
  rails : Option (Int × Int)
  n : Option Nat
  speed : Option Nat
  speedIn : Option Nat
  speedOut : Option Nat
  quals : QualSet
  means : Option (Int × Int)
  lastSample : Option Nat
  deriving DecidableEq, Repr

/-- Time and head interval of an axle's latest forward crossing at a station (R29). -/
structure PassTime where
  time : Nat
  interval : Nat
  deriving DecidableEq, Repr

/-- An axle entry (R29). Its index is its place in the train. `windows` holds t_in of an open window. Loads are
in kg. `comb` is the combination qualifier (R72). -/
structure Axle where
  zone : Zone
  times : PerPost (Option PassTime)
  windows : PerSide (Option Nat)
  meas : PerSide (Option Measurement)
  settled : Bool
  load : Option Int
  rail1 : Option Int
  rail2 : Option Int
  speed : Option Nat
  comb : Option Qual
  reweighed : Bool
  unclassified : Bool
  vehicle : Option Nat
  deriving DecidableEq, Repr

/-- What the passage record holds while OPEN (R26). -/
structure Passage where
  number : Nat
  direction : Direction
  openTime : Nat
  lastActivity : Nat
  deriving DecidableEq, Repr

/-- The AXT's state (R26): the phase is OPEN when `passage` is present. -/
structure Axt where
  passage : Option Passage
  train : List Axle
  phantom : Nat
  abandoned : Bool
  abandonedCount : Nat
  deriving DecidableEq, Repr

/-! ### Measurement Engine (R52) -/

/-- An instant of a platform's history (R52, R53); `rails` is absent when the platform was OUT. -/
structure Instant where
  time : Nat
  overrange : Bool
  rails : Option (Int × Int)
  deriving DecidableEq, Repr

/-- An entry of a platform's window list (R55). A DEFERRED entry holds its t_out and trim in `deferred`. -/
structure WindowEntry where
  axle : Nat
  tIn : Nat
  pred : Nat
  succ : Nat
  firstSucc : Option (Nat × Nat)
  crowded : Bool
  deferred : Option (Nat × Nat)
  deriving DecidableEq, Repr

/-- The last exit record (R52, R56). -/
structure ExitRec where
  axle : Nat
  time : Nat
  trim : Nat
  means : Option (Int × Int)
  deriving DecidableEq, Repr

/-- The MEU's state for one platform (R52). -/
structure MeuPlatform where
  history : List Instant
  latestOut : Option Nat
  windows : List WindowEntry
  lastExit : Option ExitRec
  poison : Option Nat
  deriving DecidableEq, Repr

/-- The MEU's state (R52). -/
abbrev Meu := PerPlatform MeuPlatform

/-! ### Zero Control (R93) -/

/-- Zero state of a platform (R93). -/
inductive ZeroState where
  | good | doubtful
  deriving DecidableEq, Repr

/-- State of an acquisition (R93). -/
inductive AcqState where
  | idle | collecting | suspended
  deriving DecidableEq, Repr

/-- Result of an acquisition (R93). -/
inductive AcqResult where
  | accepted | rejectedUnstable | rejectedRange | rejectedOut | cancelled
  deriving DecidableEq, Repr

/-- A zero acquisition (R93). -/
structure Acquisition where
  state : AcqState
  count : Nat
  sums : PerChannel Int
  least : Option Int
  greatest : Option Int
  last : Option AcqResult
  deriving DecidableEq, Repr

/-- A tracking block (R93). -/
structure Block where
  count : Nat
  sums : PerChannel Int
  loadSum : Int
  least : Option Int
  greatest : Option Int
  deriving DecidableEq, Repr

/-- The ZCL's state for one platform (R93). -/
structure ZclPlatform where
  zeroState : ZeroState
  acq : Acquisition
  block : Block
  offZero : Nat
  deriving DecidableEq, Repr

/-- The ZCL's state (R93). -/
structure Zcl where
  zeros : PerChannel Int
  freeze : Bool
  platforms : PerPlatform ZclPlatform
  deriving DecidableEq, Repr

/-! ### Segmenter (R105, R108) -/

/-- Wait reason (R108). -/
inductive WaitReason where
  | none | expected | cls | bogie | stopped
  deriving DecidableEq, Repr

/-- A vehicle; its position is its place in the list plus one (R108). -/
structure Vehicle where
  first : Nat
  count : Nat
  cls : Option Nat
  kind : Kind
  unclassified : Bool
  mismatch : Bool
  deriving DecidableEq, Repr

/-- The SEG's state (R105, R108). `commit` marks the class table as part of a register commit in hand and
unchanged since its snapshot (R168). -/
structure Seg where
  classes : Table ClassRec
  dirty : Bool
  commit : Bool
  cursor : Nat
  spacings : List (Option Nat)
  vehicles : List Vehicle
  wait : WaitReason
  limit : Bool
  deriving DecidableEq, Repr

/-! ### Passage Table (R124, R125, R147) -/

/-- Origin of a record (R125). -/
inductive Origin where
  | expectation | table
  deriving DecidableEq, Repr

/-- State of a record (R126). -/
inductive RecState where
  | expected | weighing | complete | final | missing
  deriving DecidableEq, Repr

/-- An entry of a record's axle list (R125). -/
structure AxleLine where
  load : Option Int
  rail1 : Option Int
  rail2 : Option Int
  speed : Option Nat
  quals : QualSet
  deriving DecidableEq, Repr

/-- The snapshot of a record (R131). -/
structure Snapshot where
  cls : Option Nat
  tare : Option Nat
  maxGross : Option Nat
  maxAxle : Option Nat
  deriving DecidableEq, Repr

/-- The computed values of a record (R135). -/
structure Values where
  exact : Option Int
  reported : Option Int
  p1 : Option Int
  p2 : Option Int
  side : Option Nat
  endwise : Option Nat
  net : Option Int
  deriving DecidableEq, Repr

/-- A record's own qualifiers (R125). -/
structure OwnQuals where
  incomplete : Bool
  unverified : Bool
  lateBound : Bool
  noIdentity : Bool
  unknownWagon : Bool
  deriving DecidableEq, Repr

/-- A record's verdicts (R125). -/
structure Verdicts where
  overload : Bool
  axleOverload : Bool
  imbalanceSide : Bool
  imbalanceEnd : Bool
  netNegative : Bool
  classMismatch : Bool
  hold : Bool
  deriving DecidableEq, Repr

/-- A wagon record; its slot is its key in the table of slots (R125). `passage` is absent in the pending set. -/
structure Wagon where
  origin : Origin
  passage : Option Nat
  position : Nat
  state : RecState
  kind : Option Kind
  fleet : Option Nat
  expectedCls : Option Nat
  cls : Option Nat
  firstAxle : Option Nat
  axles : List AxleLine
  values : Values
  snapshot : Snapshot
  own : OwnQuals
  verdicts : Verdicts
  segMismatch : Bool
  certified : Bool
  completion : Option Nat
  calCounter : Option Nat
  applied : Option Nat
  deriving DecidableEq, Repr

/-- Close causes (R147). -/
inductive CloseCause where
  | idleTimeout | host | backedOff
  deriving DecidableEq, Repr

/-- Totals of a passage (R146). -/
structure Totals where
  gross : Int
  net : Int
  quals : QualSet
  deriving DecidableEq, Repr

/-- A directory entry (R147): OPEN while `close` is absent; `close` holds the close time and cause. -/
structure DirEntry where
  number : Nat
  direction : Direction
  openTime : Nat
  close : Option (Nat × CloseCause)
  axleCount : Nat
  vehicles : Nat
  recorded : Nat
  unrecorded : Nat
  traction : Nat
  phantom : Nat
  abandoned : Bool
  unverified : Bool
  calCounter : Nat
  totals : Option Totals
  deriving DecidableEq, Repr

/-- PERMIT state (R124). -/
inductive Permit where
  | asserted | withdrawn
  deriving DecidableEq, Repr

/-- Water state (R124, R153). -/
inductive Water where
  | normal | high
  deriving DecidableEq, Repr

/-- The PTB's state (R124). The directory lists its entries in use, oldest issue first. -/
structure Ptb where
  slots : Table Wagon
  directory : List DirEntry
  lastNumber : Nat
  permit : Permit
  water : Water
  deriving DecidableEq, Repr

/-! ### Wagon Register (R154) -/

/-- The fields of a register record that the store holds (R154, fields 1 to 8). -/
structure RegFields where
  fleet : Nat
  cls : Option Nat
  tare : Option Nat
  maxGross : Option Nat
  flags : Byte
  lastGross : Option Int
  lastPassage : Option Nat
  weighCount : Nat
  deriving DecidableEq, Repr

/-- A register record, keyed by its fleet number (R154). -/
structure RegRec where
  fields : RegFields
  place : Nat
  dirty : Bool
  commit : Bool
  deriving DecidableEq, Repr

/-- An entry of the retirement list, keyed by its place (R154). -/
structure Retired where
  fleet : Nat
  commit : Bool
  deriving DecidableEq, Repr

/-- The WRG's state (R154). -/
structure Wrg where
  records : Table RegRec
  retired : Table Retired
  deriving DecidableEq, Repr

/-! ### Calibration Unit (R80) -/

/-- Calibration state (R80). -/
inductive CalState where
  | valid | invalid
  deriving DecidableEq, Repr

/-- Commit phase (R80). -/
inductive CommitPhase where
  | idle | writing | held
  deriving DecidableEq, Repr

/-- The CAL's state (R80); the switch position is State.calsw. -/
structure Cal where
  working : CalSet
  staging : CalSet
  state : CalState
  counter : Nat
  phase : CommitPhase
  snapshot : Option CalSet
  lastOutcome : Option OpOutcome
  deriving DecidableEq, Repr

/-! ### The store and the Store Controller (R165 to R172) -/

/-- A stored entry that is not empty: sound, or failing its check (07, section 7.5). -/
inductive Stored (α : Type) where
  | sound (a : α)
  | bad
  deriving DecidableEq, Repr

/-- A passage-number cell's content (07, section 7.5). -/
structure Cell where
  number : Nat
  sequence : Nat
  deriving DecidableEq, Repr

/-- Which of the two passage-number cells. -/
inductive CellId where
  | first | second
  deriving DecidableEq, Repr

/-- The nonvolatile store (07, section 7.5): the calibration image and counter shadow, the class area by code,
the register area by place, and the two cells; `none` or `bad` fails its check. -/
structure Store where
  image : Option (CalSet × Nat)
  shadow : Option Nat
  classes : Table (Stored ClassRec)
  places : Table (Stored RegFields)
  cell1 : Option Cell
  cell2 : Option Cell
  deriving DecidableEq, Repr

/-- An item of a register commit, with the copy it writes (R167). -/
inductive Item where
  | classArea (table : Table ClassRec)
  | write (place : Nat) (fields : RegFields)
  | erase (place : Nat)
  deriving DecidableEq, Repr

/-- Which write of a store operation is in hand (R167, R169, R88). -/
inductive WritePhase where
  | reading | reservation | body | closing
  deriving DecidableEq, Repr

/-- The operation in hand: its write in hand ends at `due`; `write` is the cell write in hand; `items` are the
items still to make; `failed` when an item or the image failed its verify. -/
structure Busy where
  op : StoreOp
  phase : WritePhase
  due : Nat
  write : Option (CellId × Cell)
  items : List Item
  failed : Bool
  deriving DecidableEq, Repr

/-- Store state (R165). -/
inductive StoreHealth where
  | ok | failed
  deriving DecidableEq, Repr

/-- The STC's state (R165); IDLE when `busy` is absent. -/
structure Stc where
  busy : Option Busy
  waiting : Bool
  last : Option (OpOutcome × StoreOp)
  failures : Nat
  health : StoreHealth
  cell : CellId
  sequence : Nat
  deriving DecidableEq, Repr

/-! ### Fault and Attention Unit (R176) -/

/-- Unit index of an occurrence (R178). -/
inductive FaultUnit where
  | station (s : Station)
  | channel (c : Fin 8)
  | platform (p : Platform)
  | slots
  | positions
  deriving DecidableEq, Repr

/-- Detail of an occurrence (R178). -/
inductive FaultDetail where
  | incident (c : IncidentCause)
  | direction (d : Direction)
  | channel (c : ChannelCause)
  | number (n : Int)
  | store (op : StoreOp) (phase : Option WritePhase)
  | lost (entries : Nat) (classes : Nat) (cells : Bool)
  | calCheck
  | calValidation (field : Nat)
  | switch (p : SwitchPos)
  deriving DecidableEq, Repr

/-- A fault occurrence (R178); its severity is that of its kind (R177). -/
structure FaultOcc where
  kind : FaultKind
  time : Nat
  passage : Option Nat
  unit : Option FaultUnit
  detail : Option FaultDetail
  deriving DecidableEq, Repr

/-- The FAU's state (R176); the masks are operating settings. `counts` lists the 14 further counts in kind-number order. -/
structure Fau where
  capture : Option FaultOcc
  counts : List Nat
  worst : Option Severity
  attention : Byte
  attn : Bool
  trigger : Nat
  lastCompletion : Option Nat
  held : List FaultOcc
  deriving DecidableEq, Repr

/-! ### Service Link (R191 to R195) -/

/-- A delivered request frame (R191). -/
structure Frame where
  tag : Byte
  target : Byte
  command : Byte
  data : List Byte
  deriving DecidableEq, Repr

/-- The receiver (R192): in BODY it holds LEN and the bytes kept after it, oldest first. -/
inductive Receiver where
  | hunt
  | length
  | body (len : Nat) (bytes : List Byte)
  deriving DecidableEq, Repr

/-- The nine link statistics, in the order of R192. -/
structure LinkStats where
  delivered : Nat
  replies : Nat
  hunt : Nat
  framing : Nat
  gap : Nat
  length : Nat
  crc : Nat
  queue : Nat
  breaks : Nat
  deriving DecidableEq, Repr

/-- The request in service with its composed reply (R195); `restart` marks the accepted RESTART. -/
structure InService where
  tag : Byte
  target : Byte
  outcome : ReplyCode
  data : List Byte
  restart : Bool
  deriving DecidableEq, Repr

/-- The SLK's state (R192, R193, R195). `lastByte` times the gap; `restartDue`: the reply of the accepted RESTART
has not yet left (R200). -/
structure Slk where
  receiver : Receiver
  lastByte : Nat
  queue : List Frame
  service : Option InService
  restartDue : Bool
  stats : LinkStats
  deriving DecidableEq, Repr

end Sys2Proof.Machine

namespace Sys2Proof.Machine

/-- The state of the part. `pending` is the queue of waiting commands and `freeCount` the counter of free values
drawn; both are the model's own. `calsw` is the CALSW pin, which is the CAL's switch position. -/
structure State where
  pending : List Instr
  powered : Bool
  condition : Condition
  timebase : Nat
  freeCount : Nat
  calsw : SwitchPos
  store : Store
  settings : Settings
  wsu : Wsu
  lcu : Lcu
  axt : Axt
  meu : Meu
  zcl : Zcl
  seg : Seg
  ptb : Ptb
  wrg : Wrg
  cal : Cal
  stc : Stc
  fau : Fau
  slk : Slk
  deriving DecidableEq, Repr

/-- The reasons a step stops with a fault: none. The manual describes no behaviour at which the part stops
(notes/assumptions/35.md). Nobody raises one, which is safe. -/
inductive Fault where
  deriving DecidableEq, Repr

/-- The reasons a command has no meaning. -/
inductive Refusal where
  /-- Raised by an arm of exec whose command the model has not reached; no arm does. Safe. -/
  | notModelled (mnemonic : String)
  deriving DecidableEq, Repr

/-! ### Reset values, block by block -/

/-- R4: every station OK and idle. -/
def StationRec.reset : StationRec := ⟨.ok, none, 0, none⟩

/-- R13: not fitted, OFF. -/
def Channel.reset : Channel := ⟨false, .off, 0, none, 0, none, none⟩

/-- R13: both platforms OUT. The sense is a choice (notes/assumptions/9.md). -/
def Lcu.reset : Lcu := ⟨.all .reset, ⟨⟨.absent, .out⟩, ⟨.absent, .out⟩⟩, none⟩

/-- R26. -/
def Axt.reset : Axt := ⟨none, [], 0, false, 0⟩

/-- R52. -/
def MeuPlatform.reset : MeuPlatform := ⟨[], none, [], none, none⟩

/-- R93: an idle acquisition with nothing collected. -/
def Acquisition.reset : Acquisition := ⟨.idle, 0, .all 0, none, none, none⟩

/-- R93: an empty tracking block. -/
def Block.empty : Block := ⟨0, .all 0, 0, none, none⟩

/-- R93. -/
def ZclPlatform.reset : ZclPlatform := ⟨.good, .reset, .empty, 0⟩

/-- R93: each working zero is 0 until the load. -/
def Zcl.reset : Zcl := ⟨.all 0, false, ⟨.reset, .reset⟩⟩

/-- R105, R108: the class table is empty until the load. -/
def Seg.reset : Seg := ⟨[], false, false, 0, [], [], .none, false⟩

/-- R124. -/
def Ptb.reset : Ptb := ⟨[], [], 0, .withdrawn, .normal⟩

/-- R154: empty until the load. -/
def Wrg.reset : Wrg := ⟨[], []⟩

/-- R80; before the load the working set is a choice (notes/assumptions/10.md). -/
def Cal.reset : Cal := ⟨factoryDefaults, factoryDefaults, .invalid, 0, .idle, none, none⟩

/-- R165, R171: BUSY with LOAD. -/
def Stc.reset : Stc := ⟨some ⟨.load, .reading, loadTicks, none, [], false⟩, false, none, 0, .ok, .first, 0⟩

/-- R176. -/
def Fau.reset : Fau := ⟨none, [0, 0, 0, 0, 0, 0, 0, 0, 0, 0, 0, 0, 0, 0], none, 0, false, 0, none, []⟩

/-- R192, R193. -/
def Slk.reset : Slk := ⟨.hunt, 0, [], none, false, ⟨0, 0, 0, 0, 0, 0, 0, 0, 0⟩⟩

/-- The store of a part never commissioned: a choice (notes/assumptions/7.md). -/
def Store.blank : Store := ⟨some (factoryDefaults, 0), some 0, [], [], some ⟨0, 0⟩, some ⟨0, 65535⟩⟩

/-- Every volatile block at its reset value over a store and a switch position (R175, R199, R200). -/
def State.volatileReset (pending : List Instr) (free : Nat) (sw : SwitchPos) (st : Store) : State where
  pending := pending
  powered := true
  condition := .starting
  timebase := 0
  freeCount := free
  calsw := sw
  store := st
  settings := defaultSettings
  wsu := ⟨.reset, .reset, .reset⟩
  lcu := .reset
  axt := .reset
  meu := ⟨.reset, .reset⟩
  zcl := .reset
  seg := .reset
  ptb := .reset
  wrg := .reset
  cal := .reset
  stc := .reset
  fau := .reset
  slk := .reset

/-- The part right after power-on (R199): STARTING, the STC BUSY with the store load. -/
def State.reset : State := State.volatileReset [] 0 .operate .blank

end Sys2Proof.Machine
end

