-- ==== Sys2Proof/Machine/Flags.lean ====
section
/-! DEFINITION. Sets of names as bitmaps, the numbering of names (R177, R197), and the flag-mask rules of R155
and R159. -/

namespace Sys2Proof.Machine

/-! ### Numbers of names: from 0 in the order in which the manual lists them (R197) -/

/-- S1, S2, S3. -/
def stationNum : Station → Nat
  | .s1 => 0 | .s2 => 1 | .s3 => 2
/-- Head a, head b. -/
def headNum : Head → Nat
  | .a => 0 | .b => 1
/-- A, B. -/
def platformNum : Platform → Nat
  | .a => 0 | .b => 1
/-- UP, DOWN. -/
def directionNum : Direction → Nat
  | .up => 0 | .down => 1
/-- WAGON, TRACTION. -/
def kindNum : Kind → Nat
  | .wagon => 0 | .traction => 1
/-- OPERATE, CALIBRATE. -/
def switchNum : SwitchPos → Nat
  | .operate => 0 | .calibrate => 1
/-- STARTING, READY, RESTARTING. -/
def conditionNum : Condition → Nat
  | .starting => 0 | .ready => 1 | .restarting => 2
/-- NOTICE, DEGRADE, SEVERE; also their order (R176). -/
def severityNum : Severity → Nat
  | .notice => 0 | .degrade => 1 | .severe => 2
/-- OK, FAULTED. -/
def stationStateNum : StationState → Nat
  | .ok => 0 | .faulted => 1
/-- OFF, SETTLING, ACTIVE, FAULTED. -/
def channelStateNum : ChannelState → Nat
  | .off => 0 | .settling => 1 | .active => 2 | .faulted => 3
/-- OVERRANGE, EXCITATION. -/
def channelCauseNum : ChannelCause → Nat
  | .overrange => 0 | .excitation => 1
/-- REPEATED_HEAD, UPSTREAM, OPENING, PENDING_AT_CLOSE. -/
def incidentNum : IncidentCause → Nat
  | .repeatedHead => 0 | .upstream => 1 | .opening => 2 | .pendingAtClose => 3
/-- GOOD, DOUBTFUL. -/
def zeroStateNum : ZeroState → Nat
  | .good => 0 | .doubtful => 1
/-- IDLE, COLLECTING, SUSPENDED. -/
def acqStateNum : AcqState → Nat
  | .idle => 0 | .collecting => 1 | .suspended => 2
/-- ACCEPTED, REJECTED_UNSTABLE, REJECTED_RANGE, REJECTED_OUT, CANCELLED. -/
def acqResultNum : AcqResult → Nat
  | .accepted => 0 | .rejectedUnstable => 1 | .rejectedRange => 2 | .rejectedOut => 3 | .cancelled => 4
/-- NONE, EXPECTED, CLASS, BOGIE, STOPPED. -/
def waitNum : WaitReason → Nat
  | .none => 0 | .expected => 1 | .cls => 2 | .bogie => 3 | .stopped => 4
/-- EXPECTATION, TABLE. -/
def originNum : Origin → Nat
  | .expectation => 0 | .table => 1
/-- EXPECTED, WEIGHING, COMPLETE, FINAL, MISSING. -/
def recStateNum : RecState → Nat
  | .expected => 0 | .weighing => 1 | .complete => 2 | .final => 3 | .missing => 4
/-- IDLE_TIMEOUT, HOST, BACKED_OFF. -/
def closeCauseNum : CloseCause → Nat
  | .idleTimeout => 0 | .host => 1 | .backedOff => 2
/-- ASSERTED, WITHDRAWN. -/
def permitNum : Permit → Nat
  | .asserted => 0 | .withdrawn => 1
/-- NORMAL, HIGH. -/
def waterNum : Water → Nat
  | .normal => 0 | .high => 1
/-- VALID, INVALID. -/
def calStateNum : CalState → Nat
  | .valid => 0 | .invalid => 1
/-- IDLE, WRITING, HELD. -/
def commitPhaseNum : CommitPhase → Nat
  | .idle => 0 | .writing => 1 | .held => 2
/-- SUCCEEDED, FAILED. -/
def outcomeNum : OpOutcome → Nat
  | .succeeded => 0 | .failed => 1
/-- LOAD, REGISTER_COMMIT, CALIBRATION_COMMIT, PASSAGE_NUMBER (R197). -/
def storeOpNum : StoreOp → Nat
  | .load => 0 | .registerCommit => 1 | .calibrationCommit => 2 | .passageNumber => 3
/-- OK, FAILED. -/
def healthNum : StoreHealth → Nat
  | .ok => 0 | .failed => 1

/-- The outcome byte (R196). -/
def replyNum : ReplyCode → Nat
  | .ok => 0x00 | .started => 0x01 | .badTarget => 0x10 | .badCommand => 0x11 | .badLength => 0x12
  | .badValue => 0x13 | .busy => 0x20 | .passageOpen => 0x21 | .locked => 0x22 | .notFound => 0x30
  | .alreadyExists => 0x31 | .full => 0x32 | .state => 0x33 | .notReady => 0x40 | .storeFault => 0x41

/-- The target codes (R198). -/
def targetNum : Target → Nat
  | .sys => 1 | .chan => 2 | .cal => 3 | .zero => 4 | .pass => 5 | .reg => 6 | .cls => 7

/-- The kind numbers 1 to 14 (R177). -/
def faultNum : FaultKind → Nat
  | .headIncident => 1 | .phantomCrossing => 2 | .channelFault => 3 | .platformOut => 4 | .zeroDrift => 5
  | .zeroLost => 6 | .tableFull => 7 | .axleOverflow => 8 | .passageDropped => 9 | .storeFault => 10
  | .storeRecordsLost => 11 | .calInvalid => 12 | .calSwitch => 13 | .linkDropped => 14

/-- The severity of a kind (R177). -/
def faultSeverity : FaultKind → Severity
  | .headIncident => .degrade | .phantomCrossing => .notice | .channelFault => .degrade
  | .platformOut => .degrade | .zeroDrift => .notice | .zeroLost => .degrade | .tableFull => .degrade
  | .axleOverflow => .severe | .passageDropped => .degrade | .storeFault => .severe
  | .storeRecordsLost => .degrade | .calInvalid => .severe | .calSwitch => .notice | .linkDropped => .notice

/-! ### Sets of names -/

/-- The bit of a qualifier (R197). -/
def qualNum : Qual → Nat
  | .single => 0 | .disagree => 1 | .shared => 2 | .outOfBand => 3 | .uneven => 4 | .interpolated => 5
  | .suspect => 6 | .overcap => 7 | .notWeighed => 8 | .unclassified => 9 | .incomplete => 10
  | .unverified => 11 | .longDwell => 12 | .reweighed => 13 | .lateBound => 14 | .noIdentity => 15
  | .unknownWagon => 16

/-- The set holding one qualifier. -/
def qualSet (q : Qual) : QualSet := BitVec.ofNat 32 (2 ^ qualNum q)

/-- The set holding one qualifier when a condition holds, else nothing. -/
def qualWhen (q : Qual) (b : Bool) : QualSet := if b then qualSet q else 0

/-- Does a set hold a qualifier. -/
def hasQual (s : QualSet) (q : Qual) : Bool := s.getLsbD (qualNum q)

/-- The disqualifying qualifiers (R136): bits 0 to 11 of R197's order. -/
def disqualifying : QualSet := 0xFFF

/-- The bit of an attention bit (R197). -/
def attNum : AttBit → Nat
  | .wagons => 0 | .opened => 1 | .closed => 2 | .fault => 3 | .zero => 4 | .store => 5 | .permit => 6 | .hold => 7

/-- The set holding one attention bit. -/
def attSet (b : AttBit) : Byte := BitVec.ofNat 8 (2 ^ attNum b)

/-- The bit of a register flag: its mask position less one (R155). -/
def flagNum : RegFlag → Nat
  | .hold => 0 | .learnTare => 1 | .overloadSeen => 2 | .user1 => 3 | .user2 => 4 | .user3 => 5 | .user4 => 6

/-- The set holding one register flag. -/
def flagSet (f : RegFlag) : Byte := BitVec.ofNat 8 (2 ^ flagNum f)

/-- Does a flag set hold a flag. -/
def hasFlag (s : Byte) (f : RegFlag) : Bool := s.getLsbD (flagNum f)

/-- A flag mask that names position eight (R155). -/
def namesPositionEight (m : Byte) : Bool := m.getLsbD 7

/-- Is a fault kind in the fault mask (R181). -/
def isMasked (m : BitVec 16) (k : FaultKind) : Bool := m.getLsbD (faultNum k - 1)

/-- The three operations of REG_FLAGS (R159). -/
inductive FlagOp where
  | and | or | xor
  deriving DecidableEq, Repr

/-- The new flags from the old (R159). -/
def FlagOp.apply (op : FlagOp) (old mask : Byte) : Byte :=
  match op with
  | .and => old &&& mask
  | .or => old ||| mask
  | .xor => old ^^^ mask

/-- An OR or XOR mask may not name position eight; an AND mask may (R155, R159). -/
def FlagOp.maskOk (op : FlagOp) (mask : Byte) : Bool :=
  match op with
  | .and => true
  | .or => !namesPositionEight mask
  | .xor => !namesPositionEight mask

/-- Own qualifiers as the 1-byte set of R197. -/
def OwnQuals.bits (o : OwnQuals) : Nat :=
  o.incomplete.toNat + 2 * o.unverified.toNat + 4 * o.lateBound.toNat + 8 * o.noIdentity.toNat + 16 * o.unknownWagon.toNat

/-- Own qualifiers as qualifiers of the wagon (R136). -/
def OwnQuals.quals (o : OwnQuals) : QualSet :=
  qualWhen .incomplete o.incomplete ||| qualWhen .unverified o.unverified ||| qualWhen .lateBound o.lateBound |||
    qualWhen .noIdentity o.noIdentity ||| qualWhen .unknownWagon o.unknownWagon

/-- No own qualifier. -/
def OwnQuals.none : OwnQuals := ⟨false, false, false, false, false⟩

/-- Verdicts as the 1-byte set of R197. -/
def Verdicts.bits (v : Verdicts) : Nat :=
  v.overload.toNat + 2 * v.axleOverload.toNat + 4 * v.imbalanceSide.toNat + 8 * v.imbalanceEnd.toNat +
    16 * v.netNegative.toNat + 32 * v.classMismatch.toNat + 64 * v.hold.toNat

/-- No verdict. -/
def Verdicts.none : Verdicts := ⟨false, false, false, false, false, false, false⟩

/-- The limit verdicts removed, the identity verdicts kept (R139, R144). -/
def Verdicts.identityOnly (v : Verdicts) : Verdicts :=
  { Verdicts.none with classMismatch := v.classMismatch, hold := v.hold }

/-- The channels of a platform, in ascending order (R2). -/
def channelsOf : Platform → List (Fin 8)
  | .a => [0, 1, 2, 3]
  | .b => [4, 5, 6, 7]

/-- The channels of rail 1 and of rail 2 of a platform (R2). -/
def railChannels : Platform → List (Fin 8) × List (Fin 8)
  | .a => ([0, 1], [2, 3])
  | .b => ([4, 5], [6, 7])

/-- The platform of a channel (R2). -/
def platformOfChannel (c : Fin 8) : Platform := if c.val < 4 then .a else .b

/-- The two stations that bound a platform (R1, R96). -/
def stationsOf : Platform → Station × Station
  | .a => (.s1, .s2)
  | .b => (.s2, .s3)

/-- The platform that a direction makes FIRST or SECOND (R3). -/
def platformOf : Direction → Side → Platform
  | .up, .first => .a
  | .up, .second => .b
  | .down, .first => .b
  | .down, .second => .a

/-- The travel-order name of a platform (R3). -/
def sideOf : Direction → Platform → Side
  | .up, .a => .first
  | .up, .b => .second
  | .down, .b => .first
  | .down, .a => .second

/-- The station that a direction makes E, M or F (R3). -/
def stationOf : Direction → Post → Station
  | .up, .e => .s1
  | .up, .m => .s2
  | .up, .f => .s3
  | .down, .e => .s3
  | .down, .m => .s2
  | .down, .f => .s1

/-- The travel-order name of a station (R3). -/
def postOf : Direction → Station → Post
  | .up, .s1 => .e
  | .up, .s2 => .m
  | .up, .s3 => .f
  | .down, .s3 => .e
  | .down, .s2 => .m
  | .down, .s1 => .f

end Sys2Proof.Machine
end

