-- ==== Sys2Proof/Machine/Ops.lean ====
section
/-! DEFINITION. The operations every block shares: rounding, keyed tables, updates of one block of State, time,
and the Fault and Attention Unit's taking of occurrences, raises and completions. -/

namespace Sys2Proof.Machine

/-! ### Arithmetic (00, section 4.3) -/

/-- a / b rounded to the nearest integer, halves away from zero. -/
def roundDiv (a : Int) (b : Nat) : Int :=
  if 0 ≤ a then (2 * a + b) / (2 * b) else -((2 * (-a) + b) / (2 * b))

/-- a / b raised towards plus infinity. -/
def ceilDiv (a : Int) (b : Nat) : Int := -((-a) / (b : Int))

/-- 2^24: gains are in units of 2^-24 kg per count (R53, R81). -/
def gainUnit : Nat := 16777216

/-- One more, up to a limit (a saturating count). -/
def satSucc (limit n : Nat) : Nat := if n < limit then n + 1 else n

/-- The passage number `k` places beyond `n`, counting as the PTB counts: after 4,294,967,295 comes 1 (R148, R169). -/
def numberAfter (n k : Nat) : Nat := (n + k - 1) % maxPassage + 1

/-- Station speed in tenths of a km/h from head spacing and head interval, clamped at 9,999 (R7). -/
def stationSpeed (headSpacing : Int) (interval : Nat) : Nat := min 9999 (headSpacing.toNat * 720 / interval)

/-! ### Lists -/

/-- Change the entry at a place, if there is one. -/
def updateAt {α : Type} (f : α → α) : Nat → List α → List α
  | _, [] => []
  | 0, a :: l => f a :: l
  | i + 1, a :: l => a :: updateAt f i l

/-- The place of the first entry that meets a test. -/
def firstIdx {α : Type} (p : α → Bool) : List α → Option Nat
  | [] => none
  | a :: l => if p a then some 0 else (firstIdx p l).map (· + 1)

/-- The place of the last entry that meets a test. -/
def lastIdx {α : Type} (p : α → Bool) : List α → Option Nat
  | [] => none
  | a :: l => match lastIdx p l with
    | some i => some (i + 1)
    | none => if p a then some 0 else none

/-- The sum of a list of integers. -/
def sumInt : List Int → Int
  | [] => 0
  | a :: l => a + sumInt l

/-- The union of a list of qualifier sets. -/
def unionQuals : List QualSet → QualSet
  | [] => 0
  | a :: l => a ||| unionQuals l

/-- The sum of a list of optional integers, absent when any is absent. -/
def sumOption : List (Option Int) → Option Int
  | [] => some 0
  | a :: l => match a, sumOption l with
    | some x, some y => some (x + y)
    | _, _ => none

/-- The lowest number from `k` on, of `fuel` numbers, that is not in use. -/
def lowestFree (used : Nat → Bool) : Nat → Nat → Option Nat
  | 0, _ => none
  | fuel + 1, k => if used k then lowestFree used fuel (k + 1) else some k

/-- Put a thing before the first thing of a greater key. -/
def insertBy {α : Type} (key : α → Nat) (a : α) : List α → List α
  | [] => [a]
  | b :: l => if key a < key b then a :: b :: l else b :: insertBy key a l

/-- A list in ascending order of a key, things of one key in their old order. -/
def sortBy {α : Type} (key : α → Nat) (l : List α) : List α := l.foldl (fun u a => insertBy key a u) []

/-! ### Keyed tables -/

/-- Keys strictly rising, each above a bound. -/
def Table.rising {α : Type} : Nat → Table α → Bool
  | _, [] => true
  | b, (k, _) :: t => decide (b ≤ k) && Table.rising (k + 1) t

/-- The canonical form: keys strictly rising. -/
def Table.wf {α : Type} (t : Table α) : Bool := Table.rising 0 t

/-- What a key holds. -/
def tget {α : Type} : Table α → Nat → Option α
  | [], _ => none
  | (j, a) :: t, k => if j = k then some a else tget t k

/-- Give a key a thing, in place of what it held. -/
def tput {α : Type} : Table α → Nat → α → Table α
  | [], k, v => [(k, v)]
  | (j, a) :: t, k, v =>
    if k < j then (k, v) :: (j, a) :: t
    else if k = j then (k, v) :: t
    else (j, a) :: tput t k v

/-- Take away what a key holds. -/
def tdel {α : Type} : Table α → Nat → Table α
  | [], _ => []
  | (j, a) :: t, k => if j = k then t else (j, a) :: tdel t k

/-- Change every thing, keys standing. -/
def tmap {α β : Type} (f : Nat → α → β) : Table α → Table β
  | [] => []
  | (k, a) :: t => (k, f k a) :: tmap f t

/-- Keep the things that meet a test. -/
def tkeep {α : Type} (p : Nat → α → Bool) : Table α → Table α
  | [] => []
  | (k, a) :: t => if p k a then (k, a) :: tkeep p t else tkeep p t

/-- Change what a key holds, if it holds something. -/
def tupd {α : Type} (t : Table α) (k : Nat) (f : α → α) : Table α :=
  tmap (fun j a => if j = k then f a else a) t

/-- Put a list of keyed things into a table, one after another. -/
def tputAll {α : Type} (t : Table α) (l : List (Nat × α)) : Table α :=
  l.foldl (fun u ka => tput u ka.1 ka.2) t

/-! ### Updates of one block of State -/

/-- Replace `pending`. -/
def State.setPending (s : State) (x : List Instr) : State := { s with pending := x }
/-- Replace `powered`. -/
def State.setPowered (s : State) (x : Bool) : State := { s with powered := x }
/-- Replace `condition`. -/
def State.setCondition (s : State) (x : Condition) : State := { s with condition := x }
/-- Replace `timebase`. -/
def State.setTimebase (s : State) (x : Nat) : State := { s with timebase := x }
/-- Replace `freeCount`. -/
def State.setFreeCount (s : State) (x : Nat) : State := { s with freeCount := x }
/-- Replace `calsw`. -/
def State.setCalsw (s : State) (x : SwitchPos) : State := { s with calsw := x }
/-- Replace `store`. -/
def State.setStore (s : State) (x : Store) : State := { s with store := x }
/-- Replace `settings`. -/
def State.setSettings (s : State) (x : Settings) : State := { s with settings := x }
/-- Replace `wsu`. -/
def State.setWsu (s : State) (x : Wsu) : State := { s with wsu := x }
/-- Replace `lcu`. -/
def State.setLcu (s : State) (x : Lcu) : State := { s with lcu := x }
/-- Replace `axt`. -/
def State.setAxt (s : State) (x : Axt) : State := { s with axt := x }
/-- Replace `meu`. -/
def State.setMeu (s : State) (x : Meu) : State := { s with meu := x }
/-- Replace `zcl`. -/
def State.setZcl (s : State) (x : Zcl) : State := { s with zcl := x }
/-- Replace `seg`. -/
def State.setSeg (s : State) (x : Seg) : State := { s with seg := x }
/-- Replace `ptb`. -/
def State.setPtb (s : State) (x : Ptb) : State := { s with ptb := x }
/-- Replace `wrg`. -/
def State.setWrg (s : State) (x : Wrg) : State := { s with wrg := x }
/-- Replace `cal`. -/
def State.setCal (s : State) (x : Cal) : State := { s with cal := x }
/-- Replace `stc`. -/
def State.setStc (s : State) (x : Stc) : State := { s with stc := x }
/-- Replace `fau`. -/
def State.setFau (s : State) (x : Fau) : State := { s with fau := x }
/-- Replace `slk`. -/
def State.setSlk (s : State) (x : Slk) : State := { s with slk := x }

/-! ### Time (00, section 4.2; notes/assumptions/1.md) -/

/-- The timebase moves to `t` when it has not passed it; it is 48 bits wide. -/
def State.advance (s : State) (t : Nat) : State := s.setTimebase (max s.timebase (t % timebaseRange))

/-- Draw a free value's number (notes/assumptions/13.md). -/
def State.drawFree (s : State) : State := s.setFreeCount (s.freeCount + 1)

/-- A command's effect on a powered part; a part without power does nothing (notes/assumptions/6.md). -/
def State.ifPowered (s : State) (f : State → State) : State := if s.powered then f s else s

/-- The number of the open passage, if there is one (R26). -/
def State.openNumber (s : State) : Option Nat := s.axt.passage.map (·.number)

/-- Is a passage open (R26). -/
def State.isOpen (s : State) : Bool := s.axt.passage.isSome

/-- The direction of the open passage; UP stands where none is open, and no rule asks then. -/
def State.direction (s : State) : Direction :=
  match s.axt.passage with
  | some q => q.direction
  | none => .up

/-- Start-up is finished (R199). -/
def State.started (s : State) : Bool := decide (s.condition ≠ .starting)

/-! ### Attention (R184, R185) -/

/-- The line level that a set and a mask give (R185). -/
def attnLevel (set mask : Byte) : Bool := decide (set &&& mask ≠ 0)

/-- Evaluate the ATTN line (R185). -/
def evalAttn (s : State) : State :=
  s.setFau { s.fau with attn := attnLevel s.fau.attention s.settings.attentionMask }

/-- Raise an attention bit, and evaluate the line at once (R184). -/
def raiseAtt (b : AttBit) (s : State) : State :=
  evalAttn (s.setFau { s.fau with attention := s.fau.attention ||| attSet b })

/-! ### Fault occurrences (R179, R180) -/

/-- The greater of an optional severity and a severity (R179, step 2). -/
def worse (w : Option Severity) (v : Severity) : Severity :=
  match w with
  | none => v
  | some u => if severityNum u < severityNum v then v else u

/-- Steps 1 and 2 of taking an occurrence: the count of its kind and the worst severity (R179). -/
def countFault (f : Fau) (o : FaultOcc) : Fau :=
  { f with counts := updateAt (satSucc 255) (faultNum o.kind - 1) f.counts, worst := some (worse f.worst (faultSeverity o.kind)) }

/-- Take an occurrence whole (R179). -/
def takeFault (o : FaultOcc) (s : State) : State :=
  let f := countFault s.fau o
  if isMasked s.settings.faultMask o.kind then s.setFau f
  else raiseAtt .fault (s.setFau { f with capture := match f.capture with | none => some o | some c => some c })

/-- Report an occurrence: held until start-up is finished, else taken (R180). -/
def reportFault (o : FaultOcc) (s : State) : State :=
  if s.started then takeFault o s else s.setFau { s.fau with held := s.fau.held ++ [o] }

/-- An occurrence of a kind at a time, carrying the open passage if there is one (R178). -/
def State.occNow (s : State) (k : FaultKind) (t : Nat) (u : Option FaultUnit) (d : Option FaultDetail) : FaultOcc :=
  ⟨k, t, s.openNumber, u, d⟩

/-! ### The wagon trigger (R187 to R189) -/

/-- WAGONS is raised and the trigger counter returns to 0 (R187 step 3, R188, R189). -/
def fireTrigger (s : State) : State := raiseAtt .wagons (s.setFau { s.fau with trigger := 0 })

/-- A completion reaches the trigger (R187). -/
def countCompletion (t : Nat) (s : State) : State :=
  let s := s.setFau { s.fau with lastCompletion := some t, trigger := s.fau.trigger + 1 }
  if s.fau.trigger = s.settings.triggerCount then fireTrigger s else s

/-- The PTB reports a completion (R138): HOLD for a held record, then the trigger. -/
def reportCompletion (t : Nat) (hold : Bool) (s : State) : State :=
  countCompletion t (if hold then raiseAtt .hold s else s)

/-- The trigger's idle expiry, absent while the counter is 0 (R188). -/
def State.idleExpiry (s : State) : Option Nat :=
  if s.fau.trigger = 0 then none else s.fau.lastCompletion.map (· + s.settings.triggerIdle * 20)

end Sys2Proof.Machine
end

