-- ==== Sys2Proof/Machine/Axles.lean ====
section
/-! DEFINITION. What an axle entry gives: the combination of its two platform measurements (R72 to R77), its
qualifier set (R72) and its line in a wagon record (R134). -/

namespace Sys2Proof.Machine

/-- The corrected rail values of a measurement that takes part in the combination: VALID only (R72). -/
def weighing (m : Option Measurement) : Option (Int × Int) :=
  match m with
  | some m => if m.status = .valid then m.rails else none
  | none => none

/-- The platform speed of a measurement, if there is one. -/
def measSpeed (m : Option Measurement) : Option Nat := m.bind (·.speed)

/-- The sample count of a measurement, 0 when there is none. -/
def measCount (m : Option Measurement) : Nat := (m.bind (·.n)).getD 0

/-- An axle's loads from one measurement taken alone (R74, R75), with its combination qualifier. -/
def Axle.takeAlone (a : Axle) (rails : Int × Int) (speed : Option Nat) (q : Qual) : Axle :=
  { a with load := some (roundDiv (rails.1 + rails.2) 1000), rail1 := some (roundDiv rails.1 1000),
           rail2 := some (roundDiv rails.2 1000), speed := speed, comb := some q }

/-- The agreement tolerance in grams (R73). -/
def tolerance (c : CalSet) (wf ws : Int) : Int := max (c.tabs * 1000) ((wf + ws) * c.trel / 2000000)

/-- The axle speed when both platforms agree (R76). -/
def meanSpeed (f s : Option Nat) : Option Nat :=
  match f, s with
  | some x, some y => some (roundDiv ((x : Int) + y) 2).toNat
  | _, _ => none

/-- Combine an axle's two measurements (R72 to R76). -/
def Axle.combine (c : CalSet) (a : Axle) : Axle :=
  match weighing a.meas.first, weighing a.meas.second with
  | some f, some s =>
    let wf := f.1 + f.2
    let ws := s.1 + s.2
    if ((wf - ws).natAbs : Int) ≤ tolerance c wf ws then
      { a with load := some (roundDiv (wf + ws) 2000), rail1 := some (roundDiv (f.1 + s.1) 2000),
               rail2 := some (roundDiv (f.2 + s.2) 2000),
               speed := meanSpeed (measSpeed a.meas.first) (measSpeed a.meas.second), comb := none }
    else if measCount a.meas.first < measCount a.meas.second then
      a.takeAlone s (measSpeed a.meas.second) .disagree
    else a.takeAlone f (measSpeed a.meas.first) .disagree
  | some f, none => a.takeAlone f (measSpeed a.meas.first) .single
  | none, some s => a.takeAlone s (measSpeed a.meas.second) .single
  | none, none =>
    { a with load := none, rail1 := none, rail2 := none,
             speed := (measSpeed a.meas.first).orElse fun _ => measSpeed a.meas.second, comb := some .notWeighed }

/-- What unsettlement removes (R77). -/
def Axle.uncombine (a : Axle) : Axle :=
  { a with settled := false, load := none, rail1 := none, rail2 := none, speed := none, comb := none }

/-- The qualifiers of a measurement, none when there is none. -/
def measQuals (m : Option Measurement) : QualSet :=
  match m with
  | some m => m.quals
  | none => 0

/-- The combination qualifier as a set. -/
def combQuals (q : Option Qual) : QualSet :=
  match q with
  | some q => qualSet q
  | none => 0

/-- The qualifier set of an axle (R72). -/
def Axle.quals (a : Axle) : QualSet :=
  measQuals a.meas.first ||| measQuals a.meas.second ||| qualWhen .reweighed a.reweighed |||
    (if a.settled then combQuals a.comb else 0) ||| qualWhen .unclassified a.unclassified

/-- An axle's line in a record's axle list (R134). -/
def Axle.line (a : Axle) : AxleLine :=
  if a.settled then ⟨a.load, a.rail1, a.rail2, a.speed, a.quals⟩ else ⟨none, none, none, none, a.quals⟩

/-- The axle entries of a vehicle, in index order (R108). -/
def axlesOf (train : List Axle) (first count : Nat) : List Axle := (train.drop first).take count

end Sys2Proof.Machine
end

