-- ==== Sys2Proof/Machine/Permit.lean ====
section
/-! DEFINITION. PERMIT and the water state (R152, R153). -/

namespace Sys2Proof.Machine

/-- The used slots (R152). -/
def State.usedSlots (s : State) : Nat := s.ptb.slots.length

/-- The new water state from the old, the used slots and the two settings (R153). -/
def waterNext (old : Water) (used high low : Nat) : Water :=
  match old with
  | .normal => if high ≤ used then .high else .normal
  | .high => if used ≤ low then .normal else .high

/-- The conditions of PERMIT (R152). -/
def permitHolds (s : State) : Bool :=
  decide (s.condition = .ready) && decide (s.cal.state = .valid) &&
    (decide (s.lcu.platforms.a.service = .inService) || decide (s.lcu.platforms.b.service = .inService)) &&
    decide (s.ptb.directory.length < maxDirectory) && decide (s.ptb.water = .normal)

/-- Evaluate the water state, then PERMIT; a change raises attention bit PERMIT (R152, R153). -/
def evalPermit (s : State) : State :=
  let s := s.setPtb { s.ptb with water := waterNext s.ptb.water s.usedSlots s.settings.highWater s.settings.lowWater }
  let p : Permit := if permitHolds s then .asserted else .withdrawn
  if p = s.ptb.permit then s else raiseAtt .permit (s.setPtb { s.ptb with permit := p })

end Sys2Proof.Machine
end

