-- ==== Sys2Proof/Machine/Register.lean ====
section
/-! DEFINITION. The Wagon Register: ranges of its fields, lookup, passage updates, and the changes its requests
make (R154 to R164, R174). -/

namespace Sys2Proof.Machine

/-! ### Ranges (R154) -/

/-- A fleet number. -/
def fleetOk (f : Nat) : Bool := decide (1 ≤ f ∧ f ≤ maxFleet)

/-- A class code (R105). -/
def codeOk (c : Nat) : Bool := decide (1 ≤ c ∧ c ≤ 24)

/-- A tare. -/
def tareOk (t : Nat) : Bool := decide (t ≤ 200000)

/-- A maximum gross (also that of a class record, R105). -/
def grossOk (g : Nat) : Bool := decide (1000 ≤ g ∧ g ≤ 400000)

/-- A last gross. -/
def lastGrossOk (g : Int) : Bool := decide (-999999 ≤ g ∧ g ≤ 999999)

/-- A passage number (R26). -/
def passageOk (n : Nat) : Bool := decide (1 ≤ n ∧ n ≤ maxPassage)

/-- A weigh count. -/
def weighCountOk (n : Nat) : Bool := decide (n ≤ 65535)

/-- An optional value that is absent or in range. -/
def optionOk {α : Type} (p : α → Bool) : Option α → Bool
  | none => true
  | some v => p v

/-- A record within the ranges of R154. -/
def RegFields.ok (r : RegFields) : Bool :=
  fleetOk r.fleet && optionOk codeOk r.cls && optionOk tareOk r.tare && optionOk grossOk r.maxGross &&
    !namesPositionEight r.flags && optionOk lastGrossOk r.lastGross && optionOk passageOk r.lastPassage &&
    weighCountOk r.weighCount

/-! ### Lookup (R162) -/

/-- The register record of a fleet number. -/
def State.lookup (s : State) (fleet : Nat) : Option RegFields := (tget s.wrg.records fleet).map (·.fields)

/-- The register record of an optional fleet number. -/
def State.lookupOpt (s : State) (fleet : Option Nat) : Option RegFields := fleet.bind s.lookup

/-! ### Changes -/

/-- Replace the register records. -/
def State.setRecords (s : State) (x : Table RegRec) : State := s.setWrg { s.wrg with records := x }

/-- Replace the retirement list. -/
def State.setRetired (s : State) (x : Table Retired) : State := s.setWrg { s.wrg with retired := x }

/-- A change of a record's fields: dirty set, commit cleared (R174). -/
def RegRec.change (f : RegFields → RegFields) (r : RegRec) : RegRec :=
  { r with fields := f r.fields, dirty := true, commit := false }

/-- Tare learning (R164). -/
def learnTare (reported : Int) (certified : Bool) (r : RegFields) : RegFields :=
  if hasFlag r.flags .learnTare && certified && decide (0 ≤ reported ∧ reported ≤ 200000) then
    { r with tare := some reported.toNat, flags := r.flags &&& ~~~(flagSet .learnTare) }
  else r

/-- The passage update of a register record, steps 1 to 5 (R163). The last gross is the reported gross as it is, below
R154's range too: R69 sets no floor on a negative load, and the two rules disagree there (notes/assumptions/34.md). -/
def passageUpdate (reported : Int) (passage : Option Nat) (v : Verdicts) (certified : Bool) (r : RegFields) : RegFields :=
  learnTare reported certified
    { r with weighCount := satSucc 65535 r.weighCount, lastGross := some reported, lastPassage := passage,
             flags := if v.overload || v.axleOverload then r.flags ||| flagSet .overloadSeen else r.flags }

/-- The WRG applies a passage update to the record of a fleet number (R163). -/
def applyUpdate (fleet : Nat) (reported : Int) (passage : Option Nat) (v : Verdicts) (certified : Bool) (s : State) : State :=
  s.setRecords (tupd s.wrg.records fleet (RegRec.change (passageUpdate reported passage v certified)))

/-! ### Places (R154, R156) -/

/-- Is a place held by a record or by an entry of the retirement list. -/
def placeUsed (w : Wrg) (k : Nat) : Bool :=
  w.records.any (fun r => decide (r.2.place = k)) || (tget w.retired k).isSome

/-- The lowest free place. -/
def freePlace (w : Wrg) : Option Nat := lowestFree (placeUsed w) maxRegister 0

/-- The place at which the retirement list holds a fleet number. -/
def retiredPlace (w : Wrg) (fleet : Nat) : Option Nat := (w.retired.find? (fun r => decide (r.2.fleet = fleet))).map (·.1)

/-- A new record of REG_ADD (R156). -/
def RegRec.new (fleet : Nat) (cls tare maxGross : Option Nat) (flags : Byte) (place : Nat) : RegRec :=
  ⟨⟨fleet, cls, tare, maxGross, flags, none, none, 0⟩, place, true, false⟩

/-- Remove a record and list its place (R160). -/
def retireRegister (fleet : Nat) (r : RegRec) (s : State) : State :=
  s.setWrg { records := tdel s.wrg.records fleet, retired := tput s.wrg.retired r.place ⟨fleet, false⟩ }

/-! ### REG_CHANGE (R158) -/

/-- Does a field mask name field `k` of R154: bit k − 1. -/
def maskNames (m : Byte) (k : Nat) : Bool := m.getLsbD (k - 1)

/-- Is the value given for field `k` acceptable (R158). -/
def regValueOk (v : RegValues) : Nat → Bool
  | 2 => optionOk codeOk v.cls
  | 3 => optionOk tareOk v.tare
  | 4 => optionOk grossOk v.maxGross
  | 5 => match v.flags with
    | none => false
    | some m => !namesPositionEight m
  | 6 => optionOk lastGrossOk v.lastGross
  | 7 => optionOk passageOk v.lastPassage
  | 8 => match v.weighCount with
    | none => false
    | some n => weighCountOk n
  | _ => true

/-- The first named field, in ascending index, whose value is not acceptable (R158). -/
def failingField (m : Byte) (v : RegValues) : Option Nat :=
  [2, 3, 4, 5, 6, 7, 8].find? fun k => maskNames m k && !regValueOk v k

/-- Write every field named, leaving the others (R158). -/
def RegFields.write (m : Byte) (v : RegValues) (r : RegFields) : RegFields where
  fleet := r.fleet
  cls := if maskNames m 2 then v.cls else r.cls
  tare := if maskNames m 3 then v.tare else r.tare
  maxGross := if maskNames m 4 then v.maxGross else r.maxGross
  flags := if maskNames m 5 then v.flags.getD r.flags else r.flags
  lastGross := if maskNames m 6 then v.lastGross else r.lastGross
  lastPassage := if maskNames m 7 then v.lastPassage else r.lastPassage
  weighCount := if maskNames m 8 then v.weighCount.getD r.weighCount else r.weighCount

/-- A change of the flags: the marks stand when the flags do not differ (R159). -/
def RegRec.setFlags (new : Byte) (r : RegRec) : RegRec :=
  if new = r.fields.flags then r else r.change fun f => { f with flags := new }

/-- The record of the smallest fleet number above `f` (R161). -/
def nextRecord (t : Table RegRec) (f : Nat) : Option RegRec := (t.find? (fun r => decide (f < r.1))).map (·.2)

/-- The number of records whose dirty mark is set (R157). -/
def dirtyCount (t : Table RegRec) : Nat := (t.filter (fun r => r.2.dirty)).length

end Sys2Proof.Machine
end

