-- ==== Sys2Proof/Machine/Records.lean ====
section
/-! DEFINITION. The Passage Table: slots, binding, completion, dissolution, late identity, finalisation and the
passage directory (R124 to R150). -/

namespace Sys2Proof.Machine

/-! ### Slots and the directory -/

/-- Replace the slots. -/
def State.setSlots (s : State) (x : Table Wagon) : State := s.setPtb { s.ptb with slots := x }

/-- Replace the passage directory. -/
def State.setDirectory (s : State) (x : List DirEntry) : State := s.setPtb { s.ptb with directory := x }

/-- Change the entry of the open passage. -/
def updOpenEntry (f : DirEntry → DirEntry) (s : State) : State :=
  s.setDirectory (s.ptb.directory.map fun e => if e.close.isNone then f e else e)

/-- The entry of the open passage. -/
def State.openEntry (s : State) : Option DirEntry := s.ptb.directory.find? (·.close.isNone)

/-- The FREE slot of lowest number (R127, R130). -/
def State.freeSlot (s : State) : Option Nat := lowestFree (fun k => (tget s.ptb.slots k).isSome) maxSlots 0

/-- The record of a passage, or of the pending set, that stands at a position (R126). -/
def State.recordAt (s : State) (passage : Option Nat) (position : Nat) : Option (Nat × Wagon) :=
  s.ptb.slots.find? fun r => decide (r.2.passage = passage) && decide (r.2.position = position)

/-- Does a record of a set, other than that of one slot, hold a fleet number (R127, R142). -/
def State.fleetHeld (s : State) (passage : Option Nat) (fleet : Nat) (except : Option Nat) : Bool :=
  s.ptb.slots.any fun r =>
    decide (r.2.passage = passage) && decide (r.2.fleet = some fleet) && decide (some r.1 ≠ except)

/-- The records of a passage in ascending position (R144, R145). -/
def State.recordsOf (s : State) (passage : Option Nat) : List (Nat × Wagon) :=
  sortBy (fun r => r.2.position) (s.ptb.slots.filter fun r => decide (r.2.passage = passage))

/-- The class record of an optional code, when it is in the class table. -/
def State.classOf (s : State) (code : Option Nat) : Option ClassRec := code.bind (tget s.seg.classes)

/-! ### Values, verdicts and qualifiers -/

/-- No values: before completion, after reopening, at finalisation of an unsettled record. -/
def Values.none : Values := ⟨.none, .none, .none, .none, .none, .none, .none⟩

/-- An empty snapshot. -/
def Snapshot.none : Snapshot := ⟨.none, .none, .none, .none⟩

/-- floor(|x − y| × 1000 / (x + y)), absent when x + y is not above 0 (R135). -/
def imbalance (x y : Int) : Option Nat :=
  if 0 < x + y then some (((x - y).natAbs * 1000 : Int) / (x + y)).toNat else none

/-- The exact gross of an axle list (R135). -/
def exactGross (l : List AxleLine) : Option Int :=
  if l.any (fun a => hasQual a.quals .overcap) then none else sumOption (l.map (·.load))

/-- The reported gross: the nearest multiple of e, halves away (R135). -/
def reportedGross (e : Nat) (exact : Option Int) : Option Int := exact.map fun g => roundDiv g e * e

/-- The net: the reported gross less the snapshot tare (R135). -/
def netOf (reported : Option Int) (tare : Option Nat) : Option Int :=
  match reported, tare with
  | some g, some t => some (g - t)
  | _, _ => none

/-- A value that is absent with the exact gross (R135). -/
def withGross {α : Type} (exact : Option Int) (x : Option α) : Option α :=
  match exact with
  | some _ => x
  | none => none

/-- The imbalance of two optional sums. -/
def imbalanceOpt (x y : Option Int) : Option Nat :=
  match x, y with
  | some x, some y => imbalance x y
  | _, _ => none

/-- The values of a record from its axle list, the scale interval and its tare (R135). -/
def valuesOf (e : Nat) (tare : Option Nat) (l : List AxleLine) : Values :=
  let exact := exactGross l
  let reported := reportedGross e exact
  let p1 := withGross exact (sumOption (l.map (·.rail1)))
  let p2 := withGross exact (sumOption (l.map (·.rail2)))
  let half := l.length / 2
  let front := sumOption ((l.take half).map (·.load))
  let back := sumOption ((l.drop (l.length - half)).map (·.load))
  { exact := exact, reported := reported, p1 := p1, p2 := p2, side := imbalanceOpt p1 p2,
    endwise := withGross exact (imbalanceOpt front back), net := netOf reported tare }

/-- Is an optional integer above an optional natural number, both present. -/
def aboveOpt (x : Option Int) (m : Option Nat) : Bool :=
  match x, m with
  | some x, some m => decide ((m : Int) < x)
  | _, _ => false

/-- Is an optional value above a limit. -/
def overLimit (x : Option Nat) (limit : Nat) : Bool :=
  match x with
  | some x => decide (limit < x)
  | none => false

/-- Is a net present and below 0. -/
def negative (x : Option Int) : Bool :=
  match x with
  | some x => decide (x < 0)
  | none => false

/-- The limit verdicts of a record, given afresh; a TRACTION record carries no verdict (R137). -/
def limitVerdicts (set : Settings) (w : Wagon) : Verdicts :=
  if w.kind = some .wagon then
    { w.verdicts with
      overload := aboveOpt w.values.reported w.snapshot.maxGross
      axleOverload := w.axles.any fun a => aboveOpt a.load w.snapshot.maxAxle
      imbalanceSide := overLimit w.values.side set.sideLimit
      imbalanceEnd := overLimit w.values.endwise set.endLimit
      netNegative := negative w.values.net }
  else Verdicts.none

/-- The qualifiers of a wagon (R136). -/
def Wagon.quals (w : Wagon) : QualSet := unionQuals (w.axles.map (·.quals)) ||| w.own.quals

/-- Decide the CERTIFIED mark of a COMPLETE or FINAL record; any other record does not carry it (R136). -/
def Wagon.certify (w : Wagon) : Wagon :=
  { w with certified :=
      (decide (w.state = .complete) || decide (w.state = .final)) && decide (w.quals &&& disqualifying = 0) }

/-- The scale interval in use. -/
def State.interval (s : State) : Nat := s.cal.working.interval.toNat

/-- Recompute every value and limit verdict of a record from its axle list (R135, R137, R140). -/
def recompute (s : State) (w : Wagon) : Wagon :=
  let w := { w with values := valuesOf s.interval w.snapshot.tare w.axles }
  ({ w with verdicts := limitVerdicts s.settings w }).certify

/-- Take the values, limit verdicts, CERTIFIED mark and completion time from a record (R139). -/
def Wagon.clearValues (w : Wagon) : Wagon :=
  { w with values := Values.none, verdicts := w.verdicts.identityOnly, certified := false, completion := none }

/-! ### Snapshot and identity (R131, R132) -/

/-- The snapshot of a record (R131). -/
def snapshotOf (s : State) (w : Wagon) : Snapshot :=
  let reg := s.lookupOpt w.fleet
  let cls := s.classOf w.cls
  { cls := reg.bind (·.cls), tare := reg.bind (·.tare),
    maxGross := (reg.bind (·.maxGross)).orElse fun _ => cls.map (·.maxGross),
    maxAxle := cls.map (·.maxAxle) }

/-- Does the snapshot's register class differ from the record's class (R132). -/
def classDiffers (w : Wagon) : Bool :=
  match w.snapshot.cls with
  | none => false
  | some c => decide (w.cls ≠ some c)

/-- Identity qualifiers and verdicts after a snapshot (R132). -/
def identify (s : State) (w : Wagon) : Wagon :=
  let reg := s.lookupOpt w.fleet
  let wagon := decide (w.kind = some .wagon)
  { w with
    own := { w.own with unknownWagon := (if w.fleet.isSome then reg.isNone else w.own.unknownWagon)
                        noIdentity := w.own.noIdentity || w.fleet.isNone }
    verdicts := { w.verdicts with
      hold := wagon && (match reg with | some r => hasFlag r.flags .hold | none => false)
      classMismatch := wagon && (w.segMismatch || classDiffers w) } }

/-- Register lookup, snapshot and identity (R131, R132). -/
def lookUp (s : State) (w : Wagon) : Wagon := identify s { w with snapshot := snapshotOf s w }

/-! ### Completion, reopening, notices (R134 to R140) -/

/-- Put a record into its slot. -/
def putSlot (k : Nat) (w : Wagon) (s : State) : State := s.setSlots (tput s.ptb.slots k w)

/-- Complete a record at a time, and report it (R135, R138). -/
def complete (t : Nat) (k : Nat) (w : Wagon) (s : State) : State :=
  let w := recompute s { w with state := .complete, completion := some t }
  reportCompletion t w.verdicts.hold (putSlot k w s)

/-- The axle entries of a record's vehicle. -/
def State.axlesOfRecord (s : State) (w : Wagon) : List Axle :=
  axlesOf s.axt.train (w.firstAxle.getD 0) w.axles.length

/-- A fill of an axle's line, then completion, reopening or recomputation as the record's state asks (R134). -/
def noticeRecord (t : Nat) (i : Nat) (a : Axle) (k : Nat) (w : Wagon) (s : State) : State :=
  let w := { w with axles := updateAt (fun _ => a.line) (i - w.firstAxle.getD 0) w.axles }
  let settled := (s.axlesOfRecord w).all (·.settled)
  match w.state with
  | .weighing => if settled then complete t k w s else putSlot k w s
  | .complete =>
    if a.settled then putSlot k (recompute s w) s
    else putSlot k { w.clearValues with state := .weighing } s
  | _ => s

/-- The AXT or the MEU tells the PTB of an axle (R134). -/
def noticeAxle (t : Nat) (i : Nat) (s : State) : State :=
  match s.axt.train[i]? with
  | none => s
  | some a =>
    match a.vehicle.bind (s.recordAt s.openNumber) with
    | none => s
    | some (k, w) => noticeRecord t i a k w s

/-! ### Binding (R130, R133) -/

/-- A record before it holds anything but its place in the table. -/
def Wagon.blank (origin : Origin) (passage : Option Nat) (position : Nat) : Wagon where
  origin := origin
  passage := passage
  position := position
  state := .expected
  kind := none
  fleet := none
  expectedCls := none
  cls := none
  firstAxle := none
  axles := []
  values := Values.none
  snapshot := Snapshot.none
  own := OwnQuals.none
  verdicts := Verdicts.none
  segMismatch := false
  certified := false
  completion := none
  calCounter := none
  applied := none

/-- A new record of the open passage: its counter at open, and UNVERIFIED when the passage is marked (R127, R130). -/
def State.newOpenRecord (s : State) (origin : Origin) (position : Nat) : Wagon :=
  let w := Wagon.blank origin s.openNumber position
  match s.openEntry with
  | none => w
  | some e => { w with calCounter := some e.calCounter, own := { w.own with unverified := e.unverified } }

/-- A record takes a vehicle (R130). -/
def takeVehicle (s : State) (v : Vehicle) (w : Wagon) : Wagon :=
  lookUp s { w with
    kind := some v.kind, cls := v.cls, firstAxle := some v.first, segMismatch := v.mismatch, certified := false,
    axles := (axlesOf s.axt.train v.first v.count).map Axle.line }

/-- Bind a record in a slot to a vehicle (R130). -/
def bindRecord (t : Nat) (k : Nat) (v : Vehicle) (w : Wagon) (s : State) : State :=
  let w := takeVehicle s v w
  let s := updOpenEntry (fun e => { e with recorded := e.recorded + 1 }) s
  if (axlesOf s.axt.train v.first v.count).all (·.settled) then complete t k w s
  else putSlot k { w with state := .weighing } s

/-- One more vehicle of kind TRACTION, or one fewer (R147). -/
def countTraction (f : Nat → Nat) (v : Vehicle) (s : State) : State :=
  if v.kind = .traction then updOpenEntry (fun e => { e with traction := f e.traction }) s else s

/-- A vehicle for which there is no slot (R133). -/
def bindUnrecorded (t : Nat) (p : Nat) (s : State) : State :=
  reportFault (s.occNow .tableFull t (some .slots) (some (.number p)))
    (updOpenEntry (fun e => { e with unrecorded := e.unrecorded + 1 }) s)

/-- The PTB binds the vehicle at a position (R130, R133). -/
def bindVehicle (t : Nat) (p : Nat) (v : Vehicle) (s : State) : State :=
  let s := countTraction (· + 1) v s
  match s.recordAt s.openNumber p with
  | some (k, w) => bindRecord t k v w s
  | none =>
    match s.freeSlot with
    | some k =>
      let w := s.newOpenRecord .table p
      evalPermit (bindRecord t k v { w with own := { w.own with noIdentity := true } } s)
    | none => bindUnrecorded t p s

/-! ### Dissolution (R141) -/

/-- The kind an expectation holds: that of its expected class when that is in the class table (R125). -/
def State.expectedKind (s : State) (code : Option Nat) : Option Kind := (s.classOf code).map (·.kind)

/-- A record of origin EXPECTATION returns to EXPECTED (R141). -/
def toExpected (s : State) (w : Wagon) : Wagon :=
  { Wagon.blank w.origin w.passage w.position with
    kind := s.expectedKind w.expectedCls, fleet := w.fleet, expectedCls := w.expectedCls, calCounter := w.calCounter
    own := { OwnQuals.none with unverified := w.own.unverified } }

/-- The PTB undoes the binding of the vehicle at a position (R141). -/
def dissolveVehicle (p : Nat) (v : Vehicle) (s : State) : State :=
  let s := countTraction (· - 1) v s
  match s.recordAt s.openNumber p with
  | none => updOpenEntry (fun e => { e with unrecorded := e.unrecorded - 1 }) s
  | some (k, w) =>
    let s := updOpenEntry (fun e => { e with recorded := e.recorded - 1 }) s
    match w.origin with
    | .expectation => putSlot k (toExpected s w) s
    | .table => evalPermit (s.setSlots (tdel s.ptb.slots k))

/-! ### Late identity (R142, R143) -/

/-- The record a reference names: its slot and the record (R197). -/
def State.refRecord (s : State) (r : RecordRef) : Option (Nat × Wagon) :=
  if r.selector = 0 then s.recordAt (if r.passage = 0 then none else some r.passage) r.index
  else (tget s.ptb.slots r.index).map fun w => (r.index, w)

/-- A position in range (R125). -/
def positionOk (p : Nat) : Bool := decide (1 ≤ p ∧ p ≤ maxPositions)

/-- The selector is one of the two, and the position or slot is in range (R142, R197). -/
def refOk (r : RecordRef) : Bool :=
  (decide (r.selector = 0) && positionOk r.index) || (decide (r.selector = 1) && decide (r.index < maxSlots))

/-- Steps 1 and 2 of an accepted ASSIGN (R143). -/
def assignIdentity (s : State) (fleet : Nat) (w : Wagon) : Wagon :=
  lookUp s { w with fleet := some fleet, own := { w.own with noIdentity := false, lateBound := true } }

/-- Step 3 of an accepted ASSIGN (R143). -/
def assignRecompute (s : State) (w : Wagon) : Wagon :=
  if w.state = .complete ∨ w.state = .final then
    let w := { w with values := { w.values with net := netOf w.values.reported w.snapshot.tare } }
    ({ w with verdicts := limitVerdicts s.settings w }).certify
  else w

/-- A passage's totals after an ASSIGN of one of its FINAL records (R146). -/
def adjustTotals (old new : Wagon) (t : Totals) : Totals :=
  { t with net := if new.kind = some .wagon then t.net + new.values.net.getD 0 - old.values.net.getD 0 else t.net
           quals := t.quals ||| new.quals }

/-- Change the totals of a CLOSED passage. -/
def updTotals (passage : Option Nat) (f : Totals → Totals) (s : State) : State :=
  s.setDirectory (s.ptb.directory.map fun e =>
    if some e.number = passage ∧ e.close.isSome then { e with totals := e.totals.map f } else e)

/-- May a record be handed to the WRG: weighed, of kind WAGON, and its fleet number in the register (R145). -/
def handable (s : State) (w : Wagon) : Bool :=
  w.values.reported.isSome && decide (w.kind = some .wagon) && (s.lookupOpt w.fleet).isSome

/-- Hand a record to the WRG, and note the fleet number applied (R145, R163). -/
def handOn (k : Nat) (w : Wagon) (s : State) : State :=
  putSlot k { w with applied := w.fleet }
    (applyUpdate (w.fleet.getD 0) (w.values.reported.getD 0) w.passage w.verdicts w.certified s)

/-- An accepted ASSIGN (R143); that only the last applied number is tested is the model's choice between R143 and R145
(notes/assumptions/47.md). -/
def assignRecord (fleet : Nat) (k : Nat) (old : Wagon) (s : State) : State :=
  let w := assignRecompute s (assignIdentity s fleet old)
  let s := putSlot k w s
  if w.state = .final then
    let s := updTotals w.passage (adjustTotals old w) s
    if handable s w && decide (w.fleet ≠ w.applied) then handOn k w s else s
  else s

/-! ### Opening of a passage (R129, R148) -/

/-- The CLOSED entry of earliest open time. -/
def oldestClosed (l : List DirEntry) : Option DirEntry :=
  (sortBy (·.openTime) (l.filter (·.close.isSome))).head?

/-- Free every record of a passage. -/
def freeRecords (number : Nat) (s : State) : State :=
  s.setSlots (tkeep (fun _ w => decide (w.passage ≠ some number)) s.ptb.slots)

/-- Step 2 of R148: with no entry FREE, the oldest CLOSED passage is dropped: its entry and its slots are freed, with the
evaluation of PERMIT that a freeing brings about (R152). -/
def dropOldest (number : Nat) (s : State) : State :=
  if s.ptb.directory.length < maxDirectory then s
  else
    match oldestClosed s.ptb.directory with
    | none => s
    | some e =>
      let s := evalPermit (freeRecords e.number (s.setDirectory (s.ptb.directory.filter fun d => decide (d ≠ e))))
      reportFault ⟨.passageDropped, s.timebase, some number, none, some (.number e.number)⟩ s

/-- A directory entry at the opening (R148, step 3). -/
def DirEntry.start (number : Nat) (d : Direction) (t : Nat) : DirEntry where
  number := number
  direction := d
  openTime := t
  close := none
  axleCount := 0
  vehicles := 0
  recorded := 0
  unrecorded := 0
  traction := 0
  phantom := 0
  abandoned := false
  unverified := false
  calCounter := 0
  totals := none

/-- The pending set binds to the new passage (R129). -/
def bindPending (number : Nat) (t : Table Wagon) : Table Wagon :=
  tmap (fun _ w => if w.passage = none then { w with passage := some number } else w) t

/-- Step 2 of the opening: the number, the directory entry and the pending set (R148). -/
def openTable (d : Direction) (t : Nat) (s : State) : State :=
  let number := numberAfter s.ptb.lastNumber 1
  let s := s.setPtb { s.ptb with lastNumber := number }
  let s := dropOldest number s
  let s := s.setDirectory (s.ptb.directory ++ [DirEntry.start number d t])
  evalPermit (s.setSlots (bindPending number s.ptb.slots))

/-- A record gains UNVERIFIED, and CERTIFIED is decided again (R84, R136). -/
def Wagon.unverify (w : Wagon) : Wagon := ({ w with own := { w.own with unverified := true } }).certify

/-- The open passage is marked UNVERIFIED: its entry and its records (R84). -/
def markUnverified (s : State) : State :=
  let s := updOpenEntry (fun e => { e with unverified := true }) s
  s.setSlots (tmap (fun _ w => if w.passage = s.openNumber then w.unverify else w) s.ptb.slots)

/-- The records of the open passage take its calibration counter (R129). -/
def takeCounter (counter : Nat) (s : State) : State :=
  let s := updOpenEntry (fun e => { e with calCounter := counter }) s
  s.setSlots (tmap (fun _ w => if w.passage = s.openNumber then { w with calCounter := some counter } else w) s.ptb.slots)

/-! ### Finalisation (R144 to R146) -/

/-- A record of a closing passage changes state (R144, step 1). -/
def finalise (w : Wagon) : Wagon :=
  match w.state with
  | .complete => ({ w with state := .final }).certify
  | .weighing =>
    ({ w.clearValues with state := .final, own := { w.own with incomplete := true } }).certify
  | .expected => { w with state := .missing }
  | _ => w

/-- The register updates of one record (R145). -/
def finalUpdate (k : Nat) (s : State) : State :=
  match tget s.ptb.slots k with
  | none => s
  | some w => if decide (w.state = .final) && handable s w then handOn k w s else s

/-- The vehicles of the passage, each with its position. -/
def positioned (l : List Vehicle) : List (Nat × Vehicle) := (List.range l.length).map (· + 1) |>.zip l

/-- The reported gross of an unrecorded vehicle, from the axle entries (R146). -/
def unrecordedGross (s : State) (v : Vehicle) : Option Int :=
  (valuesOf s.interval none ((axlesOf s.axt.train v.first v.count).map Axle.line)).reported

/-- The unrecorded vehicles of kind WAGON (R133, R146). -/
def unrecordedWagons (s : State) : List Vehicle :=
  ((positioned s.seg.vehicles).filter fun pv =>
    decide (pv.2.kind = .wagon) && (s.recordAt s.openNumber pv.1).isNone).map (·.2)

/-- The totals of the closing passage (R146). -/
def totalsOf (s : State) : Totals :=
  let final := (s.recordsOf s.openNumber).map (·.2) |>.filter fun w => decide (w.state = .final)
  let wagons := final.filter fun w => decide (w.kind = some .wagon)
  { gross := sumInt (wagons.map fun w => w.values.reported.getD 0) +
      sumInt ((unrecordedWagons s).map fun v => (unrecordedGross s v).getD 0)
    net := sumInt (wagons.map fun w => w.values.net.getD 0)
    quals := unionQuals (final.map Wagon.quals) }

/-- Step 4 of the close: the PTB finalises the passage (R144). -/
def finalisePassage (t : Nat) (cause : CloseCause) (s : State) : State :=
  let s := s.setSlots (tmap (fun _ w => if w.passage = s.openNumber then finalise w else w) s.ptb.slots)
  let s := (s.recordsOf s.openNumber).foldl (fun s r => finalUpdate r.1 s) s
  let totals := totalsOf s
  updOpenEntry (fun e => { e with close := some (t, cause), totals := some totals }) s

/-! ### Retirement (R149, R150) -/

/-- Free one slot, and evaluate PERMIT (R149). -/
def retireSlot (k : Nat) (s : State) : State := evalPermit (s.setSlots (tdel s.ptb.slots k))

/-- The number of records of a passage. -/
def recordCount (number : Nat) (s : State) : Nat :=
  (s.ptb.slots.filter fun r => decide (r.2.passage = some number)).length

/-- Retire a CLOSED passage: its records and its directory entry (R150). -/
def retireWhole (number : Nat) (s : State) : State :=
  let s := freeRecords number s
  evalPermit (s.setDirectory (s.ptb.directory.filter fun e => decide (e.number ≠ number)))

end Sys2Proof.Machine
end

