-- ==== Sys2Proof/Machine/Measurement.lean ====
section
/-! DEFINITION. The Measurement Engine: rail samples and the history, window entries, the making of a
measurement, deferrals, and poisoning (R52 to R71, R78, R79). -/

namespace Sys2Proof.Machine

/-! ### Updates -/

/-- Replace the MEU's state for one platform. -/
def State.setMeuAt (s : State) (p : Platform) (x : MeuPlatform) : State := s.setMeu (s.meu.set p x)

/-- Change the MEU's state for one platform. -/
def updMeu (p : Platform) (f : MeuPlatform → MeuPlatform) (s : State) : State := s.setMeuAt p (f (s.meu.get p))

/-- Change an axle entry. -/
def updAxle (i : Nat) (f : Axle → Axle) (s : State) : State :=
  s.setAxt { s.axt with train := updateAt f i s.axt.train }

/-- The length of a platform in the set in use (R1). -/
def platformLength (c : CalSet) : Platform → Nat
  | .a => c.lengthA.toNat
  | .b => c.lengthB.toNat

/-! ### Rail samples and the history (R53) -/

/-- The sample of a rail in grams (R53). -/
def railSample (raw zero gain : PerChannel Int) (cs : List (Fin 8)) : Int :=
  roundDiv (sumInt (cs.map fun c => (raw.get c - zero.get c) * gain.get c * 1000)) gainUnit

/-- A history with an instant appended, 8,192 at most (R53). -/
def appendInstant (h : List Instant) (x : Instant) : List Instant :=
  if h.length < maxHistory then h ++ [x] else h.tail ++ [x]

/-- An instant joins a platform's history; an instant at which it was OUT becomes the latest (R53). -/
def MeuPlatform.take (m : MeuPlatform) (x : Instant) : MeuPlatform :=
  { m with history := appendInstant m.history x
           latestOut := match x.rails with | none => some x.time | some _ => m.latestOut }

/-! ### Windows (R54) -/

/-- What a window gives: n, its instants, the timestamp of its last sample, and whether its start was clipped. -/
structure Window where
  n : Nat
  instants : List Instant
  last : Option Nat
  clipped : Bool
  deriving DecidableEq, Repr

/-- n = floor(end / 10) − ceil(start / 10) + 1, 0 when negative (R54). -/
def sampleCount (start stop : Int) : Nat := (stop / 10 - ceilDiv start 10 + 1).toNat

/-- The window from a start to an end over a history, with the two limits of R54. -/
def windowOf (h : List Instant) (start stop : Int) : Window :=
  match h.head?, h.getLast? with
  | some first, some final =>
    let stop := min stop final.time
    let clipped := decide (start < first.time)
    let start := max start first.time
    let n := sampleCount start stop
    { n := n, instants := h.filter fun x => decide (start ≤ x.time ∧ (x.time : Int) ≤ stop),
      last := if n = 0 then none else some (10 * (stop / 10)).toNat, clipped := clipped }
  | _, _ => ⟨0, [], none, false⟩

/-- The mean of each rail over a window (R64). -/
def Window.means (w : Window) : Int × Int :=
  (roundDiv (sumInt (w.instants.map fun x => (x.rails.getD (0, 0)).1)) w.n,
   roundDiv (sumInt (w.instants.map fun x => (x.rails.getD (0, 0)).2)) w.n)

/-! ### The window list (R55) -/

/-- Is an entry OPEN. -/
def WindowEntry.isOpen (e : WindowEntry) : Bool := e.deferred.isNone

/-- An OPEN entry notes the opening of another window (R55). -/
def WindowEntry.notice (axle tIn : Nat) (crowd : Bool) (e : WindowEntry) : WindowEntry :=
  if e.isOpen then
    { e with succ := e.succ + 1, firstSucc := some (e.firstSucc.getD (axle, tIn)), crowded := e.crowded || crowd }
  else e

/-- The window list after a window opens (R55). -/
def openEntryIn (axle tIn : Nat) (l : List WindowEntry) : List WindowEntry :=
  let others := (l.filter (·.isOpen)).length
  let crowd := decide (3 ≤ others + 1)
  l.map (WindowEntry.notice axle tIn crowd) ++ [⟨axle, tIn, others, 0, none, crowd, none⟩]

/-- The AXT opens a window for an axle (R55). -/
def meuOpen (p : Platform) (axle tIn : Nat) (s : State) : State :=
  updMeu p (fun m => { m with windows := openEntryIn axle tIn m.windows }) s

/-! ### Making a measurement (R58 to R70) -/

/-- Whose share of a window's means the axle takes (R64). -/
inductive Share where
  | alone
  | lessPartner (means : Int × Int)
  | earlierHalf
  | laterHalf
  deriving DecidableEq, Repr

/-- What the making of a measurement is given: the axle, its nominal interval, whether by interpolation, and the
stations in and out. -/
structure Span where
  axle : Nat
  tIn : Nat
  tOut : Nat
  interpolated : Bool
  ends : Post × Post
  deriving DecidableEq, Repr

/-- The stations that bound a travel-order platform (R37). -/
def endsOf : Side → Post × Post
  | .first => (.e, .m)
  | .second => (.m, .f)

/-- The dwell of a span (R58). -/
def Span.dwell (x : Span) : Nat := x.tOut - x.tIn

/-- The trim of a span (R58). -/
def Span.trim (c : CalSet) (p : Platform) (x : Span) : Nat := x.dwell * c.guard.toNat / platformLength c p

/-- The axle's mean from a window mean (R64). -/
def shareOf (half : Share) (m : Int) (partner : Int) : Int :=
  match half with
  | .alone => m
  | .lessPartner _ => m - partner
  | .earlierHalf => roundDiv m 2
  | .laterHalf => m - roundDiv m 2

/-- The partner's means of a share, 0 where there are none. -/
def Share.partner : Share → Int × Int
  | .lessPartner x => x
  | _ => (0, 0)

/-- The axle's rail means (R64). -/
def Share.means (h : Share) (m : Int × Int) : Int × Int :=
  (shareOf h m.1 h.partner.1, shareOf h m.2 h.partner.2)

/-- The correction of a platform speed: the first band whose upper bound is at or above it, else the last (R67). -/
def bandFor (v : Nat) : List Band → Int
  | [] => 0
  | [b] => b.k
  | b :: l => if v ≤ b.upper then b.k else bandFor v l

/-- A corrected rail value (R67). -/
def correct (k m : Int) : Int := roundDiv (m * (1000000 + k)) 1000000

/-- The station speeds of a measurement, from the head intervals the axle holds (R66, R62). -/
def speedsOf (c : CalSet) (a : Axle) (ends : Post × Post) : Option Nat × Option Nat :=
  ((a.times.get ends.1).map fun x => stationSpeed c.headSpacing x.interval,
   (a.times.get ends.2).map fun x => stationSpeed c.headSpacing x.interval)

/-- The unevenness of two station speeds exceeds a limit (R66). -/
def isUneven (limit : Nat) (v : Option Nat × Option Nat) : Bool :=
  match v with
  | (some x, some y) => decide (limit < ((x : Int) - y).natAbs * 1000 / max x y)
  | _ => false

/-- Does the platform's poison onset reach a window (R63, step 3). -/
def MeuPlatform.poisons (m : MeuPlatform) (w : Window) : Bool :=
  match m.poison, w.last with
  | some o, some t => decide (o ≤ t)
  | _, _ => false

/-- Was the platform OUT at an instant from a time on (R63, step 4). -/
def MeuPlatform.outFrom (m : MeuPlatform) (t : Nat) : Bool :=
  match m.latestOut with
  | some u => decide (t ≤ u)
  | none => false

/-- The status that steps 3 to 8 of R63 give a window. -/
def statusOf (c : CalSet) (m : MeuPlatform) (x : Span) (w : Window) (speed : Nat) : MeasStatus :=
  if m.poisons w then .poisoned
  else if m.outFrom x.tIn then .platformOut
  else if (w.n : Int) < c.nMin then .short
  else if w.instants.any (·.overrange) then .overrange
  else if c.measMax < (speed : Int) then .overspeed
  else .valid

/-- Everything a making reads beside the window: R63's step 1 and steps 3 to 8 share it. -/
structure Making where
  cal : CalSet
  meu : MeuPlatform
  length : Nat
  uneven : Nat
  doubtful : Bool
  speeds : Option Nat × Option Nat
  span : Span
  deriving DecidableEq, Repr

/-- The platform speed (R65). -/
def Making.speed (k : Making) : Nat := k.length * 720 / k.span.dwell

/-- The qualifiers R70 gives every measurement. -/
def Making.quals (k : Making) : QualSet :=
  qualWhen .interpolated k.span.interpolated ||| qualWhen .outOfBand (decide (k.cal.certMax < (k.speed : Int))) |||
    qualWhen .suspect k.doubtful

/-- A CROWDED measurement (R59). -/
def Making.crowded (k : Making) : Measurement :=
  ⟨.crowded, none, none, some k.speed, k.speeds.1, k.speeds.2, k.quals, none, none⟩

/-- The checks of R69 and the unevenness of R66, for a VALID measurement. -/
def Making.validQuals (k : Making) (load : Int) : QualSet :=
  qualWhen .overcap (decide ((k.cal.maxAxle + 9 * k.cal.interval) * 1000 < load)) |||
    qualWhen .suspect (decide (load < -20 * k.cal.interval * 1000)) |||
    qualWhen .uneven (isUneven k.uneven k.speeds)

/-- The qualifiers a status brings (R68, R70). -/
def statusQuals : MeasStatus → QualSet
  | .overrange => qualSet .overcap
  | .poisoned => qualSet .suspect
  | _ => 0

/-- A measurement over a window, from step 3 of R63. -/
def Making.make (k : Making) (w : Window) (h : Share) : Measurement :=
  let status := statusOf k.cal k.meu k.span w k.speed
  let base := k.quals ||| qualWhen .longDwell w.clipped ||| qualWhen .shared (decide (h ≠ .alone)) ||| statusQuals status
  if status = .valid then
    let m := h.means w.means
    let corr := bandFor k.speed k.cal.bands
    let c := (correct corr m.1, correct corr m.2)
    ⟨.valid, some c, some w.n, some k.speed, k.speeds.1, k.speeds.2, base ||| k.validQuals (c.1 + c.2), some m, w.last⟩
  else ⟨status, none, some w.n, some k.speed, k.speeds.1, k.speeds.2, base, none, w.last⟩

/-- The making of a measurement of an axle on a platform. -/
def State.making (s : State) (p : Platform) (a : Axle) (x : Span) : Making where
  cal := s.cal.working
  meu := s.meu.get p
  length := platformLength s.cal.working p
  uneven := s.settings.unevenLimit
  doubtful := decide ((s.zcl.platforms.get p).zeroState = .doubtful)
  speeds := speedsOf s.cal.working a x.ends
  span := x

/-- Step 2 of R63: the measuring window and the axle's share of it, or a deferral. -/
inductive Found where
  | window (w : Window) (h : Share)
  | deferral
  deriving DecidableEq, Repr

/-- The alone window (R58). -/
def Making.aloneWindow (k : Making) (trim : Nat) (firstSucc : Option (Nat × Nat)) : Window :=
  let start := match k.meu.lastExit with | some x => max k.span.tIn x.time | none => k.span.tIn
  let stop := match firstSucc with | some f => min k.span.tOut f.2 | none => k.span.tOut
  windowOf k.meu.history (start + trim) (stop - trim)

/-- The window of a pair: both on the platform, shortened by the earlier axle's trim (R60). -/
def bothOn (h : List Instant) (start stop trim : Nat) : Window := windowOf h ((start : Int) + trim) ((stop : Int) - trim)

/-- Is the window of a first successor still OPEN (R60). -/
def MeuPlatform.openFor (m : MeuPlatform) (f : Nat × Nat) : Bool :=
  m.windows.any fun e => e.isOpen && decide (e.axle = f.1 ∧ e.tIn = f.2)

/-- Find the measuring window (R58, R60; notes/assumptions/21.md). -/
def Making.find (k : Making) (trim : Nat) (e : WindowEntry) : Found :=
  let alone := k.aloneWindow trim e.firstSucc
  if k.span.interpolated || decide (k.cal.nMin ≤ (alone.n : Int)) then .window alone .alone
  else if e.pred = 1 ∧ e.succ = 0 then
    match k.meu.lastExit with
    | some x =>
      if k.span.tIn < x.time then
        .window (bothOn k.meu.history k.span.tIn x.time x.trim)
          (match x.means with | some m => .lessPartner m | none => .laterHalf)
      else .window alone .alone
    | none => .window alone .alone
  else if e.pred = 0 ∧ e.succ = 1 then
    match e.firstSucc with
    | some f =>
      if k.meu.openFor f then .deferral else .window (bothOn k.meu.history f.2 k.span.tOut trim) .earlierHalf
    | none => .window alone .alone
  else .window alone .alone

/-! ### Writing, closing, deferring (R56, R57, R61, R71) -/

/-- Was a measurement made by the MEU, with any status but UNBOUNDED (R71). -/
def madeByMeu (m : Option Measurement) : Bool :=
  match m with
  | some m => decide (m.status ≠ .unbounded)
  | none => false

/-- A new measurement supersedes the old (R71). -/
def Axle.write (a : Axle) (side : Side) (m : Measurement) : Axle :=
  { a with meas := a.meas.set side (some m), reweighed := a.reweighed || madeByMeu (a.meas.get side) }

/-- Write a measurement into an axle entry (R71). -/
def writeMeas (p : Platform) (i : Nat) (m : Measurement) (s : State) : State :=
  updAxle i (fun a => a.write (sideOf s.direction p) m) s

/-- Take the entries of an axle that meet a test from a platform's list. -/
def dropEntries (p : Platform) (q : WindowEntry → Bool) (s : State) : State :=
  updMeu p (fun m => { m with windows := m.windows.filter fun e => !q e }) s

/-- Resolve one DEFERRED entry, its partner's alone means usable or not (R61). -/
def resolveEntry (p : Platform) (partner : Option (Int × Int)) (e : WindowEntry) (s : State) : State :=
  match e.deferred, e.firstSucc, s.axt.train[e.axle]? with
  | some (tOut, trim), some f, some a =>
    let k := s.making p a ⟨e.axle, e.tIn, tOut, false, endsOf (sideOf s.direction p)⟩
    let share : Share := match partner with | some m => .lessPartner m | none => .earlierHalf
    writeMeas p e.axle (k.make (bothOn k.meu.history f.2 tOut trim) share)
      (dropEntries p (fun d => decide (d = e)) s)
  | _, _, _ => dropEntries p (fun d => decide (d = e)) s

/-- Resolve every DEFERRED entry of a platform that meets a test, in ascending axle index. -/
def resolveWhere (p : Platform) (partner : Option (Int × Int)) (q : WindowEntry → Bool) (s : State) : State :=
  (sortBy (·.axle) ((s.meu.get p).windows.filter fun e => !e.isOpen && q e)).foldl
    (fun s e => resolveEntry p partner e s) s

/-- Is an axle the first successor of an entry. -/
def WindowEntry.follows (e : WindowEntry) (i : Nat) : Bool :=
  match e.firstSucc with
  | some f => decide (f.1 = i)
  | none => false

/-- The last exit record becomes that of a span; step 3 of R56 then resolves what waited for it. -/
def afterExit (p : Platform) (x : Span) (trim : Nat) (means : Option (Int × Int)) (s : State) : State :=
  let s := updMeu p (fun m => { m with lastExit := some ⟨x.axle, x.tOut, trim, means⟩ }) s
  resolveWhere p means (·.follows x.axle) s

/-- The alone means of a measurement: kept when it is VALID from its alone window (R56). -/
def aloneMeans (m : Measurement) (h : Share) : Option (Int × Int) :=
  if m.status = .valid ∧ h = .alone then m.means else none

/-- A span is closed: R56 for the entry of a window, or for a span without one (R62). An entry keeps its crowded mark
when it closes by interpolation, on SECOND too (the model's choice, notes/assumptions/53.md). -/
def closeSpan (p : Platform) (a : Axle) (e : WindowEntry) (x : Span) (s : State) : State :=
  let k := s.making p a x
  let trim := x.trim s.cal.working p
  let mine := fun d : WindowEntry => d.isOpen && decide (d.axle = x.axle)
  if e.crowded then afterExit p x trim none (writeMeas p x.axle k.crowded (dropEntries p mine s))
  else
    match k.find trim e with
    | .deferral =>
      let defer := fun d : WindowEntry => if mine d then { d with deferred := some (x.tOut, trim) } else d
      afterExit p x trim none (updMeu p (fun m => { m with windows := m.windows.map defer }) s)
    | .window w h =>
      let m := k.make w h
      afterExit p x trim (aloneMeans m h) (writeMeas p x.axle m (dropEntries p mine s))

/-- The entry of an interpolated SECOND span that closes no window (R62). -/
def WindowEntry.bare (i tIn : Nat) : WindowEntry := ⟨i, tIn, 0, 0, none, false, none⟩

/-- The OPEN entry of an axle. -/
def MeuPlatform.entryOf (m : MeuPlatform) (i : Nat) : Option WindowEntry :=
  m.windows.find? fun e => e.isOpen && decide (e.axle = i)

/-- The AXT closes a window, or hands over an interpolated span (R56, R62). -/
def meuClose (p : Platform) (x : Span) (s : State) : State :=
  match s.axt.train[x.axle]? with
  | none => s
  | some a => closeSpan p a (((s.meu.get p).entryOf x.axle).getD (.bare x.axle x.tIn)) x s

/-- The AXT cancels a window (R57). -/
def meuCancel (p : Platform) (i : Nat) (s : State) : State :=
  resolveWhere p none (·.follows i) (dropEntries p (fun e => e.isOpen && decide (e.axle = i)) s)

/-- Does a platform hold a DEFERRED entry of an axle (R61). -/
def MeuPlatform.defers (m : MeuPlatform) (i : Nat) : Bool := m.windows.any fun e => !e.isOpen && decide (e.axle = i)

/-- Step 3 of settlement: an axle's deferrals, then its combination (R61, R72; notes/assumptions/29.md). -/
def combineSettled (i : Nat) (s : State) : State :=
  let own := fun e : WindowEntry => decide (e.axle = i)
  let s := resolveWhere (platformOf s.direction .first) none own s
  let s := resolveWhere (platformOf s.direction .second) none own s
  updAxle i (Axle.combine s.cal.working) s

/-- Step 5 of the close: what the MEU clears (R52). -/
def MeuPlatform.closePassage (m : MeuPlatform) : MeuPlatform :=
  { m with windows := [], lastExit := none, poison := none }

/-! ### Poisoning (R78, R79) -/

/-- Does an onset reach a measurement (R79). -/
def reaches (onset : Nat) (m : Measurement) : Bool :=
  (decide (m.status = .valid) || decide (m.status = .short) || decide (m.status = .overrange) ||
    decide (m.status = .overspeed)) &&
    (match m.lastSample with | some t => decide (onset ≤ t) | none => false)

/-- A measurement reached becomes POISONED and gains SUSPECT (R79). -/
def Measurement.poison (onset : Nat) (m : Measurement) : Measurement :=
  if reaches onset m then { m with status := .poisoned, quals := m.quals ||| qualSet .suspect } else m

/-- The same combination: loads, speed and combination qualifier (R72). -/
def sameCombination (a b : Axle) : Bool :=
  decide (a.load = b.load ∧ a.rail1 = b.rail1 ∧ a.rail2 = b.rail2 ∧ a.speed = b.speed ∧ a.comb = b.comb)

/-- Recombine one axle after poisoning; the PTB is told of a changed combination (R79; notes/assumptions/20.md). -/
def recombine (i : Nat) (s : State) : State :=
  match s.axt.train[i]? with
  | none => s
  | some a =>
    if a.settled then
      let b := a.combine s.cal.working
      if sameCombination a b then s else noticeAxle s.timebase i (updAxle i (fun _ => b) s)
    else s

/-- A poison onset applied to every measurement of a platform held in the train (R79). -/
def poisonTrain (p : Platform) (onset : Nat) (s : State) : State :=
  let side := sideOf s.direction p
  let touch := fun a : Axle => { a with meas := a.meas.set side ((a.meas.get side).map (Measurement.poison onset)) }
  let s := s.setAxt { s.axt with train := s.axt.train.map touch }
  (List.range s.axt.train.length).foldl (fun s i => recombine i s) s

/-- The earlier of an optional onset and an onset (R78). -/
def earlierOnset (o : Option Nat) (t : Nat) : Nat :=
  match o with
  | some u => min u t
  | none => t

/-- The LCU notifies the MEU of a channel fault (R78). -/
def meuNotice (p : Platform) (onset : Nat) (s : State) : State :=
  if s.isOpen then
    let t := earlierOnset (s.meu.get p).poison onset
    poisonTrain p t (updMeu p (fun m => { m with poison := some t }) s)
  else s

end Sys2Proof.Machine
end

