-- ==== Sys2Proof/Machine/Channels.lean ====
section
/-! DEFINITION. The Load Channel Unit: the advance of a channel at a sampling instant, platform service, the
fitted-channel pattern, and the channel changes its requests make (R13 to R22). -/

namespace Sys2Proof.Machine

/-- Replace the channel records. -/
def State.setChannels (s : State) (x : PerChannel Channel) : State := s.setLcu { s.lcu with channels := x }

/-- Change one channel record. -/
def updChannel (c : Fin 8) (f : Channel → Channel) (s : State) : State :=
  s.setChannels (s.lcu.channels.set c (f (s.lcu.channels.get c)))

/-- Is a channel in a fitted-channel pattern: bit c (R81, R197). -/
def inPattern (pattern : Int) (c : Fin 8) : Bool := decide (pattern / 2 ^ c.val % 2 = 1)

/-- The fitted channels of a platform, as the channel records show them. -/
def State.fittedOf (s : State) (cs : List (Fin 8)) : List (Fin 8) := cs.filter fun c => (s.lcu.channels.get c).fitted

/-! ### A channel at a sampling instant (R14 to R17) -/

/-- A reading at either extreme (R14). -/
def isOverrange (raw : Int) : Bool := decide (raw = -8388608) || decide (raw = 8388607)

/-- A channel becomes FAULTED (R16, R17). -/
def Channel.fail (ch : Channel) (cause : ChannelCause) (onset : Nat) : Channel :=
  { ch with state := .faulted, cause := some cause, onset := some onset }

/-- R15: a SETTLING channel. -/
def Channel.settleStep (ch : Channel) (sense : Sense) : Channel :=
  if sense = .present then
    if 400 ≤ ch.settle + 1 then { ch with state := .active, settle := 400, overrange := 0 }
    else { ch with settle := ch.settle + 1 }
  else { ch with settle := 0 }

/-- R16, R17: an ACTIVE channel. -/
def Channel.activeStep (ch : Channel) (t : Nat) (raw : Int) (sense : Sense) : Channel :=
  if sense = .absent then ch.fail .excitation t
  else if isOverrange raw then
    let ch := { ch with overrange := ch.overrange + 1 }
    if 40 ≤ ch.overrange then ch.fail .overrange (t - 390) else ch
  else { ch with overrange := 0 }

/-- The advance of a channel by its state (R14). -/
def Channel.step (ch : Channel) (t : Nat) (raw : Int) (sense : Sense) : Channel :=
  let ch := { ch with last := some (raw, t) }
  match ch.state with
  | .settling => ch.settleStep sense
  | .active => ch.activeStep t raw sense
  | _ => ch

/-- Does a channel become FAULTED between two records. -/
def becameFaulted (old new : Channel) : Bool := decide (old.state ≠ .faulted ∧ new.state = .faulted)

/-- The detail of CHANNEL_FAULT: the cause (R178). -/
def channelDetail (ch : Channel) : Option FaultDetail := ch.cause.map FaultDetail.channel

/-- One channel takes its reading, and a new fault is raised (R14, R16, R17). -/
def advanceChannel (t : Nat) (r : Readings) (c : Fin 8) (s : State) : State :=
  let old := s.lcu.channels.get c
  let new := old.step t (r.raw.get c) (r.sense.get (platformOfChannel c))
  let s := s.setChannels (s.lcu.channels.set c new)
  if becameFaulted old new then reportFault (s.occNow .channelFault t (some (.channel c)) (channelDetail new)) s else s

/-- Would a channel become FAULTED at an instant (R16, R17). -/
def fails (t : Nat) (r : Readings) (s : State) (c : Fin 8) : Bool :=
  let old := s.lcu.channels.get c
  becameFaulted old (old.step t (r.raw.get c) (r.sense.get (platformOfChannel c)))

/-- Where a channel's fault of an instant stands among those reported with it: with its platform when the excitation is
ABSENT, which faults all of it in ascending order (R16), else alone (R17). -/
def faultSlot (r : Readings) (c : Fin 8) : Nat :=
  if r.sense.get (platformOfChannel c) = .absent then 8 + platformNum (platformOfChannel c) else c.val

/-- The order of the channels that fault at an instant: ascending where R16 and R25 say so, else a free value, since faults
reported together may be taken in either order (R179; notes/assumptions/30.md). -/
def channelOrder (t : Nat) (r : Readings) (s : State) : List (Fin 8) :=
  match channels.filter (fails t r s) with
  | [] => channels
  | c :: l =>
    if l.all fun d => decide (faultSlot r d = faultSlot r c) then channels
    else sortBy (fun d => 8 * Config.channelFaultRank s.freeCount (faultSlot r d) + d.val) channels

/-- Channels take their readings one after another. -/
def advanceAll (t : Nat) (r : Readings) (l : List (Fin 8)) (s : State) : State := l.foldl (fun s c => advanceChannel t r c s) s

/-- Every channel takes its reading (R14). The order shows in what the FAU takes and nowhere else. -/
def advanceChannels (t : Nat) (r : Readings) (s : State) : State :=
  (advanceAll t r channels s).setFau (advanceAll t r (channelOrder t r s) s).fau

/-! ### Platform service (R19) -/

/-- The four conditions of R19, in its order. -/
def serviceConditions (s : State) (p : Platform) : List Bool :=
  let fitted := s.fittedOf (channelsOf p)
  [decide (s.cal.state = .valid), decide (fitted ≠ []),
   fitted.all fun c => decide ((s.lcu.channels.get c).state = .active),
   decide ((s.lcu.platforms.get p).sense = .present)]

/-- Set a platform's service state. -/
def setService (p : Platform) (v : Service) (s : State) : State :=
  s.setLcu { s.lcu with platforms := s.lcu.platforms.set p { s.lcu.platforms.get p with service := v } }

/-- The number of the first condition that has failed (R19). -/
def firstFailed (l : List Bool) : Nat := ((firstIdx (fun b => !b) l).getD 0) + 1

/-- Re-evaluate one platform (R19). -/
def evalPlatform (t : Nat) (p : Platform) (s : State) : State :=
  let conds := serviceConditions s p
  match (s.lcu.platforms.get p).service, conds.all id with
  | .inService, false =>
    let s := setService p .out s
    evalPermit (reportFault (s.occNow .platformOut t (some (.platform p)) (some (.number (firstFailed conds)))) s)
  | .out, true => evalPermit (setService p .inService s)
  | _, _ => s

/-- Does the service state of a platform change when it is re-evaluated (R19). -/
def serviceChanges (s : State) (p : Platform) : Bool :=
  decide ((s.lcu.platforms.get p).service ≠ if (serviceConditions s p).all id then .inService else .out)

/-- Do both platforms change, one or both of them going OUT. -/
def platformsTie (s : State) : Bool :=
  (serviceChanges s .a && serviceChanges s .b) &&
    (decide (s.lcu.platforms.a.service = .inService) || decide (s.lcu.platforms.b.service = .inService))

/-- Re-evaluate both platforms (R19). Which is first is a free value where it can show, since their occurrences may be taken
in either order (R179; notes/assumptions/44.md); it shows in the FAU and nowhere else. -/
def evalPlatforms (t : Nat) (s : State) : State :=
  let aFirst := evalPlatform t .b (evalPlatform t .a s)
  let bFirst := evalPlatform t .a (evalPlatform t .b s)
  (aFirst.setFau (if platformsTie s && Config.platformBFirst s.freeCount then bFirst.fau else aFirst.fau)).drawFree

/-! ### The fitted-channel pattern (R20) -/

/-- A channel record under a new pattern. -/
def Channel.refit (ch : Channel) (fitted : Bool) : Channel :=
  match ch.fitted, fitted with
  | true, true => ch
  | false, true => { ch with fitted := true, state := .settling, settle := 0 }
  | true, false => { ch with fitted := false, state := .off, settle := 0, overrange := 0, cause := none, onset := none }
  | false, false => { ch with state := .off }

/-- Apply a pattern, then re-evaluate both platforms (R20). -/
def applyPattern (t : Nat) (pattern : Int) (s : State) : State :=
  evalPlatforms t (s.setChannels (.ofFn fun c => (s.lcu.channels.get c).refit (inPattern pattern c)))

/-! ### Channel requests (R21, R22) -/

/-- An OFF channel is put into service (R21). -/
def Channel.enable (ch : Channel) : Channel := { ch with state := .settling, settle := 0, overrange := 0 }

/-- A channel is taken out of service (R22). -/
def Channel.disable (ch : Channel) : Channel :=
  { ch with state := .off, settle := 0, overrange := 0, cause := none, onset := none }

/-- The channel a byte names (R21). -/
def channelNamed (c : Nat) : Option (Fin 8) := if h : c < 8 then some ⟨c, h⟩ else none

end Sys2Proof.Machine
end

