-- ==== Sys2Proof/Machine/Zero.lean ====
section
/-! DEFINITION. The Zero Control: freezing, quiet instants, zero acquisition and zero tracking (R93 to R103). -/

namespace Sys2Proof.Machine

/-- Replace the ZCL's state for one platform. -/
def State.setZclAt (s : State) (p : Platform) (x : ZclPlatform) : State :=
  s.setZcl { s.zcl with platforms := s.zcl.platforms.set p x }

/-- Change the ZCL's state for one platform. -/
def updZcl (p : Platform) (f : ZclPlatform → ZclPlatform) (s : State) : State :=
  s.setZclAt p (f (s.zcl.platforms.get p))

/-- Change every named channel. -/
def setChans (f : Fin 8 → Int) (cs : List (Fin 8)) (x : PerChannel Int) : PerChannel Int :=
  cs.foldl (fun x c => x.set c (f c)) x

/-- Give the named channels new working zeros. -/
def setZeros (cs : List (Fin 8)) (f : Fin 8 → Int) (s : State) : State :=
  s.setZcl { s.zcl with zeros := setChans f cs s.zcl.zeros }

/-! ### Opening and close (R95) -/

/-- The ZCL's platform state at step 4 of the opening. -/
def ZclPlatform.freeze (z : ZclPlatform) : ZclPlatform :=
  { z with acq := (if z.acq.state = .collecting then { z.acq with state := .suspended } else z.acq), block := .empty }

/-- Step 4 of the opening. -/
def zclFreeze (s : State) : State := s.setZcl { s.zcl with freeze := true, platforms := s.zcl.platforms.map .freeze }

/-- The ZCL's platform state at step 7 of the close. -/
def ZclPlatform.unfreeze (z : ZclPlatform) : ZclPlatform :=
  { z with acq := (if z.acq.state = .suspended then { z.acq with state := .collecting } else z.acq), block := .empty }

/-- Step 7 of the close. -/
def zclUnfreeze (s : State) : State :=
  s.setZcl { s.zcl with freeze := false, platforms := s.zcl.platforms.map .unfreeze }

/-! ### Quiet instants and the platform load (R96) -/

/-- Does a station hold a pending head (R10). -/
def State.holdsPending (s : State) (k : Station) : Bool := (s.wsu.get k).pending.isSome

/-- Is a platform quiet (R96). -/
def quiet (s : State) (p : Platform) : Bool :=
  !s.isOpen && decide ((s.lcu.platforms.get p).service = .inService) &&
    !s.holdsPending (stationsOf p).1 && !s.holdsPending (stationsOf p).2

/-- The platform load in grams (R96). -/
def platformLoad (raw zero gain : PerChannel Int) (cs : List (Fin 8)) : Int :=
  roundDiv (sumInt (cs.map fun c => (raw.get c - zero.get c) * gain.get c * 1000)) gainUnit

/-- A least value extended by another. -/
def extendLeast (x : Option Int) (v : Int) : Option Int :=
  match x with
  | some u => some (min u v)
  | none => some v

/-- A greatest value extended by another. -/
def extendGreatest (x : Option Int) (v : Int) : Option Int :=
  match x with
  | some u => some (max u v)
  | none => some v

/-- The span of a least and a greatest value, 0 when there is none. -/
def spanOf (least greatest : Option Int) : Int := greatest.getD 0 - least.getD 0

/-- The deviation of proposed zeros from the reference zeros, times 2^24 (R99). -/
def deviation (c : CalSet) (cs : List (Fin 8)) (z : Fin 8 → Int) : Int :=
  sumInt (cs.map fun k => (z k - c.zero.get k) * c.gain.get k)

/-- Does a deviation exceed the zero range (R99). -/
def exceedsRange (c : CalSet) (dev : Int) : Bool := decide (c.zeroRange * gainUnit < (dev.natAbs : Int))

/-- A deviation in kilograms, nearest, halves away (R99, R178). -/
def deviationKg (dev : Int) : Int := roundDiv dev gainUnit

/-! ### Zero acquisition (R97 to R100) -/

/-- A new acquisition (R97). -/
def Acquisition.begin (st : AcqState) : Acquisition := ⟨st, 0, .all 0, none, none, none⟩

/-- An acquisition in hand ends with a result, and attention bit ZERO is raised (R99, R100). -/
def endAcquisition (p : Platform) (r : AcqResult) (s : State) : State :=
  raiseAtt .zero (updZcl p (fun z => { z with acq := { z.acq with state := .idle, last := some r } }) s)

/-- End the acquisition of a platform when one is in hand (R100). -/
def endIfInHand (p : Platform) (r : AcqResult) (s : State) : State :=
  if (s.zcl.platforms.get p).acq.state = .idle then s else endAcquisition p r s

/-- A quiet instant is collected (R98). -/
def Acquisition.collect (a : Acquisition) (raw : PerChannel Int) (cs : List (Fin 8)) (load : Int) : Acquisition :=
  { a with count := a.count + 1, sums := setChans (fun c => a.sums.get c + raw.get c) cs a.sums,
           least := extendLeast a.least load, greatest := extendGreatest a.greatest load }

/-- The acquired zero of a channel (R99). -/
def Acquisition.zeroOf (a : Acquisition) (c : Fin 8) : Int := roundDiv (a.sums.get c) 2000

/-- The result of a full acquisition (R99). -/
def Acquisition.decide (a : Acquisition) (c : CalSet) (cs : List (Fin 8)) : AcqResult :=
  if 2 * c.interval * 1000 < spanOf a.least a.greatest then .rejectedUnstable
  else if exceedsRange c (deviation c cs a.zeroOf) then .rejectedRange
  else .accepted

/-- An acquisition whose collected count has reached 2,000 ends (R99). -/
def finishAcquisition (p : Platform) (s : State) : State :=
  let a := (s.zcl.platforms.get p).acq
  let cs := s.fittedOf (channelsOf p)
  let r := a.decide s.cal.working cs
  let s := if r = .accepted then
      updZcl p (fun z => { z with zeroState := .good, offZero := 0 }) (setZeros cs a.zeroOf s)
    else s
  endAcquisition p r s

/-- A COLLECTING acquisition collects a quiet instant, and ends at the 2,000th (R98, R99). -/
def collectInstant (p : Platform) (raw : PerChannel Int) (load : Int) (s : State) : State :=
  let s := updZcl p (fun z => { z with acq := z.acq.collect raw (s.fittedOf (channelsOf p)) load }) s
  if 2000 ≤ (s.zcl.platforms.get p).acq.count then finishAcquisition p s else s

/-! ### Zero tracking (R101 to R103) -/

/-- A quiet instant is added to a block (R101). -/
def Block.add (b : Block) (raw zero : PerChannel Int) (cs : List (Fin 8)) (load : Int) : Block where
  count := b.count + 1
  sums := setChans (fun c => b.sums.get c + (raw.get c - zero.get c)) cs b.sums
  loadSum := b.loadSum + load
  least := extendLeast b.least load
  greatest := extendGreatest b.greatest load

/-- A near-zero block: its correction is tested and applied (R102). -/
def nearZero (p : Platform) (b : Block) (s : State) : State :=
  let cs := s.fittedOf (channelsOf p)
  let z := fun c => s.zcl.zeros.get c + roundDiv (b.sums.get c) 2000
  let dev := deviation s.cal.working cs z
  let s := updZcl p (fun x => { x with offZero := 0 }) s
  if exceedsRange s.cal.working dev then
    reportFault ⟨.zeroDrift, s.timebase, none, some (.platform p), some (.number (deviationKg dev))⟩ s
  else setZeros cs z s

/-- An off-zero block; the thirtieth makes the zero DOUBTFUL (R103; notes/assumptions/22.md). -/
def offZero (p : Platform) (mean : Int) (s : State) : State :=
  let z := s.zcl.platforms.get p
  let n := satSucc 30 z.offZero
  let s := updZcl p (fun x => { x with offZero := n }) s
  if n = 30 ∧ z.zeroState = .good then
    reportFault ⟨.zeroLost, s.timebase, none, some (.platform p), some (.number (roundDiv mean 1000))⟩
      (updZcl p (fun x => { x with zeroState := .doubtful }) s)
  else s

/-- A full block is judged, and a new block begins (R102). -/
def judgeBlock (p : Platform) (s : State) : State :=
  let b := (s.zcl.platforms.get p).block
  let e := s.cal.working.interval
  let mean := roundDiv b.loadSum 2000
  let s := updZcl p (fun x => { x with block := .empty }) s
  if e * 1000 < spanOf b.least b.greatest then s
  else if (mean.natAbs : Int) ≤ e * 500 then nearZero p b s
  else offZero p mean s

/-- A quiet instant of a platform on which tracking runs (R101). -/
def trackInstant (p : Platform) (raw : PerChannel Int) (load : Int) (s : State) : State :=
  let s := updZcl p (fun z => { z with block := z.block.add raw s.zcl.zeros (s.fittedOf (channelsOf p)) load }) s
  if 2000 ≤ (s.zcl.platforms.get p).block.count then judgeBlock p s else s

/-- Discard a platform's partial tracking block. -/
def discardBlock (p : Platform) (s : State) : State := updZcl p (fun z => { z with block := .empty }) s

/-- The ZCL takes a sampling instant for one platform (R96, R98, R100, R101). -/
def zclInstant (p : Platform) (raw : PerChannel Int) (s : State) : State :=
  let load := platformLoad raw s.zcl.zeros s.cal.working.gain (s.fittedOf (channelsOf p))
  if (s.lcu.platforms.get p).service = .out then endIfInHand p .rejectedOut (discardBlock p s)
  else
    match (s.zcl.platforms.get p).acq.state with
    | .collecting =>
      let s := discardBlock p s
      if quiet s p then collectInstant p raw load s else s
    | .suspended => discardBlock p s
    | .idle =>
      if s.isOpen then discardBlock p s else if quiet s p then trackInstant p raw load s else s

/-! ### Application of a commit, and CHAN_DISABLE (R89, R94) -/

/-- What an application leaves of one platform (R89, step 4). -/
def ZclPlatform.applied (z : ZclPlatform) : ZclPlatform := { z with zeroState := .good, offZero := 0, block := .empty }

/-- Step 4 of an application (R89). -/
def zclApply (s : State) : State :=
  let s := endIfInHand .b .cancelled (endIfInHand .a .cancelled s)
  s.setZcl { s.zcl with zeros := s.cal.working.zero, platforms := s.zcl.platforms.map .applied }

/-- A channel's working zero returns to its reference zero (R22, R94). -/
def returnZero (c : Fin 8) (s : State) : State :=
  setZeros [c] (fun c => s.cal.working.zero.get c) (discardBlock (platformOfChannel c) s)

end Sys2Proof.Machine
end

