-- ==== Sys2Proof/Machine/Sampling.lean ====
section
/-! DEFINITION. The sampling instant (R14, R18, R53, R96) and the four rows that name something an instant
brings about (R15, R17, R99, R102; notes/assumptions/4.md). -/

namespace Sys2Proof.Machine

/-- The timestamp of an instant: the first multiple of 10 from the timebase on that no instant has had
(R14; notes/assumptions/3.md). -/
def instantTime (s : State) : Nat :=
  let u := (s.timebase + 9) / 10 * 10
  match s.lcu.lastInstant with
  | some v => if u ≤ v then v + 10 else u
  | none => u

/-- The excitation senses are taken as read, and the instant is noted (R14). -/
def takeSenses (t : Nat) (sense : PerPlatform Sense) (s : State) : State :=
  s.setLcu { s.lcu with
    platforms := ⟨{ s.lcu.platforms.a with sense := sense.a }, { s.lcu.platforms.b with sense := sense.b }⟩
    lastInstant := some t }

/-- The LCU's part of an instant: readings, channel changes, platform service (R14 to R19). -/
def lcuInstant (t : Nat) (r : Readings) (s : State) : State :=
  evalPlatforms t (advanceChannels t r (takeSenses t r.sense s))

/-- The notices of an instant's channel faults, in ascending channel order (R18; notes/assumptions/30.md). -/
def noticeFaults (old : PerChannel Channel) (s : State) : State :=
  channels.foldl (fun s c =>
    let new := s.lcu.channels.get c
    if becameFaulted (old.get c) new then meuNotice (platformOfChannel c) (new.onset.getD 0) s else s) s

/-- The instant that joins a platform's history (R53). -/
def instantOf (t : Nat) (r : Readings) (s : State) (p : Platform) : Instant :=
  if (s.lcu.platforms.get p).service = .inService then
    let rail := fun cs => railSample r.raw s.zcl.zeros s.cal.working.gain (s.fittedOf cs)
    { time := t
      overrange := (channelsOf p).any fun c =>
        decide ((s.lcu.channels.get c).state = .active) && isOverrange (r.raw.get c)
      rails := some (rail (railChannels p).1, rail (railChannels p).2) }
  else ⟨t, false, none⟩

/-- The MEU takes an instant (R53). -/
def meuInstant (t : Nat) (r : Readings) (s : State) : State :=
  s.setMeu ⟨s.meu.a.take (instantOf t r s .a), s.meu.b.take (instantOf t r s .b)⟩

/-- Does the instant fill a platform's tracking block and so bring a zero fault (R101 to R103). -/
def bringsZeroFault (raw : PerChannel Int) (s : State) (p : Platform) : Bool :=
  decide (1999 ≤ (s.zcl.platforms.get p).block.count) &&
    (let f := (zclInstant p raw (s.setFau Fau.reset)).fau; f.worst.isSome || !f.held.isEmpty)

/-- The ZCL takes an instant for both platforms. Which is first shows in the order of their faults alone, and is a free
value when both bring one (R179; notes/assumptions/45.md); `evalPlatforms` has advanced the counter at this instant. -/
def zclPlatforms (raw : PerChannel Int) (s : State) : State :=
  if (bringsZeroFault raw s .a && bringsZeroFault raw s .b) && Config.zeroBFirst s.freeCount then
    zclInstant .a raw (zclInstant .b raw s) else zclInstant .b raw (zclInstant .a raw s)

/-- The MEU's and the ZCL's parts of an instant (R18, R53, R96): that the MEU is before the ZCL is the model's choice
(notes/assumptions/45.md). -/
def handOnInstant (old : PerChannel Channel) (t : Nat) (r : Readings) (s : State) : State :=
  zclPlatforms r.raw (meuInstant t r (noticeFaults old s))

/-- A whole sampling instant at a timestamp. -/
def instantAt (t : Nat) (r : Readings) (s : State) : State :=
  let s := s.advance t
  handOnInstant s.lcu.channels t r (lcuInstant t r s)

/-- SAMPLING_INSTANT on a powered part (R14). -/
def sample (t : Nat) (r : Readings) (s : State) : State :=
  let s := s.advance t
  instantAt (instantTime s) r s

/-- The state after the LCU's part of the instant that `sample` would take. -/
def afterLcu (t : Nat) (r : Readings) (s : State) : State :=
  let s := s.advance t
  lcuInstant (instantTime s) r (s.advance (instantTime s))

/-- Would the instant make a channel ACTIVE (R15). -/
def settles (c : Fin 8) (r : Readings) (s : State) : Bool :=
  let ch := s.lcu.channels.get c
  decide (ch.state = .settling ∧ 399 ≤ ch.settle ∧ r.sense.get (platformOfChannel c) = .present)

/-- Would the instant fault a channel for overrange (R17). -/
def overranges (c : Fin 8) (r : Readings) (s : State) : Bool :=
  let ch := s.lcu.channels.get c
  decide (ch.state = .active ∧ 39 ≤ ch.overrange ∧ r.sense.get (platformOfChannel c) = .present) &&
    isOverrange (r.raw.get c)

/-- Would the instant bring a platform's collected count to 2,000 (R99). -/
def finishesAcquisition (t : Nat) (p : Platform) (r : Readings) (s : State) : Bool :=
  let a := (s.zcl.platforms.get p).acq
  decide (a.state = .collecting ∧ 1999 ≤ a.count) && quiet (afterLcu t r s) p

/-- Would the instant bring a platform's block count to 2,000 (R102). -/
def finishesBlock (t : Nat) (p : Platform) (r : Readings) (s : State) : Bool :=
  let z := s.zcl.platforms.get p
  decide (z.acq.state = .idle ∧ 1999 ≤ z.block.count) && quiet (afterLcu t r s) p

end Sys2Proof.Machine
end

