-- ==== Sys2Proof/Machine/Segmenter.lean ====
section
/-! DEFINITION. The Segmenter: ranges of a class record, spacings, class tests, the bogie fallback, the forming
and the dissolution of vehicles, close-time segmentation (R105 to R122). -/

namespace Sys2Proof.Machine

/-! ### Class records (R105, R106) -/

/-- A spacing of a class. -/
def spacingOk (d : Nat) : Bool := decide (500 ≤ d ∧ d ≤ 20000)

/-- A tolerance of a class. -/
def toleranceOk (t : Nat) : Bool := decide (20 ≤ t ∧ t ≤ 500)

/-- A trailing gap of a class. -/
def gapOk (g : Nat) : Bool := decide (1000 ≤ g ∧ g ≤ 8000)

/-- A maximum axle load of a class. -/
def maxAxleOk (m : Nat) : Bool := decide (1000 ≤ m ∧ m ≤ 50000)

/-- A class record within the ranges of R105. -/
def classRecOk (c : ClassRec) : Bool :=
  decide (1 ≤ c.spacings.length ∧ c.spacings.length ≤ 7) && c.spacings.all spacingOk && toleranceOk c.tolerance &&
    gapOk c.gapMin && gapOk c.gapMax && decide (c.gapMin ≤ c.gapMax) && grossOk c.maxGross && maxAxleOk c.maxAxle

/-- The first failing field, in ascending index after the code, with the first failing entry of field 4 (R106). -/
def classFailing (c : ClassFields) : Option (Nat × Option Nat) :=
  if 1 < c.kind then some (2, none)
  else if c.n < 2 ∨ 8 < c.n then some (3, none)
  else match firstIdx (fun d => !spacingOk d) c.spacings with
    | some i => some (4, some (i + 1))
    | none =>
      if c.spacings.length + 1 ≠ c.n then some (4, none)
      else if !toleranceOk c.tolerance then some (5, none)
      else if !gapOk c.gapMin then some (6, none)
      else if !gapOk c.gapMax || decide (c.gapMax < c.gapMin) then some (7, none)
      else if !grossOk c.maxGross then some (8, none)
      else if !maxAxleOk c.maxAxle then some (9, none)
      else none

/-- The kind a number names (R197). -/
def kindOf (k : Nat) : Kind := if k = 0 then .wagon else .traction

/-- The class record that accepted fields give (R106). -/
def recordOfFields (c : ClassFields) : ClassRec :=
  ⟨kindOf c.kind, c.spacings, c.tolerance, c.gapMin, c.gapMax, c.maxGross, c.maxAxle⟩

/-- An accepted change of the class table: dirty set, and no longer as the commit's snapshot has it (R105, R168). -/
def changeClasses (f : Table ClassRec → Table ClassRec) (s : State) : State :=
  s.setSeg { s.seg with classes := f s.seg.classes, dirty := true, commit := false }

/-! ### Spacings (R109) -/

/-- The spacing of two crossing times, held within 0 to 99,999 mm (R109). -/
def spacing (headSpacing : Int) (x y : PassTime) : Nat :=
  min 99999 (roundDiv (headSpacing * ((y.time : Int) - x.time) * 2) (x.interval + y.interval)).toNat

/-- The spacing of two axles at a station, when it is OK and both hold a crossing time there. -/
def spacingAt (s : State) (a b : Axle) (p : Post) : Option Nat :=
  if (s.wsu.get (stationOf s.direction p)).state = .ok then
    match a.times.get p, b.times.get p with
    | some x, some y => some (spacing s.cal.working.headSpacing x y)
    | _, _ => none
  else none

/-- The spacing of two axles at the first station, E, M, F, at which it is known. -/
def spacingOf (s : State) (a b : Axle) : Option Nat :=
  ((spacingAt s a b .e).orElse fun _ => spacingAt s a b .m).orElse fun _ => spacingAt s a b .f

/-- The spacing list with every absent entry looked for again. -/
def findSpacings (s : State) : List Axle → List (Option Nat) → List (Option Nat)
  | a :: b :: l, d :: ds => (d.orElse fun _ => spacingOf s a b) :: findSpacings s (b :: l) ds
  | a :: b :: l, [] => spacingOf s a b :: findSpacings s (b :: l) []
  | _, _ => []

/-- How many entries are present. -/
def presentCount (l : List (Option Nat)) : Nat := (l.filter (·.isSome)).length

/-! ### Class tests (R112) -/

/-- The outcome of a class test. -/
inductive TestResult where
  | failed | passed | undecided
  deriving DecidableEq, Repr

/-- An entry of the spacing list, absent beyond its end. -/
def entryAt (l : List (Option Nat)) (k : Nat) : Option Nat := (l[k]?).getD none

/-- Is an entry within bounds of a class spacing; absent when the entry is. -/
def withinTolerance (tol : Nat) (want : Nat) (d : Option Nat) : Option Bool :=
  d.map fun d => decide (((d : Int) - want).natAbs ≤ tol)

/-- The tests of the internal spacings from the cursor. -/
def internalTests (tol : Nat) (sp : List (Option Nat)) : Nat → List Nat → List (Option Bool)
  | _, [] => []
  | k, w :: ws => withinTolerance tol w (entryAt sp k) :: internalTests tol sp (k + 1) ws

/-- The test of the trailing gap. -/
def gapTest (c : ClassRec) (d : Option Nat) : Option Bool := d.map fun d => decide (c.gapMin ≤ d ∧ d ≤ c.gapMax)

/-- The outcome that a list of tests gives in the normal mode. -/
def openOutcome (l : List (Option Bool)) : TestResult :=
  if l.any (· = some false) then .failed else if l.all (· = some true) then .passed else .undecided

/-- Test a class at a cursor, in the normal or in close-time mode (R112). -/
def classTest (closing : Bool) (sp : List (Option Nat)) (cursor remaining : Nat) (c : ClassRec) : TestResult :=
  let inner := internalTests c.tolerance sp cursor c.spacings
  if closing then
    if c.spacings.length + 1 ≤ remaining ∧ inner.all (· = some true) then .passed else .failed
  else openOutcome (inner ++ [gapTest c (entryAt sp (cursor + c.spacings.length))])

/-- The classes in matching order: descending axle count, then ascending code (R114). -/
def matchingOrder (t : Table ClassRec) : List (Nat × ClassRec) := sortBy (fun c => 7 - c.2.spacings.length) t

/-! ### Bogies (R115) -/

/-- A bogie of `k` axles so far, with `fuel` axles still allowed: its size, or none while undecided. -/
def growBogie (closing : Bool) (limit : Nat) (sp : List (Option Nat)) (start : Nat) : Nat → Nat → Option Nat
  | 0, k => some k
  | fuel + 1, k =>
    match entryAt sp (start + k - 1) with
    | some d => if d ≤ limit then growBogie closing limit sp start fuel (k + 1) else some k
    | none => if closing then some k else none

/-- The bogie that begins at an axle: 0 axles at close when none is left, undecided while it has not come. -/
def bogieAt (closing : Bool) (limit : Nat) (sp : List (Option Nat)) (start total : Nat) : Option Nat :=
  if start < total then growBogie closing limit sp start 2 1 else if closing then some 0 else none

/-- The axle count of a vehicle built from two bogies (R115). At close an absent entry behind the first bogie ends the
vehicle: the axles on either side of it are segmented apart (R121; notes/assumptions/46.md). -/
def bogiePair (closing : Bool) (limit : Nat) (sp : List (Option Nat)) (start total : Nat) : Option Nat :=
  (bogieAt closing limit sp start total).bind fun x =>
    if closing && (entryAt sp (start + x - 1)).isNone then some x
    else (bogieAt closing limit sp (start + x) total).map fun y => x + y

/-! ### Deciding a vehicle (R110 to R115) -/

/-- What an evaluation decides. -/
inductive Decision where
  | form (v : Vehicle)
  | wait (r : WaitReason)
  deriving DecidableEq, Repr

/-- A code whose class is in the table, with its record. -/
def State.codeInTable (s : State) (code : Option Nat) : Option (Nat × ClassRec) :=
  code.bind fun c => (tget s.seg.classes c).map fun r => (c, r)

/-- The expected class of a position (R111). -/
def State.expectedClass (s : State) (position : Nat) : Option (Nat × ClassRec) :=
  match s.recordAt s.openNumber position with
  | some (_, w) =>
    if w.state = .expected then
      (s.codeInTable ((s.lookupOpt w.fleet).bind (·.cls))).orElse fun _ => s.codeInTable w.expectedCls
    else none
  | none => none

/-- A vehicle formed with a class (R116). -/
def Vehicle.ofClass (first : Nat) (c : Nat × ClassRec) (mismatch : Bool) : Vehicle :=
  ⟨first, c.2.spacings.length + 1, some c.1, c.2.kind, false, mismatch⟩

/-- Automatic matching, then the bogies (R114, R115). -/
def autoDecide (s : State) (closing mismatch : Bool) : Decision :=
  let total := s.axt.train.length
  let c := s.seg.cursor
  let test := fun r : Nat × ClassRec => classTest closing s.seg.spacings c (total - c) r.2
  match (matchingOrder s.seg.classes).find? fun r => decide (test r ≠ .failed) with
  | some r => if test r = .passed then .form (.ofClass c r mismatch) else .wait .cls
  | none =>
    match bogiePair closing s.settings.bogieMax s.seg.spacings c total with
    | some n => .form ⟨c, n, none, .wagon, true, mismatch⟩
    | none => .wait .bogie

/-- One evaluation of the cursor (R110, R113). -/
def decideVehicle (s : State) (closing : Bool) : Decision :=
  match s.expectedClass (s.seg.vehicles.length + 1) with
  | none => autoDecide s closing false
  | some r =>
    match classTest closing s.seg.spacings s.seg.cursor (s.axt.train.length - s.seg.cursor) r.2 with
    | .passed => .form (.ofClass s.seg.cursor r false)
    | .undecided => .wait .expected
    | .failed => autoDecide s closing true

/-! ### Forming vehicles (R110, R116, R117) -/

/-- Set the wait reason. -/
def setWait (r : WaitReason) (s : State) : State := s.setSeg { s.seg with wait := r }

/-- Change every axle of a vehicle. -/
def updVehicleAxles (v : Vehicle) (f : Axle → Axle) (s : State) : State :=
  let l := s.axt.train
  s.setAxt { s.axt with train := l.take v.first ++ (axlesOf l v.first v.count).map f ++ l.drop (v.first + v.count) }

/-- Report V to the directory entry. -/
def reportV (s : State) : State := updOpenEntry (fun e => { e with vehicles := s.seg.vehicles.length }) s

/-- A vehicle is formed (R116). -/
def formVehicle (t : Nat) (v : Vehicle) (s : State) : State :=
  let p := s.seg.vehicles.length + 1
  let s := s.setSeg { s.seg with vehicles := s.seg.vehicles ++ [v], cursor := v.first + v.count }
  let s := updVehicleAxles v (fun a => { a with vehicle := some p, unclassified := a.unclassified || v.unclassified }) s
  bindVehicle t p v (reportV s)

/-- The position limit is met (R117). -/
def meetLimit (t : Nat) (s : State) : State :=
  let s := setWait .stopped (s.setSeg { s.seg with limit := true })
  reportFault (s.occNow .tableFull t (some .positions) (some (.number 641))) s

/-- Evaluate the cursor, and each new cursor, until an evaluation waits (R110, R121). -/
def evalCursor (t : Nat) (closing : Bool) : Nat → State → State
  | 0, s => s
  | fuel + 1, s =>
    if s.axt.abandoned || s.seg.limit then setWait .stopped s
    else if s.axt.train.length ≤ s.seg.cursor then setWait .none s
    else match decideVehicle s closing with
      | .wait r => setWait r s
      | .form v =>
        if maxPositions ≤ s.seg.vehicles.length then meetLimit t s
        else evalCursor t closing fuel (formVehicle t v s)

/-- Evaluate with room for every axle to be a vehicle of its own. -/
def evaluate (t : Nat) (closing : Bool) (s : State) : State := evalCursor t closing (s.axt.train.length + 1) s

/-- The SEG is told of a new forward crossing time (R109). -/
def segTold (t : Nat) (s : State) : State :=
  let new := findSpacings s s.axt.train s.seg.spacings
  let grew := decide (presentCount s.seg.spacings < presentCount new)
  let s := s.setSeg { s.seg with spacings := new }
  if grew then evaluate t false s else s

/-! ### Removal and dissolution (R119, R120) -/

/-- The last vehicle is dissolved (R120). -/
def dissolveLast (s : State) : State :=
  match s.seg.vehicles.getLast? with
  | none => s
  | some v =>
    let p := s.seg.vehicles.length
    let s := s.setSeg { s.seg with vehicles := s.seg.vehicles.dropLast, cursor := v.first, limit := false }
    let s := updVehicleAxles v (fun a => { a with vehicle := none, unclassified := false }) s
    dissolveVehicle p v (reportV s)

/-- The AXT has removed the tail axle `a` (R119). -/
def segRemoved (a : Axle) (s : State) : State :=
  let s := s.setSeg { s.seg with spacings := s.seg.spacings.take (s.axt.train.length - 1) }
  if a.vehicle.isSome then dissolveLast s else s

/-- Step 5 of the close: the segmentation of the passage is cleared (R108). -/
def Seg.closePassage (g : Seg) : Seg :=
  { g with cursor := 0, spacings := [], vehicles := [], wait := .none, limit := false }

end Sys2Proof.Machine
end

