-- ==== Sys2Proof/Machine/Store.lean ====
section
/-! DEFINITION. The Store Controller: the start of an operation, its writes, its end, the cut of its write by a
loss of power, and the store load (R165 to R172; notes/assumptions/13.md, 14.md). -/

namespace Sys2Proof.Machine

/-! ### Cells (R169, R170) -/

/-- The other passage-number cell. -/
def CellId.other : CellId → CellId
  | .first => .second
  | .second => .first

/-- What a cell holds. -/
def Store.cell (st : Store) : CellId → Option Cell
  | .first => st.cell1
  | .second => st.cell2

/-- Replace what a cell holds. -/
def Store.setCell (st : Store) (c : CellId) (v : Option Cell) : Store :=
  match c with
  | .first => { st with cell1 := v }
  | .second => { st with cell2 := v }

/-- A write of a number: to the cell that does not hold the later write, its sequence one above (R169). -/
def Stc.nextWrite (x : Stc) (number : Nat) : CellId × Cell := (x.cell.other, ⟨number, (x.sequence + 1) % 65536⟩)

/-- The number a reservation write carries (R169). -/
def State.reservedNumber (s : State) : Nat := numberAfter s.ptb.lastNumber 1000

/-! ### Starting an operation and its closing write (R167, R169) -/

/-- Put an operation in hand. -/
def setBusy (b : Busy) (s : State) : State := s.setStc { s.stc with busy := some b }

/-- An operation starts with its reservation write (R167, R169). -/
def startOperation (op : StoreOp) (items : List Item) (t : Nat) (s : State) : State :=
  setBusy ⟨op, .reservation, t + cellTicks, some (s.stc.nextWrite s.reservedNumber), items, false⟩ s

/-- The closing write begins: the last passage number as it stands (R169). -/
def startClosing (b : Busy) (s : State) : State :=
  setBusy { b with phase := .closing, due := b.due + cellTicks, items := []
                   write := some (s.stc.nextWrite s.ptb.lastNumber) } s

/-- The new passage number reaches the STC, at step 5 of the opening (R169). -/
def coverNumber (t : Nat) (s : State) : State :=
  match s.stc.busy with
  | none => startOperation .passageNumber [] t s
  | some b => if b.phase = .closing then s.setStc { s.stc with waiting := true } else s

/-! ### Faults and ends (R165) -/

/-- STORE_FAULT for an operation, or for one of its two writes (R165, R169). -/
def storeFault (op : StoreOp) (w : Option WritePhase) (s : State) : State :=
  reportFault (s.occNow .storeFault s.timebase none (some (.store op w))) s

/-- The failure count and store state after an operation (R165). -/
def Stc.record (x : Stc) (op : StoreOp) (ok : Bool) : Stc :=
  if ok then { x with last := some (.succeeded, op), failures := 0, health := .ok }
  else
    let n := satSucc 3 x.failures
    { x with last := some (.failed, op), failures := n, health := if n = 3 then .failed else x.health }

/-- A waiting write starts at the end of an operation (R169). -/
def startWaiting (t : Nat) (s : State) : State :=
  if s.stc.waiting then startOperation .passageNumber [] t (s.setStc { s.stc with waiting := false }) else s

/-- The end of an operation other than LOAD: outcome, STORE_FAULT, STORE, then any waiting write (R165, R169). -/
def endOperation (op : StoreOp) (ok : Bool) (due : Nat) (s : State) : State :=
  let s := s.setStc { s.stc.record op ok with busy := none }
  let s := if ok then s else storeFault op none s
  startWaiting due (raiseAtt .store s)

/-! ### The end of one write -/

/-- The timebase reaches the end of the write in hand. -/
def reachDue (b : Busy) (s : State) : State := s.advance b.due

/-- What a cell write leaves at its end: verified, it is the later write; not verified, it is not (the model's choice,
notes/assumptions/50.md), and the cell holds what the free value says (notes/assumptions/13.md). -/
def leaveCell (b : Busy) (verified : Bool) (s : State) : State :=
  match b.write with
  | none => s
  | some (c, v) =>
    if verified then (s.setStore (s.store.setCell c (some v))).setStc { s.stc with cell := c, sequence := v.sequence }
    else
      let held := match Config.entryAfterFailedVerify s.freeCount with
        | none => none
        | some true => some v
        | some false => s.store.cell c
      (s.setStore (s.store.setCell c held)).drawFree

/-- STORE_FAULT of a cell write that failed its verify (R169). -/
def reportCellWrite (b : Busy) (verified : Bool) (s : State) : State :=
  if verified || b.write.isNone then s else storeFault b.op (some b.phase) s

/-- A cell write ends (R169). -/
def endCellWrite (b : Busy) (verified : Bool) (s : State) : State := reportCellWrite b verified (leaveCell b verified s)

/-- A closing write ends and with it its operation. The write's STORE_FAULT and the occurrences of the operation's end are
reported together: which are taken first is a free value, and the two orders differ in the capture alone (R179;
notes/assumptions/54.md). -/
def endClosing (b : Busy) (verified : Bool) (finish : State → State) (s : State) : State :=
  let writeFirst := finish (endCellWrite b verified s)
  let endFirst := reportCellWrite b verified (finish (leaveCell b verified s))
  writeFirst.setFau { writeFirst.fau with
    capture := if !verified && Config.operationEndFirst s.freeCount then endFirst.fau.capture else writeFirst.fau.capture }

/-- The stored entry an item writes at its place, absent for an erasure. -/
def storedAfter {α : Type} (outcome : Option Bool) (new old : Option (Stored α)) : Option (Stored α) :=
  match outcome with
  | none => some .bad
  | some true => new
  | some false => old

/-- Give a key of a table of stored entries a content, or none. -/
def putStored {α : Type} (t : Table (Stored α)) (k : Nat) (v : Option (Stored α)) : Table (Stored α) :=
  match v with
  | some x => tput t k x
  | none => tdel t k

/-- The class codes, 1 to 24. -/
def classCodes : List Nat := (List.range 24).map (· + 1)

/-- The class area with each entry decided by its code (R167). -/
def writeClasses (old : Table (Stored ClassRec)) (new : Table ClassRec) (f : Nat → Option Bool) : Table (Stored ClassRec) :=
  classCodes.foldl (fun t c => putStored t c (storedAfter (f c) ((tget new c).map .sound) (tget old c))) old

/-- What an item leaves in the store, given for each entry it writes whether it is new, old or fails its check. -/
def Store.writeItem (st : Store) (i : Item) (f : Nat → Option Bool) : Store :=
  match i with
  | .classArea t => { st with classes := writeClasses st.classes t f }
  | .write k r => { st with places := putStored st.places k (storedAfter (f 0) (some (.sound r)) (tget st.places k)) }
  | .erase k => { st with places := putStored st.places k (storedAfter (f 0) none (tget st.places k)) }

/-- An item ends: verified, it is in the store; not verified, the free values say (notes/assumptions/13.md). -/
def endItem (i : Item) (verified : Bool) (s : State) : State :=
  if verified then s.setStore (s.store.writeItem i fun _ => some true)
  else (s.setStore (s.store.writeItem i fun c => Config.entryAfterFailedVerify (s.freeCount + c))).setFreeCount (s.freeCount + 25)

/-! ### The items of a register commit (R167) -/

/-- The writes and erasures of places, by place. -/
def placeItems (w : Wrg) : Table Item :=
  let writes := (w.records.filter fun r => r.2.dirty).map fun r => (r.2.place, Item.write r.2.place r.2.fields)
  let erasures := w.retired.map fun r => (r.1, Item.erase r.1)
  tputAll [] (writes ++ erasures)

/-- The items in the order of the commit: the class area, then places in ascending order (R167). -/
def commitItems (s : State) : List Item :=
  (if s.seg.dirty then [.classArea s.seg.classes] else []) ++ (placeItems s.wrg).map (·.2)

/-- The snapshot of a register commit: the marks it sets (R167). -/
def markCommit (s : State) : State :=
  let s := s.setWrg { records := tmap (fun _ r => { r with commit := r.commit || r.dirty }) s.wrg.records
                      retired := tmap (fun _ r => { r with commit := true }) s.wrg.retired }
  s.setSeg { s.seg with commit := s.seg.dirty }

/-- A register commit begins (R167). -/
def startCommit (t : Nat) (s : State) : State :=
  startOperation .registerCommit (commitItems s) t (markCommit s)

/-- What success leaves of a register record (R168). -/
def RegRec.committed (r : RegRec) : RegRec := if r.commit then { r with dirty := false, commit := false } else r

/-- A register commit ends in success (R168; notes/assumptions/33.md). -/
def commitSucceeded (s : State) : State :=
  let s := s.setWrg { records := tmap (fun _ r => r.committed) s.wrg.records
                      retired := tkeep (fun _ r => !r.commit) s.wrg.retired }
  if s.seg.commit then s.setSeg { s.seg with dirty := false, commit := false } else s

/-- A register commit ends in failure (R168). -/
def commitFailed (s : State) : State :=
  let s := s.setWrg { records := tmap (fun _ r => { r with commit := false }) s.wrg.records
                      retired := tmap (fun _ r => { r with commit := false }) s.wrg.retired }
  s.setSeg { s.seg with commit := false }

/-! ### A loss of power (R172; notes/assumptions/14.md) -/

/-- The cell being written fails its check. -/
def cutCell (b : Busy) (st : Store) : Store :=
  match b.write with
  | some (c, _) => st.setCell c none
  | none => st

/-- How a cut class-area write leaves each code: new below the one being written, old above it. -/
def cutClass (at_ code : Nat) : Option Bool := if code < at_ then some true else if code = at_ then none else some false

/-- The write being made fails its check. -/
def cutBody (b : Busy) (free : Nat) (st : Store) : Store :=
  match b.op, b.items with
  | .registerCommit, .classArea t :: _ =>
    st.writeItem (.classArea t) (cutClass (Config.classEntryAtCut free % 24 + 1))
  | .registerCommit, i :: _ => st.writeItem i fun _ => none
  | .calibrationCommit, _ => { st with image := none }
  | _, _ => st

/-- A cut in a reservation write: the cell fails its check, and so does the image of a calibration commit (R88, R172). -/
def cutReservation (b : Busy) (st : Store) : Store :=
  let st := cutCell b st
  if b.op = .calibrationCommit then { st with image := none } else st

/-- The store after a loss of power (R172). -/
def cutStore (busy : Option Busy) (free : Nat) (st : Store) : Store :=
  match busy with
  | none => st
  | some b =>
    match b.phase with
    | .reading => st
    | .reservation => cutReservation b st
    | .body => cutBody b free st
    | .closing => cutCell b st

/-! ### The store load (R170, R171) -/

/-- The last passage number, the cell in use and its sequence, from the two cells (R170): 1,001 beyond a lone sound cell,
against R172's "plus one" (notes/assumptions/49.md), and the first cell where R170 does not say which
(notes/assumptions/51.md). -/
def loadCells (x y : Option Cell) : Nat × CellId × Nat :=
  match x, y with
  | some a, some b =>
    if a.sequence = (b.sequence + 1) % 65536 then (a.number, .first, a.sequence)
    else if b.sequence = (a.sequence + 1) % 65536 then (b.number, .second, b.sequence)
    else if a.number < b.number then (b.number, .second, b.sequence)
    else (a.number, .first, a.sequence)
  | some a, none => (numberAfter a.number 1001, .first, a.sequence)
  | none, some b => (numberAfter b.number 1001, .second, b.sequence)
  | none, none => (0, .first, 0)

/-- The classes that join the table (R171). -/
def loadClasses : Table (Stored ClassRec) → Table ClassRec
  | [] => []
  | (k, .sound c) :: t => if codeOk k && classRecOk c then (k, c) :: loadClasses t else loadClasses t
  | (_, .bad) :: t => loadClasses t

/-- The records that join the register, in ascending place (R171). -/
def loadRecords : Table (Stored RegFields) → List (Nat × RegRec)
  | [] => []
  | (k, .sound r) :: t =>
    if decide (k < maxRegister) && r.ok then (r.fleet, ⟨r, k, false, false⟩) :: loadRecords t else loadRecords t
  | (_, .bad) :: t => loadRecords t

/-- The STC's part of the load: class table, register, last passage number (R170, R171). -/
def loadTables (s : State) : State :=
  let cells := loadCells s.store.cell1 s.store.cell2
  let s := s.setSeg { s.seg with classes := loadClasses s.store.classes, dirty := false, commit := false }
  let s := s.setWrg ⟨tputAll [] (loadRecords s.store.places), []⟩
  let s := s.setPtb { s.ptb with lastNumber := cells.1 }
  s.setStc ⟨none, false, none, 0, .ok, cells.2.1, cells.2.2⟩

/-- The lost register entries, lost class entries, and whether both cells failed (R171). -/
def lostEntries (st : Store) : Nat × Nat × Bool :=
  (st.places.length - (loadRecords st.places).length, st.classes.length - (loadClasses st.classes).length,
   st.cell1.isNone && st.cell2.isNone)

/-- STORE_RECORDS_LOST, when anything was counted lost (R171). -/
def lostFault (t : Nat) (st : Store) : Option FaultOcc :=
  let l := lostEntries st
  if l.1 = 0 ∧ l.2.1 = 0 ∧ l.2.2 = false then none
  else some ⟨.storeRecordsLost, t, none, none, some (.lost l.1 l.2.1 l.2.2)⟩

end Sys2Proof.Machine
end

