-- ==== Sys2Proof/Machine/Calibration.lean ====
section
/-! DEFINITION. The Calibration Unit: validation, staging, commits and their application, the switch, and the
examination of the stored image (R80 to R92). -/

namespace Sys2Proof.Machine

/-! ### Validation (R81, R82) -/

/-- A value within bounds. -/
def within (lo hi v : Int) : Bool := decide (lo ≤ v ∧ v ≤ hi)

/-- A platform's pattern: no channel, or at least one on each rail (R81, field 1). -/
def platformPatternOk (pattern : Int) (p : Platform) : Bool :=
  let rails := railChannels p
  !(channelsOf p).any (inPattern pattern) || (rails.1.any (inPattern pattern) && rails.2.any (inPattern pattern))

/-- Field 1 (notes/assumptions/11.md: no bit beyond the eight channels). -/
def patternOk (v : Int) : Bool := within 0 255 v && platformPatternOk v .a && platformPatternOk v .b

/-- The first channel whose value fails a test. -/
def failingChannel (p : Int → Bool) (x : PerChannel Int) : Option Nat :=
  (channels.find? fun c => !p (x.get c)).map (·.val)

/-- The first failing entry of a speed band table, counted from 1, after a bound (R82). -/
def failingBand : Nat → Nat → List Band → Option Nat
  | _, _, [] => none
  | i, prev, b :: l =>
    if decide (1 ≤ b.upper ∧ b.upper ≤ 999 ∧ prev < b.upper) && within (-20000) 20000 b.k then failingBand (i + 1) b.upper l
    else some i

/-- Field 14: the failure of a table, with its entry where it has one (R82). -/
def bandsFailing (l : List Band) : Option (Option Nat) :=
  if l.length = 0 ∨ 8 < l.length then some none else (failingBand 1 0 l).map some

/-- A failing field, when a test of it fails. -/
def failsAt (ok : Bool) (field : Nat) : Option (Nat × Option Nat) := if ok then none else some (field, none)

/-- Validation: the first failing field, with its channel or entry (R82). -/
def validate (c : CalSet) : Option (Nat × Option Nat) :=
  [ failsAt (patternOk c.fitted) 1,
    (failingChannel (within 1 1048575) c.gain).map fun k => (2, some k),
    (failingChannel (within (-8388608) 8388607) c.zero).map fun k => (3, some k),
    failsAt (within 100 500 c.headSpacing) 4,
    failsAt (within 600 2500 c.lengthA) 5,
    failsAt (within 600 2500 c.lengthB) 6,
    failsAt (within 0 (c.lengthA / 4) c.guard && within 0 (c.lengthB / 4) c.guard) 7,
    failsAt (within 8 200 c.nMin) 8,
    failsAt (decide (c.interval = 10 ∨ c.interval = 20 ∨ c.interval = 50 ∨ c.interval = 100)) 9,
    failsAt (within 5000 50000 c.maxAxle) 10,
    failsAt (decide (0 ≤ c.zeroRange ∧ 50 * c.zeroRange ≤ c.maxAxle)) 11,
    failsAt (within 0 5000 c.tabs) 12,
    failsAt (within 0 100000 c.trel) 13,
    (bandsFailing c.bands).map fun e => (14, e),
    failsAt (within 1 800 c.certMax) 15,
    failsAt (within c.certMax 800 c.measMax) 16 ].findSome? id

/-! ### Staging (R83, R85, R86) -/

/-- Make the staging copy equal to the working set. -/
def discardStaging (s : State) : State := s.setCal { s.cal with staging := s.cal.working }

/-- One field of a set takes a value (R81, R85). -/
def stageField (field : Nat) (channel : Fin 8) (v : Int) (bands : List Band) (c : CalSet) : CalSet :=
  match field with
  | 1 => { c with fitted := v }
  | 2 => { c with gain := c.gain.set channel v }
  | 3 => { c with zero := c.zero.set channel v }
  | 4 => { c with headSpacing := v }
  | 5 => { c with lengthA := v }
  | 6 => { c with lengthB := v }
  | 7 => { c with guard := v }
  | 8 => { c with nMin := v }
  | 9 => { c with interval := v }
  | 10 => { c with maxAxle := v }
  | 11 => { c with zeroRange := v }
  | 12 => { c with tabs := v }
  | 13 => { c with trel := v }
  | 14 => { c with bands := bands }
  | 15 => { c with certMax := v }
  | 16 => { c with measMax := v }
  | 17 => { c with stamp := v }
  | _ => c

/-- What a CAL_STAGE request fails for: the field, the channel, or the table (R85; notes/assumptions/26.md). -/
def stageFailing (field channel : Nat) (bands : List Band) : Option (Nat × Option Nat) :=
  if field < 1 ∨ 17 < field then some (0, none)
  else if (field = 2 ∨ field = 3) ∧ 7 < channel then some (field, some channel)
  else if field = 14 ∧ 8 < bands.length then some (14, none)
  else none

/-- An accepted CAL_STAGE (R85). -/
def stage (field channel : Nat) (v : Int) (bands : List Band) (s : State) : State :=
  s.setCal { s.cal with staging := stageField field (Fin.ofNat 8 channel) v bands s.cal.staging }

/-! ### Commits (R87 to R91) -/

/-- A calibration commit begins: snapshot, WRITING, and the STC busy (R87). -/
def beginCalCommit (t : Nat) (s : State) : State :=
  startOperation .calibrationCommit [] t
    (s.setCal { s.cal with snapshot := some s.cal.staging, phase := .writing })

/-- Steps 1 to 3 of an application (R89). -/
def adoptSet (c : CalSet) (s : State) : State :=
  s.setCal { s.cal with
    counter := s.cal.counter + 1, working := c, snapshot := none, state := .valid, phase := .idle
    staging := if s.calsw = .operate then c else s.cal.staging }

/-- The application of a commit (R89). -/
def applyCommit (c : CalSet) (s : State) : State :=
  evalPermit (applyPattern s.timebase c.fitted (zclApply (adoptSet c s)))

/-- A held commit is applied, at step 7 of the close (R90). -/
def applyHeld (s : State) : State :=
  match s.cal.phase, s.cal.snapshot with
  | .held, some c => applyCommit c s
  | _, _ => s

/-- The commit's write has ended with success: applied, or held while a passage is open (R88, R90). -/
def calSucceeded (s : State) : State :=
  let s := s.setCal { s.cal with lastOutcome := some .succeeded }
  match s.isOpen, s.cal.snapshot with
  | false, some c => applyCommit c s
  | _, _ => s.setCal { s.cal with phase := .held }

/-- The commit's write has ended with failure (R88). -/
def calFailed (s : State) : State :=
  s.setCal { s.cal with lastOutcome := some .failed, phase := .idle, snapshot := none }

/-- The image write and its read-back end: verified, the shadow is written too (R88, R91; notes/assumptions/13.md). -/
def endImage (verified : Bool) (s : State) : State :=
  if verified then
    match s.cal.snapshot with
    | some c => s.setStore { s.store with image := some (c, s.cal.counter + 1), shadow := some (s.cal.counter + 1) }
    | none => s
  else
    (s.setStore { s.store with
      image := if Config.imageFailsAfterFailedVerify s.freeCount then none else s.store.image }).drawFree

/-! ### The switch (R83, R84) -/

/-- The passage is marked when the switch moves to CALIBRATE with it open (R84). -/
def markIfCalibrate (pos : SwitchPos) (s : State) : State :=
  if pos = .calibrate then markUnverified s else s

/-- A change of the switch in a part that has started (R83). -/
def switchChanged (pos : SwitchPos) (s : State) : State :=
  let s := if pos = .operate then discardStaging s else s
  if s.isOpen then reportFault (s.occNow .calSwitch s.timebase none (some (.switch pos))) (markIfCalibrate pos s) else s

/-! ### The stored image at start-up (R91, R92) -/

/-- The counter taken from the shadow when the image fails (R91). -/
def shadowCounter (st : Store) : Nat := st.shadow.getD 65535

/-- The working set, state, counter and CAL_INVALID detail that the store gives (R92). -/
def examineImage (st : Store) : CalSet × CalState × Nat × Option FaultDetail :=
  match st.image with
  | none => (factoryDefaults, .invalid, shadowCounter st, some .calCheck)
  | some (c, n) =>
    match validate c with
    | none => (c, .valid, n, none)
    | some f => (factoryDefaults, .invalid, shadowCounter st, some (.calValidation f.1))

/-- The CAL's part of the load, with the LCU's and the ZCL's (R92, R13, R93). -/
def loadCalibration (s : State) : State :=
  let x := examineImage s.store
  let s := s.setCal ⟨x.1, x.1, x.2.1, x.2.2.1, .idle, none, none⟩
  let s := s.setZcl { s.zcl with zeros := x.1.zero }
  applyPattern s.timebase x.1.fitted s

/-- CAL_INVALID, when the calibration is INVALID (R92). -/
def invalidFault (t : Nat) (st : Store) : Option FaultOcc :=
  (examineImage st).2.2.2.map fun d => ⟨.calInvalid, t, none, none, some d⟩

end Sys2Proof.Machine
end

