-- ==== Sys2Proof/Machine/StoreEnds.lean ====
section
/-! DEFINITION. What the end of each store write does, and the end of the store load (R88, R92, R165 to R171,
R180, R199; notes/assumptions/2.md). -/

namespace Sys2Proof.Machine

/-- The operation in hand when its write in hand is of a given phase, and of a given operation if one is named. -/
def State.inHand (s : State) (phase : WritePhase) (op : Option StoreOp) : Option Busy :=
  match s.stc.busy with
  | none => none
  | some b => if b.phase = phase ∧ (op = none ∨ op = some b.op) then some b else none

/-- The body of an operation begins, its next write ending after some ticks. -/
def startBody (b : Busy) (ticks : Nat) (s : State) : State :=
  setBusy { b with phase := .body, due := b.due + ticks, write := none } s

/-- What follows the reservation write, or an item that verified (R167, R169, R88). -/
def continueOperation (b : Busy) (s : State) : State :=
  match b.op, b.items with
  | .registerCommit, _ :: _ => startBody b itemTicks s
  | .calibrationCommit, _ => startBody b imageTicks s
  | _, _ => startClosing b s

/-- The reservation write ends (R169). -/
def reservationEnds (verified : Bool) (s : State) : State :=
  match s.inHand .reservation none with
  | none => s
  | some b => continueOperation b (endCellWrite b verified (reachDue b s))

/-- An item of a register commit ends (R167, R168). -/
def itemEnds (verified : Bool) (s : State) : State :=
  match s.inHand .body (some .registerCommit) with
  | none => s
  | some b =>
    match b.items with
    | [] => s
    | i :: rest =>
      let s := endItem i verified (reachDue b s)
      if verified then continueOperation { b with items := rest } s else startClosing { b with failed := true } s

/-- The closing write of a register commit ends (R168). -/
def registerCommitEnds (verified : Bool) (s : State) : State :=
  match s.inHand .closing (some .registerCommit) with
  | none => s
  | some b =>
    endClosing b verified (fun s =>
      endOperation .registerCommit (!b.failed) b.due (if b.failed then commitFailed s else commitSucceeded s)) (reachDue b s)

/-- The closing write of a passage-number operation ends (R169; notes/assumptions/17.md). -/
def numberEnds (verified : Bool) (s : State) : State :=
  match s.inHand .closing (some .passageNumber) with
  | none => s
  | some b => endClosing b verified (endOperation .passageNumber verified b.due) (reachDue b s)

/-- The image write and read-back of a calibration commit end (R88). -/
def imageEnds (verified : Bool) (s : State) : State :=
  match s.inHand .body (some .calibrationCommit) with
  | none => s
  | some b => startClosing { b with failed := !verified } (endImage verified (reachDue b s))

/-- The closing write of a calibration commit ends, and with it the commit's 60 ms (R88, R90). -/
def calibrationEnds (verified : Bool) (s : State) : State :=
  match s.inHand .closing (some .calibrationCommit) with
  | none => s
  | some b =>
    endClosing b verified (fun s =>
      endOperation .calibrationCommit (!b.failed) b.due (if b.failed then calFailed s else calSucceeded s)) (reachDue b s)

/-! ### The end of the store load (R171, R199) -/

/-- Take a list of occurrences one after another. -/
def takeAll (l : List FaultOcc) (s : State) : State := l.foldl (fun s o => takeFault o s) s

/-- The occurrences reported as the load ends, in the order the operand gives (R92, R171, R179). -/
def loadFaults (calFirst : Bool) (t : Nat) (st : Store) : List FaultOcc :=
  let c := (invalidFault t st).toList
  let l := (lostFault t st).toList
  if calFirst then c ++ l else l ++ c

/-- The FAU takes the occurrences it held, then those of the load's end (R180). -/
def takeHeld (l : List FaultOcc) (s : State) : State :=
  takeAll (s.fau.held ++ l) (s.setFau { s.fau with held := [] })

/-- The store load ends: everything read, READY, held occurrences taken, PERMIT evaluated (R92, R170, R171, R199). -/
def finishLoad (calFirst : Bool) (s : State) : State :=
  let s := s.advance loadTicks
  let faults := loadFaults calFirst s.timebase s.store
  let s := loadCalibration (loadTables s)
  evalPermit (takeHeld faults (s.setCondition .ready))

/-- The store load ends, when it is in hand. -/
def loadEnds (calFirst : Bool) (s : State) : State :=
  match s.inHand .reading (some .load) with
  | none => s
  | some _ => finishLoad calFirst s

end Sys2Proof.Machine
end

