-- ==== Sys2Proof/Machine/Tracker.lean ====
section
/-! DEFINITION. The Wheel Station Unit and the Axle Tracker: pairing, head incidents, opening, matching, windows,
settlement, removal, abandonment and close (R4 to R12, R26 to R50). -/

namespace Sys2Proof.Machine

/-! ### Stations and zones -/

/-- Change one station record. -/
def updStation (k : Station) (f : StationRec → StationRec) (s : State) : State := s.setWsu (s.wsu.set k (f (s.wsu.get k)))

/-- Is the station of a travel-order name OK. -/
def State.postOk (s : State) (x : Post) : Bool := decide ((s.wsu.get (stationOf s.direction x)).state = .ok)

/-- The place of a recorded zone in travel order; APPROACH is 0 (R3). -/
def zoneRank : Zone → Nat
  | .first => 1
  | .second => 2
  | .exit => 3

/-- The zone immediately after a station (R31). -/
def zoneAfter : Post → Zone
  | .e => .first
  | .m => .second
  | .f => .exit

/-- The rank of the first zone of the merged zone before a station (R31). -/
def State.lowBefore (s : State) : Post → Nat
  | .e => 0
  | .m => if s.postOk .e then 1 else 0
  | .f => if s.postOk .m then 2 else if s.postOk .e then 1 else 0

/-- The rank of the last zone of the merged zone after a station (R31). -/
def State.highAfter (s : State) : Post → Nat
  | .f => 3
  | .m => if s.postOk .f then 2 else 3
  | .e => if s.postOk .m then 1 else if s.postOk .f then 2 else 3

/-- The rank of the first zone of the last zone (R31). -/
def State.lastLow (s : State) : Nat :=
  if s.postOk .f then 3 else if s.postOk .m then 2 else if s.postOk .e then 1 else 0

/-- Does a recorded zone lie in the last zone (R31). -/
def State.inLastZone (s : State) (z : Zone) : Bool := decide (s.lastLow ≤ zoneRank z)

/-- Does a recorded zone lie in a merged zone that includes APPROACH (R31). -/
def State.reachesApproach (s : State) : Zone → Bool
  | .first => !s.postOk .e
  | .second => !s.postOk .e && !s.postOk .m
  | .exit => !s.postOk .e && !s.postOk .m && !s.postOk .f

/-- Does an axle count as in APPROACH (R31). -/
def State.countsApproach (s : State) (a : Axle) : Bool := s.reachesApproach a.zone && !s.inLastZone a.zone

/-- Is the bridge occupied (R46). -/
def State.occupied (s : State) : Bool :=
  s.isOpen &&
    (s.holdsPending .s1 || s.holdsPending .s2 || s.holdsPending .s3 ||
      (!s.axt.abandoned && s.axt.train.any fun a => !s.inLastZone a.zone && !s.countsApproach a))

/-! ### Reports and activity (R26, R48) -/

/-- Set the last activity time of the open passage. -/
def touch (t : Nat) (s : State) : State :=
  s.setAxt { s.axt with passage := s.axt.passage.map fun q => { q with lastActivity := t } }

/-- The AXT reports its counts and mark to the directory entry (R26, R30). -/
def reportTracker (s : State) : State :=
  updOpenEntry (fun e => { e with
    axleCount := s.axt.train.length, phantom := s.axt.phantom, abandoned := s.axt.abandoned }) s

/-- Replace the axle train. -/
def State.setTrain (s : State) (x : List Axle) : State := s.setAxt { s.axt with train := x }

/-! ### Windows (R37 to R41) -/

/-- Is a travel-order platform measurable (R37). -/
def State.measurable (s : State) (side : Side) : Bool :=
  match side with
  | .first => s.postOk .e && (s.postOk .m || s.postOk .f)
  | .second => s.postOk .f && (s.postOk .m || s.postOk .e)

/-- Set or clear the open mark of a window. -/
def markWindow (side : Side) (v : Option Nat) (i : Nat) (s : State) : State :=
  updAxle i (fun a => { a with windows := a.windows.set side v }) s

/-- A window opens (R38). -/
def openWindow (side : Side) (i t : Nat) (s : State) : State :=
  meuOpen (platformOf s.direction side) i t (markWindow side (some t) i s)

/-- A window in flight is cancelled (R41). -/
def cancelWindow (side : Side) (i : Nat) (s : State) : State :=
  match (s.axt.train[i]?).bind fun a => a.windows.get side with
  | none => s
  | some _ => meuCancel (platformOf s.direction side) i (markWindow side none i s)

/-- Every window of an axle is cancelled. -/
def cancelWindows (i : Nat) (s : State) : State := cancelWindow .second i (cancelWindow .first i s)

/-- A window closes over a span, or is cancelled when the end is not later than the start (R39, R40). -/
def closeWindow (side : Side) (x : Span) (s : State) : State :=
  if x.tIn < x.tOut then meuClose (platformOf s.direction side) x (markWindow side none x.axle s)
  else cancelWindow side x.axle s

/-- The estimated M time (R40). -/
def estimatedM (c : CalSet) (d : Direction) (tE tF : Nat) : Nat :=
  let l1 := platformLength c (platformOf d .first)
  let l2 := platformLength c (platformOf d .second)
  tE + (tF - tE) * l1 / (l1 + l2)

/-- The windows of an axle close by interpolation at F (R40). A SECOND window opened at M closes with its own entry and
the crowded mark it bears; R62 can be read otherwise (the model's choice, notes/assumptions/53.md). -/
def closeInterpolated (i tF : Nat) (a : Axle) (s : State) : State :=
  match a.windows.first, a.windows.second with
  | some tE, _ =>
    let tM := estimatedM s.cal.working s.direction tE tF
    let s := closeWindow .first ⟨i, tE, tM, true, (.e, .f)⟩ s
    if tM < tF then meuClose (platformOf s.direction .second) ⟨i, tM, tF, true, (.e, .f)⟩ s else s
  | none, some tIn => closeWindow .second ⟨i, tIn, tF, true, (.m, .f)⟩ s
  | none, none => s

/-- The window on the platform before a station closes (R34, step 2). -/
def closeBefore (x : Post) (i t : Nat) (s : State) : State :=
  match s.axt.train[i]? with
  | none => s
  | some a =>
    match x with
    | .e => s
    | .m =>
      match a.windows.first with
      | some tIn => closeWindow .first ⟨i, tIn, t, false, endsOf .first⟩ s
      | none => s
    | .f =>
      if s.postOk .m then
        match a.windows.second with
        | some tIn => closeWindow .second ⟨i, tIn, t, false, endsOf .second⟩ s
        | none => s
      else closeInterpolated i t a s

/-- The window on the platform after a station opens, when it is measurable (R34, step 3; R38). -/
def openAfter (x : Post) (i t : Nat) (s : State) : State :=
  match x with
  | .e => if s.measurable .first then openWindow .first i t s else s
  | .m => if s.measurable .second then openWindow .second i t s else s
  | .f => s

/-! ### Settlement (R43, R44) -/

/-- The measurement of status UNBOUNDED (R43). -/
def Measurement.unbounded : Measurement := ⟨.unbounded, none, none, none, none, none, 0, none, none⟩

/-- UNBOUNDED on a platform on which an axle holds no measurement, a deferred one counting (R43, R61). -/
def bound (side : Side) (i : Nat) (s : State) : State :=
  if (s.meu.get (platformOf s.direction side)).defers i then s
  else updAxle i (fun a => if (a.meas.get side).isSome then a
    else { a with meas := a.meas.set side (some .unbounded) }) s

/-- An axle is settled (R43). -/
def settle (i : Nat) (s : State) : State :=
  combineSettled i (updAxle i (fun a => { a with settled := true }) (bound .second i (bound .first i s)))

/-- Is an axle present, unsettled and in the last zone. -/
def State.toSettle (s : State) (i : Nat) : Bool :=
  match s.axt.train[i]? with
  | none => false
  | some a => !a.settled && s.inLastZone a.zone

/-! ### Station faults (R9, R11, R42) -/

/-- Step 1 of the re-examination, for one axle and one platform. -/
def cancelUnmeasurable (side : Side) (i : Nat) (s : State) : State :=
  if s.measurable side then s else cancelWindow side i s

/-- Step 2 of the re-examination: the axles to settle, in ascending index. -/
def settleLast (s : State) : List Nat :=
  if s.axt.abandoned then [] else (List.range s.axt.train.length).filter s.toSettle

/-- The re-examination after a station fault, and the PTB told of each settlement (R42, R43). -/
def reexamine (t : Nat) (s : State) : State :=
  let s := (List.range s.axt.train.length).foldl
    (fun s i => cancelUnmeasurable .second i (cancelUnmeasurable .first i s)) s
  let l := settleLast s
  let s := l.foldl (fun s i => settle i s) s
  l.foldl (fun s i => noticeAxle t i s) s

/-- A station becomes FAULTED (R9). -/
def StationRec.fault (r : StationRec) : StationRec := { r with state := .faulted, pending := none, returns := 0 }

/-- A head incident (R9), with the re-examination it brings about (R42). -/
def headIncident (cause : IncidentCause) (t : Nat) (k : Station) (s : State) : State :=
  if (s.wsu.get k).state = .faulted then s
  else
    let s := updStation k .fault s
    let s := reportFault (s.occNow .headIncident t (some (.station k)) (some (.incident cause))) s
    if s.isOpen then reexamine t s else s

/-! ### Removal (R45) -/

/-- The tail axle is removed: its window, its entry, its vehicle (R45). -/
def removeTail (s : State) : State :=
  match s.axt.train.getLast? with
  | none => s
  | some a =>
    let i := s.axt.train.length - 1
    let s := cancelWindows i s
    segRemoved a (reportTracker (s.setTrain s.axt.train.dropLast))

/-! ### Close (R50) -/

/-- Step 1 of the close: the axles counted as in APPROACH are discarded from the tail. -/
def discardApproach : Nat → State → State
  | 0, s => s
  | fuel + 1, s =>
    match s.axt.train.getLast? with
    | some a => if s.countsApproach a then discardApproach fuel (removeTail s) else s
    | none => s

/-- Step 2 of the close for one station (R12). -/
def closePending (t : Nat) (s : State) (k : Station) : State :=
  if s.holdsPending k then headIncident .pendingAtClose t k s else s

/-- Step 6 of the close for one station (R12). -/
def StationRec.release (r : StationRec) : StationRec := { r with state := .ok, pending := none, returns := 0 }

/-- Step 5 of the close: the train, the passage record, the MEU's lists and the segmentation (R50, R52, R108). -/
def clearPassage (s : State) : State :=
  ((s.setAxt .reset).setMeu (s.meu.map .closePassage)).setSeg s.seg.closePassage

/-- Steps 1 to 4 of the close. -/
def closeFirst (t : Nat) (cause : CloseCause) (s : State) : State :=
  let s := discardApproach s.axt.train.length s
  let s := [Station.s1, .s2, .s3].foldl (closePending t) s
  let s := if s.axt.abandoned then s else evaluate t true s
  finalisePassage t cause s

/-- Steps 5 to 7 of the close, CLOSED, and PERMIT. -/
def closeLast (s : State) : State :=
  let s := clearPassage s
  let s := s.setWsu (s.wsu.map .release)
  evalPermit (raiseAtt .closed (zclUnfreeze (applyHeld s)))

/-- The close of a passage (R50). -/
def closePassage (t : Nat) (cause : CloseCause) (s : State) : State := closeLast (closeFirst t cause s)

/-- The expiry of the close timeout (R48). -/
def State.closeExpiry (s : State) : Option Nat :=
  s.axt.passage.map fun q => q.lastActivity + s.settings.closeTimeout * 20000

/-! ### Forward crossings (R32, R34) -/

/-- A new axle entry (R29). -/
def Axle.new (x : Post) (c : Crossing) : Axle where
  zone := zoneAfter x
  times := (⟨none, none, none⟩ : PerPost (Option PassTime)).set x (some ⟨c.time, c.interval⟩)
  windows := ⟨none, none⟩
  meas := ⟨none, none⟩
  settled := false
  load := none
  rail1 := none
  rail2 := none
  speed := none
  comb := none
  reweighed := false
  unclassified := false
  vehicle := none

/-- An axle takes a forward crossing: its zone, time and head interval (R32). -/
def Axle.cross (x : Post) (c : Crossing) (a : Axle) : Axle :=
  { a with zone := zoneAfter x, times := a.times.set x (some ⟨c.time, c.interval⟩) }

/-- Steps 2 to 6 of a forward crossing (R34). -/
def forwardEffects (x : Post) (c : Crossing) (i : Nat) (s : State) : State :=
  let s := openAfter x i c.time (closeBefore x i c.time s)
  let settles := s.toSettle i
  let s := if settles then settle i s else s
  let s := segTold c.time s
  if settles then noticeAxle c.time i s else s

/-- A new axle is appended and takes the crossing (R32, R34). -/
def appendAxle (x : Post) (c : Crossing) (s : State) : State :=
  let i := s.axt.train.length
  forwardEffects x c i (reportTracker (touch c.time (s.setTrain (s.axt.train ++ [Axle.new x c]))))

/-- Tracking is abandoned (R47). -/
def abandon (c : Crossing) (s : State) : State :=
  let s := reportTracker (s.setAxt { s.axt with abandoned := true })
  let s := reportFault (s.occNow .axleOverflow c.time (some (.station c.station)) none) s
  let s := (List.range s.axt.train.length).foldl (fun s i => cancelWindows i s) s
  setWait .stopped (touch c.time (s.setAxt { s.axt with abandonedCount := 1 }))

/-- The lowest-indexed axle of the merged zone before a station (R32). -/
def State.axleBefore (s : State) (x : Post) : Option Nat :=
  firstIdx (fun a => decide (s.lowBefore x ≤ zoneRank a.zone) && decide (zoneRank a.zone < zoneRank (zoneAfter x))) s.axt.train

/-- A forward crossing is matched, or finds no axle (R32). -/
def tryForward (x : Post) (c : Crossing) (s : State) : Option State :=
  match s.axleBefore x with
  | some i => some (forwardEffects x c i (touch c.time (updAxle i (Axle.cross x c) s)))
  | none =>
    if s.lowBefore x = 0 then some (if maxAxles ≤ s.axt.train.length then abandon c s else appendAxle x c s)
    else none

/-- A phantom crossing is ignored and counted (R35). -/
def phantom (c : Crossing) (s : State) : State :=
  let s := touch c.time (s.setAxt { s.axt with phantom := satSucc 65535 s.axt.phantom })
  reportFault (s.occNow .phantomCrossing c.time (some (.station c.station)) (some (.direction c.direction))) (reportTracker s)

/-- The nearest OK station before a station in travel order (R36). -/
def State.upstream (s : State) : Post → Option Post
  | .e => none
  | .m => if s.postOk .e then some .e else none
  | .f => if s.postOk .m then some .m else if s.postOk .e then some .e else none

/-- The station that the upstream-fault rule names, when it applies (R36). -/
def State.deadHead (s : State) (x : Post) : Option Station :=
  match s.upstream x with
  | none => none
  | some u =>
    let k := stationOf s.direction u
    if (s.wsu.get k).pending.isSome ∨ 0 < (s.wsu.get k).returns then some k else none

/-- A forward crossing in an open passage (R32, R35, R36). -/
def forward (x : Post) (c : Crossing) (s : State) : State :=
  match tryForward x c s with
  | some s' => s'
  | none =>
    match s.deadHead x with
    | none => phantom c s
    | some k =>
      let s := headIncident .upstream c.time k s
      (tryForward x c s).getD (phantom c s)

/-! ### Backward crossings (R33, R34) -/

/-- The highest-indexed axle of the merged zone after a station (R33). -/
def State.axleAfter (s : State) (x : Post) : Option Nat :=
  lastIdx (fun a => decide (zoneRank (zoneAfter x) ≤ zoneRank a.zone) && decide (zoneRank a.zone ≤ s.highAfter x)) s.axt.train

/-- The zone immediately before a station; none for E, where the axle is removed (R31, R33). -/
def zoneBefore : Post → Option Zone
  | .e => none
  | .m => some .first
  | .f => some .second

/-- An axle moves back a zone (R33, R44): windows cancelled, unsettled, the PTB told. -/
def moveBack (z : Zone) (i t : Nat) (s : State) : State :=
  let was := match s.axt.train[i]? with | some a => a.settled | none => false
  let s := cancelWindows i (updAxle i (fun a => { a with zone := z }) s)
  if was then noticeAxle t i (updAxle i Axle.uncombine s) else s

/-- A backward crossing in an open passage (R33, R34, R45). -/
def backward (x : Post) (c : Crossing) (s : State) : State :=
  match s.axleAfter x with
  | none => phantom c s
  | some i =>
    let s := touch c.time s
    match zoneBefore x with
    | some z => moveBack z i c.time s
    | none =>
      let s := removeTail s
      if s.axt.train = [] then closePassage c.time .backedOff s else s

/-! ### Opening (R27, R28) -/

/-- Steps 1 and 2 of the opening. -/
def openRecord (c : Crossing) (s : State) : State :=
  let s := openTable c.direction c.time s
  s.setAxt ⟨some ⟨s.ptb.lastNumber, c.direction, c.time, c.time⟩, [], 0, false, 0⟩

/-- Step 3 of the opening. -/
def openCalibration (s : State) : State :=
  let s := takeCounter s.cal.counter s
  if s.calsw = .calibrate then markUnverified s else s

/-- The six steps of the opening (R27). -/
def openPassage (c : Crossing) (s : State) : State :=
  let s := zclFreeze (openCalibration (openRecord c s))
  raiseAtt .opened (coverNumber s.timebase s)

/-- The end-station test of an opening at M (R28). -/
def endStationTest (x : Post) (c : Crossing) (s : State) : State :=
  let k := stationOf c.direction .e
  if x = .m ∧ (s.wsu.get k).pending.isSome then headIncident .opening c.time k s else s

/-- A crossing that opens a passage, and its processing as the opening crossing (R27, R28). -/
def openWith (c : Crossing) (s : State) : State :=
  let x := postOf c.direction c.station
  appendAxle x c (endStationTest x c (openPassage c s))

/-! ### Crossings and head events (R5 to R8) -/

/-- A crossing counted after abandonment (R47). -/
def countAbandoned (c : Crossing) (s : State) : State :=
  touch c.time (s.setAxt { s.axt with abandonedCount := satSucc 65535 s.axt.abandonedCount })

/-- A crossing reaches the AXT (R27). -/
def takeCrossing (c : Crossing) (s : State) : State :=
  match s.axt.passage with
  | none => openWith c s
  | some q =>
    if s.axt.abandoned then countAbandoned c s
    else
      let x := postOf q.direction c.station
      if c.direction = q.direction then forward x c s else backward x c s

/-- The crossing of a pending head and the partner's head event (R7). -/
def crossingOf (headSpacing : Int) (k : Station) (p : Pending) (t : Nat) : Crossing :=
  let h := max 1 (t - p.time)
  ⟨k, (match p.head with | .a => .up | .b => .down), (p.time + t) / 2, h, stationSpeed headSpacing h⟩

/-- A completed crossing raises the motion count of a pending head, up to 3 (R7). -/
def StationRec.moved (r : StationRec) : StationRec :=
  { r with pending := r.pending.map fun p => { p with motion := satSucc 3 p.motion } }

/-- Raise the motion counts at every station but one (R7, step 4). -/
def moveOthers (k : Station) (w : Wsu) : Wsu := (w.map .moved).set k (w.get k)

/-- A crossing is formed, and handed to the AXT (R7). -/
def completeCrossing (k : Station) (p : Pending) (t : Nat) (s : State) : State :=
  let c := crossingOf s.cal.working.headSpacing k p t
  let s := updStation k (fun r => { r with pending := none, returns := 0, latest := some c }) s
  takeCrossing c (s.setWsu (moveOthers k s.wsu))

/-- A return (R8). -/
def StationRec.return (r : StationRec) : StationRec := { r with pending := none, returns := satSucc 255 r.returns }

/-- A head event at an OK station goes to its pairing (R6 to R8). -/
def pairHead (t : Nat) (k : Station) (h : Head) (s : State) : State :=
  match (s.wsu.get k).pending with
  | none => updStation k (fun r => { r with pending := some ⟨h, t, 0⟩ }) s
  | some p =>
    if p.head ≠ h then completeCrossing k p t s
    else if p.motion < 3 then updStation k .return s
    else headIncident .repeatedHead t k s

/-- A head event is taken by its station (R5); at an OK station it is activity (R48; notes/assumptions/19.md). -/
def takeHead (t : Nat) (k : Station) (h : Head) (s : State) : State :=
  if s.condition = .ready ∧ (s.wsu.get k).state = .ok then pairHead t k h (touch t s) else s

end Sys2Proof.Machine
end

