-- ==== Sys2Proof/Machine/Events.lean ====
section
/-! DEFINITION. The commands that are not requests and not of the link: power, start-up, the track, sampling, the
switch, the store's writes, the trigger (R5, R14, R48, R83, R88, R167 to R172, R188, R199, R200). -/

namespace Sys2Proof.Machine

/-! ### Power and reset (R172, R175, R199, R200) -/

/-- The store after power is cut, and every volatile block at its reset value, without power (R172, R175). -/
def cutPower (s : State) : State :=
  (State.volatileReset s.pending (s.freeCount + 1) s.calsw (cutStore s.stc.busy s.freeCount s.store)).setPowered false

/-- Power is applied (R199). -/
def applyPower (s : State) : State := State.volatileReset s.pending s.freeCount s.calsw s.store

/-- POWER_ON (R199); on a part that has power, power is cut first (notes/assumptions/6.md). -/
def execPowerOn (s : State) : Host.Outcome State Fault Refusal := .next (applyPower (if s.powered then cutPower s else s))

/-- LOSS_OF_POWER (R172). -/
def execLossOfPower (s : State) : Host.Outcome State Fault Refusal := .next (s.ifPowered cutPower)

/-- The three conditions under which the reset of a RESTART is made (R200). -/
def resetDue (s : State) : Bool :=
  decide (s.condition = .restarting) && !s.slk.restartDue && s.stc.busy.isNone && !s.stc.waiting

/-- RESET (R200): made when its conditions hold, else nothing is done. -/
def execReset (s : State) : Host.Outcome State Fault Refusal :=
  .next (s.ifPowered fun s => if resetDue s then applyPower s else s)

/-- STORE_LOAD_END (R171). -/
def execStoreLoadEnd (calFirst : Bool) (s : State) : Host.Outcome State Fault Refusal :=
  .next (s.ifPowered (loadEnds calFirst))

/-! ### Track (R5, R48) -/

/-- HEAD_EVENT (R5). -/
def execHeadEvent (t : Nat) (k : Station) (h : Head) (s : State) : Host.Outcome State Fault Refusal :=
  .next (s.ifPowered fun s => let s := s.advance t; takeHead s.timebase k h s)

/-- The close timeout expires (R48). -/
def closeExpires (s : State) : State :=
  match s.closeExpiry with
  | none => s
  | some e => let s := s.advance e; if s.occupied then s else closePassage e .idleTimeout s

/-- CLOSE_TIMEOUT (R48). -/
def execCloseTimeout (s : State) : Host.Outcome State Fault Refusal := .next (s.ifPowered closeExpires)

/-! ### Sampling (R14 to R17, R99, R102; notes/assumptions/4.md) -/

/-- SAMPLING_INSTANT (R14). -/
def execSamplingInstant (t : Nat) (r : Readings) (s : State) : Host.Outcome State Fault Refusal :=
  .next (s.ifPowered (sample t r))

/-- The instant is taken when a test says that it brings about what its row names. -/
def sampleIf (q : Bool) (t : Nat) (r : Readings) (s : State) : State := if q then sample t r s else s

/-- SETTLING_COMPLETE (R15). -/
def execSettlingComplete (t : Nat) (c : Fin 8) (r : Readings) (s : State) : Host.Outcome State Fault Refusal :=
  .next (s.ifPowered fun s => sampleIf (settles c r s) t r s)

/-- OVERRANGE_FAULT (R17). -/
def execOverrangeFault (t : Nat) (c : Fin 8) (r : Readings) (s : State) : Host.Outcome State Fault Refusal :=
  .next (s.ifPowered fun s => sampleIf (overranges c r s) t r s)

/-- ACQUISITION_END (R99). -/
def execAcquisitionEnd (t : Nat) (p : Platform) (r : Readings) (s : State) : Host.Outcome State Fault Refusal :=
  .next (s.ifPowered fun s => sampleIf (finishesAcquisition t p r s) t r s)

/-- TRACKING_BLOCK (R102). -/
def execTrackingBlock (t : Nat) (p : Platform) (r : Readings) (s : State) : Host.Outcome State Fault Refusal :=
  .next (s.ifPowered fun s => sampleIf (finishesBlock t p r s) t r s)

/-! ### The switch (R83) -/

/-- CALSW moves in a part with power (R83). -/
def moveSwitch (t : Nat) (pos : SwitchPos) (s : State) : State :=
  let s := (s.advance t).setCalsw pos
  if s.started then switchChanged pos s else s

/-- CALSW_CHANGE (R83): a change to the position it already has is none (notes/assumptions/8.md); the pin moves
without power too (notes/assumptions/6.md). -/
def execCalswChange (t : Nat) (pos : SwitchPos) (s : State) : Host.Outcome State Fault Refusal :=
  .next (if s.calsw = pos then s.ifPowered fun s => s.advance t
    else if s.powered then moveSwitch t pos s else s.setCalsw pos)

/-! ### The store (R88, R167 to R169) -/

/-- RESERVATION_WRITE_END (R169). -/
def execReservationWriteEnd (verified : Bool) (s : State) : Host.Outcome State Fault Refusal :=
  .next (s.ifPowered (reservationEnds verified))

/-- REGISTER_COMMIT_ITEM (R167). -/
def execRegisterCommitItem (verified : Bool) (s : State) : Host.Outcome State Fault Refusal :=
  .next (s.ifPowered (itemEnds verified))

/-- REGISTER_COMMIT_END (R168). -/
def execRegisterCommitEnd (verified : Bool) (s : State) : Host.Outcome State Fault Refusal :=
  .next (s.ifPowered (registerCommitEnds verified))

/-- PASSAGE_NUMBER_END (R169). -/
def execPassageNumberEnd (verified : Bool) (s : State) : Host.Outcome State Fault Refusal :=
  .next (s.ifPowered (numberEnds verified))

/-- CALIBRATION_IMAGE_WRITE_END (R88). -/
def execCalibrationImageWriteEnd (verified : Bool) (s : State) : Host.Outcome State Fault Refusal :=
  .next (s.ifPowered (imageEnds verified))

/-- CALIBRATION_COMMIT_END (R88). -/
def execCalibrationCommitEnd (verified : Bool) (s : State) : Host.Outcome State Fault Refusal :=
  .next (s.ifPowered (calibrationEnds verified))

/-! ### The trigger (R188) -/

/-- The trigger's idle expiry is reached (R188). -/
def triggerExpires (s : State) : State :=
  match s.idleExpiry with
  | none => s
  | some e => fireTrigger (s.advance e)

/-- TRIGGER_IDLE_EXPIRY (R188). -/
def execTriggerIdleExpiry (s : State) : Host.Outcome State Fault Refusal := .next (s.ifPowered triggerExpires)

end Sys2Proof.Machine
end

