-- ==== Sys2Proof/Machine/Operands.lean ====
section
/-! DEFINITION. The operand forms of the service link: how the fields of a request are read from its DATA and
how the fields of a reply are laid out (R196, R197), and the answer a block gives to a request. -/

namespace Sys2Proof.Machine

/-! ### Writing fields (R197) -/

/-- A byte holding the low eight bits of a number. -/
def byteOf (v : Nat) : Byte := BitVec.ofNat 8 v

/-- An unsigned number in `n` bytes, big-endian; what does not fit is cut off (notes/assumptions/27.md). -/
def be : Nat → Nat → List Byte
  | 0, _ => []
  | n + 1, v => be n (v / 256) ++ [byteOf v]

/-- A signed number in 4 bytes, two's complement. -/
def be32s (v : Int) : List Byte := be 4 (v % 4294967296).toNat

/-- The absent value of an unsigned field: all ones in its width. -/
def ones (n : Nat) : Nat := 256 ^ n - 1

/-- An optional unsigned field, absent as all ones. -/
def beOpt (n : Nat) (v : Option Nat) : List Byte := be n (v.getD (ones n))

/-- An optional passage number, absent as 0. -/
def bePassage (v : Option Nat) : List Byte := be 4 (v.getD 0)

/-- The absent value of a weight in kg, which the model gives raw counts as well (notes/assumptions/24.md). -/
def absentWeight : Nat := 0x80000000

/-- An optional signed weight in kg or raw count. -/
def beWeight (v : Option Int) : List Byte :=
  match v with
  | some w => be32s w
  | none => be 4 absentWeight

/-- An optional weight in kg that is never negative. -/
def beWeightNat (v : Option Nat) : List Byte := be 4 (v.getD absentWeight)

/-- A mark or a level: 1 for set or asserted (notes/assumptions/23.md). -/
def mark (b : Bool) : List Byte := be 1 b.toNat

/-- A bitmap of `n` bytes. -/
def beSet {w : Nat} (n : Nat) (x : BitVec w) : List Byte := be n x.toNat

/-! ### Reading fields (R197) -/

/-- A big-endian number. -/
def ube (l : List Byte) : Nat := l.foldl (fun a b => a * 256 + b.toNat) 0

/-- The field of `n` bytes at an offset; bytes beyond the end read as none. -/
def field (l : List Byte) (off n : Nat) : Nat := ube ((l.drop off).take n)

/-- A 4-byte two's complement field. -/
def sfield (l : List Byte) (off : Nat) : Int :=
  let v := field l off 4
  if v < 2147483648 then (v : Int) else (v : Int) - 4294967296

/-- An optional unsigned field, absent as all ones. -/
def fieldOpt (l : List Byte) (off n : Nat) : Option Nat :=
  let v := field l off n
  if v = ones n then none else some v

/-- An optional weight that is never negative. -/
def weightOpt (l : List Byte) (off : Nat) : Option Nat :=
  let v := field l off 4
  if v = absentWeight then none else some v

/-- An optional signed weight. -/
def sweightOpt (l : List Byte) (off : Nat) : Option Int :=
  if field l off 4 = absentWeight then none else some (sfield l off)

/-! ### Answers (R196) -/

/-- A block's answer to a request: the outcome and the reply's DATA. -/
structure Answer where
  outcome : ReplyCode
  data : List Byte
  deriving DecidableEq, Repr

/-- OK with the DATA the request's rule gives. -/
def Answer.ok (data : List Byte) : Answer := ⟨.ok, data⟩

/-- STARTED, or a refusal other than BAD_VALUE: no DATA. -/
def Answer.bare (o : ReplyCode) : Answer := ⟨o, []⟩

/-- BAD_VALUE with the failing field index, 0 where the rule gives none, and the channel, entry or setting
within the field, 0xFF where there is none. -/
def Answer.badValue (field : Nat) (sub : Option Nat) : Answer := ⟨.badValue, be 1 field ++ beOpt 1 sub⟩

/-- BAD_VALUE of a rule that gives no field index. -/
def Answer.bad : Answer := .badValue 0 none

end Sys2Proof.Machine
end

