-- ==== Sys2Proof/Machine/Replies.lean ====
section
/-! DEFINITION. The DATA of the replies: record bodies, reports of state, STATUS (R51, R104, R123, R151, R157,
R182, R186, R190, R196 to R206). -/

namespace Sys2Proof.Machine

/-- The number of an optional name. -/
def optNum {α : Type} (f : α → Nat) (x : Option α) : Option Nat := x.map f

/-! ### Record bodies (R204 to R206) -/

/-- The register record body, 29 bytes (R206). -/
def regBody (r : RegRec) : List Byte :=
  be 6 r.fields.fleet ++ beOpt 1 r.fields.cls ++ beWeightNat r.fields.tare ++ beWeightNat r.fields.maxGross ++
    beSet 1 r.fields.flags ++ beWeight r.fields.lastGross ++ bePassage r.fields.lastPassage ++
    be 2 r.fields.weighCount ++ be 2 r.place ++ be 1 (r.dirty.toNat + 2 * r.commit.toNat)

/-- The totals of a directory entry, absent while it is OPEN (R206). -/
def totalsBody (t : Option Totals) : List Byte :=
  match t with
  | none => beWeight none ++ beWeight none ++ be 4 (ones 4)
  | some t => be32s t.gross ++ be32s t.net ++ beSet 4 t.quals

/-- State of a directory entry: OPEN 0, CLOSED 1. -/
def entryState (e : DirEntry) : Nat := if e.close.isSome then 1 else 0

/-- The directory entry body, 46 bytes (R206). -/
def dirBody (e : DirEntry) : List Byte :=
  be 4 e.number ++ be 1 (entryState e) ++ be 1 (directionNum e.direction) ++ be 6 e.openTime ++
    beOpt 6 (e.close.map (·.1)) ++ beOpt 1 (e.close.map fun c => closeCauseNum c.2) ++ be 2 e.axleCount ++
    be 2 e.vehicles ++ be 2 e.recorded ++ be 2 e.unrecorded ++ be 2 e.traction ++ be 2 e.phantom ++
    be 1 (e.abandoned.toNat + 2 * e.unverified.toNat) ++ be 2 e.calCounter ++ totalsBody e.totals

/-- One entry of an axle list, 18 bytes (R205). -/
def lineBody (a : AxleLine) : List Byte :=
  beWeight a.load ++ beWeight a.rail1 ++ beWeight a.rail2 ++ beOpt 2 a.speed ++ beSet 4 a.quals

/-- The wagon record body, 80 bytes and 18 for each axle (R205). -/
def wagonBody (slot : Nat) (w : Wagon) : List Byte :=
  be 2 slot ++ be 1 (originNum w.origin) ++ bePassage w.passage ++ be 2 w.position ++ be 1 (recStateNum w.state) ++
    beOpt 1 (optNum kindNum w.kind) ++ beOpt 6 w.fleet ++ beOpt 1 w.expectedCls ++ beOpt 1 w.cls ++
    beOpt 2 w.firstAxle ++ beWeight w.values.exact ++ beWeight w.values.reported ++ beWeight w.values.p1 ++
    beWeight w.values.p2 ++ beOpt 2 w.values.side ++ beOpt 2 w.values.endwise ++ beOpt 1 w.snapshot.cls ++
    beWeightNat w.snapshot.tare ++ beWeightNat w.snapshot.maxGross ++ beWeightNat w.snapshot.maxAxle ++
    beWeight w.values.net ++ beSet 4 w.quals ++ be 1 w.own.bits ++ be 1 w.verdicts.bits ++
    be 1 (w.certified.toNat + 2 * w.segMismatch.toNat) ++ beOpt 6 w.completion ++ beOpt 2 w.calCounter ++
    beOpt 6 w.applied ++ be 1 w.axles.length ++ w.axles.flatMap lineBody

/-- PASSAGE_LIST (R151; notes/assumptions/25.md). -/
def passageListData (s : State) : List Byte :=
  let l := sortBy (·.openTime) s.ptb.directory
  be 1 l.length ++ l.flatMap (fun e => be 4 e.number ++ be 1 (entryState e)) ++
    be 2 (s.recordsOf none).length ++ be 2 (maxSlots - s.usedSlots)

/-! ### Channels, zeros, calibration, classes -/

/-- The load of a channel in kg, absent when it is not fitted or has no sample (R23). -/
def channelLoad (s : State) (c : Fin 8) : Option Int :=
  let ch := s.lcu.channels.get c
  if ch.fitted then
    ch.last.map fun r => roundDiv ((r.1 - s.zcl.zeros.get c) * s.cal.working.gain.get c) gainUnit
  else none

/-- CHAN_READ, 24 bytes (R23). -/
def channelData (s : State) (c : Fin 8) : List Byte :=
  let ch := s.lcu.channels.get c
  mark ch.fitted ++ be 1 (channelStateNum ch.state) ++ beWeight (ch.last.map (·.1)) ++ beOpt 6 (ch.last.map (·.2)) ++
    beWeight (channelLoad s c) ++ be 1 ch.overrange ++ beOpt 1 (optNum channelCauseNum ch.cause) ++ beOpt 6 ch.onset

/-- ZERO_STATE (R104). -/
def zeroData (s : State) (p : Platform) : List Byte :=
  let z := s.zcl.platforms.get p
  let cs := s.fittedOf (channelsOf p)
  be 1 (zeroStateNum z.zeroState) ++ mark s.zcl.freeze ++ be 1 (acqStateNum z.acq.state) ++ be 2 z.acq.count ++
    beOpt 1 (optNum acqResultNum z.acq.last) ++ be 2 z.block.count ++ be 1 z.offZero ++ be 1 cs.length ++
    cs.flatMap fun c => be32s (s.zcl.zeros.get c) ++ be32s (s.cal.working.zero.get c)

/-- The channels of a field, 4 bytes each (R198). -/
def channelFields (x : PerChannel Int) : List Byte := channels.flatMap fun c => be32s (x.get c)

/-- A speed band table: its count and entries (R198). -/
def bandsData (l : List Band) : List Byte := be 1 l.length ++ l.flatMap fun b => be 2 b.upper ++ be32s b.k

/-- The fields of a set in index order, each as CAL_STAGE encodes it (R198). -/
def calFields (c : CalSet) : List Byte :=
  be32s c.fitted ++ channelFields c.gain ++ channelFields c.zero ++ be32s c.headSpacing ++ be32s c.lengthA ++
    be32s c.lengthB ++ be32s c.guard ++ be32s c.nMin ++ be32s c.interval ++ be32s c.maxAxle ++ be32s c.zeroRange ++
    be32s c.tabs ++ be32s c.trel ++ bandsData c.bands ++ be32s c.certMax ++ be32s c.measMax ++ be32s c.stamp

/-- CAL_READ of a copy: 0 is WORKING, 1 STAGING (R86, R198). -/
def calData (s : State) (copy : Nat) : List Byte :=
  if copy = 0 then be 1 0 ++ be 1 (calStateNum s.cal.state) ++ calFields s.cal.working
  else be 1 1 ++ calFields s.cal.staging

/-- CAL_COUNTER, 6 bytes (R86). -/
def counterData (s : State) : List Byte :=
  be 2 s.cal.counter ++ be 1 (calStateNum s.cal.state) ++ be 1 (switchNum s.calsw) ++ be 1 (commitPhaseNum s.cal.phase) ++
    beOpt 1 (optNum outcomeNum s.cal.lastOutcome)

/-- A class record, laid out as CLASS_DEFINE carries it (R107, R198). -/
def classData (code : Nat) (c : ClassRec) : List Byte :=
  be 1 code ++ be 1 (kindNum c.kind) ++ be 1 (c.spacings.length + 1) ++ be 1 c.spacings.length ++
    c.spacings.flatMap (be 2) ++ be 2 c.tolerance ++ be 2 c.gapMin ++ be 2 c.gapMax ++ be 4 c.maxGross ++ be 4 c.maxAxle

/-- CLASS_READ of code 0: the codes in ascending order, and the dirty mark (R107; notes/assumptions/25.md). -/
def classListData (s : State) : List Byte :=
  be 1 s.seg.classes.length ++ s.seg.classes.flatMap (fun c => be 1 c.1) ++ mark s.seg.dirty

/-- REG_COUNT (R157). -/
def regCountData (s : State) : List Byte :=
  be 2 s.wrg.records.length ++ be 2 (dirtyCount s.wrg.records) ++ be 2 s.wrg.retired.length ++ mark s.seg.dirty ++
    mark s.stc.busy.isSome ++ beOpt 1 (s.stc.busy.map fun b => storeOpNum b.op) ++
    beOpt 1 (s.stc.last.map fun x => outcomeNum x.1) ++ beOpt 1 (s.stc.last.map fun x => storeOpNum x.2) ++
    be 1 (healthNum s.stc.health) ++ be 1 s.stc.failures

/-! ### Faults and attention (R182, R186, R197) -/

/-- The unit index of an occurrence (R178). -/
def unitNum : FaultUnit → Nat
  | .station k => stationNum k
  | .channel c => c.val
  | .platform p => platformNum p
  | .slots => 0
  | .positions => 1

/-- The write a STORE_FAULT names: reservation 0, closing 1, 0xFF for the whole operation (R197). -/
def writeNum : Option WritePhase → Nat
  | none => 0xFF
  | some .reservation => 0
  | some _ => 1

/-- The detail of an occurrence, 4 bytes (R197; notes/assumptions/24.md). -/
def detailData : Option FaultDetail → List Byte
  | none => be 4 (ones 4)
  | some (.incident c) => be 4 (incidentNum c)
  | some (.direction d) => be 4 (directionNum d)
  | some (.channel c) => be 4 (channelCauseNum c)
  | some (.number n) => be32s n
  | some (.store op w) => be 1 (storeOpNum op) ++ be 1 (writeNum w) ++ be 2 0
  | some (.lost e c both) => be 2 e ++ be 1 c ++ mark both
  | some .calCheck => be 1 0 ++ be 1 0xFF ++ be 2 0
  | some (.calValidation f) => be 1 1 ++ be 1 f ++ be 2 0
  | some (.switch p) => be 4 (switchNum p)

/-- A fault occurrence, 17 bytes; kind 0 for an empty capture (R197; notes/assumptions/24.md). -/
def occData : Option FaultOcc → List Byte
  | none => be 1 0 ++ beOpt 1 none ++ beOpt 6 none ++ bePassage none ++ beOpt 1 none ++ detailData none
  | some o =>
    be 1 (faultNum o.kind) ++ be 1 (severityNum (faultSeverity o.kind)) ++ be 6 o.time ++ bePassage o.passage ++
      beOpt 1 (optNum unitNum o.unit) ++ detailData o.detail

/-- EXCHANGE_FAULT, 34 bytes (R182). -/
def exchangeFaultData (s : State) : List Byte :=
  occData s.fau.capture ++ s.fau.counts.flatMap (be 1) ++ beOpt 1 (optNum severityNum s.fau.worst) ++
    beSet 2 s.settings.faultMask

/-- EXCHANGE_ATTENTION, 4 bytes (R186). -/
def exchangeAttentionData (s : State) : List Byte :=
  beSet 1 s.fau.attention ++ beSet 1 s.settings.attentionMask ++ mark s.fau.attn ++ be 1 s.fau.trigger

/-! ### System requests (R201 to R203) -/

/-- A pending head (R201). -/
def pendingData (p : Option Pending) : List Byte :=
  beOpt 1 (p.map fun p => headNum p.head) ++ beOpt 6 (p.map (·.time)) ++ beOpt 1 (p.map (·.motion))

/-- A latest crossing (R201). -/
def latestData (c : Option Crossing) : List Byte :=
  beOpt 1 (c.map fun c => directionNum c.direction) ++ beOpt 6 (c.map (·.time)) ++ beOpt 6 (c.map (·.interval)) ++
    beOpt 2 (c.map (·.speed))

/-- A station record, 25 bytes (R201). -/
def stationData (r : StationRec) : List Byte :=
  be 1 (stationStateNum r.state) ++ pendingData r.pending ++ be 1 r.returns ++ latestData r.latest

/-- The axles of a recorded zone. -/
def zoneCount (z : Zone) (l : List Axle) : Nat := (l.filter fun a => decide (a.zone = z)).length

/-- The tracker's state, 38 bytes (R51). -/
def trackerData (s : State) : List Byte :=
  let q := s.axt.passage
  mark s.isOpen ++ bePassage (q.map (·.number)) ++ beOpt 1 (q.map fun q => directionNum q.direction) ++
    beOpt 6 (q.map (·.openTime)) ++ beOpt 6 (q.map (·.lastActivity)) ++ mark s.occupied ++ be 2 s.axt.train.length ++
    be 2 (zoneCount .first s.axt.train) ++ be 2 (zoneCount .second s.axt.train) ++ be 2 (zoneCount .exit s.axt.train) ++
    be 2 s.axt.phantom ++ mark s.axt.abandoned ++ be 2 s.axt.abandonedCount ++ beOpt 6 s.closeExpiry

/-- The Segmenter's state, 8 bytes (R123). -/
def segData (s : State) : List Byte :=
  be 2 s.seg.vehicles.length ++ be 2 s.seg.cursor ++ be 2 (s.axt.train.length - s.seg.cursor) ++
    be 1 (waitNum s.seg.wait) ++ mark s.seg.limit

/-- The FAU's state, 12 bytes (R190). -/
def fauData (s : State) : List Byte :=
  mark s.fau.attn ++ beSet 1 s.fau.attention ++ beSet 1 s.settings.attentionMask ++
    be 1 (match s.fau.capture with | some o => faultNum o.kind | none => 0) ++
    beOpt 1 (optNum severityNum s.fau.worst) ++ be 1 s.fau.trigger ++ beOpt 6 s.idleExpiry

/-- The nine link statistics (R192). -/
def statsData (x : LinkStats) : List Byte :=
  [x.delivered, x.replies, x.hunt, x.framing, x.gap, x.length, x.crc, x.queue, x.breaks].flatMap (be 2)

/-- STATUS, 162 bytes (R201). -/
def statusData (s : State) : List Byte :=
  be 1 (conditionNum s.condition) ++ be 6 s.timebase ++ stationData s.wsu.s1 ++ stationData s.wsu.s2 ++
    stationData s.wsu.s3 ++ trackerData s ++ segData s ++ be 1 (permitNum s.ptb.permit) ++ be 1 (waterNum s.ptb.water) ++
    be 2 s.usedSlots ++ fauData s ++ statsData s.slk.stats

/-- IDENTIFY, 13 bytes (R202). -/
def identifyData : List Byte := be 2 0x3D17 ++ be 2 2608 ++ beSet 1 Config.revision ++ beSet 8 Config.serial

/-- CAPABILITIES, 20 bytes (R202). -/
def capabilitiesData : List Byte := [2048, 640, 8, 4096, 24, 8, 4, 240, 8, 3].flatMap (be 2)

/-- The settings block, 20 bytes (R203). -/
def settingsData (x : Settings) : List Byte :=
  be 1 x.triggerCount ++ be 2 x.triggerIdle ++ be 2 x.closeTimeout ++ be 2 x.highWater ++ be 2 x.lowWater ++
    be 2 x.sideLimit ++ be 2 x.endLimit ++ be 2 x.unevenLimit ++ be 2 x.bogieMax ++ beSet 1 x.attentionMask ++
    beSet 2 x.faultMask

end Sys2Proof.Machine
end

