-- ==== Sys2Proof/Machine/Requests.lean ====
section
/-! DEFINITION. What the owning block does with each request it takes, and its answer (R21 to R23, R49, R85 to R87,
R97, R100, R104, R106, R107, R127, R128, R142, R149 to R151, R156 to R161, R166, R182, R186, R200 to R203). The
`…Do` operations are shared by the request rows and by the wire. -/

namespace Sys2Proof.Machine

/-- A block's action: the state after it and its answer. -/
abbrev Action := State → State × Answer

/-- An answer that changes nothing. -/
def answer (a : State → Answer) : Action := fun s => (s, a s)

/-- A refusal, or an answer without DATA. -/
def bare (o : ReplyCode) : Action := answer fun _ => .bare o

/-! ### System requests (R200 to R203, R182, R186) -/

/-- IDENTIFY (R202). -/
def identifyDo : Action := answer fun _ => .ok identifyData
/-- CAPABILITIES (R202). -/
def capabilitiesDo : Action := answer fun _ => .ok capabilitiesData
/-- STATUS (R201). -/
def statusDo : Action := answer fun s => .ok (statusData s)
/-- TIME (R202). -/
def timeDo : Action := answer fun s => .ok (be 6 s.timebase)
/-- SETTINGS_READ (R203). -/
def settingsReadDo : Action := answer fun s => .ok (settingsData s.settings)

/-- Does a setting mask name setting `k`: bit k − 1 (R203). -/
def settingNamed (m : BitVec 16) (k : Nat) : Bool := m.getLsbD (k - 1)

/-- Is a named value within its range (R203). -/
def settingOk (b : Settings) : Nat → Bool
  | 1 => decide (1 ≤ b.triggerCount ∧ b.triggerCount ≤ 255)
  | 2 => decide (100 ≤ b.triggerIdle ∧ b.triggerIdle ≤ 60000)
  | 3 => decide (10 ≤ b.closeTimeout ∧ b.closeTimeout ≤ 600)
  | 4 => decide (1 ≤ b.highWater ∧ b.highWater ≤ 640)
  | 5 => decide (b.lowWater ≤ 639)
  | 6 => decide (b.sideLimit ≤ 1000)
  | 7 => decide (b.endLimit ≤ 1000)
  | 8 => decide (b.unevenLimit ≤ 1000)
  | 9 => decide (1000 ≤ b.bogieMax ∧ b.bogieMax ≤ 4000)
  | 11 => !b.faultMask.getLsbD 14 && !b.faultMask.getLsbD 15
  | _ => true

/-- The settings' indices. -/
def settingIndices : List Nat := [1, 2, 3, 4, 5, 6, 7, 8, 9, 10, 11]

/-- The high water and the low water as a write would leave them. -/
def watersAfter (m : BitVec 16) (b cur : Settings) : Nat × Nat :=
  (if settingNamed m 4 then b.highWater else cur.highWater, if settingNamed m 5 then b.lowWater else cur.lowWater)

/-- The failing index of a SETTINGS_WRITE, 0 for its mask (R203). -/
def settingsFailing (m : BitVec 16) (b cur : Settings) : Option Nat :=
  if m = 0 ∨ 2047 < m.toNat then some 0
  else match settingIndices.find? fun k => settingNamed m k && !settingOk b k with
    | some k => some k
    | none => if (watersAfter m b cur).1 ≤ (watersAfter m b cur).2 then some 5 else none

/-- A trigger count is written (R189). -/
def writeTriggerCount (v : Nat) (s : State) : State :=
  let s := s.setSettings { s.settings with triggerCount := v }
  if 1 ≤ s.fau.trigger ∧ v ≤ s.fau.trigger then fireTrigger s else s

/-- Has an optional time come (notes/assumptions/31.md). -/
def reached (t : Option Nat) (now : Nat) : Bool :=
  match t with
  | some t => decide (t ≤ now)
  | none => false

/-- A trigger idle time is written (R189). -/
def writeTriggerIdle (v : Nat) (s : State) : State :=
  let s := s.setSettings { s.settings with triggerIdle := v }
  if reached s.idleExpiry s.timebase then fireTrigger s else s

/-- A close timeout is written (R48). -/
def writeCloseTimeout (v : Nat) (s : State) : State :=
  let s := s.setSettings { s.settings with closeTimeout := v }
  if reached s.closeExpiry s.timebase && !s.occupied then closePassage s.timebase .idleTimeout s else s

/-- One named setting takes its value, with its effect (R203). -/
def writeSetting (b : Settings) (k : Nat) (s : State) : State :=
  match k with
  | 1 => writeTriggerCount b.triggerCount s
  | 2 => writeTriggerIdle b.triggerIdle s
  | 3 => writeCloseTimeout b.closeTimeout s
  | 4 => s.setSettings { s.settings with highWater := b.highWater }
  | 5 => s.setSettings { s.settings with lowWater := b.lowWater }
  | 6 => s.setSettings { s.settings with sideLimit := b.sideLimit }
  | 7 => s.setSettings { s.settings with endLimit := b.endLimit }
  | 8 => s.setSettings { s.settings with unevenLimit := b.unevenLimit }
  | 9 => s.setSettings { s.settings with bogieMax := b.bogieMax }
  | 10 => evalAttn (s.setSettings { s.settings with attentionMask := b.attentionMask })
  | 11 => s.setSettings { s.settings with faultMask := b.faultMask }
  | _ => s

/-- An accepted SETTINGS_WRITE: every named setting in ascending index, then one evaluation of PERMIT when a
water was named (R203). -/
def writeSettings (m : BitVec 16) (b : Settings) (s : State) : State :=
  let s := settingIndices.foldl (fun s k => if settingNamed m k then writeSetting b k s else s) s
  if settingNamed m 4 || settingNamed m 5 then evalPermit s else s

/-- SETTINGS_WRITE (R203). A refusal carries the setting's index as its first byte and 0xFF as its second, though R196 speaks
of a setting in the second: the model's choice (notes/assumptions/26.md). -/
def settingsWriteDo (m : BitVec 16) (b : Settings) : Action := fun s =>
  match settingsFailing m b s.settings with
  | some k => (s, .badValue k none)
  | none => (writeSettings m b s, .ok [])

/-- Steps 2 and 3 of EXCHANGE_ATTENTION (R186). -/
def clearAttention (m : Byte) (s : State) : State :=
  evalAttn (s.setFau { s.fau with attention := s.fau.attention &&& ~~~m })

/-- EXCHANGE_ATTENTION (R186). -/
def exchangeAttentionDo (m : Byte) : Action := fun s => (clearAttention m s, .ok (exchangeAttentionData s))

/-- What EXCHANGE_FAULT clears (R182). -/
def Fau.clear (f : Fau) : Fau := { f with capture := none, counts := f.counts.map fun _ => 0, worst := none }

/-- EXCHANGE_FAULT (R182). -/
def exchangeFaultDo : Action := fun s => (s.setFau s.fau.clear, .ok (exchangeFaultData s))

/-- The part becomes RESTARTING, its reply owed (R200). -/
def beginRestart (s : State) : State :=
  evalPermit ((s.setCondition .restarting).setSlk { s.slk with restartDue := true })

/-- RESTART (R200). -/
def restartDo : Action := fun s =>
  if s.isOpen then (s, .bare .passageOpen)
  else if s.condition = .ready then (beginRestart s, .ok []) else (s, .ok [])

/-! ### Channel requests (R21 to R23) -/

/-- CHAN_READ (R23). -/
def chanReadDo (c : Nat) : Action := answer fun s =>
  match channelNamed c with
  | none => .bad
  | some k => .ok (channelData s k)

/-- CHAN_ENABLE of a named channel (R21). -/
def enableNamed (c : Fin 8) : Action := fun s =>
  let ch := s.lcu.channels.get c
  if s.isOpen then (s, .bare .passageOpen)
  else if !ch.fitted then (s, .bad)
  else match ch.state with
    | .faulted => (s, .bare .state)
    | .active => (s, .ok [])
    | .settling => (s, .ok [])
    | .off => (evalPlatforms s.timebase (updChannel c .enable s), .ok [])

/-- CHAN_ENABLE (R21). -/
def chanEnableDo (c : Nat) : Action :=
  match channelNamed c with
  | none => answer fun _ => .bad
  | some k => enableNamed k

/-- CHAN_DISABLE of a named channel (R22). -/
def disableNamed (c : Fin 8) : Action := fun s =>
  if s.isOpen then (s, .bare .passageOpen)
  else if !(s.lcu.channels.get c).fitted then (s, .bad)
  else (evalPlatforms s.timebase (returnZero c (updChannel c .disable s)), .ok [])

/-- CHAN_DISABLE (R22). -/
def chanDisableDo (c : Nat) : Action :=
  match channelNamed c with
  | none => answer fun _ => .bad
  | some k => disableNamed k

/-! ### Calibration requests (R85 to R87) -/

/-- CAL_READ (R86). -/
def calReadDo (copy : Nat) : Action := answer fun s => if 1 < copy then .bad else .ok (calData s copy)

/-- CAL_STAGE (R85). -/
def calStageDo (field channel : Nat) (v : Int) (bands : List Band) : Action := fun s =>
  if s.calsw = .operate then (s, .bare .locked)
  else match stageFailing field channel bands with
    | some f => (s, .badValue f.1 f.2)
    | none => (stage field channel v bands s, .ok [])

/-- CAL_COMMIT (R87). -/
def calCommitDo : Action := fun s =>
  if s.calsw = .operate then (s, .bare .locked)
  else if s.isOpen then (s, .bare .passageOpen)
  else if s.stc.busy.isSome then (s, .bare .busy)
  else if 65535 ≤ s.cal.counter then (s, .bare .full)
  else match validate s.cal.staging with
    | some f => (s, .badValue f.1 f.2)
    | none => (beginCalCommit s.timebase s, .bare .started)

/-- CAL_DISCARD (R86). -/
def calDiscardDo : Action := fun s => (discardStaging s, .ok [])

/-- CAL_COUNTER (R86). -/
def calCounterDo : Action := answer fun s => .ok (counterData s)

/-! ### Zero requests (R97, R100, R104) -/

/-- The platform a byte names: A is 0, B is 1 (R197). -/
def platformNamed (p : Nat) : Option Platform := if p = 0 then some .a else if p = 1 then some .b else none

/-- The acquisition of a platform begins, and its tracking block is discarded (R97). -/
def beginAcquisition (p : Platform) (s : State) : State :=
  updZcl p (fun z => { z with acq := .begin (if s.isOpen then .suspended else .collecting), block := .empty }) s

/-- ZERO_ACQUIRE (R97). -/
def zeroAcquireDo (p : Nat) : Action := fun s =>
  match platformNamed p with
  | none => (s, .bad)
  | some p =>
    if (s.lcu.platforms.get p).service = .out then (s, .bare .state)
    else if (s.zcl.platforms.get p).acq.state ≠ .idle then (s, .bare .busy)
    else (beginAcquisition p s, .bare .started)

/-- ZERO_CANCEL (R100). -/
def zeroCancelDo (p : Nat) : Action := fun s =>
  match platformNamed p with
  | none => (s, .bad)
  | some p =>
    if (s.zcl.platforms.get p).acq.state = .idle then (s, .bare .state)
    else (endAcquisition p .cancelled s, .ok [])

/-- ZERO_STATE (R104). -/
def zeroStateDo (p : Nat) : Action := answer fun s =>
  match platformNamed p with
  | none => .bad
  | some p => .ok (zeroData s p)

/-! ### Passage requests (R49, R127, R128, R142, R149 to R151) -/

/-- PASSAGE_READ (R151). -/
def passageReadDo (n : Nat) : Action := answer fun s =>
  match s.ptb.directory.find? fun e => decide (e.number = n) with
  | none => .bare .notFound
  | some e => .ok (dirBody e)

/-- PASSAGE_LIST (R151). -/
def passageListDo : Action := answer fun s => .ok (passageListData s)

/-- RECORD_READ (R151). -/
def recordReadDo (r : RecordRef) : Action := answer fun s =>
  if refOk r then
    match s.refRecord r with
    | none => .bare .notFound
    | some (k, w) => .ok (wagonBody k w)
  else .bad

/-- ASSIGN to a record found (R142). -/
def assignTo (fleet k : Nat) (w : Wagon) : Action := fun s =>
  if w.state = .expected ∨ w.state = .missing then (s, .bare .state)
  else if s.fleetHeld w.passage fleet (some k) then (s, .bare .alreadyExists)
  else (assignRecord fleet k w s, .ok [])

/-- ASSIGN (R142). -/
def assignDo (r : RecordRef) (fleet : Nat) : Action := fun s =>
  if fleetOk fleet && refOk r then
    match s.refRecord r with
    | none => (s, .bare .notFound)
    | some (k, w) => assignTo fleet k w s
  else (s, .bad)

/-- A late identity (R128). -/
def lateIdentity (p : Nat) (fleet : Option Nat) : Action := fun s =>
  match s.recordAt s.openNumber p with
  | none => (s, .bare .state)
  | some (k, w) =>
    match w.origin, w.fleet, fleet with
    | .table, none, some f => assignTo f k w s
    | _, _, _ => (s, .bare .alreadyExists)

/-- The fields of an EXPECT are in range (R127). -/
def expectOk (p : Nat) (fleet cls : Option Nat) : Bool :=
  positionOk p && optionOk fleetOk fleet && optionOk codeOk cls && (fleet.isSome || cls.isSome)

/-- The record a new expectation is, in the pending set or in the open passage (R125, R127). -/
def expectation (s : State) (passage p : Nat) (fleet cls : Option Nat) : Wagon :=
  { (if passage = 0 then Wagon.blank .expectation none p else s.newOpenRecord .expectation p) with
    kind := s.expectedKind cls, fleet := fleet, expectedCls := cls }

/-- Is a fleet number given, and already held by a record of the set. -/
def expectHeld (s : State) (set : Option Nat) (fleet : Option Nat) : Bool :=
  match fleet with
  | some f => s.fleetHeld set f none
  | none => false

/-- The last four cases of EXPECT (R127). -/
def expectNew (passage p : Nat) (fleet cls : Option Nat) : Action := fun s =>
  let set := if passage = 0 then none else s.openNumber
  if (s.recordAt set p).isSome then (s, .bare .alreadyExists)
  else if expectHeld s set fleet then (s, .bare .alreadyExists)
  else match s.freeSlot with
    | none => (s, .bare .full)
    | some k => (evalPermit (putSlot k (expectation s passage p fleet cls) s), .ok (be 2 k))

/-- EXPECT (R127). -/
def expectDo (passage p : Nat) (fleet cls : Option Nat) : Action := fun s =>
  if !expectOk p fleet cls then (s, .bad)
  else if passage ≠ 0 ∧ s.openNumber ≠ some passage then (s, .bare .state)
  else if passage ≠ 0 ∧ p ≤ s.seg.vehicles.length then lateIdentity p fleet s
  else expectNew passage p fleet cls s

/-- RETIRE_RECORD (R149). -/
def retireRecordDo (r : RecordRef) : Action := fun s =>
  if refOk r then
    match s.refRecord r with
    | none => (s, .bare .notFound)
    | some (k, w) =>
      if w.state = .weighing ∨ w.state = .complete then (s, .bare .state) else (retireSlot k s, .ok [])
  else (s, .bad)

/-- RETIRE_PASSAGE (R150). -/
def retirePassageDo (n : Nat) : Action := fun s =>
  if n = 0 then (s, .bad)
  else match s.ptb.directory.find? fun e => decide (e.number = n) with
    | none => (s, .bare .notFound)
    | some e =>
      if e.close.isNone then (s, .bare .state) else (retireWhole n s, .ok (be 2 (recordCount n s)))

/-- PASS CLOSE (R49). -/
def passCloseDo (n : Nat) : Action := fun s =>
  match s.openNumber with
  | none => (s, .bare .state)
  | some m =>
    if m ≠ n then (s, .bare .state)
    else if s.occupied then (s, .bare .busy)
    else (closePassage s.timebase .host s, .ok [])

/-! ### Register requests (R156 to R161, R166) -/

/-- The failing field of a REG_ADD (R156); of several the lowest, by the model's choice (notes/assumptions/48.md). -/
def addFailing (fleet : Nat) (cls tare maxGross : Option Nat) (flags : Byte) : Option Nat :=
  if !fleetOk fleet then some 1
  else if !optionOk codeOk cls then some 2
  else if !optionOk tareOk tare then some 3
  else if !optionOk grossOk maxGross then some 4
  else if namesPositionEight flags then some 5
  else none

/-- The place a new record takes: that of the retirement list, or the lowest free place (R156). -/
def placeFor (w : Wrg) (fleet : Nat) : Option Nat :=
  match retiredPlace w fleet with
  | some k => some k
  | none => if maxRegister ≤ w.records.length then none else freePlace w

/-- A record joins the register at a place, which leaves the retirement list if it was there (R156). -/
def addRecord (fleet : Nat) (cls tare maxGross : Option Nat) (flags : Byte) (k : Nat) (s : State) : State :=
  s.setWrg { records := tput s.wrg.records fleet (.new fleet cls tare maxGross flags k), retired := tdel s.wrg.retired k }

/-- REG_ADD (R156). -/
def regAddDo (fleet : Nat) (cls tare maxGross : Option Nat) (flags : Byte) : Action := fun s =>
  match addFailing fleet cls tare maxGross flags with
  | some f => (s, .badValue f none)
  | none =>
    if (tget s.wrg.records fleet).isSome then (s, .bare .alreadyExists)
    else match placeFor s.wrg fleet with
      | none => (s, .bare .full)
      | some k => (addRecord fleet cls tare maxGross flags k s, .ok (be 2 k))

/-- REG_READ (R157). -/
def regReadDo (fleet : Nat) : Action := answer fun s =>
  if fleetOk fleet then
    match tget s.wrg.records fleet with
    | none => .bare .notFound
    | some r => .ok (regBody r)
  else .bad

/-- A field mask that is not empty and names fields 2 to 8 only (R158). -/
def fieldMaskOk (m : Byte) : Bool := decide (m ≠ 0) && !maskNames m 1

/-- REG_CHANGE (R158). -/
def regChangeDo (fleet : Nat) (m : Byte) (v : RegValues) : Action := fun s =>
  if fleetOk fleet && fieldMaskOk m then
    match tget s.wrg.records fleet with
    | none => (s, .bare .notFound)
    | some r =>
      match failingField m v with
      | some f => (s, .badValue f none)
      | none => (s.setRecords (tput s.wrg.records fleet (r.change (RegFields.write m v))), .ok [])
  else (s, .bad)

/-- REG_FLAGS (R159). -/
def regFlagsDo (op : FlagOp) (fleet : Nat) (m : Byte) : Action := fun s =>
  if fleetOk fleet && op.maskOk m then
    match tget s.wrg.records fleet with
    | none => (s, .bare .notFound)
    | some r =>
      let new := op.apply r.fields.flags m
      (s.setRecords (tput s.wrg.records fleet (r.setFlags new)), .ok (beSet 1 r.fields.flags ++ beSet 1 new))
  else (s, .bad)

/-- REG_RETIRE (R160). -/
def regRetireDo (fleet : Nat) : Action := fun s =>
  if fleetOk fleet then
    match tget s.wrg.records fleet with
    | none => (s, .bare .notFound)
    | some r => (retireRegister fleet r s, .ok [])
  else (s, .bad)

/-- REG_NEXT (R161). -/
def regNextDo (f : Nat) : Action := answer fun s =>
  if f ≤ maxFleet then
    match nextRecord s.wrg.records f with
    | none => .bare .notFound
    | some r => .ok (regBody r)
  else .bad

/-- REG_COUNT (R157). -/
def regCountDo : Action := answer fun s => .ok (regCountData s)

/-- REG_COMMIT (R166). -/
def regCommitDo : Action := fun s =>
  if s.stc.busy.isSome then (s, .bare .busy)
  else if s.stc.health = .failed then (s, .bare .storeFault)
  else (startCommit s.timebase s, .bare .started)

/-! ### Class requests (R106, R107) -/

/-- CLASS_DEFINE: ADDED is 0, REPLACED 1 (R106, R196). -/
def classDefineDo (c : ClassFields) : Action := fun s =>
  if !codeOk c.code then (s, .badValue 1 none)
  else if s.isOpen then (s, .bare .passageOpen)
  else match classFailing c with
    | some f => (s, .badValue f.1 f.2)
    | none =>
      (changeClasses (fun t => tput t c.code (recordOfFields c)) s,
       .ok (be 1 (if (tget s.seg.classes c.code).isSome then 1 else 0)))

/-- CLASS_READ (R107). -/
def classReadDo (code : Nat) : Action := answer fun s =>
  if code = 0 then .ok (classListData s)
  else if codeOk code then
    match tget s.seg.classes code with
    | none => .bare .notFound
    | some c => .ok (classData code c)
  else .bad

/-- CLASS_REMOVE (R107). -/
def classRemoveDo (code : Nat) : Action := fun s =>
  if !codeOk code then (s, .bad)
  else if s.isOpen then (s, .bare .passageOpen)
  else if (tget s.seg.classes code).isNone then (s, .bare .notFound)
  else (changeClasses (fun t => tdel t code) s, .ok [])

end Sys2Proof.Machine
end

