-- ==== Sys2Proof/Machine/Link.lean ====
section
/-! DEFINITION. The Service Link: CRC, receiver, request queue, the checks and the reading of a request frame, the
request in service and its reply (R191 to R198). -/

namespace Sys2Proof.Machine

/-! ### The CRC (R191) -/

/-- One bit of the CRC register. -/
def crcBit (c : BitVec 16) : BitVec 16 := if c.msb then (c <<< 1) ^^^ 0x1021 else c <<< 1

/-- One byte enters the CRC, most significant bit first. -/
def crcByte (c : BitVec 16) (b : Byte) : BitVec 16 :=
  crcBit (crcBit (crcBit (crcBit (crcBit (crcBit (crcBit (crcBit (c ^^^ (b.zeroExtend 16 <<< 8)))))))))

/-- The CRC of a run of bytes: polynomial 0x1021, initial value 0xFFFF (R191). -/
def crc (l : List Byte) : BitVec 16 := l.foldl crcByte 0xFFFF

/-- The bytes of a reply frame (R191). -/
def replyFrame (q : InService) : List Byte :=
  let body := byteOf (q.data.length + 3) :: q.tag :: q.target :: byteOf (replyNum q.outcome) :: q.data
  0x5A :: body ++ beSet 2 (crc body)

/-! ### The request in service (R195) -/

/-- Replace the link statistics. -/
def updStats (f : LinkStats → LinkStats) (s : State) : State := s.setSlk { s.slk with stats := f s.slk.stats }

/-- A saturating link statistic (R192). -/
def bump (n : Nat) : Nat := satSucc 65535 n

/-- The reply in hand has left: it is counted, and an accepted RESTART is no longer owed its reply (R195, R200). -/
def endReply (s : State) : State :=
  match s.slk.service with
  | none => s
  | some q =>
    updStats (fun x => { x with replies := bump x.replies })
      (s.setSlk { s.slk with service := none, restartDue := s.slk.restartDue && !q.restart })

/-- The owning block's action, or NOT_READY before start-up is finished (R195, R199). -/
def actOrRefuse (always : Bool) (a : Action) (s : State) : State × Answer :=
  if s.started || always then a s else (s, .bare .notReady)

/-- A reply is composed and put in service; it marks the accepted RESTART (R195, R200). -/
def compose (tag target : Byte) (dueBefore : Bool) (r : State × Answer) : State :=
  r.1.setSlk { r.1.slk with
    service := some ⟨tag, target, r.2.outcome, r.2.data, !dueBefore && r.1.slk.restartDue⟩ }

/-- A request that has passed the target and command checks is served (R195). -/
def serve (tag target : Byte) (always : Bool) (a : Action) (s : State) : State :=
  compose tag target s.slk.restartDue (actOrRefuse always a s)

/-! ### Reading a request frame (R195, R198) -/

/-- A request of a target: whether it is served in every condition, the lengths it takes, and its action on DATA. -/
structure Handler where
  always : Bool
  lengthOk : List Byte → Bool
  run : List Byte → Action

/-- A request of one fixed length. -/
def fixed (n : Nat) (run : List Byte → Action) : Handler := ⟨false, fun d => decide (d.length = n), run⟩

/-- IDENTIFY, STATUS and TIME: no DATA, and served in every condition (R199). -/
def anyTime (a : Action) : Handler := ⟨true, fun d => decide (d.length = 0), fun _ => a⟩

/-- A settings block in its 20 bytes, at an offset (R203). -/
def readSettings (d : List Byte) (o : Nat) : Settings where
  triggerCount := field d o 1
  triggerIdle := field d (o + 1) 2
  closeTimeout := field d (o + 3) 2
  highWater := field d (o + 5) 2
  lowWater := field d (o + 7) 2
  sideLimit := field d (o + 9) 2
  endLimit := field d (o + 11) 2
  unevenLimit := field d (o + 13) 2
  bogieMax := field d (o + 15) 2
  attentionMask := byteOf (field d (o + 17) 1)
  faultMask := BitVec.ofNat 16 (field d (o + 18) 2)

/-- A record reference in 7 bytes (R197). -/
def readRef (d : List Byte) : RecordRef := ⟨field d 0 1, field d 1 4, field d 5 2⟩

/-- The entries of a speed band table in a CAL_STAGE request (R198). -/
def readBands (d : List Byte) : List Band :=
  (List.range (field d 1 1)).map fun i => ⟨field d (2 + 6 * i) 2, sfield d (4 + 6 * i)⟩

/-- The lengths CAL_STAGE takes (R198). -/
def stageLength (d : List Byte) : Bool :=
  if field d 0 1 = 14 then decide (d.length = 2 + 6 * field d 1 1) else decide (d.length = 6)

/-- CAL_STAGE from its DATA (R198). -/
def readStage (d : List Byte) : Action :=
  if field d 0 1 = 14 then calStageDo 14 0 0 (readBands d) else calStageDo (field d 0 1) (field d 1 1) (sfield d 2) []

/-- The values of REG_CHANGE (R198, R206). Flags and weigh count have no absent value on the wire. -/
def readValues (d : List Byte) : RegValues where
  cls := fieldOpt d 7 1
  tare := weightOpt d 8
  maxGross := weightOpt d 12
  flags := some (byteOf (field d 16 1))
  lastGross := sweightOpt d 17
  lastPassage := if field d 21 4 = 0 then none else some (field d 21 4)
  weighCount := some (field d 25 2)

/-- The operation of REG_FLAGS: AND 0, OR 1, XOR 2 (R159, R197). -/
def readFlags (d : List Byte) : Action :=
  match field d 6 1 with
  | 0 => regFlagsDo .and (field d 0 6) (byteOf (field d 7 1))
  | 1 => regFlagsDo .or (field d 0 6) (byteOf (field d 7 1))
  | 2 => regFlagsDo .xor (field d 0 6) (byteOf (field d 7 1))
  | _ => answer fun _ => .bad

/-- A class record in a CLASS_DEFINE request (R198). -/
def readClass (d : List Byte) : ClassFields :=
  let c := field d 3 1
  let o := 4 + 2 * c
  { code := field d 0 1, kind := field d 1 1, n := field d 2 1,
    spacings := (List.range c).map fun i => field d (4 + 2 * i) 2,
    tolerance := field d o 2, gapMin := field d (o + 2) 2, gapMax := field d (o + 4) 2,
    maxGross := field d (o + 6) 4, maxAxle := field d (o + 10) 4 }

/-- The requests of SYS. -/
def sysHandler : Nat → Option Handler
  | 1 => some (anyTime identifyDo)
  | 2 => some (fixed 0 fun _ => capabilitiesDo)
  | 3 => some (anyTime statusDo)
  | 4 => some (anyTime timeDo)
  | 5 => some (fixed 0 fun _ => settingsReadDo)
  | 6 => some (fixed 22 fun d => settingsWriteDo (BitVec.ofNat 16 (field d 0 2)) (readSettings d 2))
  | 7 => some (fixed 1 fun d => exchangeAttentionDo (byteOf (field d 0 1)))
  | 8 => some (fixed 0 fun _ => exchangeFaultDo)
  | 9 => some (fixed 0 fun _ => restartDo)
  | _ => none

/-- The requests of CHAN. -/
def chanHandler : Nat → Option Handler
  | 1 => some (fixed 1 fun d => chanReadDo (field d 0 1))
  | 2 => some (fixed 1 fun d => chanEnableDo (field d 0 1))
  | 3 => some (fixed 1 fun d => chanDisableDo (field d 0 1))
  | _ => none

/-- The requests of CAL. -/
def calHandler : Nat → Option Handler
  | 1 => some (fixed 1 fun d => calReadDo (field d 0 1))
  | 2 => some ⟨false, stageLength, readStage⟩
  | 3 => some (fixed 0 fun _ => calCommitDo)
  | 4 => some (fixed 0 fun _ => calDiscardDo)
  | 5 => some (fixed 0 fun _ => calCounterDo)
  | _ => none

/-- The requests of ZERO. -/
def zeroHandler : Nat → Option Handler
  | 1 => some (fixed 1 fun d => zeroAcquireDo (field d 0 1))
  | 2 => some (fixed 1 fun d => zeroCancelDo (field d 0 1))
  | 3 => some (fixed 1 fun d => zeroStateDo (field d 0 1))
  | _ => none

/-- The requests of PASS. -/
def passHandler : Nat → Option Handler
  | 1 => some (fixed 4 fun d => passageReadDo (field d 0 4))
  | 2 => some (fixed 0 fun _ => passageListDo)
  | 3 => some (fixed 7 fun d => recordReadDo (readRef d))
  | 4 => some (fixed 13 fun d => expectDo (field d 0 4) (field d 4 2) (fieldOpt d 6 6) (fieldOpt d 12 1))
  | 5 => some (fixed 13 fun d => assignDo (readRef d) (field d 7 6))
  | 6 => some (fixed 7 fun d => retireRecordDo (readRef d))
  | 7 => some (fixed 4 fun d => retirePassageDo (field d 0 4))
  | 8 => some (fixed 4 fun d => passCloseDo (field d 0 4))
  | _ => none

/-- The requests of REG. -/
def regHandler : Nat → Option Handler
  | 1 => some (fixed 16 fun d =>
      regAddDo (field d 0 6) (fieldOpt d 6 1) (weightOpt d 7) (weightOpt d 11) (byteOf (field d 15 1)))
  | 2 => some (fixed 6 fun d => regReadDo (field d 0 6))
  | 3 => some (fixed 27 fun d => regChangeDo (field d 0 6) (byteOf (field d 6 1)) (readValues d))
  | 4 => some (fixed 8 readFlags)
  | 5 => some (fixed 6 fun d => regRetireDo (field d 0 6))
  | 6 => some (fixed 6 fun d => regNextDo (field d 0 6))
  | 7 => some (fixed 0 fun _ => regCountDo)
  | 8 => some (fixed 0 fun _ => regCommitDo)
  | _ => none

/-- The requests of CLASS. -/
def clsHandler : Nat → Option Handler
  | 1 => some ⟨false, fun d => decide (d.length = 18 + 2 * field d 3 1), fun d => classDefineDo (readClass d)⟩
  | 2 => some (fixed 1 fun d => classReadDo (field d 0 1))
  | 3 => some (fixed 1 fun d => classRemoveDo (field d 0 1))
  | _ => none

/-- The catalogue: the requests of a target, none for a target that R198 does not list. -/
def catalogue : Nat → Option (Nat → Option Handler)
  | 1 => some sysHandler
  | 2 => some chanHandler
  | 3 => some calHandler
  | 4 => some zeroHandler
  | 5 => some passHandler
  | 6 => some regHandler
  | 7 => some clsHandler
  | _ => none

/-- The action of a request whose DATA length has been checked after NOT_READY (R195). -/
def checkedAction (h : Handler) (d : List Byte) : Action :=
  if h.lengthOk d then h.run d else bare .badLength

/-- The SLK's checks of a frame, in order, and the action that follows (R195). -/
def frameAction (f : Frame) : Bool × Action :=
  match catalogue f.target.toNat with
  | none => (true, bare .badTarget)
  | some t =>
    match t f.command.toNat with
    | none => (true, bare .badCommand)
    | some h => (h.always, checkedAction h f.data)

/-- A frame is taken: checked and served (R195). -/
def takeFrame (f : Frame) (s : State) : State := serve f.tag f.target (frameAction f).1 (frameAction f).2 s

/-- The oldest frame is taken when no request is in service (R195). -/
def takeNext (s : State) : State :=
  match s.slk.service, s.slk.queue with
  | none, f :: l => takeFrame f (s.setSlk { s.slk with queue := l })
  | _, _ => s

/-! ### Receiving (R192, R193) -/

/-- A frame is delivered: it joins the queue, or is dropped with LINK_DROPPED (R193). -/
def deliver (f : Frame) (s : State) : State :=
  if maxQueue ≤ s.slk.queue.length then
    reportFault (s.occNow .linkDropped s.timebase none none) (updStats (fun x => { x with queue := bump x.queue }) s)
  else
    takeNext (updStats (fun x => { x with delivered := bump x.delivered })
      (s.setSlk { s.slk with queue := s.slk.queue ++ [f] }))

/-- Set the receiver's state. -/
def setReceiver (r : Receiver) (s : State) : State := s.setSlk { s.slk with receiver := r }

/-- A partial frame is dropped: the receiver returns to HUNT (R192). -/
def dropPartial (f : LinkStats → LinkStats) (s : State) : State := updStats f (setReceiver .hunt s)

/-- The frame that the bytes after LEN spell, without the CRC. -/
def frameOf (len : Nat) (bytes : List Byte) : Frame :=
  ⟨bytes.getD 0 0, bytes.getD 1 0, bytes.getD 2 0, (bytes.take len).drop 3⟩

/-- Do the two last bytes of a complete frame hold its CRC (R191). -/
def crcGood (len : Nat) (bytes : List Byte) : Bool :=
  decide (field bytes len 2 = (crc (byteOf len :: bytes.take len)).toNat)

/-- A frame is complete: delivered or dropped by its CRC (R192). -/
def completeFrame (len : Nat) (bytes : List Byte) (s : State) : State :=
  if crcGood len bytes then deliver (frameOf len bytes) (setReceiver .hunt s)
  else dropPartial (fun x => { x with crc := bump x.crc }) s

/-- A byte without a framing error (R192). -/
def takeGoodByte (b : Byte) (s : State) : State :=
  match s.slk.receiver with
  | .hunt =>
    if b = 0x5A then setReceiver .length s else updStats (fun x => { x with hunt := bump x.hunt }) s
  | .length =>
    if 3 ≤ b.toNat ∧ b.toNat ≤ 243 then setReceiver (.body b.toNat []) s
    else dropPartial (fun x => { x with length := bump x.length }) s
  | .body len bytes =>
    let l := bytes ++ [b]
    if l.length < len + 2 then setReceiver (.body len l) s else completeFrame len l s

/-- A byte with a framing error (R192). -/
def takeBadByte (s : State) : State :=
  match s.slk.receiver with
  | .hunt => updStats (fun x => { x with hunt := bump x.hunt }) s
  | _ => dropPartial (fun x => { x with framing := bump x.framing }) s

/-- A gap has run out in LENGTH or BODY (R192). -/
def dropForGap (s : State) : State :=
  match s.slk.receiver with
  | .hunt => s
  | _ => dropPartial (fun x => { x with gap := bump x.gap }) s

/-- The gap limit: 4 ms (R192). -/
def gapTicks : Nat := 80

/-- A gap longer than the limit has run out before a byte arrives (R192). -/
def settleGap (s : State) : State := if s.slk.lastByte + gapTicks < s.timebase then dropForGap s else s

/-- A byte arrives (R192). -/
def receive (b : Byte) (framingError : Bool) (s : State) : State :=
  let s := settleGap s
  let s := s.setSlk { s.slk with lastByte := s.timebase }
  if framingError then takeBadByte s else takeGoodByte b s

/-- The gap runs out: time reaches it, and the partial frame is dropped (R192; notes/assumptions/2.md). -/
def gapRunsOut (s : State) : State :=
  match s.slk.receiver with
  | .hunt => s
  | _ => dropForGap (s.advance (s.slk.lastByte + gapTicks))

/-- A break (R194). -/
def takeBreak (s : State) : State :=
  updStats (fun x => { x with breaks := bump x.breaks }) (s.setSlk { s.slk with queue := [], receiver := .hunt })

/-! ### Commands -/

/-- BYTE_RECEIVED (R192). -/
def execByteReceived (t : Nat) (b : Byte) (e : Bool) (s : State) : Host.Outcome State Fault Refusal :=
  .next (s.ifPowered fun s => receive b e (s.advance t))

/-- GAP_TIMEOUT (R192). -/
def execGapTimeout (s : State) : Host.Outcome State Fault Refusal := .next (s.ifPowered gapRunsOut)

/-- LINK_BREAK (R194). -/
def execLinkBreak (t : Nat) (s : State) : Host.Outcome State Fault Refusal :=
  .next (s.ifPowered fun s => takeBreak (s.advance t))

/-- REPLY_SENT (R195): the reply in service has left, and the next frame is taken, before any RESET that the reply's
leaving makes due: the order is the model's choice (notes/assumptions/52.md). -/
def execReplySent (t : Nat) (s : State) : Host.Outcome State Fault Refusal :=
  .next (s.ifPowered fun s => takeNext (endReply (s.advance t)))

end Sys2Proof.Machine
end

