-- ==== Sys2Proof/Machine/RequestCommands.lean ====
section
/-! DEFINITION. The request commands: the block's taking of one request, with the reply composed and put in service
(R195; notes/assumptions/5.md). -/

namespace Sys2Proof.Machine

/-- A request is taken at a time: the reply before it has left, and this one is served (R195). -/
def request (t : Nat) (tag : Byte) (target : Target) (always : Bool) (a : Action) (s : State) :
    Host.Outcome State Fault Refusal :=
  .next (s.ifPowered fun s => serve tag (byteOf (targetNum target)) always a (endReply (s.advance t)))

/-- IDENTIFY (R202). -/
def execIdentify (t : Nat) (tag : Byte) (s : State) : Host.Outcome State Fault Refusal :=
  request t tag .sys true identifyDo s

/-- CAPABILITIES (R202). -/
def execCapabilities (t : Nat) (tag : Byte) (s : State) : Host.Outcome State Fault Refusal :=
  request t tag .sys false capabilitiesDo s

/-- STATUS (R201). -/
def execStatus (t : Nat) (tag : Byte) (s : State) : Host.Outcome State Fault Refusal :=
  request t tag .sys true statusDo s

/-- TIME (R202). -/
def execTime (t : Nat) (tag : Byte) (s : State) : Host.Outcome State Fault Refusal :=
  request t tag .sys true timeDo s

/-- SETTINGS_READ (R203). -/
def execSettingsRead (t : Nat) (tag : Byte) (s : State) : Host.Outcome State Fault Refusal :=
  request t tag .sys false settingsReadDo s

/-- SETTINGS_WRITE (R203). -/
def execSettingsWrite (t : Nat) (tag : Byte) (m : BitVec 16) (b : Settings) (s : State) :
    Host.Outcome State Fault Refusal :=
  request t tag .sys false (settingsWriteDo m b) s

/-- EXCHANGE_ATTENTION (R186). -/
def execExchangeAttention (t : Nat) (tag : Byte) (m : Byte) (s : State) : Host.Outcome State Fault Refusal :=
  request t tag .sys false (exchangeAttentionDo m) s

/-- EXCHANGE_FAULT (R182). -/
def execExchangeFault (t : Nat) (tag : Byte) (s : State) : Host.Outcome State Fault Refusal :=
  request t tag .sys false exchangeFaultDo s

/-- RESTART (R200). -/
def execRestart (t : Nat) (tag : Byte) (s : State) : Host.Outcome State Fault Refusal :=
  request t tag .sys false restartDo s

/-- CHAN_READ (R23). -/
def execChanRead (t : Nat) (tag : Byte) (c : Nat) (s : State) : Host.Outcome State Fault Refusal :=
  request t tag .chan false (chanReadDo c) s

/-- CHAN_ENABLE (R21). -/
def execChanEnable (t : Nat) (tag : Byte) (c : Nat) (s : State) : Host.Outcome State Fault Refusal :=
  request t tag .chan false (chanEnableDo c) s

/-- CHAN_DISABLE (R22). -/
def execChanDisable (t : Nat) (tag : Byte) (c : Nat) (s : State) : Host.Outcome State Fault Refusal :=
  request t tag .chan false (chanDisableDo c) s

/-- CAL_READ (R86). -/
def execCalRead (t : Nat) (tag : Byte) (copy : Nat) (s : State) : Host.Outcome State Fault Refusal :=
  request t tag .cal false (calReadDo copy) s

/-- CAL_STAGE (R85). -/
def execCalStage (t : Nat) (tag : Byte) (f : Nat) (c : Nat) (v : Int) (l : List Band) (s : State) :
    Host.Outcome State Fault Refusal :=
  request t tag .cal false (calStageDo f c v l) s

/-- CAL_COMMIT (R87). -/
def execCalCommit (t : Nat) (tag : Byte) (s : State) : Host.Outcome State Fault Refusal :=
  request t tag .cal false calCommitDo s

/-- CAL_DISCARD (R86). -/
def execCalDiscard (t : Nat) (tag : Byte) (s : State) : Host.Outcome State Fault Refusal :=
  request t tag .cal false calDiscardDo s

/-- CAL_COUNTER (R86). -/
def execCalCounter (t : Nat) (tag : Byte) (s : State) : Host.Outcome State Fault Refusal :=
  request t tag .cal false calCounterDo s

/-- ZERO_ACQUIRE (R97). -/
def execZeroAcquire (t : Nat) (tag : Byte) (p : Nat) (s : State) : Host.Outcome State Fault Refusal :=
  request t tag .zero false (zeroAcquireDo p) s

/-- ZERO_CANCEL (R100). -/
def execZeroCancel (t : Nat) (tag : Byte) (p : Nat) (s : State) : Host.Outcome State Fault Refusal :=
  request t tag .zero false (zeroCancelDo p) s

/-- ZERO_STATE (R104). -/
def execZeroState (t : Nat) (tag : Byte) (p : Nat) (s : State) : Host.Outcome State Fault Refusal :=
  request t tag .zero false (zeroStateDo p) s

/-- PASSAGE_READ (R151). -/
def execPassageRead (t : Nat) (tag : Byte) (n : Nat) (s : State) : Host.Outcome State Fault Refusal :=
  request t tag .pass false (passageReadDo n) s

/-- PASSAGE_LIST (R151). -/
def execPassageList (t : Nat) (tag : Byte) (s : State) : Host.Outcome State Fault Refusal :=
  request t tag .pass false passageListDo s

/-- RECORD_READ (R151). -/
def execRecordRead (t : Nat) (tag : Byte) (r : RecordRef) (s : State) : Host.Outcome State Fault Refusal :=
  request t tag .pass false (recordReadDo r) s

/-- EXPECT (R127). -/
def execExpect (t : Nat) (tag : Byte) (n : Nat) (p : Nat) (f : Option Nat) (c : Option Nat) (s : State) :
    Host.Outcome State Fault Refusal :=
  request t tag .pass false (expectDo n p f c) s

/-- ASSIGN (R142). -/
def execAssign (t : Nat) (tag : Byte) (r : RecordRef) (f : Nat) (s : State) : Host.Outcome State Fault Refusal :=
  request t tag .pass false (assignDo r f) s

/-- RETIRE_RECORD (R149). -/
def execRetireRecord (t : Nat) (tag : Byte) (r : RecordRef) (s : State) : Host.Outcome State Fault Refusal :=
  request t tag .pass false (retireRecordDo r) s

/-- RETIRE_PASSAGE (R150). -/
def execRetirePassage (t : Nat) (tag : Byte) (n : Nat) (s : State) : Host.Outcome State Fault Refusal :=
  request t tag .pass false (retirePassageDo n) s

/-- PASS_CLOSE (R49). -/
def execPassClose (t : Nat) (tag : Byte) (n : Nat) (s : State) : Host.Outcome State Fault Refusal :=
  request t tag .pass false (passCloseDo n) s

/-- REG_ADD (R156). -/
def execRegAdd (t : Nat) (tag : Byte) (f : Nat) (c : Option Nat) (ta : Option Nat) (g : Option Nat) (m : Byte) (s : State) :
    Host.Outcome State Fault Refusal :=
  request t tag .reg false (regAddDo f c ta g m) s

/-- REG_READ (R157). -/
def execRegRead (t : Nat) (tag : Byte) (f : Nat) (s : State) : Host.Outcome State Fault Refusal :=
  request t tag .reg false (regReadDo f) s

/-- REG_CHANGE (R158). -/
def execRegChange (t : Nat) (tag : Byte) (f : Nat) (m : Byte) (v : RegValues) (s : State) :
    Host.Outcome State Fault Refusal :=
  request t tag .reg false (regChangeDo f m v) s

/-- REG_FLAGS_AND (R159). -/
def execRegFlagsAnd (t : Nat) (tag : Byte) (f : Nat) (m : Byte) (s : State) : Host.Outcome State Fault Refusal :=
  request t tag .reg false (regFlagsDo .and f m) s

/-- REG_FLAGS_OR (R159). -/
def execRegFlagsOr (t : Nat) (tag : Byte) (f : Nat) (m : Byte) (s : State) : Host.Outcome State Fault Refusal :=
  request t tag .reg false (regFlagsDo .or f m) s

/-- REG_FLAGS_XOR (R159). -/
def execRegFlagsXor (t : Nat) (tag : Byte) (f : Nat) (m : Byte) (s : State) : Host.Outcome State Fault Refusal :=
  request t tag .reg false (regFlagsDo .xor f m) s

/-- REG_RETIRE (R160). -/
def execRegRetire (t : Nat) (tag : Byte) (f : Nat) (s : State) : Host.Outcome State Fault Refusal :=
  request t tag .reg false (regRetireDo f) s

/-- REG_NEXT (R161). -/
def execRegNext (t : Nat) (tag : Byte) (f : Nat) (s : State) : Host.Outcome State Fault Refusal :=
  request t tag .reg false (regNextDo f) s

/-- REG_COUNT (R157). -/
def execRegCount (t : Nat) (tag : Byte) (s : State) : Host.Outcome State Fault Refusal :=
  request t tag .reg false regCountDo s

/-- REG_COMMIT (R166). -/
def execRegCommit (t : Nat) (tag : Byte) (s : State) : Host.Outcome State Fault Refusal :=
  request t tag .reg false regCommitDo s

/-- CLASS_DEFINE (R106). -/
def execClassDefine (t : Nat) (tag : Byte) (c : ClassFields) (s : State) : Host.Outcome State Fault Refusal :=
  request t tag .cls false (classDefineDo c) s

/-- CLASS_READ (R107). -/
def execClassRead (t : Nat) (tag : Byte) (c : Nat) (s : State) : Host.Outcome State Fault Refusal :=
  request t tag .cls false (classReadDo c) s

/-- CLASS_REMOVE (R107). -/
def execClassRemove (t : Nat) (tag : Byte) (c : Nat) (s : State) : Host.Outcome State Fault Refusal :=
  request t tag .cls false (classRemoveDo c) s

end Sys2Proof.Machine
end

