-- ==== Sys2Proof/Machine/Dispatch.lean ====
section
/-! DEFINITION. The meaning of every command: one call for each row of spec/opcode_table.json. -/

namespace Sys2Proof.Machine

/-- A command's effect on everything but the queue. -/
def exec (i : Instr) (s : State) : Host.Outcome State Fault Refusal :=
  match i with
  | .powerOn => Sys2Proof.Machine.execPowerOn s
  | .reset => Sys2Proof.Machine.execReset s
  | .storeLoadEnd cf => Sys2Proof.Machine.execStoreLoadEnd cf s
  | .headEvent t k h => Sys2Proof.Machine.execHeadEvent t k h s
  | .closeTimeout => Sys2Proof.Machine.execCloseTimeout s
  | .samplingInstant t r => Sys2Proof.Machine.execSamplingInstant t r s
  | .settlingComplete t c r => Sys2Proof.Machine.execSettlingComplete t c r s
  | .overrangeFault t c r => Sys2Proof.Machine.execOverrangeFault t c r s
  | .acquisitionEnd t p r => Sys2Proof.Machine.execAcquisitionEnd t p r s
  | .trackingBlock t p r => Sys2Proof.Machine.execTrackingBlock t p r s
  | .calswChange t pos => Sys2Proof.Machine.execCalswChange t pos s
  | .calibrationCommitEnd ok => Sys2Proof.Machine.execCalibrationCommitEnd ok s
  | .reservationWriteEnd ok => Sys2Proof.Machine.execReservationWriteEnd ok s
  | .registerCommitItem ok => Sys2Proof.Machine.execRegisterCommitItem ok s
  | .registerCommitEnd ok => Sys2Proof.Machine.execRegisterCommitEnd ok s
  | .passageNumberEnd ok => Sys2Proof.Machine.execPassageNumberEnd ok s
  | .triggerIdleExpiry => Sys2Proof.Machine.execTriggerIdleExpiry s
  | .byteReceived t b e => Sys2Proof.Machine.execByteReceived t b e s
  | .gapTimeout => Sys2Proof.Machine.execGapTimeout s
  | .linkBreak t => Sys2Proof.Machine.execLinkBreak t s
  | .replySent t => Sys2Proof.Machine.execReplySent t s
  | .identify t tag => Sys2Proof.Machine.execIdentify t tag s
  | .capabilities t tag => Sys2Proof.Machine.execCapabilities t tag s
  | .status t tag => Sys2Proof.Machine.execStatus t tag s
  | .time t tag => Sys2Proof.Machine.execTime t tag s
  | .settingsRead t tag => Sys2Proof.Machine.execSettingsRead t tag s
  | .settingsWrite t tag m b => Sys2Proof.Machine.execSettingsWrite t tag m b s
  | .exchangeAttention t tag m => Sys2Proof.Machine.execExchangeAttention t tag m s
  | .exchangeFault t tag => Sys2Proof.Machine.execExchangeFault t tag s
  | .restart t tag => Sys2Proof.Machine.execRestart t tag s
  | .chanRead t tag c => Sys2Proof.Machine.execChanRead t tag c s
  | .chanEnable t tag c => Sys2Proof.Machine.execChanEnable t tag c s
  | .chanDisable t tag c => Sys2Proof.Machine.execChanDisable t tag c s
  | .calRead t tag copy => Sys2Proof.Machine.execCalRead t tag copy s
  | .calStage t tag f c v l => Sys2Proof.Machine.execCalStage t tag f c v l s
  | .calCommit t tag => Sys2Proof.Machine.execCalCommit t tag s
  | .calDiscard t tag => Sys2Proof.Machine.execCalDiscard t tag s
  | .calCounter t tag => Sys2Proof.Machine.execCalCounter t tag s
  | .zeroAcquire t tag p => Sys2Proof.Machine.execZeroAcquire t tag p s
  | .zeroCancel t tag p => Sys2Proof.Machine.execZeroCancel t tag p s
  | .zeroState t tag p => Sys2Proof.Machine.execZeroState t tag p s
  | .passageRead t tag n => Sys2Proof.Machine.execPassageRead t tag n s
  | .passageList t tag => Sys2Proof.Machine.execPassageList t tag s
  | .recordRead t tag r => Sys2Proof.Machine.execRecordRead t tag r s
  | .expect t tag n q f c => Sys2Proof.Machine.execExpect t tag n q f c s
  | .assign t tag r f => Sys2Proof.Machine.execAssign t tag r f s
  | .retireRecord t tag r => Sys2Proof.Machine.execRetireRecord t tag r s
  | .retirePassage t tag n => Sys2Proof.Machine.execRetirePassage t tag n s
  | .passClose t tag n => Sys2Proof.Machine.execPassClose t tag n s
  | .regAdd t tag f c w g m => Sys2Proof.Machine.execRegAdd t tag f c w g m s
  | .regRead t tag f => Sys2Proof.Machine.execRegRead t tag f s
  | .regChange t tag f m v => Sys2Proof.Machine.execRegChange t tag f m v s
  | .regFlagsAnd t tag f m => Sys2Proof.Machine.execRegFlagsAnd t tag f m s
  | .regFlagsOr t tag f m => Sys2Proof.Machine.execRegFlagsOr t tag f m s
  | .regFlagsXor t tag f m => Sys2Proof.Machine.execRegFlagsXor t tag f m s
  | .regRetire t tag f => Sys2Proof.Machine.execRegRetire t tag f s
  | .regNext t tag f => Sys2Proof.Machine.execRegNext t tag f s
  | .regCount t tag => Sys2Proof.Machine.execRegCount t tag s
  | .regCommit t tag => Sys2Proof.Machine.execRegCommit t tag s
  | .classDefine t tag c => Sys2Proof.Machine.execClassDefine t tag c s
  | .classRead t tag c => Sys2Proof.Machine.execClassRead t tag c s
  | .classRemove t tag c => Sys2Proof.Machine.execClassRemove t tag c s
  | .lossOfPower => Sys2Proof.Machine.execLossOfPower s
  | .calibrationImageWriteEnd ok => Sys2Proof.Machine.execCalibrationImageWriteEnd ok s

end Sys2Proof.Machine
end

