-- ==== Sys2Proof/Machine/Step.lean ====
section
/-! DEFINITION. One step of the part: the command at the front of its queue, or one tick of the timebase when the
queue is empty (notes/assumptions/1.md). -/

namespace Sys2Proof.Machine

/-- One tick of an idle part: the 48-bit timebase counts (00, section 4.2; notes/assumptions/1.md). -/
def tick (s : State) : State := s.setTimebase ((s.timebase + 1) % timebaseRange)

/-- An idle part; without power nothing counts. -/
def idle (s : State) : State := s.ifPowered tick

/-- One step: the front command on the queue's rest; with no command waiting, one tick. -/
def step (s : State) : Host.Outcome State Fault Refusal :=
  match s.pending with
  | [] => .next (idle s)
  | c :: rest => exec c (s.setPending rest)

/-- The command that a word of the table spells, put at the front of the queue; no word of the table spells one
(notes/assumptions/36.md). -/
def State.withFetchWord (s : State) (nbits w : Nat) : State :=
  match decodeTableWord nbits w with
  | none => s
  | some c => s.setPending (c :: s.pending)

end Sys2Proof.Machine
end

