-- ==== Sys2Proof/Safety.lean ====
section
/-! DEFINITION. What the statements about the part speak of: the state in which a request is taken and the state in
which its reply stands in service, and the properties that every step keeps. -/

namespace Sys2Proof

/-! ### Requests -/

/-- The requests that are served in every condition (R199). -/
def Instr.servedAlways : Instr → Bool
  | .identify _ _ => true
  | .status _ _ => true
  | .time _ _ => true
  | _ => false

/-- The time, the tag and the target of a request row. -/
def Instr.request? : Instr → Option (Nat × Byte × Target)
  | .identify t g => some (t, g, .sys)
  | .capabilities t g => some (t, g, .sys)
  | .status t g => some (t, g, .sys)
  | .time t g => some (t, g, .sys)
  | .settingsRead t g => some (t, g, .sys)
  | .settingsWrite t g _ _ => some (t, g, .sys)
  | .exchangeAttention t g _ => some (t, g, .sys)
  | .exchangeFault t g => some (t, g, .sys)
  | .restart t g => some (t, g, .sys)
  | .chanRead t g _ => some (t, g, .chan)
  | .chanEnable t g _ => some (t, g, .chan)
  | .chanDisable t g _ => some (t, g, .chan)
  | .calRead t g _ => some (t, g, .cal)
  | .calStage t g _ _ _ _ => some (t, g, .cal)
  | .calCommit t g => some (t, g, .cal)
  | .calDiscard t g => some (t, g, .cal)
  | .calCounter t g => some (t, g, .cal)
  | .zeroAcquire t g _ => some (t, g, .zero)
  | .zeroCancel t g _ => some (t, g, .zero)
  | .zeroState t g _ => some (t, g, .zero)
  | .passageRead t g _ => some (t, g, .pass)
  | .passageList t g => some (t, g, .pass)
  | .recordRead t g _ => some (t, g, .pass)
  | .expect t g _ _ _ _ => some (t, g, .pass)
  | .assign t g _ _ => some (t, g, .pass)
  | .retireRecord t g _ => some (t, g, .pass)
  | .retirePassage t g _ => some (t, g, .pass)
  | .passClose t g _ => some (t, g, .pass)
  | .regAdd t g _ _ _ _ _ => some (t, g, .reg)
  | .regRead t g _ => some (t, g, .reg)
  | .regChange t g _ _ _ => some (t, g, .reg)
  | .regFlagsAnd t g _ _ => some (t, g, .reg)
  | .regFlagsOr t g _ _ => some (t, g, .reg)
  | .regFlagsXor t g _ _ => some (t, g, .reg)
  | .regRetire t g _ => some (t, g, .reg)
  | .regNext t g _ => some (t, g, .reg)
  | .regCount t g => some (t, g, .reg)
  | .regCommit t g => some (t, g, .reg)
  | .classDefine t g _ => some (t, g, .cls)
  | .classRead t g _ => some (t, g, .cls)
  | .classRemove t g _ => some (t, g, .cls)
  | _ => none

/-! ### What an accepted SETTINGS_WRITE leaves (R203) -/

/-- The named settings from the block, the others as they stood. -/
def Settings.merged (m : BitVec 16) (b cur : Settings) : Settings where
  triggerCount := if Machine.settingNamed m 1 then b.triggerCount else cur.triggerCount
  triggerIdle := if Machine.settingNamed m 2 then b.triggerIdle else cur.triggerIdle
  closeTimeout := if Machine.settingNamed m 3 then b.closeTimeout else cur.closeTimeout
  highWater := if Machine.settingNamed m 4 then b.highWater else cur.highWater
  lowWater := if Machine.settingNamed m 5 then b.lowWater else cur.lowWater
  sideLimit := if Machine.settingNamed m 6 then b.sideLimit else cur.sideLimit
  endLimit := if Machine.settingNamed m 7 then b.endLimit else cur.endLimit
  unevenLimit := if Machine.settingNamed m 8 then b.unevenLimit else cur.unevenLimit
  bogieMax := if Machine.settingNamed m 9 then b.bogieMax else cur.bogieMax
  attentionMask := if Machine.settingNamed m 10 then b.attentionMask else cur.attentionMask
  faultMask := if Machine.settingNamed m 11 then b.faultMask else cur.faultMask

/-- The operating settings are within their ranges (R203). -/
def Settings.ok (x : Settings) : Prop :=
  (∀ k ∈ Machine.settingIndices, Machine.settingOk x k = true) ∧ x.lowWater < x.highWater

end Sys2Proof

namespace Sys2Proof.Machine

/-! ### Taking a request (R195) -/

/-- The state in which a request is taken: time has come to its moment, and the reply before it has left. -/
def State.taking (s : State) (t : Nat) : State := endReply (s.advance t)

/-- A state with a reply in service; the reply of no accepted RESTART (R195). -/
def State.replying (s : State) (tag : Byte) (target : Target) (o : ReplyCode) (data : List Byte) : State :=
  s.setSlk { s.slk with service := some ⟨tag, byteOf (targetNum target), o, data, false⟩ }

/-- The part has power and its start-up is finished: every request is served (R199). -/
def State.serving (s : State) : Prop := s.powered = true ∧ s.condition ≠ .starting

/-- An operation at its closing write, 10 ms after its last event: the cell not in use is given the last passage
number with the sequence number after the one in use (R169). -/
def Busy.closing (b : Busy) (failed : Bool) (inUse : CellId) (sequence number : Nat) : Busy :=
  { op := b.op, phase := .closing, due := b.due + 200, items := [], failed := failed,
    write := some (inUse.other, ⟨number, (sequence + 1) % 65536⟩) }

/-! ### The request row that a frame spells (R195, R198) -/

/-- What the catalogue says of a frame: whether its DATA has the length of its request, and the request row that it
spells; the row is absent for a REG_FLAGS that names none of the three operations. -/
abbrev Spelt := Bool × Option Instr

/-- A request of one DATA length. -/
def spelt (d : List Byte) (n : Nat) (c : Instr) : Option Spelt := some (decide (d.length = n), some c)

/-- The requests of SYS (R198). -/
def sysRow (t : Nat) (g : Byte) (d : List Byte) : Nat → Option Spelt
  | 1 => spelt d 0 (.identify t g)
  | 2 => spelt d 0 (.capabilities t g)
  | 3 => spelt d 0 (.status t g)
  | 4 => spelt d 0 (.time t g)
  | 5 => spelt d 0 (.settingsRead t g)
  | 6 => spelt d 22 (.settingsWrite t g (BitVec.ofNat 16 (field d 0 2)) (readSettings d 2))
  | 7 => spelt d 1 (.exchangeAttention t g (byteOf (field d 0 1)))
  | 8 => spelt d 0 (.exchangeFault t g)
  | 9 => spelt d 0 (.restart t g)
  | _ => none

/-- The requests of CHAN (R198). -/
def chanRow (t : Nat) (g : Byte) (d : List Byte) : Nat → Option Spelt
  | 1 => spelt d 1 (.chanRead t g (field d 0 1))
  | 2 => spelt d 1 (.chanEnable t g (field d 0 1))
  | 3 => spelt d 1 (.chanDisable t g (field d 0 1))
  | _ => none

/-- The requests of CAL (R198): CAL_STAGE of field 14 carries a table, and of any other field a channel and a value. -/
def calRow (t : Nat) (g : Byte) (d : List Byte) : Nat → Option Spelt
  | 1 => spelt d 1 (.calRead t g (field d 0 1))
  | 2 =>
    if field d 0 1 = 14 then spelt d (2 + 6 * field d 1 1) (.calStage t g 14 0 0 (readBands d))
    else spelt d 6 (.calStage t g (field d 0 1) (field d 1 1) (sfield d 2) [])
  | 3 => spelt d 0 (.calCommit t g)
  | 4 => spelt d 0 (.calDiscard t g)
  | 5 => spelt d 0 (.calCounter t g)
  | _ => none

/-- The requests of ZERO (R198). -/
def zeroRow (t : Nat) (g : Byte) (d : List Byte) : Nat → Option Spelt
  | 1 => spelt d 1 (.zeroAcquire t g (field d 0 1))
  | 2 => spelt d 1 (.zeroCancel t g (field d 0 1))
  | 3 => spelt d 1 (.zeroState t g (field d 0 1))
  | _ => none

/-- The requests of PASS (R198). -/
def passRow (t : Nat) (g : Byte) (d : List Byte) : Nat → Option Spelt
  | 1 => spelt d 4 (.passageRead t g (field d 0 4))
  | 2 => spelt d 0 (.passageList t g)
  | 3 => spelt d 7 (.recordRead t g (readRef d))
  | 4 => spelt d 13 (.expect t g (field d 0 4) (field d 4 2) (fieldOpt d 6 6) (fieldOpt d 12 1))
  | 5 => spelt d 13 (.assign t g (readRef d) (field d 7 6))
  | 6 => spelt d 7 (.retireRecord t g (readRef d))
  | 7 => spelt d 4 (.retirePassage t g (field d 0 4))
  | 8 => spelt d 4 (.passClose t g (field d 0 4))
  | _ => none

/-- The row of a REG_FLAGS: AND 0, OR 1, XOR 2 (R159, R197). -/
def flagsRow (t : Nat) (g : Byte) (d : List Byte) : Option Instr :=
  match field d 6 1 with
  | 0 => some (.regFlagsAnd t g (field d 0 6) (byteOf (field d 7 1)))
  | 1 => some (.regFlagsOr t g (field d 0 6) (byteOf (field d 7 1)))
  | 2 => some (.regFlagsXor t g (field d 0 6) (byteOf (field d 7 1)))
  | _ => none

/-- The requests of REG (R198). -/
def regRow (t : Nat) (g : Byte) (d : List Byte) : Nat → Option Spelt
  | 1 => spelt d 16 (.regAdd t g (field d 0 6) (fieldOpt d 6 1) (weightOpt d 7) (weightOpt d 11) (byteOf (field d 15 1)))
  | 2 => spelt d 6 (.regRead t g (field d 0 6))
  | 3 => spelt d 27 (.regChange t g (field d 0 6) (byteOf (field d 6 1)) (readValues d))
  | 4 => some (decide (d.length = 8), flagsRow t g d)
  | 5 => spelt d 6 (.regRetire t g (field d 0 6))
  | 6 => spelt d 6 (.regNext t g (field d 0 6))
  | 7 => spelt d 0 (.regCount t g)
  | 8 => spelt d 0 (.regCommit t g)
  | _ => none

/-- The requests of CLASS (R198): CLASS_DEFINE carries two bytes for each spacing that its count names. -/
def clsRow (t : Nat) (g : Byte) (d : List Byte) : Nat → Option Spelt
  | 1 => spelt d (18 + 2 * field d 3 1) (.classDefine t g (readClass d))
  | 2 => spelt d 1 (.classRead t g (field d 0 1))
  | 3 => spelt d 1 (.classRemove t g (field d 0 1))
  | _ => none

/-- What the catalogue of R198 says of a frame taken at a time; none for a target or a command that it does not list. -/
def Frame.row (t : Nat) (f : Frame) : Option Spelt :=
  match f.target.toNat with
  | 1 => sysRow t f.tag f.data f.command.toNat
  | 2 => chanRow t f.tag f.data f.command.toNat
  | 3 => calRow t f.tag f.data f.command.toNat
  | 4 => zeroRow t f.tag f.data f.command.toNat
  | 5 => passRow t f.tag f.data f.command.toNat
  | 6 => regRow t f.tag f.data f.command.toNat
  | 7 => clsRow t f.tag f.data f.command.toNat
  | _ => none

/-! ### Axles as the tracker moves them (R29, R32) -/

/-- An axle's zone and crossing times: what a crossing writes, and what nothing else changes (R29, R32, R33). -/
def Axle.track (a : Axle) : Zone × PerPost (Option PassTime) := (a.zone, a.times)

/-! ### Properties that every step keeps -/

/-- The ATTN line is the attention set against the attention mask (R185). -/
def State.attnOk (s : State) : Prop := s.fau.attn = attnLevel s.fau.attention s.settings.attentionMask

/-- PERMIT is asserted exactly when its conditions hold; the water state has been evaluated on the slots in use and
the two settings, the low one below the high one (R152, R153). -/
def State.permitOk (s : State) : Prop :=
  s.settings.lowWater < s.settings.highWater ∧
    (s.ptb.permit = .asserted ↔ permitHolds s = true) ∧
    waterNext s.ptb.water s.usedSlots s.settings.highWater s.settings.lowWater = s.ptb.water

/-- Every key of a table is below a bound. -/
def Table.below {α : Type} (n : Nat) (t : Table α) : Prop := ∀ r ∈ t, r.1 < n

/-- The tables are in their canonical form and within their numbers: 640 slots, 4,096 places (R124, R154). -/
def State.tablesOk (s : State) : Prop :=
  Table.wf s.ptb.slots = true ∧ Table.below maxSlots s.ptb.slots ∧ Table.wf s.wrg.records = true ∧
    Table.wf s.wrg.retired = true ∧ Table.below maxRegister s.wrg.retired ∧ Table.wf s.seg.classes = true ∧
    Table.wf s.store.classes = true ∧ Table.wf s.store.places = true

/-- Each record of the register is keyed by its fleet number and stands at a place of its own, below 4,096, that no
entry of the retirement list holds (R154). -/
def Wrg.placesOk (w : Wrg) : Prop :=
  (∀ r ∈ w.records, r.2.fields.fleet = r.1 ∧ r.2.place < maxRegister ∧ tget w.retired r.2.place = none) ∧
    ∀ r ∈ w.records, ∀ q ∈ w.records, r.2.place = q.2.place → r.1 = q.1

/-- A record that carries CERTIFIED is COMPLETE or FINAL and has no disqualifying qualifier (R136). -/
def Wagon.certifiedOk (w : Wagon) : Prop :=
  w.certified = true → (w.state = .complete ∨ w.state = .final) ∧ w.quals &&& disqualifying = 0

/-- Every record's CERTIFIED mark is deserved (R136). -/
def State.certifiedOk (s : State) : Prop := ∀ r ∈ s.ptb.slots, r.2.certifiedOk

/-- With no passage open the tracker holds its reset values; a train holds at most 2,048 axles (R26, R30). -/
def State.trackerOk (s : State) : Prop :=
  (s.axt.passage = none → s.axt = Axt.reset) ∧ s.axt.train.length ≤ maxAxles

/-- The passage directory holds at most 8 entries, and an OPEN one only while a passage is open (R124, R147). -/
def State.directoryOk (s : State) : Prop :=
  s.ptb.directory.length ≤ maxDirectory ∧ (s.axt.passage = none → ∀ e ∈ s.ptb.directory, e.close.isSome = true)

/-- The request queue holds at most 4 frames (R193). -/
def State.queueOk (s : State) : Prop := s.slk.queue.length ≤ maxQueue

/-- A station's motion count and return count are in range; a FAULTED station holds no pending head and counts no
returns (R4, R5). -/
def StationRec.ok (r : StationRec) : Prop :=
  (∀ p, r.pending = some p → p.motion ≤ 3) ∧ r.returns ≤ 255 ∧
    (r.state = .faulted → r.pending = none ∧ r.returns = 0)

/-- The three stations (R4, R5). -/
def State.stationsOk (s : State) : Prop := s.wsu.s1.ok ∧ s.wsu.s2.ok ∧ s.wsu.s3.ok

/-- The nine link statistics within 65,535 (R192). -/
def LinkStats.ok (x : LinkStats) : Prop :=
  x.delivered ≤ 65535 ∧ x.replies ≤ 65535 ∧ x.hunt ≤ 65535 ∧ x.framing ≤ 65535 ∧ x.gap ≤ 65535 ∧ x.length ≤ 65535 ∧
    x.crc ≤ 65535 ∧ x.queue ≤ 65535 ∧ x.breaks ≤ 65535

/-- The saturating counts of the FAU, the link and the STC stand within their limits, and the store state is FAILED
exactly at three failures (R176, R192, R165). -/
def State.countsOk (s : State) : Prop :=
  s.fau.counts.length = 14 ∧ (∀ n ∈ s.fau.counts, n ≤ 255) ∧ s.slk.stats.ok ∧ s.stc.failures ≤ 3 ∧
    (s.stc.health = .failed ↔ s.stc.failures = 3)

/-- The settings are in range, and the trigger counter stands below the trigger count (R187, R203). -/
def State.triggerOk (s : State) : Prop := s.settings.ok ∧ s.fau.trigger < s.settings.triggerCount

/-- The store load is in hand only while the part is STARTING, and no passage is open then (R27, R199). -/
def State.startOk (s : State) : Prop :=
  (∀ b, s.stc.busy = some b → b.op = .load → s.condition = .starting) ∧ (s.condition = .starting → s.axt.passage = none)

/-- A timebase value of 48 bits (00, section 4.2). -/
def State.timeOk (s : State) : Prop := s.timebase < timebaseRange

end Sys2Proof.Machine
end

