-- ==== Sys2Proof/Certificates/Slice0/Obligations.lean ====
section
/-! DEFINITION. The statements about the part, for the provers. In every statement about a request row, `s.taking t` is the
state in which the request is taken (time has come to `t`, the reply before it has left: R195) and `replying` puts its
reply in service; where the next state is given whole, everything that it does not name is as it was. -/

open Sys2Proof Sys2Proof.Machine

/-! ### The queue, power and start-up -/

/-- A step takes the command at the front of the queue: it is exec of that command on the queue's rest. With no command
waiting one tick passes, in a part with power (the model's choice, log 1). -/
def Obligations.StepTakesFrontCommand : Prop :=
  (∀ (c : Instr) (rest : List Instr) (s : State), step (s.setPending (c :: rest)) = exec c (s.setPending rest)) ∧
  (∀ s : State, s.pending = [] →
      step s = .next (if s.powered then s.setTimebase ((s.timebase + 1) % 281474976710656) else s))

/-- Every command answers a next state, with the queue as it was: no command stops the part (log 35). A part without
power does nothing but let CALSW move, until power is applied (the model's choice, log 6). Before start-up is finished
every request but IDENTIFY, STATUS and TIME is refused with NOT_READY and changes nothing else (R195, R199). -/
def Obligations.EveryCommandLeavesTheQueue : Prop :=
  (∀ (c : Instr) (s : State), ∃ s' : State, exec c s = .next s' ∧ s'.pending = s.pending) ∧
  (∀ (c : Instr) (s : State), s.powered = false → c ≠ .powerOn →
      exec c s = .next (match c with | .calswChange _ p => s.setCalsw p | _ => s)) ∧
  (∀ (c : Instr) (t : Nat) (g : Byte) (k : Target) (s : State), c.request? = some (t, g, k) → c.servedAlways = false →
      s.powered = true → s.condition = .starting → exec c s = .next ((s.taking t).replying g k .notReady []))

/-- POWER_ON of a part without power: every volatile block at its reset value over the store and the switch as they
stand, the part STARTING and the STC BUSY with LOAD for 5,000 ticks (R199, R171, R175). POWER_ON of a part that has power
is the loss of it and then POWER_ON (the model's choice, log 6).
LOSS_OF_POWER: every volatile block and the settings take their reset values, the zero states, the working zeros, the
faults and the attention set among them; the switch stands, and so does the store but for the write in hand (R172, R175).
With no operation in hand, or in the store load, all of it stands. In a reservation or closing write the cell being
written fails its check; a calibration commit cut in its reservation write or in its image write leaves an image that
fails its check, with the shadow as it stood (R88, R172); cut in its closing write it leaves the image and the shadow. In
a register commit the items before the one being written are in the store already and those after it are as they were;
the place being written or erased fails its check, and of the class area the codes below one are new, that one fails its
check, and those above it are old (which one is the model's free value, log 14). -/
def Obligations.PowerIsAppliedAndLost : Prop :=
  (∀ s : State, s.powered = false →
      exec .powerOn s = .next (State.volatileReset s.pending s.freeCount s.calsw s.store) ∧
        (State.volatileReset s.pending s.freeCount s.calsw s.store).condition = .starting ∧
        (State.volatileReset s.pending s.freeCount s.calsw s.store).stc.busy = some ⟨.load, .reading, 5000, none, [], false⟩ ∧
        (State.volatileReset s.pending s.freeCount s.calsw s.store).ptb.permit = .withdrawn ∧
        (State.volatileReset s.pending s.freeCount s.calsw s.store).timebase = 0) ∧
  (∀ s : State, s.powered = true → ∃ s' : State, exec .lossOfPower s = .next s' ∧ s'.powered = false ∧
      exec .powerOn s = exec .powerOn s' ∧ s'.calsw = s.calsw ∧ s'.settings = defaultSettings ∧
      (∀ k, s'.wsu.get k = StationRec.reset) ∧ s'.lcu = Lcu.reset ∧ s'.axt = Axt.reset ∧
      (∀ p, s'.meu.get p = MeuPlatform.reset) ∧ s'.zcl = Zcl.reset ∧ s'.seg = Seg.reset ∧ s'.ptb = Ptb.reset ∧
      s'.wrg = Wrg.reset ∧ s'.cal = Cal.reset ∧ s'.stc = Stc.reset ∧ s'.fau = Fau.reset ∧ s'.slk = Slk.reset ∧
      (s.stc.busy = none → s'.store = s.store) ∧
      (∀ b, s.stc.busy = some b → b.phase = .reading → s'.store = s.store) ∧
      (∀ b c v, s.stc.busy = some b → b.phase = .reservation → b.write = some (c, v) →
        (b.op = .calibrationCommit → s'.store = { s.store.setCell c none with image := none }) ∧
        (b.op ≠ .calibrationCommit → s'.store = s.store.setCell c none)) ∧
      (∀ b c v, s.stc.busy = some b → b.phase = .closing → b.write = some (c, v) → s'.store = s.store.setCell c none) ∧
      (∀ b, s.stc.busy = some b → b.phase = .body → b.op = .calibrationCommit → s'.store = { s.store with image := none }) ∧
      (∀ b k f l, s.stc.busy = some b → b.phase = .body → b.op = .registerCommit → b.items = .write k f :: l →
        s'.store = { s.store with places := tput s.store.places k .bad }) ∧
      (∀ b k l, s.stc.busy = some b → b.phase = .body → b.op = .registerCommit → b.items = .erase k :: l →
        s'.store = { s.store with places := tput s.store.places k .bad }) ∧
      (∀ b t l, s.stc.busy = some b → b.phase = .body → b.op = .registerCommit → b.items = .classArea t :: l →
        Table.wf s.store.classes = true →
        s'.store = { s.store with classes := s'.store.classes } ∧
          ∃ n, 1 ≤ n ∧ n ≤ 24 ∧ ∀ c, 1 ≤ c → c ≤ 24 → tget s'.store.classes c =
            if c < n then (tget t c).map .sound else if c = n then some .bad else tget s.store.classes c))

/-- STORE_LOAD_END: the part is READY at 5,000 ticks; the class table, the register and the last passage number are
those of the store, no mark is set, nothing is held, the STC is IDLE with no outcome, and PERMIT stands as R152 says
(R105, R154, R165, R170, R171, R199). The calibration (both sets, state and counter, no commit) and the working zeros are
those that the store gives, as StartUpReadsTheStore says, and the working set's pattern is fitted (R13, R92, R93). With the load ended the
FAU takes, one after another, the occurrences it held, in the order of their reports, then CAL_INVALID, when the image
failed its check or its validation (the detail says which, with the failing field), and STORE_RECORDS_LOST, when anything
was lost, with the numbers of lost register and class entries and whether both cells failed; each bears the time of the
load's end and no passage, and the operand says which of the two is first (R92, R171, R179, R180). Only a platform that
was not OUT could add an occurrence of its own. -/
def Obligations.LoadEndFinishesStartUp : Prop :=
  ∀ (s : State) (b : Busy) (first : Bool), s.powered = true → s.stc.busy = some b → b.op = .load → b.phase = .reading →
    s.settings.lowWater < s.settings.highWater →
    ∃ s' : State, exec (.storeLoadEnd first) s = .next s' ∧ s'.condition = .ready ∧ s'.timebase = max s.timebase 5000 ∧
      s'.seg.classes = loadClasses s.store.classes ∧ s'.seg.dirty = false ∧
      s'.wrg = ⟨tputAll [] (loadRecords s.store.places), []⟩ ∧
      s'.ptb.lastNumber = (loadCells s.store.cell1 s.store.cell2).1 ∧
      s'.stc.busy = none ∧ s'.stc.waiting = false ∧ s'.stc.last = none ∧ s'.stc.failures = 0 ∧ s'.stc.health = .ok ∧
      s'.fau.held = [] ∧ s'.store = s.store ∧ s'.permitOk ∧
      s'.cal = (loadCalibration s).cal ∧ s'.cal.phase = .idle ∧ s'.cal.snapshot = none ∧ s'.cal.lastOutcome = none ∧
      s'.zcl.zeros = (loadCalibration s).zcl.zeros ∧
      (∀ c, (s'.lcu.channels.get c).fitted = inPattern s'.cal.working.fitted c) ∧
      (s.condition = .starting →
        let T := max s.timebase 5000
        let invalid : List FaultOcc := match s.store.image with
          | none => [⟨.calInvalid, T, none, none, some .calCheck⟩]
          | some (c, _) => match validate c with
            | none => []
            | some f => [⟨.calInvalid, T, none, none, some (.calValidation f.1)⟩]
        let places := s.store.places.length - (loadRecords s.store.places).length
        let codes := s.store.classes.length - (loadClasses s.store.classes).length
        let cells := s.store.cell1.isNone && s.store.cell2.isNone
        let lost : List FaultOcc := if places = 0 ∧ codes = 0 ∧ cells = false then []
          else [⟨.storeRecordsLost, T, none, none, some (.lost places codes cells)⟩]
        ∃ l : List FaultOcc, ((∀ p, (s.lcu.platforms.get p).service = .out) → l = []) ∧
          let u := (s.fau.held ++ l ++ (if first then invalid ++ lost else lost ++ invalid)).foldl (fun v o => takeFault o v)
            (s.setFau { s.fau with held := [] })
          s'.fau.capture = u.fau.capture ∧ s'.fau.counts = u.fau.counts ∧ s'.fau.worst = u.fau.worst ∧
            s'.fau.attention.getLsbD 3 = u.fau.attention.getLsbD 3)

/-- The calibration that a start-up establishes: the image's set and counter, VALID, when it passes its check and its
validation; else the factory defaults, INVALID, with the counter shadow, or 65,535 when that fails too; the staging copy
and the working zeros follow (R91, R92, R93). That the counter comes from the shadow also when the image passes its check
and fails its validation is the model's reading of R91 beside R92 (log 37). The last passage number from the two cells
(R170); that a lone sound cell gives its number plus 1,001, as R170 says, and not plus one, as a line of R172's table
says, is the model's reading of the two (log 49). -/
def Obligations.StartUpReadsTheStore : Prop :=
  (∀ s : State, (loadCalibration s).cal.staging = (loadCalibration s).cal.working ∧
      (loadCalibration s).zcl.zeros = (loadCalibration s).cal.working.zero ∧
      (∀ c n, s.store.image = some (c, n) → validate c = none →
        (loadCalibration s).cal.working = c ∧ (loadCalibration s).cal.state = .valid ∧ (loadCalibration s).cal.counter = n) ∧
      (s.store.image = none ∨ (∃ c n, s.store.image = some (c, n) ∧ validate c ≠ none) →
        (loadCalibration s).cal.working = factoryDefaults ∧ (loadCalibration s).cal.state = .invalid ∧
          (loadCalibration s).cal.counter = match s.store.shadow with | some n => n | none => 65535)) ∧
  ((∀ a b : Cell, a.sequence = (b.sequence + 1) % 65536 → (loadCells (some a) (some b)).1 = a.number) ∧
    (∀ a b : Cell, b.sequence = (a.sequence + 1) % 65536 → a.sequence ≠ (b.sequence + 1) % 65536 →
      (loadCells (some a) (some b)).1 = b.number) ∧
    (∀ a b : Cell, b.sequence ≠ (a.sequence + 1) % 65536 → a.sequence ≠ (b.sequence + 1) % 65536 →
      (loadCells (some a) (some b)).1 = max a.number b.number) ∧
    (∀ a : Cell, a.number + 1001 ≤ 4294967295 → (loadCells (some a) none).1 = a.number + 1001 ∧
      (loadCells none (some a)).1 = a.number + 1001) ∧
    (∀ a : Cell, a.number ≤ 4294967295 → 4294967295 < a.number + 1001 →
      (loadCells (some a) none).1 = a.number + 1001 - 4294967295) ∧
    loadCells none none = (0, .first, 0))

/-- RESTART: refused with PASSAGE_OPEN while a passage is open; in a READY part it makes the part RESTARTING, its reply
owed, and withdraws PERMIT, raising PERMIT if it was asserted; RESET is made when the reply has left, the STC is IDLE
and no passage-number write waits, and gives every block its reset value (R200). -/
def Obligations.RestartThenReset : Prop :=
  (∀ (s : State) (t : Nat) (g : Byte), s.powered = true → s.isOpen = true → s.condition ≠ .starting →
    exec (.restart t g) s = .next ((s.taking t).replying g .sys .passageOpen [])) ∧
  (∀ (s : State) (t : Nat) (g : Byte), s.powered = true → s.isOpen = false → s.condition = .ready → s.slk.restartDue = false →
    ∃ s' : State, exec (.restart t g) s = .next s' ∧ s'.condition = .restarting ∧ s'.ptb.permit = .withdrawn ∧
      s'.slk.service = some ⟨g, 1, .ok, [], true⟩ ∧ s'.slk.restartDue = true ∧
      (s.ptb.permit = .asserted → s'.fau.attention.getLsbD 6 = true)) ∧
  (∀ (s : State) (t : Nat) (g : Byte), s.powered = true → s.isOpen = false → s.condition = .restarting →
    exec (.restart t g) s = .next ((s.taking t).replying g .sys .ok [])) ∧
  (∀ s : State, s.powered = true → s.condition = .restarting → s.slk.restartDue = false → s.stc.busy = none →
    s.stc.waiting = false →
    exec .reset s = .next (State.volatileReset s.pending s.freeCount s.calsw s.store)) ∧
  (∀ s : State, s.condition ≠ .restarting ∨ s.slk.restartDue = true ∨ s.stc.busy ≠ none ∨ s.stc.waiting = true →
    exec .reset s = .next s)

/-! ### System requests -/

/-- IDENTIFY, CAPABILITIES and TIME return what R202 lists and change nothing; IDENTIFY and TIME in every condition.
STATUS is served in every condition, changes nothing, and its reply is 162 bytes that begin with the condition and the
timebase (R201). -/
def Obligations.IdentityStatusAndTimeAreRead : Prop :=
  (∀ (s : State) (t : Nat) (g : Byte), s.powered = true →
      exec (.identify t g) s = .next ((s.taking t).replying g .sys .ok
        (0x3D :: 0x17 :: 0x0A :: 0x30 :: Config.revision :: be 8 Config.serial.toNat)) ∧
      exec (.time t g) s = .next ((s.taking t).replying g .sys .ok (be 6 (s.taking t).timebase)) ∧
      (s.condition ≠ .starting → exec (.capabilities t g) s = .next ((s.taking t).replying g .sys .ok
        [0x08, 0, 0x02, 0x80, 0, 8, 0x10, 0, 0, 24, 0, 8, 0, 4, 0, 240, 0, 8, 0, 3]))) ∧
  (∀ (s : State) (t : Nat) (g : Byte), s.powered = true →
      exec (.status t g) s = .next ((s.taking t).replying g .sys .ok (statusData (s.taking t))) ∧
      (statusData (s.taking t)).length = 162 ∧
      (statusData (s.taking t)).take 7 = byteOf (conditionNum s.condition) :: be 6 (s.taking t).timebase)

/-- SETTINGS_READ returns the eleven settings in 20 bytes, in index order (R203). SETTINGS_WRITE: a bad mask, a named
value out of range, or a low water not below the high water is refused with BAD_VALUE and its index and changes no
setting (that the index is the first byte and 0xFF the second is the model's choice, log 26); an accepted write gives every named setting its value and leaves the others (R203). A trigger count at or
below the counter, or an idle time whose expiry from the last completion has come, raises WAGONS and sets the counter
to 0, when the counter is 1 or more; any other write of them leaves counter and bit (R189; an expiry at this very tick
has come, log 31). A close timeout whose expiry has come closes an open passage with the bridge unoccupied, and no
other write touches the tracker (R48). The attention mask evaluates ATTN (R185). A write that names a water setting
evaluates the water state and PERMIT once at its end, a change of PERMIT raising PERMIT; one that names neither, and no
close timeout, leaves them (R152, R153, R203). -/
def Obligations.SettingsAreReadAndWritten : Prop :=
  (∀ (s : State) (t : Nat) (g : Byte), s.serving →
      exec (.settingsRead t g) s = .next ((s.taking t).replying g .sys .ok
        (be 1 s.settings.triggerCount ++ be 2 s.settings.triggerIdle ++ be 2 s.settings.closeTimeout ++
          be 2 s.settings.highWater ++ be 2 s.settings.lowWater ++ be 2 s.settings.sideLimit ++ be 2 s.settings.endLimit ++
          be 2 s.settings.unevenLimit ++ be 2 s.settings.bogieMax ++ be 1 s.settings.attentionMask.toNat ++
          be 2 s.settings.faultMask.toNat)) ∧
      (settingsData s.settings).length = 20) ∧
  (∀ (s : State) (t : Nat) (g : Byte) (m : BitVec 16) (b : Settings), s.serving →
      (m = 0 ∨ 2047 < m.toNat → exec (.settingsWrite t g m b) s = .next ((s.taking t).replying g .sys .badValue [0, 0xFF])) ∧
      (∀ k, m ≠ 0 → m.toNat ≤ 2047 → k ∈ settingIndices → settingNamed m k = true → settingOk b k = false →
        (∀ j ∈ settingIndices, j < k → settingNamed m j = true → settingOk b j = true) →
        exec (.settingsWrite t g m b) s = .next ((s.taking t).replying g .sys .badValue [byteOf k, 0xFF])) ∧
      (m ≠ 0 → m.toNat ≤ 2047 → (∀ k ∈ settingIndices, settingNamed m k = true → settingOk b k = true) →
        ((Settings.merged m b s.settings).highWater ≤ (Settings.merged m b s.settings).lowWater →
          exec (.settingsWrite t g m b) s = .next ((s.taking t).replying g .sys .badValue [5, 0xFF])) ∧
        ((Settings.merged m b s.settings).lowWater < (Settings.merged m b s.settings).highWater →
          ∃ s' : State, exec (.settingsWrite t g m b) s = .next s' ∧ s'.settings = Settings.merged m b s.settings ∧
            s'.slk.service = some ⟨g, 1, .ok, [], false⟩ ∧
            (settingNamed m 3 = false → s'.axt = s.axt ∧ s'.wrg = s.wrg ∧ s'.cal = s.cal ∧ s'.ptb.slots = s.ptb.slots ∧
              s'.zcl = s.zcl ∧ s'.store = s.store) ∧
            (settingNamed m 3 = false →
              let fires := 1 ≤ s.fau.trigger ∧ ((settingNamed m 1 = true ∧ b.triggerCount ≤ s.fau.trigger) ∨
                (settingNamed m 2 = true ∧ ∃ c, s.fau.lastCompletion = some c ∧ c + b.triggerIdle * 20 ≤ (s.taking t).timebase))
              (fires → s'.fau.trigger = 0 ∧ s'.fau.attention.getLsbD 0 = true) ∧
              (¬ fires → s'.fau.trigger = s.fau.trigger ∧
                s'.fau.attention.getLsbD 0 = s.fau.attention.getLsbD 0) ∧
              s'.fau.lastCompletion = s.fau.lastCompletion) ∧
            (settingNamed m 3 = true →
              (∀ q, s.axt.passage = some q → s.occupied = false →
                q.lastActivity + b.closeTimeout * 20000 ≤ (s.taking t).timebase → s'.axt = Axt.reset) ∧
              (s.occupied = true ∨ (∀ q, s.axt.passage = some q →
                (s.taking t).timebase < q.lastActivity + b.closeTimeout * 20000) → s'.axt = s.axt)) ∧
            (settingNamed m 10 = true → s'.attnOk) ∧
            (settingNamed m 4 = true ∨ settingNamed m 5 = true → s'.permitOk ∧
              (settingNamed m 3 = false → s'.ptb.permit ≠ s.ptb.permit → s'.fau.attention.getLsbD 6 = true)) ∧
            (settingNamed m 4 = false → settingNamed m 5 = false → settingNamed m 3 = false → s'.ptb = s.ptb))))

/-- Raising a bit adds it to the set whatever the mask holds, removes none, and evaluates the line (R184, R185).
EXCHANGE_ATTENTION replies with the attention set, the mask, the ATTN level and the trigger counter as they stand, then
removes from the set the bits that M names, and evaluates ATTN (R185, R186). That the level is a byte, 1 for asserted, is
the model's choice (log 23). -/
def Obligations.AttentionIsRaisedAndExchanged : Prop :=
  (∀ (b : AttBit) (s : State), raiseAtt b s = s.setFau { s.fau with
      attention := s.fau.attention ||| attSet b
      attn := decide ((s.fau.attention ||| attSet b) &&& s.settings.attentionMask ≠ 0) }) ∧
  (∀ (s : State) (t : Nat) (g m : Byte), s.serving →
      exec (.exchangeAttention t g m) s = .next (((s.taking t).setFau { s.fau with
          attention := s.fau.attention &&& ~~~m
          attn := attnLevel (s.fau.attention &&& ~~~m) s.settings.attentionMask }).replying g .sys .ok
        (be 1 s.fau.attention.toNat ++ be 1 s.settings.attentionMask.toNat ++ be 1 s.fau.attn.toNat ++ be 1 s.fau.trigger)))

/-- EXCHANGE_FAULT replies with the capture, the 14 counts, the worst severity and the fault mask, then empties the
capture, sets every count to 0 and removes the worst severity; the mask and the attention set stand (R182). -/
def Obligations.FaultsAreExchanged : Prop :=
  ∀ (s : State) (t : Nat) (g : Byte), s.serving →
    exec (.exchangeFault t g) s = .next (((s.taking t).setFau { s.fau with
        capture := none, counts := s.fau.counts.map fun _ => 0, worst := none }).replying g .sys .ok
      (occData s.fau.capture ++ s.fau.counts.flatMap (be 1) ++ beOpt 1 (s.fau.worst.map severityNum) ++
        be 2 s.settings.faultMask.toNat)) ∧
    (occData s.fau.capture).length = 17

/-! ### Faults, attention and the trigger -/

/-- Taking an occurrence: its kind's count goes up by one unless it stands at 255, the worst severity becomes the
greater, and, when its kind is not masked, it fills an empty capture and raises FAULT, which evaluates the line; nothing
else changes (R179, R184). An occurrence reported before start-up is finished is held and not taken; afterwards it is
taken at once (R180). Two occurrences taken in either order leave the same counts, worst severity and attention; an empty
capture, both kinds unmasked, holds whichever is taken first (R179). -/
def Obligations.OccurrenceIsTakenWhole : Prop :=
  (∀ (o : FaultOcc) (s : State),
      takeFault o s = s.setFau (takeFault o s).fau ∧
      (∀ i, (takeFault o s).fau.counts[i]? =
        if i + 1 = faultNum o.kind then (s.fau.counts[i]?).map fun n => if n < 255 then n + 1 else n else s.fau.counts[i]?) ∧
      (s.fau.worst = none → (takeFault o s).fau.worst = some (faultSeverity o.kind)) ∧
      (∀ v, s.fau.worst = some v → (takeFault o s).fau.worst =
        some (if severityNum v < severityNum (faultSeverity o.kind) then faultSeverity o.kind else v)) ∧
      (isMasked s.settings.faultMask o.kind = true → (takeFault o s).fau.capture = s.fau.capture ∧
        (takeFault o s).fau.attention = s.fau.attention ∧ (takeFault o s).fau.attn = s.fau.attn) ∧
      (isMasked s.settings.faultMask o.kind = false →
        (takeFault o s).fau.capture = some (s.fau.capture.getD o) ∧
        (takeFault o s).fau.attention = s.fau.attention ||| 0x08 ∧
        (takeFault o s).fau.attn = attnLevel (s.fau.attention ||| 0x08) s.settings.attentionMask) ∧
      (takeFault o s).fau.trigger = s.fau.trigger ∧ (takeFault o s).fau.held = s.fau.held ∧
      (takeFault o s).fau.lastCompletion = s.fau.lastCompletion) ∧
  (∀ (o : FaultOcc) (s : State),
      (s.condition = .starting → reportFault o s = s.setFau { s.fau with held := s.fau.held ++ [o] }) ∧
      (s.condition ≠ .starting → reportFault o s = takeFault o s)) ∧
  (∀ (o q : FaultOcc) (s : State),
      takeFault q (takeFault o s) = (takeFault o (takeFault q s)).setFau
        { (takeFault o (takeFault q s)).fau with capture := (takeFault q (takeFault o s)).fau.capture } ∧
      (isMasked s.settings.faultMask o.kind = false → isMasked s.settings.faultMask q.kind = false → s.fau.capture = none →
        (takeFault q (takeFault o s)).fau.capture = some o ∧ (takeFault o (takeFault q s)).fau.capture = some q))

/-- A completion: the last completion time is its time and the counter goes up by one; at the trigger count WAGONS is
raised and the counter returns to 0 (R187). TRIGGER_IDLE_EXPIRY: with the counter at 1 or more, at the last completion
time plus the idle time times 20 ticks, WAGONS is raised and the counter set to 0; with the counter at 0 there is no
expiry (R188). That the command moves the timebase to the expiry unless it has passed it, and does nothing
without one, is the model's choice (log 2). -/
def Obligations.TriggerFiresByCountOrIdleness : Prop :=
  (∀ (t : Nat) (s : State),
      (s.fau.trigger + 1 ≠ s.settings.triggerCount →
        countCompletion t s = s.setFau { s.fau with lastCompletion := some t, trigger := s.fau.trigger + 1 }) ∧
      (s.fau.trigger + 1 = s.settings.triggerCount →
        countCompletion t s = raiseAtt .wagons (s.setFau { s.fau with lastCompletion := some t, trigger := 0 }))) ∧
  (∀ s : State, s.powered = true →
      (∀ c, s.fau.trigger ≠ 0 → s.fau.lastCompletion = some c →
        exec .triggerIdleExpiry s =
          .next (raiseAtt .wagons ((s.advance (c + s.settings.triggerIdle * 20)).setFau { s.fau with trigger := 0 }))) ∧
      (s.fau.trigger = 0 → exec .triggerIdleExpiry s = .next s))

/-! ### Wheel stations and tracking -/

/-- A head event that no station takes: while the part is not READY, or at a FAULTED station, it is discarded and leaves
no trace (R5). At an OK station with no pending head, a head event makes its head the pending head with motion count 0
and its time; return count and latest crossing stand. It is activity of an open passage (R6, R48). A repeat of the
pending head: at motion count 0, 1 or 2 a return, which clears the pending head and counts up to 255 and forms no
crossing; at 3 a head incident of cause REPEATED_HEAD (R8): the station is FAULTED, its pending head cleared and its
returns 0, its latest crossing kept; HEAD_INCIDENT is taken with the station, the cause, the open passage and the head
event's time; and with a passage open the axle train is re-examined (R9, R42). -/
def Obligations.HeadEventFollowsTheStationRecord : Prop :=
  (∀ (s : State) (t : Nat) (k : Station) (h : Head), s.powered = true →
      s.condition ≠ .ready ∨ (s.wsu.get k).state = .faulted → exec (.headEvent t k h) s = .next (s.advance t)) ∧
  (∀ (s : State) (t : Nat) (k : Station) (h : Head), s.powered = true → s.condition = .ready →
      (s.wsu.get k).state = .ok → (s.wsu.get k).pending = none →
      exec (.headEvent t k h) s = .next ((touch (s.advance t).timebase (s.advance t)).setWsu
        (s.wsu.set k { s.wsu.get k with pending := some ⟨h, (s.advance t).timebase, 0⟩ }))) ∧
  (∀ (s : State) (t : Nat) (k : Station) (p : Pending), s.powered = true → s.condition = .ready →
      (s.wsu.get k).state = .ok → (s.wsu.get k).pending = some p →
      (p.motion < 3 → exec (.headEvent t k p.head) s = .next ((touch (s.advance t).timebase (s.advance t)).setWsu
        (s.wsu.set k { s.wsu.get k with
          pending := none, returns := if (s.wsu.get k).returns < 255 then (s.wsu.get k).returns + 1 else (s.wsu.get k).returns }))) ∧
      (p.motion = 3 →
        let u := takeFault ⟨.headIncident, (s.advance t).timebase, s.openNumber, some (.station k),
          some (.incident .repeatedHead)⟩ ((touch (s.advance t).timebase (s.advance t)).setWsu
            (s.wsu.set k { s.wsu.get k with state := .faulted, pending := none, returns := 0 }))
        exec (.headEvent t k p.head) s = .next (if s.isOpen then reexamine (s.advance t).timebase u else u)))

/-- The partner of the pending head completes a crossing: UP if head a was pending, at the mean of the two times, with
their difference as head interval (0 taken as 1) and floor(H × 720 / h), at most 9,999, as speed. The station's pending
head is cleared, its return count is 0 and the crossing is its latest; the motion count of the pending head of each other
station goes up by one, to 3 at most; then the crossing is handed to the tracker, with a passage open or not (R7; the
head event is activity of an open passage, R48 and log 19). Whatever the tracker does with it, the station that formed it
keeps that record. A head incident of any station and cause: a FAULTED station stays as it is; an OK one becomes FAULTED,
without pending head and returns, its latest crossing kept, HEAD_INCIDENT is taken with the station, the cause, the open
passage and the time of what revealed it, and with a passage open the axle train is re-examined (R9, R11). The crossing
that opens a passage at M while the station E holds a pending head brings such an incident there, of cause OPENING (R28). -/
def Obligations.PartnerCompletesACrossing : Prop :=
  (∀ (s : State) (t : Nat) (k : Station) (p : Pending) (h : Head), s.powered = true → s.condition = .ready →
    (s.wsu.get k).state = .ok → (s.wsu.get k).pending = some p → h ≠ p.head →
    let T := (s.advance t).timebase
    let c : Crossing :=
      { station := k, direction := (match p.head with | .a => .up | .b => .down)
        time := (p.time + T) / 2
        interval := max 1 (T - p.time)
        speed := min 9999 (s.cal.working.headSpacing.toNat * 720 / max 1 (T - p.time)) }
    ∃ (w : Wsu) (s' : State), exec (.headEvent t k h) s = .next s' ∧
      s' = takeCrossing c ((touch T (s.advance t)).setWsu w) ∧
      w.get k = { s.wsu.get k with pending := none, returns := 0, latest := some c } ∧
      (∀ j, j ≠ k → w.get j = { s.wsu.get j with pending := (s.wsu.get j).pending.map fun q =>
        { q with motion := if q.motion < 3 then q.motion + 1 else q.motion } }) ∧
      (s'.wsu.get k).pending = none ∧ (s'.wsu.get k).returns = 0 ∧ (s'.wsu.get k).latest = some c) ∧
  (∀ (cause : IncidentCause) (t : Nat) (k : Station) (s : State), s.condition = .ready →
    ((s.wsu.get k).state = .faulted → headIncident cause t k s = s) ∧
    ((s.wsu.get k).state = .ok →
      let u := takeFault ⟨.headIncident, t, s.openNumber, some (.station k), some (.incident cause)⟩
        (s.setWsu (s.wsu.set k { s.wsu.get k with state := .faulted, pending := none, returns := 0 }))
      headIncident cause t k s = if s.isOpen then reexamine t u else u)) ∧
  (∀ (x : Post) (c : Crossing) (s : State),
    endStationTest x c s = if x = .m ∧ (s.wsu.get (stationOf c.direction .e)).pending ≠ none then
      headIncident .opening c.time (stationOf c.direction .e) s else s)

/-- A crossing with no passage open opens one: the next passage number, the crossing's direction and time, and one axle
behind the station, after the test of the end station (R27, R28). The opening: a directory entry that is OPEN, of that
number, with the change counter, UNVERIFIED when CALSW is at CALIBRATE, and no count; every record of the pending set
takes the number and the counter, and keeps its position, fleet number, expected class, kind and state (R129); the zeros
frozen; OPENED raised (R27, R148). With fewer than eight entries in use every earlier entry stands, no record leaves and
no occurrence is taken. With eight CLOSED entries the one of earliest open time is dropped: the other seven stand, the
records of its passage are freed and those of the others stand, and PASSAGE_DROPPED is taken with the new passage and the
dropped number (R148). Its freeing is an evaluation of PERMIT, which may raise PERMIT before the entry is taken (R148,
R152; log 18). -/
def Obligations.CrossingOpensAPassage : Prop :=
  (∀ (s : State) (c : Crossing), s.axt = Axt.reset → s.ptb.lastNumber ≤ 4294967295 →
    s.ptb.directory.length ≤ 8 →
    (∀ e ∈ s.ptb.directory, e.close.isSome = true) →
    let n := if s.ptb.lastNumber < 4294967295 then s.ptb.lastNumber + 1 else 1
    let e : DirEntry :=
      { number := n, direction := c.direction, openTime := c.time, close := none, axleCount := 0, vehicles := 0, recorded := 0,
        unrecorded := 0, traction := 0, phantom := 0, abandoned := false, unverified := decide (s.calsw = .calibrate),
        calCounter := s.cal.counter, totals := none }
    (openPassage c s).axt = ⟨some ⟨n, c.direction, c.time, c.time⟩, [], 0, false, 0⟩ ∧
    (openPassage c s).ptb.lastNumber = n ∧
    (s.ptb.directory.length < 8 → (openPassage c s).ptb.directory = s.ptb.directory ++ [e] ∧
      (Table.wf s.ptb.slots = true → ∀ k w, tget s.ptb.slots k = some w → w.passage ≠ none → w.passage ≠ some n →
        tget (openPassage c s).ptb.slots k = some w) ∧
      (openPassage c s).fau.capture = s.fau.capture ∧ (openPassage c s).fau.counts = s.fau.counts ∧
      (openPassage c s).fau.worst = s.fau.worst) ∧
    (s.ptb.directory.length = 8 → ∃ old ∈ s.ptb.directory, (∀ d ∈ s.ptb.directory, old.openTime ≤ d.openTime) ∧
      (openPassage c s).ptb.directory = s.ptb.directory.filter (fun d => decide (d ≠ old)) ++ [e] ∧
      (Table.wf s.ptb.slots = true → ∀ k w, tget s.ptb.slots k = some w →
        (w.passage = some old.number → tget (openPassage c s).ptb.slots k = none) ∧
        (w.passage ≠ none → w.passage ≠ some old.number → w.passage ≠ some n →
          tget (openPassage c s).ptb.slots k = some w)) ∧
      (s.condition = .ready →
        let u := takeFault ⟨.passageDropped, s.timebase, some n, none, some (.number old.number)⟩ s
        (openPassage c s).fau.capture = u.fau.capture ∧ (openPassage c s).fau.counts = u.fau.counts ∧
          (openPassage c s).fau.worst = u.fau.worst ∧
          (openPassage c s).fau.attention.getLsbD 3 = u.fau.attention.getLsbD 3)) ∧
    (openPassage c s).zcl.freeze = true ∧ (openPassage c s).zcl.zeros = s.zcl.zeros ∧
    (∀ r ∈ (openPassage c s).ptb.slots, r.2.passage ≠ none) ∧
    (∀ k w, tget s.ptb.slots k = some w → w.passage = none → ∃ w' : Wagon, tget (openPassage c s).ptb.slots k = some w' ∧
      w'.passage = some n ∧ w'.calCounter = some s.cal.counter ∧ w'.position = w.position ∧
      w'.fleet = w.fleet ∧ w'.expectedCls = w.expectedCls ∧ w'.kind = w.kind ∧ w'.state = w.state ∧ w'.origin = w.origin ∧
      (s.calsw = .calibrate → w'.own.unverified = true)) ∧
    (s.ptb.directory.length = 8 → s.ptb.permit = .withdrawn → s.condition = .ready → s.cal.state = .valid →
      s.lcu.platforms.a.service = .inService ∨ s.lcu.platforms.b.service = .inService → s.ptb.water = .normal →
      s.usedSlots < s.settings.highWater →
      (openPassage c s).fau.attention.getLsbD 6 = true) ∧
    ((openPassage c s).ptb.directory.length = 8 → (openPassage c s).ptb.permit = .withdrawn) ∧
    (openPassage c s).fau.attention.getLsbD 1 = true ∧
    takeCrossing c s = appendAxle (postOf c.direction c.station) c
      (endStationTest (postOf c.direction c.station) c (openPassage c s))) ∧
  (∀ (s : State) (t : Nat) (k : Station) (p : Pending) (h : Head), s.powered = true → s.condition = .ready →
    (s.wsu.get k).state = .ok → (s.wsu.get k).pending = some p → h ≠ p.head → s.axt = Axt.reset →
    let c : Crossing := { station := k, direction := (match p.head with | .a => .up | .b => .down)
                          time := (p.time + (s.advance t).timebase) / 2
                          interval := max 1 ((s.advance t).timebase - p.time)
                          speed := min 9999 (s.cal.working.headSpacing.toNat * 720 / max 1 ((s.advance t).timebase - p.time)) }
    ∃ s' : State, exec (.headEvent t k h) s = .next s' ∧
      (s.ptb.lastNumber ≤ 4294967295 → s'.axt.passage = some
        ⟨if s.ptb.lastNumber < 4294967295 then s.ptb.lastNumber + 1 else 1, c.direction, c.time, c.time⟩) ∧
      s'.axt.train.map Axle.track = [(zoneAfter (postOf c.direction k),
        (⟨none, none, none⟩ : PerPost (Option PassTime)).set (postOf c.direction k) (some ⟨c.time, c.interval⟩))])

/-- A crossing in an open passage that is not abandoned. A forward crossing takes the lowest-indexed axle of the merged
zone before its station: the axle goes to the zone after the station with the crossing's time and interval; where that
zone includes APPROACH and holds no axle, a new axle joins the tail in the zone after the station; every other axle
keeps its zone and times, and the crossing is the last activity (R31, R32, R34). A backward crossing takes the highest-
indexed axle of the merged zone after its station: at M or F it goes to the zone before, its windows cancelled and
unsettled, its times kept; at E the tail axle is removed, and when the train is empty the passage closes (R33, R34,
R45). A backward crossing that finds no axle is a phantom crossing (R33, R35), and so is a forward one, unless an
upstream station stands to be faulted for it: then with that head incident the crossing is tried once more (R32, R36).
A phantom crossing changes no axle, window or record: the activity time, the phantom count (at most 65,535), the open
directory entry's copy of the tracker's counts, the other entries standing, and PHANTOM_CROSSING (NOTICE) with the
station and the direction (R26, R35). -/
def Obligations.CrossingMovesAnAxleOrIsPhantom : Prop :=
  (∀ (s : State) (c : Crossing) (q : Passage) (i : Nat) (a : Axle), s.axt.passage = some q → s.axt.abandoned = false →
    c.direction = q.direction → s.axt.train[i]? = some a →
    let x := postOf q.direction c.station
    let inZone := fun b : Axle => s.lowBefore x ≤ zoneRank b.zone ∧ zoneRank b.zone < zoneRank (zoneAfter x)
    inZone a → (∀ (j : Nat) (b : Axle), j < i → s.axt.train[j]? = some b → ¬ inZone b) →
    (takeCrossing c s).axt.train.map Axle.track =
        (s.axt.train.map Axle.track).set i (zoneAfter x, a.times.set x (some ⟨c.time, c.interval⟩)) ∧
      (takeCrossing c s).axt.passage = some { q with lastActivity := c.time }) ∧
  (∀ (s : State) (c : Crossing) (q : Passage), s.axt.passage = some q → s.axt.abandoned = false →
    c.direction = q.direction → s.axt.train.length < 2048 →
    let x := postOf q.direction c.station
    s.lowBefore x = 0 → (∀ b ∈ s.axt.train, zoneRank (zoneAfter x) ≤ zoneRank b.zone) →
    (takeCrossing c s).axt.train.map Axle.track = s.axt.train.map Axle.track ++
        [(zoneAfter x, (⟨none, none, none⟩ : PerPost (Option PassTime)).set x (some ⟨c.time, c.interval⟩))] ∧
      (takeCrossing c s).axt.passage = some { q with lastActivity := c.time }) ∧
  (∀ (s : State) (c : Crossing) (q : Passage) (i : Nat) (a : Axle), s.axt.passage = some q → s.axt.abandoned = false →
    c.direction ≠ q.direction → s.axt.train[i]? = some a →
    let x := postOf q.direction c.station
    let inZone := fun b : Axle => zoneRank (zoneAfter x) ≤ zoneRank b.zone ∧ zoneRank b.zone ≤ s.highAfter x
    inZone a → (∀ (j : Nat) (b : Axle), i < j → s.axt.train[j]? = some b → ¬ inZone b) →
    (∀ z, zoneBefore x = some z →
      (takeCrossing c s).axt.train.map Axle.track = (s.axt.train.map Axle.track).set i (z, a.times) ∧
      (takeCrossing c s).axt.passage = some { q with lastActivity := c.time } ∧
      ∃ b : Axle, (takeCrossing c s).axt.train[i]? = some b ∧ b.windows = ⟨none, none⟩ ∧ b.settled = false) ∧
    (zoneBefore x = none → 1 < s.axt.train.length →
      (takeCrossing c s).axt.train.map Axle.track = (s.axt.train.map Axle.track).dropLast ∧
      (takeCrossing c s).axt.passage = some { q with lastActivity := c.time }) ∧
    (zoneBefore x = none → s.axt.train.length = 1 → (takeCrossing c s).axt = Axt.reset)) ∧
  (∀ (s : State) (c : Crossing) (q : Passage), s.axt.passage = some q → s.axt.abandoned = false →
    c.direction ≠ q.direction →
    let x := postOf q.direction c.station
    (∀ b ∈ s.axt.train, ¬ (zoneRank (zoneAfter x) ≤ zoneRank b.zone ∧ zoneRank b.zone ≤ s.highAfter x)) →
    takeCrossing c s = phantom c s) ∧
  (∀ (s : State) (c : Crossing) (q : Passage), s.axt.passage = some q → s.axt.abandoned = false →
    c.direction = q.direction →
    let x := postOf q.direction c.station
    s.lowBefore x ≠ 0 → (∀ b ∈ s.axt.train, ¬ (s.lowBefore x ≤ zoneRank b.zone ∧ zoneRank b.zone < zoneRank (zoneAfter x))) →
    (s.deadHead x = none → takeCrossing c s = phantom c s) ∧
    (∀ k, s.deadHead x = some k → let u := headIncident .upstream c.time k s
      takeCrossing c s = (tryForward x c u).getD (phantom c u))) ∧
  (∀ (s : State) (c : Crossing), s.condition = .ready →
    (phantom c s).axt.train = s.axt.train ∧ (phantom c s).ptb.slots = s.ptb.slots ∧ (phantom c s).meu = s.meu ∧
    (phantom c s).wsu = s.wsu ∧ (phantom c s).seg = s.seg ∧
    (phantom c s).axt.phantom = (if s.axt.phantom < 65535 then s.axt.phantom + 1 else s.axt.phantom) ∧
    (phantom c s).axt.passage = s.axt.passage.map (fun q => { q with lastActivity := c.time }) ∧
    (phantom c s).ptb.directory = s.ptb.directory.map (fun e => if e.close = none then
      { e with axleCount := s.axt.train.length, phantom := (phantom c s).axt.phantom, abandoned := s.axt.abandoned }
      else e) ∧
    (phantom c s).fau = (takeFault ⟨.phantomCrossing, c.time, s.axt.passage.map (·.number), some (.station c.station),
      some (.direction c.direction)⟩ s).fau)

/-- What a forward crossing brings about, in order: the window on the platform before the station closes over the span
from its start, the one on the platform after it opens when it is measurable, the axle settles when it stands unsettled in
the last zone, the Segmenter is told, and the record of a settled axle is told (R34, R38, R39, R43, R109). At F with M
FAULTED the windows close by interpolation at the estimated M time (R40). A span that does not last is cancelled (R39,
R41). A platform is measurable when the outer station that bounds it is OK and another is (R37). Settlement: UNBOUNDED
where a platform has no measurement and no deferral, then the combination (R43, R72). The re-examination after a station
fault cancels the windows of platforms no longer measurable and settles what then stands in the last zone, save after
abandonment (R42). An axle moved back is unsettled and loses its combination (R44, R77). The forward crossing that would
append axle 2,049 abandons tracking: every window is cancelled, the axles stay, the Segmenter stops, and AXLE_OVERFLOW is
taken; each later crossing of the ABANDONED passage is activity and is counted, 65,535 at most, and changes nothing else
(R47). -/
def Obligations.CrossingBoundsWindowsAndSettles : Prop :=
  (∀ (s : State) (c : Crossing) (q : Passage), s.axt.passage = some q → s.axt.abandoned = false →
    c.direction = q.direction →
    let x := postOf q.direction c.station
    let inZone := fun b : Axle => s.lowBefore x ≤ zoneRank b.zone ∧ zoneRank b.zone < zoneRank (zoneAfter x)
    (∀ (i : Nat) (a : Axle), s.axt.train[i]? = some a → inZone a →
      (∀ (j : Nat) (b : Axle), j < i → s.axt.train[j]? = some b → ¬ inZone b) →
      takeCrossing c s = forwardEffects x c i (s.setAxt { s.axt with
        passage := some { q with lastActivity := c.time }
        train := s.axt.train.set i { a with zone := zoneAfter x, times := a.times.set x (some ⟨c.time, c.interval⟩) } })) ∧
    (s.lowBefore x = 0 → (∀ b ∈ s.axt.train, ¬ inZone b) →
      (s.axt.train.length < 2048 →
        takeCrossing c s = forwardEffects x c s.axt.train.length (reportTracker (s.setAxt { s.axt with
          passage := some { q with lastActivity := c.time }, train := s.axt.train ++ [Axle.new x c] }))) ∧
      (2048 ≤ s.axt.train.length → s.condition = .ready →
        let s' := takeCrossing c s
        s'.axt.abandoned = true ∧ s'.axt.abandonedCount = 1 ∧ s'.axt.passage = some { q with lastActivity := c.time } ∧
          s'.axt.train.map Axle.track = s.axt.train.map Axle.track ∧ (∀ b ∈ s'.axt.train, b.windows = ⟨none, none⟩) ∧
          s'.seg = { s.seg with wait := .stopped } ∧ (∀ e ∈ s'.ptb.directory, e.close = none → e.abandoned = true) ∧
          s'.fau = (takeFault ⟨.axleOverflow, c.time, some q.number, some (.station c.station), none⟩ s).fau))) ∧
  (∀ (s : State) (c : Crossing) (q : Passage), s.axt.passage = some q → s.axt.abandoned = true →
    takeCrossing c s = s.setAxt { s.axt with
      passage := some { q with lastActivity := c.time }
      abandonedCount := if s.axt.abandonedCount < 65535 then s.axt.abandonedCount + 1 else s.axt.abandonedCount }) ∧
  (∀ (x : Post) (c : Crossing) (i : Nat) (v : State),
    let w := openAfter x i c.time (closeBefore x i c.time v)
    ((∃ a, w.axt.train[i]? = some a ∧ a.settled = false ∧ w.inLastZone a.zone = true) →
      forwardEffects x c i v = noticeAxle c.time i (segTold c.time (settle i w))) ∧
    ((∀ a, w.axt.train[i]? = some a → a.settled = true ∨ w.inLastZone a.zone = false) →
      forwardEffects x c i v = segTold c.time w)) ∧
  (∀ (s : State) (z : Zone),
    (s.postOk .f = true → (s.inLastZone z = true ↔ z = .exit)) ∧
    (s.postOk .f = false → s.postOk .m = true → (s.inLastZone z = true ↔ z ≠ .first)) ∧
    (s.postOk .f = false → s.postOk .m = false → s.inLastZone z = true) ∧
    (s.measurable .first = true ↔ s.postOk .e = true ∧ (s.postOk .m = true ∨ s.postOk .f = true)) ∧
    (s.measurable .second = true ↔ s.postOk .f = true ∧ (s.postOk .m = true ∨ s.postOk .e = true))) ∧
  (∀ (s : State) (i t : Nat) (a : Axle), s.axt.train[i]? = some a →
    let mark := fun (side : Side) (v : Option Nat) =>
      s.setAxt { s.axt with train := s.axt.train.set i { a with windows := a.windows.set side v } }
    let close := fun (side : Side) (y : Span) =>
      if y.tIn < y.tOut then meuClose (platformOf s.direction side) y (mark side none)
      else meuCancel (platformOf s.direction side) i (mark side none)
    closeBefore .e i t s = s ∧
    closeBefore .m i t s = (match a.windows.first with
      | some t0 => close .first ⟨i, t0, t, false, (.e, .m)⟩
      | none => s) ∧
    (s.postOk .m = true → closeBefore .f i t s = (match a.windows.second with
      | some t0 => close .second ⟨i, t0, t, false, (.m, .f)⟩
      | none => s)) ∧
    (s.postOk .m = false →
      (∀ t0, a.windows.first = some t0 →
        let l1 := platformLength s.cal.working (platformOf s.direction .first)
        let l2 := platformLength s.cal.working (platformOf s.direction .second)
        let tM := t0 + (t - t0) * l1 / (l1 + l2)
        let u := close .first ⟨i, t0, tM, true, (.e, .f)⟩
        closeBefore .f i t s =
          if tM < t then meuClose (platformOf s.direction .second) ⟨i, tM, t, true, (.e, .f)⟩ u else u) ∧
      (∀ t0, a.windows.first = none → a.windows.second = some t0 →
        closeBefore .f i t s = close .second ⟨i, t0, t, true, (.m, .f)⟩) ∧
      (a.windows.first = none → a.windows.second = none → closeBefore .f i t s = s)) ∧
    openAfter .e i t s = (if s.measurable .first then meuOpen (platformOf s.direction .first) i t (mark .first (some t)) else s) ∧
    openAfter .m i t s =
      (if s.measurable .second then meuOpen (platformOf s.direction .second) i t (mark .second (some t)) else s) ∧
    openAfter .f i t s = s ∧
    ((∀ p, ∀ e ∈ (s.meu.get p).windows, e.deferred ≠ none → e.axle ≠ i) →
      settle i s = s.setAxt { s.axt with train := s.axt.train.set i (Axle.combine s.cal.working { a with
        settled := true
        meas := ⟨some (a.meas.first.getD Measurement.unbounded), some (a.meas.second.getD Measurement.unbounded)⟩ }) }) ∧
    (∃ b, (reexamine t s).axt.train[i]? = some b ∧ b.track = a.track ∧
      (∀ side, b.windows.get side = if s.measurable side then a.windows.get side else none) ∧
      (b.settled = true ↔ a.settled = true ∨ (s.axt.abandoned = false ∧ s.inLastZone a.zone = true))) ∧
    (∀ z, ∃ b, (moveBack z i t s).axt.train[i]? = some b ∧ b.track = (z, a.times) ∧ b.windows = ⟨none, none⟩ ∧
      b.settled = false ∧
      (a.settled = true → b.load = none ∧ b.rail1 = none ∧ b.rail2 = none ∧ b.speed = none ∧ b.comb = none)))

/-- PASS_CLOSE: STATE with no passage open or another number, BUSY while the bridge is occupied, and otherwise the
passage closes with cause HOST at the moment the request is taken (R49, R50). CLOSE_TIMEOUT: at the last activity time
plus the setting times 20,000 ticks an unoccupied bridge closes with cause IDLE_TIMEOUT and the expiry as close time; an
occupied one leaves the passage open; with none open nothing happens (R48). At step 7 of
the close a HELD commit is applied before the zeros thaw: counter up by one, the working set its snapshot, VALID, the new
reference zeros as working zeros, zero states GOOD, and an acquisition that the passage had suspended is cancelled and
does not resume; with none HELD the calibration and the zeros stand and a suspended acquisition collects again (R90, R89,
R95). -/
def Obligations.PassageClosesOnRequestOrTimeout : Prop :=
  (∀ (s : State) (t : Nat) (g : Byte) (n : Nat), s.serving →
      (s.openNumber ≠ some n → exec (.passClose t g n) s = .next ((s.taking t).replying g .pass .state [])) ∧
      (s.openNumber = some n → s.occupied = true →
        exec (.passClose t g n) s = .next ((s.taking t).replying g .pass .busy [])) ∧
      (s.openNumber = some n → s.occupied = false →
        ∃ s' : State, exec (.passClose t g n) s = .next s' ∧ s'.axt = Axt.reset ∧ s'.zcl.freeze = false ∧
          s'.slk.service = some ⟨g, 5, .ok, [], false⟩ ∧ s'.fau.attention.getLsbD 2 = true ∧
          (∀ k, (s'.wsu.get k).state = .ok ∧ (s'.wsu.get k).pending = none ∧ (s'.wsu.get k).returns = 0 ∧
            (s'.wsu.get k).latest = (s.wsu.get k).latest) ∧
          s'.ptb.directory.map (·.number) = s.ptb.directory.map (·.number) ∧
          (∀ (i : Nat) (e : DirEntry), s.ptb.directory[i]? = some e → e.close = none →
            ∃ e' : DirEntry, s'.ptb.directory[i]? = some e' ∧ e'.close = some ((s.taking t).timebase, .host) ∧ e'.totals ≠ none) ∧
          s'.seg.vehicles = [] ∧ s'.seg.cursor = 0 ∧ s'.seg.wait = .none ∧ s'.seg.limit = false ∧
          (s.cal.phase ≠ .held → s'.cal = s.cal ∧ s'.zcl.zeros = s.zcl.zeros ∧
            ∀ p, (s'.zcl.platforms.get p).acq = if (s.zcl.platforms.get p).acq.state = .suspended then
              { (s.zcl.platforms.get p).acq with state := .collecting } else (s.zcl.platforms.get p).acq) ∧
          (∀ d, s.cal.phase = .held → s.cal.snapshot = some d →
            s'.cal = { s.cal with
              counter := s.cal.counter + 1, working := d, snapshot := none, state := .valid, phase := .idle
              staging := if s.calsw = .operate then d else s.cal.staging } ∧
            s'.zcl.zeros = d.zero ∧ (∀ c, (s'.lcu.channels.get c).fitted = inPattern d.fitted c) ∧
            ∀ p, (s'.zcl.platforms.get p).zeroState = .good ∧ (s'.zcl.platforms.get p).offZero = 0 ∧
              (s'.zcl.platforms.get p).acq.state = .idle ∧ (s'.zcl.platforms.get p).block = Block.empty))) ∧
  (∀ s : State, s.powered = true →
      (s.axt.passage = none → exec .closeTimeout s = .next s) ∧
      (∀ q, s.axt.passage = some q → s.occupied = true →
        exec .closeTimeout s = .next (s.advance (q.lastActivity + s.settings.closeTimeout * 20000))) ∧
      (∀ q, s.axt.passage = some q → s.occupied = false →
        ∃ s' : State, exec .closeTimeout s = .next s' ∧ s'.axt = Axt.reset ∧ s'.fau.attention.getLsbD 2 = true ∧
          (∀ (i : Nat) (e : DirEntry), s.ptb.directory[i]? = some e → e.close = none →
            ∃ e' : DirEntry, s'.ptb.directory[i]? = some e' ∧
              e'.close = some (q.lastActivity + s.settings.closeTimeout * 20000, .idleTimeout)) ∧
          s'.zcl.freeze = false ∧
          (s.cal.phase ≠ .held → s'.cal = s.cal ∧ s'.zcl.zeros = s.zcl.zeros ∧
            ∀ p, (s'.zcl.platforms.get p).acq = if (s.zcl.platforms.get p).acq.state = .suspended then
              { (s.zcl.platforms.get p).acq with state := .collecting } else (s.zcl.platforms.get p).acq) ∧
          (∀ d, s.cal.phase = .held → s.cal.snapshot = some d →
            s'.cal = { s.cal with
              counter := s.cal.counter + 1, working := d, snapshot := none, state := .valid, phase := .idle
              staging := if s.calsw = .operate then d else s.cal.staging } ∧
            s'.zcl.zeros = d.zero ∧ (∀ c, (s'.lcu.channels.get c).fitted = inPattern d.fitted c) ∧
            ∀ p, (s'.zcl.platforms.get p).zeroState = .good ∧ (s'.zcl.platforms.get p).offZero = 0 ∧
              (s'.zcl.platforms.get p).acq.state = .idle ∧ (s'.zcl.platforms.get p).block = Block.empty)))

/-! ### Load channels, sampling and measurement -/

/-- SAMPLING_INSTANT: stamped with the first multiple of 10 at or after its moment that follows the last instant (the
stamp is the model's choice, log 3); every channel takes its reading with that timestamp and each platform its excitation
sense (R14). Each platform's history takes one instant, 8,192 held at most: of a platform OUT after the LCU's changes
without rail samples, the timestamp becoming its latest OUT instant; of one IN_SERVICE with the sample of each rail from
the working zeros as they stood before the instant (log 45) and the overrange mark of its ACTIVE channels (R18, R53). -/
def Obligations.SamplingInstantIsTaken : Prop :=
  ∀ (s : State) (t : Nat) (r : Readings), s.powered = true →
    let T := instantTime (s.advance t)
    ∃ s' : State, exec (.samplingInstant t r) s = .next s' ∧ s.lcu.lastInstant ≠ some T ∧
      (s.advance t).timebase ≤ T ∧
      ((∀ v, s.lcu.lastInstant = some v → v % 10 = 0) → T % 10 = 0 ∧
        ∀ u, u % 10 = 0 → (s.advance t).timebase ≤ u → (∀ v, s.lcu.lastInstant = some v → v < u) → T ≤ u) ∧
      s'.lcu.lastInstant = some T ∧
      (∀ c, (s'.lcu.channels.get c).last = some (r.raw.get c, T)) ∧
      (∀ p, (s'.lcu.platforms.get p).sense = r.sense.get p) ∧
      (∀ c, (s'.lcu.channels.get c).fitted = (s.lcu.channels.get c).fitted) ∧
      (∀ c, (s.lcu.channels.get c).state = .off ∨ (s.lcu.channels.get c).state = .faulted →
        (s'.lcu.channels.get c).state = (s.lcu.channels.get c).state) ∧
      (∀ p, ∃ x : Instant, x.time = T ∧
        (s'.meu.get p).history = (if (s.meu.get p).history.length < 8192 then (s.meu.get p).history ++ [x]
          else (s.meu.get p).history.tail ++ [x]) ∧
        ((s'.lcu.platforms.get p).service = .out → x.rails = none ∧ x.overrange = false ∧
          (s'.meu.get p).latestOut = some T) ∧
        ((s'.lcu.platforms.get p).service = .inService → (s'.meu.get p).latestOut = (s.meu.get p).latestOut ∧
          x.rails = some (railSample r.raw s.zcl.zeros s.cal.working.gain (s.fittedOf (railChannels p).1),
            railSample r.raw s.zcl.zeros s.cal.working.gain (s.fittedOf (railChannels p).2)) ∧
          (x.overrange = true ↔ ∃ c ∈ channelsOf p, (s'.lcu.channels.get c).state = .active ∧
            (r.raw.get c = -8388608 ∨ r.raw.get c = 8388607))))

/-- The advance of one channel at an instant, by its state (R14 to R17). SETTLING_COMPLETE: the instant at which a
SETTLING channel counts its 400th sample with excitation present makes it ACTIVE with consecutive-overrange count 0
(R15). OVERRANGE_FAULT: the fortieth consecutive overrange sample with excitation present makes an ACTIVE channel
FAULTED with cause OVERRANGE, count 40 and its onset 390 ticks before the instant, and a fitted channel's platform OUT
(R17, R19, R24). The MEU is told of each channel so faulted: with a passage open the platform's poison onset becomes that
onset, or stays when an earlier one stands (R18, R78). -/
def Obligations.ChannelAdvancesByItsState : Prop :=
  (∀ (ch : Channel) (t : Nat) (raw : Int),
      (ch.state = .off ∨ ch.state = .faulted → ∀ e, ch.step t raw e = { ch with last := some (raw, t) }) ∧
      (ch.state = .settling → ch.settle < 399 →
        ch.step t raw .present = { ch with last := some (raw, t), settle := ch.settle + 1 }) ∧
      (ch.state = .settling → ch.step t raw .absent = { ch with last := some (raw, t), settle := 0 }) ∧
      (ch.state = .active → ch.step t raw .absent =
        { ch with last := some (raw, t), state := .faulted, cause := some .excitation, onset := some t }) ∧
      (ch.state = .active → raw ≠ -8388608 → raw ≠ 8388607 →
        ch.step t raw .present = { ch with last := some (raw, t), overrange := 0 }) ∧
      (ch.state = .active → raw = -8388608 ∨ raw = 8388607 → ch.overrange < 39 →
        ch.step t raw .present = { ch with last := some (raw, t), overrange := ch.overrange + 1 })) ∧
  (∀ (s : State) (t : Nat) (c : Fin 8) (r : Readings), s.powered = true → (s.lcu.channels.get c).state = .settling →
      (s.lcu.channels.get c).settle = 399 → r.sense.get (platformOfChannel c) = .present →
      ∃ s' : State, exec (.settlingComplete t c r) s = .next s' ∧ (s'.lcu.channels.get c).state = .active ∧
        (s'.lcu.channels.get c).overrange = 0 ∧ (s'.lcu.channels.get c).settle = 400) ∧
  (∀ (s : State) (t : Nat) (c : Fin 8) (r : Readings), s.powered = true → (s.lcu.channels.get c).state = .active →
      (s.lcu.channels.get c).overrange = 39 → r.sense.get (platformOfChannel c) = .present →
      r.raw.get c = -8388608 ∨ r.raw.get c = 8388607 →
      ∃ (s' : State) (T : Nat), exec (.overrangeFault t c r) s = .next s' ∧ s'.lcu.lastInstant = some T ∧
        (s'.lcu.channels.get c).state = .faulted ∧ (s'.lcu.channels.get c).overrange = 40 ∧
        (s'.lcu.channels.get c).cause = some .overrange ∧ (s'.lcu.channels.get c).onset = some (T - 390) ∧
        ((s.lcu.channels.get c).fitted = true → (s'.lcu.platforms.get (platformOfChannel c)).service = .out) ∧
        (s.isOpen = true → (s'.meu.get (platformOfChannel c)).poison =
          some (match (s.meu.get (platformOfChannel c)).poison with | some u => min u (T - 390) | none => T - 390)))

/-- A new fitted-channel pattern acts on each channel record by whether it was fitted and is fitted now, and both
platforms are evaluated again (R20). The four conditions of a platform: the calibration VALID, a fitted channel, every
fitted channel ACTIVE, excitation PRESENT. When they hold an OUT platform becomes IN_SERVICE; when one has failed an
IN_SERVICE platform becomes OUT, with PLATFORM_OUT of the platform, the open passage, and the number of the first that
failed; either change brings an evaluation of PERMIT, and anything else changes nothing (R19). The platforms are evaluated
one after the other; which is first is the model's free value when both change and one goes OUT (log 44). At a sampling instant each channel
advances once, each newly FAULTED one with its CHANNEL_FAULT, of the channel, its cause and the open passage, and the
platforms are evaluated after them (R14, R16, R17, R19, R25). The channels of a platform whose sense is ABSENT advance in
ascending order (R16, R25); the order of the others, which shows in that of their faults, is the model's free value where
two could fault (log 30). An evaluation of PERMIT evaluates the water state, asserts PERMIT exactly when its conditions hold, and raises PERMIT
when it changed (R152, R153). -/
def Obligations.PlatformServiceFollowsItsConditions : Prop :=
  (∀ (s : State) (t : Nat) (pattern : Int) (c : Fin 8),
      ((applyPattern t pattern s).lcu.channels.get c).fitted = inPattern pattern c ∧
      ((s.lcu.channels.get c).fitted = false → inPattern pattern c = false →
        ((applyPattern t pattern s).lcu.channels.get c).state = .off) ∧
      ((s.lcu.channels.get c).fitted = true → inPattern pattern c = true →
        (applyPattern t pattern s).lcu.channels.get c = s.lcu.channels.get c) ∧
      ((s.lcu.channels.get c).fitted = false → inPattern pattern c = true →
        ((applyPattern t pattern s).lcu.channels.get c).state = .settling ∧
          ((applyPattern t pattern s).lcu.channels.get c).settle = 0) ∧
      ((s.lcu.channels.get c).fitted = true → inPattern pattern c = false →
        ((applyPattern t pattern s).lcu.channels.get c).state = .off ∧
          ((applyPattern t pattern s).lcu.channels.get c).overrange = 0 ∧
          ((applyPattern t pattern s).lcu.channels.get c).cause = none ∧
          ((applyPattern t pattern s).lcu.channels.get c).onset = none)) ∧
  (∀ (s : State) (t : Nat) (pattern : Int), applyPattern t pattern s = evalPlatforms t
    (s.setLcu { s.lcu with channels := (applyPattern t pattern s).lcu.channels })) ∧
  (∀ (s : State) (t : Nat), ∃ p q : Platform, q ≠ p ∧ evalPlatforms t s = (evalPlatform t q (evalPlatform t p s)).drawFree) ∧
  (∀ (s : State) (t : Nat) (p : Platform),
    let cs := (channelsOf p).filter fun c => (s.lcu.channels.get c).fitted
    let valid := s.cal.state = .valid
    let active := ∀ c ∈ cs, (s.lcu.channels.get c).state = .active
    let sensed := (s.lcu.platforms.get p).sense = .present
    let served := fun v : Service => s.setLcu { s.lcu with platforms := s.lcu.platforms.set p { s.lcu.platforms.get p with service := v } }
    let lost := fun n : Int => evalPermit (takeFault ⟨.platformOut, t, s.openNumber, some (.platform p), some (.number n)⟩ (served .out))
    ((s.lcu.platforms.get p).service = .out →
      (valid ∧ cs ≠ [] ∧ active ∧ sensed → evalPlatform t p s = evalPermit (served .inService)) ∧
      (¬ (valid ∧ cs ≠ [] ∧ active ∧ sensed) → evalPlatform t p s = s)) ∧
    ((s.lcu.platforms.get p).service = .inService →
      (valid ∧ cs ≠ [] ∧ active ∧ sensed → evalPlatform t p s = s) ∧
      (s.condition ≠ .starting →
        (¬ valid → evalPlatform t p s = lost 1) ∧
        (valid → cs = [] → evalPlatform t p s = lost 2) ∧
        (valid → cs ≠ [] → ¬ active → evalPlatform t p s = lost 3) ∧
        (valid → cs ≠ [] → active → ¬ sensed → evalPlatform t p s = lost 4)))) ∧
  (∀ (s : State) (t : Nat) (r : Readings), ∃ (u : State) (l : List (Fin 8)), u.lcu.channels = s.lcu.channels ∧ u.fau = s.fau ∧
    (∀ p, (u.lcu.platforms.get p).sense = r.sense.get p ∧ (u.lcu.platforms.get p).service = (s.lcu.platforms.get p).service) ∧
    l.Perm [0, 1, 2, 3, 4, 5, 6, 7] ∧
    l.Pairwise (fun c d => platformOfChannel c = platformOfChannel d → r.sense.get (platformOfChannel c) = .absent → c.val < d.val) ∧
    lcuInstant t r s = evalPlatforms t (l.foldl (fun v c => advanceChannel t r c v) u)) ∧
  (∀ (s : State) (t : Nat) (r : Readings) (c : Fin 8), s.condition ≠ .starting →
    let old := s.lcu.channels.get c
    let new := old.step t (r.raw.get c) (r.sense.get (platformOfChannel c))
    let u := s.setLcu { s.lcu with channels := s.lcu.channels.set c new }
    advanceChannel t r c s = if old.state ≠ .faulted ∧ new.state = .faulted then
      takeFault ⟨.channelFault, t, s.openNumber, some (.channel c), new.cause.map FaultDetail.channel⟩ u else u) ∧
  (∀ s : State, s.settings.lowWater < s.settings.highWater →
    (evalPermit s).permitOk ∧
    (evalPermit s).ptb = { s.ptb with water := (evalPermit s).ptb.water, permit := (evalPermit s).ptb.permit } ∧
    ((evalPermit s).ptb.permit ≠ s.ptb.permit → (evalPermit s).fau = (raiseAtt .permit s).fau) ∧
    ((evalPermit s).ptb.permit = s.ptb.permit → (evalPermit s).fau = s.fau))

/-- CHAN_READ: BAD_VALUE above 7; else 24 bytes of the channel record, with the load (r − Z) × G / 2^24 rounded half
away from zero for a fitted channel with a sample, and nothing changed (R23).
CHAN_ENABLE, by the table of R21; an OFF channel becomes SETTLING with both counts 0, and the platforms are evaluated
again. CHAN_DISABLE, by the table of R22: the channel becomes OFF, loses its counts, cause and onset, its working zero
returns to its reference zero (R94), the platform's partial block is discarded (R101; within the request, the model's
reading, log 41), and the platforms are evaluated again; a fitted channel's platform is OUT. -/
def Obligations.ChannelRequestsAreServed : Prop :=
  (∀ (s : State) (t : Nat) (g : Byte), s.serving →
      (∀ n, 7 < n → exec (.chanRead t g n) s = .next ((s.taking t).replying g .chan .badValue [0, 0xFF])) ∧
      (∀ c : Fin 8, exec (.chanRead t g c.val) s = .next ((s.taking t).replying g .chan .ok (channelData s c)) ∧
        (channelData s c).length = 24 ∧
        channelLoad s c = (if (s.lcu.channels.get c).fitted then (s.lcu.channels.get c).last.map fun r =>
          roundDiv ((r.1 - s.zcl.zeros.get c) * s.cal.working.gain.get c) 16777216 else none))) ∧
  (∀ (s : State) (t : Nat) (g : Byte), s.serving →
      (∀ n, 7 < n → exec (.chanEnable t g n) s = .next ((s.taking t).replying g .chan .badValue [0, 0xFF])) ∧
      (∀ c : Fin 8,
        (s.isOpen = true → exec (.chanEnable t g c.val) s = .next ((s.taking t).replying g .chan .passageOpen [])) ∧
        (s.isOpen = false → (s.lcu.channels.get c).fitted = false →
          exec (.chanEnable t g c.val) s = .next ((s.taking t).replying g .chan .badValue [0, 0xFF])) ∧
        (s.isOpen = false → (s.lcu.channels.get c).fitted = true → (s.lcu.channels.get c).state = .faulted →
          exec (.chanEnable t g c.val) s = .next ((s.taking t).replying g .chan .state [])) ∧
        (s.isOpen = false → (s.lcu.channels.get c).fitted = true →
          (s.lcu.channels.get c).state = .active ∨ (s.lcu.channels.get c).state = .settling →
          exec (.chanEnable t g c.val) s = .next ((s.taking t).replying g .chan .ok [])) ∧
        (s.isOpen = false → (s.lcu.channels.get c).fitted = true → (s.lcu.channels.get c).state = .off →
          ∃ s' : State, exec (.chanEnable t g c.val) s = .next s' ∧ s'.slk.service = some ⟨g, 2, .ok, [], false⟩ ∧
            s'.lcu.channels = s.lcu.channels.set c
              { s.lcu.channels.get c with state := .settling, settle := 0, overrange := 0 } ∧
            s'.zcl = s.zcl ∧ s'.cal = s.cal ∧ s'.axt = s.axt ∧ s'.wrg = s.wrg ∧ s'.ptb.slots = s.ptb.slots ∧
            (let ch := { s.lcu.channels.get c with state := .settling, settle := 0, overrange := 0 }
             let u := (s.taking t).setLcu { s.lcu with channels := s.lcu.channels.set c ch }
             s' = (evalPlatforms u.timebase u).replying g .chan .ok [])))) ∧
  (∀ (s : State) (t : Nat) (g : Byte), s.serving →
      (∀ n, 7 < n → exec (.chanDisable t g n) s = .next ((s.taking t).replying g .chan .badValue [0, 0xFF])) ∧
      (∀ c : Fin 8,
        (s.isOpen = true → exec (.chanDisable t g c.val) s = .next ((s.taking t).replying g .chan .passageOpen [])) ∧
        (s.isOpen = false → (s.lcu.channels.get c).fitted = false →
          exec (.chanDisable t g c.val) s = .next ((s.taking t).replying g .chan .badValue [0, 0xFF])) ∧
        (s.isOpen = false → (s.lcu.channels.get c).fitted = true →
          ∃ s' : State, exec (.chanDisable t g c.val) s = .next s' ∧ s'.slk.service = some ⟨g, 2, .ok, [], false⟩ ∧
            s'.lcu.channels = s.lcu.channels.set c { s.lcu.channels.get c with
              state := .off, settle := 0, overrange := 0, cause := none, onset := none } ∧
            s'.zcl.zeros = s.zcl.zeros.set c (s.cal.working.zero.get c) ∧
            (s'.lcu.platforms.get (platformOfChannel c)).service = .out ∧
            s'.cal = s.cal ∧ s'.axt = s.axt ∧ s'.wrg = s.wrg ∧ s'.ptb.slots = s.ptb.slots ∧
            (let p := platformOfChannel c
             let ch := { s.lcu.channels.get c with state := .off, settle := 0, overrange := 0, cause := none, onset := none }
             let u := ((s.taking t).setLcu { s.lcu with channels := s.lcu.channels.set c ch }).setZcl { s.zcl with
               zeros := s.zcl.zeros.set c (s.cal.working.zero.get c)
               platforms := s.zcl.platforms.set p { s.zcl.platforms.get p with block := Block.empty } }
             s' = (evalPlatforms u.timebase u).replying g .chan .ok []))))

/-- The instants of a window are those of the history within it (R54). The alone window runs from the later of the start
and the last exit to the earlier of the end and the first successor's start, shortened by the trim, floor(dwell × guard /
length), at both ends (R58). The status of a measurement is the first of POISONED, PLATFORM_OUT, SHORT, OVERRANGE,
OVERSPEED and VALID that applies (R63); rail values are corrected by the first band whose bound reaches the platform
speed, else the last; speeds and qualifiers as R65 to R70 say. The rail sample: the sum over the rail's fitted channels of
(r − Z) × G × 1000, divided by 2^24, rounded once to the nearest integer with halves away from zero (R53). n = floor(end /
10) − ceil(start / 10) + 1 is the number of multiples of 10 from the start to the end, both included, and 0 when there is
none (R54). -/
def Obligations.MeasurementsAreMadeAndRounded : Prop :=
  (∀ (first final x : Instant) (h : List Instant) (a b : Int), h.head? = some first → h.getLast? = some final →
      h.Pairwise (fun y z => y.time < z.time) →
      (windowOf h a b).n = sampleCount (max a first.time) (min b final.time) ∧
      (x ∈ (windowOf h a b).instants ↔ x ∈ h ∧ a ≤ x.time ∧ (x.time : Int) ≤ b) ∧
      ((windowOf h a b).clipped = true ↔ a < first.time)) ∧
  (∀ (k : Making) (w : Window) (h : Share),
      let m := k.make w h
      let speed := k.length * 720 / (k.span.tOut - k.span.tIn)
      let poisoned := ∃ o t, k.meu.poison = some o ∧ w.last = some t ∧ o ≤ t
      let out := ∃ t, k.meu.latestOut = some t ∧ k.span.tIn ≤ t
      let saturated := ∃ x ∈ w.instants, x.overrange = true
      let load := (correct (bandFor speed k.cal.bands) (h.means w.means).1) + (correct (bandFor speed k.cal.bands) (h.means w.means).2)
      (poisoned → m.status = .poisoned) ∧
      (¬ poisoned → out → m.status = .platformOut) ∧
      (¬ poisoned → ¬ out → (w.n : Int) < k.cal.nMin → m.status = .short) ∧
      (¬ poisoned → ¬ out → k.cal.nMin ≤ (w.n : Int) → saturated → m.status = .overrange) ∧
      (¬ poisoned → ¬ out → k.cal.nMin ≤ (w.n : Int) → ¬ saturated → k.cal.measMax < (speed : Int) → m.status = .overspeed) ∧
      (¬ poisoned → ¬ out → k.cal.nMin ≤ (w.n : Int) → ¬ saturated → (speed : Int) ≤ k.cal.measMax → m.status = .valid) ∧
      m.n = some w.n ∧ m.speed = some speed ∧ m.speedIn = k.speeds.1 ∧ m.speedOut = k.speeds.2 ∧
      (m.status ≠ .valid → m.rails = none ∧ m.means = none) ∧
      (m.status = .valid → m.means = some (h.means w.means) ∧
        m.rails = some (roundDiv ((h.means w.means).1 * (1000000 + bandFor speed k.cal.bands)) 1000000,
          roundDiv ((h.means w.means).2 * (1000000 + bandFor speed k.cal.bands)) 1000000)) ∧
      (hasQual m.quals .longDwell = true ↔ w.clipped = true) ∧ (hasQual m.quals .shared = true ↔ h ≠ .alone) ∧
      (hasQual m.quals .interpolated = true ↔ k.span.interpolated = true) ∧
      (hasQual m.quals .outOfBand = true ↔ k.cal.certMax < (speed : Int)) ∧
      (hasQual m.quals .uneven = true ↔ m.status = .valid ∧ isUneven k.uneven k.speeds = true) ∧
      (hasQual m.quals .overcap = true ↔ m.status = .overrange ∨
        (m.status = .valid ∧ (k.cal.maxAxle + 9 * k.cal.interval) * 1000 < load)) ∧
      (hasQual m.quals .suspect = true ↔ m.status = .poisoned ∨ k.doubtful = true ∨
        (m.status = .valid ∧ load < -20 * k.cal.interval * 1000))) ∧
  (∀ (v : Nat) (pre post : List Band) (b : Band), (∀ x ∈ pre, x.upper < v) → v ≤ b.upper ∨ post = [] →
      bandFor v (pre ++ b :: post) = b.k) ∧
  (∀ (raw zero gain : PerChannel Int) (x y : Fin 8) (g : Int),
      railSample raw zero gain [x, y] = g ↔
        let n := (raw.get x - zero.get x) * gain.get x * 1000 + (raw.get y - zero.get y) * gain.get y * 1000
        2 * (n - g * 16777216).natAbs ≤ 16777216 ∧
          (2 * (n - g * 16777216).natAbs = 16777216 → g.natAbs * 16777216 ≥ n.natAbs)) ∧
  (∀ a b : Nat, sampleCount a b = ((List.range (b + 1)).filter fun x => decide (a ≤ x) && decide (x % 10 = 0)).length) ∧
  (∀ (s : State) (p : Platform) (a : Axle) (x : Span) (f : Option (Nat × Nat)),
      let k := s.making p a x
      let trim := (x.tOut - x.tIn) * s.cal.working.guard.toNat / platformLength s.cal.working p
      k.length = platformLength s.cal.working p ∧ x.trim s.cal.working p = trim ∧
      k.uneven = s.settings.unevenLimit ∧ (k.doubtful = true ↔ (s.zcl.platforms.get p).zeroState = .doubtful) ∧
      k.speeds.1 = (a.times.get x.ends.1).map (fun c => min 9999 (s.cal.working.headSpacing.toNat * 720 / c.interval)) ∧
      k.speeds.2 = (a.times.get x.ends.2).map (fun c => min 9999 (s.cal.working.headSpacing.toNat * 720 / c.interval)) ∧
      let start := match (s.meu.get p).lastExit with | some e => max x.tIn e.time | none => x.tIn
      let stop := match f with | some g => min x.tOut g.2 | none => x.tOut
      k.aloneWindow trim f = windowOf (s.meu.get p).history ((start : Int) + trim) ((stop : Int) - trim)) ∧
  (∀ (limit : Nat) (v : Option Nat × Option Nat), isUneven limit v = true ↔
      ∃ a b, v = (some a, some b) ∧ limit < ((a : Int) - b).natAbs * 1000 / max a b)

/-- A window that opens joins its platform's list with the number of OPEN entries as its predecessors; every OPEN entry
counts it as a successor, takes it as first successor if it has none, and is crowded when three are open (R55). The close
of a window: a crowded entry gives CROWDED, with speeds and no samples or rail values (R59); else the measurement is made
over the window found or deferred; the entry leaves the list or becomes DEFERRED; the last exit record is replaced, with
the means of a VALID alone measurement only; then each DEFERRED entry that waits for this axle is resolved, in ascending
axle index (R56). A cancelled window leaves the list and writes nothing; what waits for it is resolved without the
partner's means (R57). The window found: the alone one when it is long enough or the span is interpolated (R58, R62); with
one partner ahead, whose exit came after the start, the both-on window; with one behind, a deferral while its window is
open; when that was cancelled the both-on one, as counts and first successor stand (R57, R60, R61; log 21); in every
other case the alone one (R60). A span without an entry has no partner and is not crowded (R62; that a SECOND window
opened at M keeps its crowded mark is the model's choice, log 53). The shares: the both-on means less the partner's alone
means; else the earlier axle takes half, the later the rest (R64). A deferral is resolved over
the both-on window from its first successor's start (R61); at settlement both platforms' deferrals of the axle are resolved
without means, before the combination (R61, R72; the order of the platforms is log 29). -/
def Obligations.WindowsAreSharedAndDeferred : Prop :=
  (∀ (s : State) (p : Platform) (i t : Nat),
      let l := (s.meu.get p).windows
      let n := (l.filter fun e => decide (e.deferred = none)).length
      meuOpen p i t s = s.setMeu (s.meu.set p { s.meu.get p with
        windows := l.map (fun e => if e.deferred = none then
            { e with succ := e.succ + 1, firstSucc := some (e.firstSucc.getD (i, t)), crowded := e.crowded || decide (2 ≤ n) }
            else e) ++ [⟨i, t, n, 0, none, decide (2 ≤ n), none⟩] })) ∧
  (∀ (s : State) (p : Platform) (i : Nat),
      let u := s.setMeu (s.meu.set p { s.meu.get p with
        windows := (s.meu.get p).windows.filter fun e => !decide (e.deferred = none ∧ e.axle = i) })
      let waiting := sortBy (·.axle) ((u.meu.get p).windows.filter fun e => decide (e.deferred ≠ none) && e.follows i)
      meuCancel p i s = waiting.foldl (fun v e => resolveEntry p none e v) u) ∧
  (∀ (e : WindowEntry) (i : Nat), e.follows i = true ↔ ∃ t, e.firstSucc = some (i, t)) ∧
  (∀ (s : State) (p : Platform) (a : Axle) (x : Span), s.axt.train[x.axle]? = some a →
      let e := ((s.meu.get p).entryOf x.axle).getD ⟨x.axle, x.tIn, 0, 0, none, false, none⟩
      let k := s.making p a x
      let trim := x.trim s.cal.working p
      let mine := fun d : WindowEntry => decide (d.deferred = none ∧ d.axle = x.axle)
      let rest := (s.meu.get p).windows.filter fun d => !mine d
      let leave := fun (l : List WindowEntry) (means : Option (Int × Int)) (v : State) =>
        let u := v.setMeu (s.meu.set p { s.meu.get p with windows := l, lastExit := some ⟨x.axle, x.tOut, trim, means⟩ })
        (sortBy (·.axle) (l.filter fun d => decide (d.deferred ≠ none) && d.follows x.axle)).foldl
          (fun v d => resolveEntry p means d v) u
      let written := fun m : Measurement => s.setAxt { s.axt with
        train := s.axt.train.set x.axle (a.write (sideOf s.direction p) m) }
      (e.crowded = true → meuClose p x s = leave rest none (written k.crowded)) ∧
      (∀ w h, e.crowded = false → k.find trim e = .window w h →
        meuClose p x s = leave rest (if (k.make w h).status = .valid ∧ h = .alone then (k.make w h).means else none)
          (written (k.make w h))) ∧
      (e.crowded = false → k.find trim e = .deferral →
        meuClose p x s = leave ((s.meu.get p).windows.map fun d => if mine d then { d with deferred := some (x.tOut, trim) } else d)
          none s)) ∧
  (∀ k : Making,
      let v := k.length * 720 / (k.span.tOut - k.span.tIn)
      k.crowded = ⟨.crowded, none, none, some v, k.speeds.1, k.speeds.2, k.crowded.quals, none, none⟩ ∧
      ∀ q, hasQual k.crowded.quals q = true ↔ (q = .interpolated ∧ k.span.interpolated = true) ∨
        (q = .outOfBand ∧ k.cal.certMax < (v : Int)) ∨ (q = .suspect ∧ k.doubtful = true)) ∧
  (∀ (a : Axle) (side : Side) (m : Measurement),
      (a.write side m) = { a with meas := a.meas.set side (some m), reweighed := (a.write side m).reweighed } ∧
      ((a.write side m).reweighed = true ↔ a.reweighed = true ∨ ∃ old, a.meas.get side = some old ∧ old.status ≠ .unbounded)) ∧
  (∀ (k : Making) (trim : Nat) (e : WindowEntry),
      let alone := k.aloneWindow trim e.firstSucc
      let isShort := (alone.n : Int) < k.cal.nMin
      (k.span.interpolated = true ∨ ¬ isShort → k.find trim e = .window alone .alone) ∧
      (k.span.interpolated = false → isShort →
        (∀ x, e.pred = 1 → e.succ = 0 → k.meu.lastExit = some x → k.span.tIn < x.time →
          k.find trim e = .window (windowOf k.meu.history ((k.span.tIn : Int) + x.trim) ((x.time : Int) - x.trim))
            (match x.means with | some m => .lessPartner m | none => .laterHalf)) ∧
        (∀ f, e.pred = 0 → e.succ = 1 → e.firstSucc = some f →
          ((∃ d ∈ k.meu.windows, d.deferred = none ∧ d.axle = f.1 ∧ d.tIn = f.2) → k.find trim e = .deferral) ∧
          ((∀ d ∈ k.meu.windows, d.deferred ≠ none ∨ d.axle ≠ f.1 ∨ d.tIn ≠ f.2) →
            k.find trim e = .window (windowOf k.meu.history ((f.2 : Int) + trim) ((k.span.tOut : Int) - trim)) .earlierHalf)) ∧
        (e.pred = 1 → e.succ = 0 → (∀ x, k.meu.lastExit = some x → x.time ≤ k.span.tIn) → k.find trim e = .window alone .alone) ∧
        (e.pred + e.succ ≠ 1 → k.find trim e = .window alone .alone))) ∧
  (∀ m x : Int × Int, (Share.lessPartner x).means m = (m.1 - x.1, m.2 - x.2) ∧ Share.alone.means m = m ∧
      Share.earlierHalf.means m = (roundDiv m.1 2, roundDiv m.2 2) ∧
      Share.laterHalf.means m = (m.1 - roundDiv m.1 2, m.2 - roundDiv m.2 2)) ∧
  (∀ (s : State) (p : Platform) (partner : Option (Int × Int)) (e : WindowEntry) (a : Axle) (f : Nat × Nat) (tOut trim : Nat),
      e.deferred = some (tOut, trim) → e.firstSucc = some f → s.axt.train[e.axle]? = some a →
      let k := s.making p a ⟨e.axle, e.tIn, tOut, false, endsOf (sideOf s.direction p)⟩
      let w := windowOf (s.meu.get p).history ((f.2 : Int) + trim) ((tOut : Int) - trim)
      let m := k.make w (match partner with | some x => .lessPartner x | none => .earlierHalf)
      resolveEntry p partner e s = (s.setAxt { s.axt with
          train := s.axt.train.set e.axle (a.write (sideOf s.direction p) m) }).setMeu
        (s.meu.set p { s.meu.get p with windows := (s.meu.get p).windows.filter fun d => !decide (d = e) })) ∧
  (∀ (s : State) (i : Nat),
      let resolve := fun (p : Platform) (v : State) =>
        (sortBy (·.axle) ((v.meu.get p).windows.filter fun e => decide (e.deferred ≠ none) && decide (e.axle = i))).foldl
          (fun v e => resolveEntry p none e v) v
      let u := resolve (platformOf s.direction .second) (resolve (platformOf s.direction .first) s)
      combineSettled i s = u.setAxt { u.axt with train := updateAt (Axle.combine u.cal.working) i u.axt.train })

/-- Two VALID measurements that agree within the tolerance give the axle load, the rail loads and the mean speed from both
and no combination qualifier; two that disagree give the one of the larger n, FIRST on equal n, and DISAGREE; one alone
gives SINGLE; none gives NOT_WEIGHED, no load, and the speed of the FIRST that has one; nothing else of the axle changes
(R73, R74, R75, R76). The qualifiers of an axle: those of its measurements, REWEIGHED, the combination's while it is
settled, and UNCLASSIFIED (R72). A notice of a channel fault with no passage open changes nothing; with one open the
poison onset becomes the notified one, or stays when an earlier one stands (R78). Then each measurement of the platform
that is VALID, SHORT, OVERRANGE or OVERSPEED and whose last sample is at or after the onset becomes POISONED and gains
SUSPECT, keeping the rest; a settled axle holds the combination that its measurements then give, an unsettled one keeps
what it holds, and when no combination changes no record is told (R79; that a record is told of a changed combination only
is the model's reading, log 20). -/
def Obligations.AxlesAreCombinedAndPoisoned : Prop :=
  (∀ (c : CalSet) (a : Axle),
      let first := weighing a.meas.first
      let second := weighing a.meas.second
      let speed := fun m : Option Measurement => m.bind (·.speed)
      let alone := fun (r : Int × Int) (v : Option Nat) (q : Qual) => { a with
        load := some (roundDiv (r.1 + r.2) 1000), rail1 := some (roundDiv r.1 1000), rail2 := some (roundDiv r.2 1000)
        speed := v, comb := some q }
      (∀ f s, first = some f → second = some s →
        let tol := max (c.tabs * 1000) ((f.1 + f.2 + (s.1 + s.2)) * c.trel / 2000000)
        let apart : Int := (f.1 + f.2 - (s.1 + s.2)).natAbs
        (apart ≤ tol → ∃ v : Option Nat, a.combine c = { a with
            load := some (roundDiv (f.1 + f.2 + (s.1 + s.2)) 2000), rail1 := some (roundDiv (f.1 + s.1) 2000)
            rail2 := some (roundDiv (f.2 + s.2) 2000), speed := v, comb := none } ∧
          ∀ x y, speed a.meas.first = some x → speed a.meas.second = some y → v = some ((x + y + 1) / 2)) ∧
        (tol < apart →
          (measCount a.meas.second ≤ measCount a.meas.first → a.combine c = alone f (speed a.meas.first) .disagree) ∧
          (measCount a.meas.first < measCount a.meas.second → a.combine c = alone s (speed a.meas.second) .disagree))) ∧
      (∀ f, first = some f → second = none → a.combine c = alone f (speed a.meas.first) .single) ∧
      (∀ s, first = none → second = some s → a.combine c = alone s (speed a.meas.second) .single) ∧
      (first = none → second = none → a.combine c = { a with
        load := none, rail1 := none, rail2 := none, comb := some .notWeighed
        speed := match speed a.meas.first with | some v => some v | none => speed a.meas.second })) ∧
  (∀ m : Option Measurement, ∀ r, weighing m = some r ↔ ∃ x, m = some x ∧ x.status = .valid ∧ x.rails = some r) ∧
  (∀ (a : Axle) (q : Qual), hasQual a.quals q = true ↔
      (∃ m, (a.meas.first = some m ∨ a.meas.second = some m) ∧ hasQual m.quals q = true) ∨
      (q = .reweighed ∧ a.reweighed = true) ∨ (a.settled = true ∧ a.comb = some q) ∨
      (q = .unclassified ∧ a.unclassified = true)) ∧
  (∀ (s : State) (p : Platform) (onset : Nat), s.isOpen = false → meuNotice p onset s = s) ∧
  (∀ (s : State) (p : Platform) (onset : Nat), s.isOpen = true →
      let o := match (s.meu.get p).poison with | some u => min u onset | none => onset
      let side := sideOf s.direction p
      let hit := fun m : Measurement => m.status ∈ [MeasStatus.valid, .short, .overrange, .overspeed] ∧ ∃ t, m.lastSample = some t ∧ o ≤ t
      let s' := meuNotice p onset s
      s'.meu = s.meu.set p { s.meu.get p with poison := some o } ∧ s'.axt.train.length = s.axt.train.length ∧
      (∀ (i : Nat) (a : Axle), s.axt.train[i]? = some a → ∃ m : Option Measurement,
        (∀ x, a.meas.get side = some x → hit x →
          m = some { x with status := .poisoned, quals := x.quals ||| qualSet .suspect }) ∧
        (∀ x, a.meas.get side = some x → ¬ hit x → m = some x) ∧ (a.meas.get side = none → m = none) ∧
        (a.settled = true → s'.axt.train[i]? = some (Axle.combine s.cal.working { a with meas := a.meas.set side m })) ∧
        (a.settled = false → s'.axt.train[i]? = some { a with meas := a.meas.set side m })) ∧
      ((∀ (i : Nat) (a b : Axle), s.axt.train[i]? = some a → s'.axt.train[i]? = some b → a.settled = true →
          (b.load, b.rail1, b.rail2, b.speed, b.comb) = (a.load, a.rail1, a.rail2, a.speed, a.comb)) →
        s'.ptb = s.ptb ∧ s'.fau = s.fau))

/-! ### Zero control -/

/-- ZERO_ACQUIRE, ZERO_CANCEL and ZERO_STATE, by the tables of R97, R100 and R104, for each of the two platforms. -/
def Obligations.ZeroRequestsAreServed : Prop :=
  ∀ (s : State) (t : Nat) (g : Byte), s.serving →
    (∀ n, 1 < n → exec (.zeroAcquire t g n) s = .next ((s.taking t).replying g .zero .badValue [0, 0xFF]) ∧
      exec (.zeroCancel t g n) s = .next ((s.taking t).replying g .zero .badValue [0, 0xFF]) ∧
      exec (.zeroState t g n) s = .next ((s.taking t).replying g .zero .badValue [0, 0xFF])) ∧
    (∀ p : Platform,
      ((s.lcu.platforms.get p).service = .out →
        exec (.zeroAcquire t g (platformNum p)) s = .next ((s.taking t).replying g .zero .state [])) ∧
      ((s.lcu.platforms.get p).service = .inService → (s.zcl.platforms.get p).acq.state ≠ .idle →
        exec (.zeroAcquire t g (platformNum p)) s = .next ((s.taking t).replying g .zero .busy [])) ∧
      ((s.lcu.platforms.get p).service = .inService → (s.zcl.platforms.get p).acq.state = .idle →
        exec (.zeroAcquire t g (platformNum p)) s = .next (((s.taking t).setZcl { s.zcl with
          platforms := s.zcl.platforms.set p { s.zcl.platforms.get p with
            acq := ⟨if s.isOpen then .suspended else .collecting, 0, .all 0, none, none, none⟩
            block := Block.empty } }).replying g .zero .started [])) ∧
      ((s.zcl.platforms.get p).acq.state = .idle →
        exec (.zeroCancel t g (platformNum p)) s = .next ((s.taking t).replying g .zero .state [])) ∧
      ((s.zcl.platforms.get p).acq.state ≠ .idle →
        exec (.zeroCancel t g (platformNum p)) s = .next ((raiseAtt .zero ((s.taking t).setZcl { s.zcl with
          platforms := s.zcl.platforms.set p { s.zcl.platforms.get p with
            acq := { (s.zcl.platforms.get p).acq with state := .idle, last := some .cancelled } } })).replying
              g .zero .ok [])) ∧
      exec (.zeroState t g (platformNum p)) s = .next ((s.taking t).replying g .zero .ok (zeroData s p)))

/-- ACQUISITION_END: the quiet instant that brings the collected count to 2,000 ends the acquisition, IDLE, with its
result, and raises ZERO; ACCEPTED gives the fitted channels their acquired zeros, the zero state GOOD and the off-zero
count 0; a rejection leaves the platform's zeros and zero state (R99). TRACKING_BLOCK: the quiet instant that fills a
block has it judged: an unstable block changes nothing; a near-zero block sets the off-zero count to 0 and moves each
fitted channel's working zero by its block mean, or, when those zeros would exceed the zero range, leaves them and
raises ZERO_DRIFT with the platform and the deviation; an off-zero block adds one to the count, up to 30, where the
zero state becomes DOUBTFUL; a new block begins (R102, R103). An instant is taken for one platform and then for the
other; which is first is the model's free value where both could bring a fault (log 45). -/
def Obligations.AcquisitionAndBlockAreDecided : Prop :=
  (∀ (s : State) (t : Nat) (p : Platform) (r : Readings), s.powered = true → finishesAcquisition t p r s = true →
      ∃ (s' : State) (res : AcqResult), exec (.acquisitionEnd t p r) s = .next s' ∧ (s'.zcl.platforms.get p).acq.state = .idle ∧
        (s'.zcl.platforms.get p).acq.last = some res ∧ s'.fau.attention.getLsbD 4 = true ∧
        res = ((s.zcl.platforms.get p).acq.collect r.raw (s.fittedOf (channelsOf p))
          (platformLoad r.raw s.zcl.zeros s.cal.working.gain (s.fittedOf (channelsOf p)))).decide s.cal.working
            (s.fittedOf (channelsOf p)) ∧
        (res = .accepted → (s'.zcl.platforms.get p).zeroState = .good ∧ (s'.zcl.platforms.get p).offZero = 0 ∧
          ∀ c ∈ s.fittedOf (channelsOf p),
            s'.zcl.zeros.get c = roundDiv ((s.zcl.platforms.get p).acq.sums.get c + r.raw.get c) 2000) ∧
        (res ≠ .accepted → (s'.zcl.platforms.get p).zeroState = (s.zcl.platforms.get p).zeroState ∧
          ∀ c ∈ channelsOf p, s'.zcl.zeros.get c = s.zcl.zeros.get c)) ∧
  (∀ (s : State) (t : Nat) (p : Platform) (r : Readings), s.powered = true → finishesBlock t p r s = true →
      ∃ (s' : State) (b : Block), exec (.trackingBlock t p r) s = .next s' ∧
        b = (s.zcl.platforms.get p).block.add r.raw s.zcl.zeros (s.fittedOf (channelsOf p))
          (platformLoad r.raw s.zcl.zeros s.cal.working.gain (s.fittedOf (channelsOf p))) ∧
        (s'.zcl.platforms.get p).block = Block.empty ∧
        (s.cal.working.interval * 1000 < spanOf b.least b.greatest →
          (s'.zcl.platforms.get p).offZero = (s.zcl.platforms.get p).offZero ∧
          (s'.zcl.platforms.get p).zeroState = (s.zcl.platforms.get p).zeroState ∧
          ∀ c ∈ channelsOf p, s'.zcl.zeros.get c = s.zcl.zeros.get c) ∧
        (spanOf b.least b.greatest ≤ s.cal.working.interval * 1000 →
          ((roundDiv b.loadSum 2000).natAbs : Int) ≤ s.cal.working.interval * 500 →
          (s'.zcl.platforms.get p).offZero = 0 ∧
          (s'.zcl.platforms.get p).zeroState = (s.zcl.platforms.get p).zeroState ∧
          let z := fun c => s.zcl.zeros.get c + roundDiv (b.sums.get c) 2000
          let dev := deviation s.cal.working (s.fittedOf (channelsOf p)) z
          ((dev.natAbs : Int) ≤ s.cal.working.zeroRange * 16777216 → ∀ c ∈ channelsOf p,
            s'.zcl.zeros.get c = if (s.lcu.channels.get c).fitted then z c else s.zcl.zeros.get c) ∧
          (s.cal.working.zeroRange * 16777216 < (dev.natAbs : Int) →
            (∀ c ∈ channelsOf p, s'.zcl.zeros.get c = s.zcl.zeros.get c) ∧
            (s.condition ≠ .starting → s.fau.counts.length = 14 → ∃ n, s'.fau.counts[4]? = some (n + 1)))) ∧
        (spanOf b.least b.greatest ≤ s.cal.working.interval * 1000 →
          s.cal.working.interval * 500 < ((roundDiv b.loadSum 2000).natAbs : Int) → (s.zcl.platforms.get p).offZero ≤ 30 →
          (s'.zcl.platforms.get p).offZero = min 30 ((s.zcl.platforms.get p).offZero + 1) ∧
          ((s.zcl.platforms.get p).offZero + 1 = 30 → (s'.zcl.platforms.get p).zeroState = .doubtful) ∧
          ∀ c ∈ channelsOf p, s'.zcl.zeros.get c = s.zcl.zeros.get c)) ∧
  (∀ (p : Platform) (b : Block) (s : State), s.condition ≠ .starting →
      let dev := deviation s.cal.working (s.fittedOf (channelsOf p)) fun c => s.zcl.zeros.get c + roundDiv (b.sums.get c) 2000
      s.cal.working.zeroRange * 16777216 < (dev.natAbs : Int) →
      nearZero p b s = takeFault ⟨.zeroDrift, s.timebase, none, some (.platform p), some (.number (roundDiv dev 16777216))⟩
        (s.setZcl { s.zcl with platforms := s.zcl.platforms.set p { s.zcl.platforms.get p with offZero := 0 } })) ∧
  (∀ (raw : PerChannel Int) (s : State), ∃ p q : Platform, q ≠ p ∧ zclPlatforms raw s = zclInstant q raw (zclInstant p raw s))

/-! ### Calibration -/

/-- CAL_READ, CAL_COUNTER and CAL_DISCARD: each copy is read whole; the counter reply is 6 bytes; a discard makes the
staging copy equal to the working set, and nothing else changes (R86). CAL_STAGE: LOCKED at OPERATE; BAD_VALUE for a
field outside 1 to 17, a channel above 7 for fields 2 and 3, or a table of more than 8 entries; else the field of the
staging copy takes the value, untested, and nothing else changes (R85). Each of the fields 1 to 17 is the one that R81
numbers so; fields 2 and 3 are those of the channel named, and 14 is the whole band table (R81, R85). -/
def Obligations.CalibrationIsReadAndStaged : Prop :=
  (∀ (s : State) (t : Nat) (g : Byte), s.serving →
      exec (.calRead t g 0) s = .next ((s.taking t).replying g .cal .ok
        (0 :: byteOf (calStateNum s.cal.state) :: calFields s.cal.working)) ∧
      exec (.calRead t g 1) s = .next ((s.taking t).replying g .cal .ok (1 :: calFields s.cal.staging)) ∧
      (∀ n, 1 < n → exec (.calRead t g n) s = .next ((s.taking t).replying g .cal .badValue [0, 0xFF])) ∧
      exec (.calCounter t g) s = .next ((s.taking t).replying g .cal .ok (counterData s)) ∧ (counterData s).length = 6 ∧
      exec (.calDiscard t g) s = .next (((s.taking t).setCal { s.cal with staging := s.cal.working }).replying g .cal .ok [])) ∧
  (∀ (s : State) (t : Nat) (g : Byte) (f c : Nat) (v : Int) (l : List Band), s.serving →
      (s.calsw = .operate → exec (.calStage t g f c v l) s = .next ((s.taking t).replying g .cal .locked [])) ∧
      (s.calsw = .calibrate → f < 1 ∨ 17 < f →
        exec (.calStage t g f c v l) s = .next ((s.taking t).replying g .cal .badValue [0, 0xFF])) ∧
      (s.calsw = .calibrate → f = 2 ∨ f = 3 → 7 < c →
        ∃ d, exec (.calStage t g f c v l) s = .next ((s.taking t).replying g .cal .badValue d)) ∧
      (s.calsw = .calibrate → f = 14 → 8 < l.length →
        ∃ d, exec (.calStage t g f c v l) s = .next ((s.taking t).replying g .cal .badValue d)) ∧
      (s.calsw = .calibrate → 1 ≤ f → f ≤ 17 → (f = 2 ∨ f = 3 → c ≤ 7) → (f = 14 → l.length ≤ 8) →
        exec (.calStage t g f c v l) s = .next (((s.taking t).setCal { s.cal with
          staging := stageField f (Fin.ofNat 8 c) v l s.cal.staging }).replying g .cal .ok []))) ∧
  (∀ (k : Fin 8) (v : Int) (l : List Band) (x : CalSet),
      stageField 1 k v l x = { x with fitted := v } ∧ stageField 2 k v l x = { x with gain := x.gain.set k v } ∧
      stageField 3 k v l x = { x with zero := x.zero.set k v } ∧ stageField 4 k v l x = { x with headSpacing := v } ∧
      stageField 5 k v l x = { x with lengthA := v } ∧ stageField 6 k v l x = { x with lengthB := v } ∧
      stageField 7 k v l x = { x with guard := v } ∧ stageField 8 k v l x = { x with nMin := v } ∧
      stageField 9 k v l x = { x with interval := v } ∧ stageField 10 k v l x = { x with maxAxle := v } ∧
      stageField 11 k v l x = { x with zeroRange := v } ∧ stageField 12 k v l x = { x with tabs := v } ∧
      stageField 13 k v l x = { x with trel := v } ∧ stageField 14 k v l x = { x with bands := l } ∧
      stageField 15 k v l x = { x with certMax := v } ∧ stageField 16 k v l x = { x with measMax := v } ∧
      stageField 17 k v l x = { x with stamp := v }) ∧
  (∀ (z : PerChannel Int) (k j : Fin 8) (v : Int), (z.set k v).get j = if j = k then v else z.get j)

/-- The validation of a set: VALID exactly when every field is in its range (R81, R82). That the fitted-channel pattern lies
in 0 to 255, the eight channels, is the model's reading (log 11). -/
def Obligations.ValidationTestsEveryRange : Prop :=
  ∀ c : CalSet, validate c = none ↔
    (0 ≤ c.fitted ∧ c.fitted ≤ 255 ∧ platformPatternOk c.fitted .a = true ∧ platformPatternOk c.fitted .b = true) ∧
    (∀ k, 1 ≤ c.gain.get k ∧ c.gain.get k ≤ 1048575) ∧ (∀ k, -8388608 ≤ c.zero.get k ∧ c.zero.get k ≤ 8388607) ∧
    (100 ≤ c.headSpacing ∧ c.headSpacing ≤ 500) ∧ (600 ≤ c.lengthA ∧ c.lengthA ≤ 2500) ∧
    (600 ≤ c.lengthB ∧ c.lengthB ≤ 2500) ∧ (0 ≤ c.guard ∧ c.guard ≤ c.lengthA / 4 ∧ c.guard ≤ c.lengthB / 4) ∧
    (8 ≤ c.nMin ∧ c.nMin ≤ 200) ∧ (c.interval = 10 ∨ c.interval = 20 ∨ c.interval = 50 ∨ c.interval = 100) ∧
    (5000 ≤ c.maxAxle ∧ c.maxAxle ≤ 50000) ∧ (0 ≤ c.zeroRange ∧ 50 * c.zeroRange ≤ c.maxAxle) ∧
    (0 ≤ c.tabs ∧ c.tabs ≤ 5000) ∧ (0 ≤ c.trel ∧ c.trel ≤ 100000) ∧
    (1 ≤ c.bands.length ∧ c.bands.length ≤ 8 ∧
      (∀ b ∈ c.bands, 1 ≤ b.upper ∧ b.upper ≤ 999 ∧ -20000 ≤ b.k ∧ b.k ≤ 20000) ∧
      (c.bands.map (·.upper)).Pairwise (· < ·)) ∧
    (1 ≤ c.certMax ∧ c.certMax ≤ 800) ∧ (c.certMax ≤ c.measMax ∧ c.measMax ≤ 800)

/-- CAL_COMMIT, by the table of R87; at STARTED the snapshot is the staging copy, the phase WRITING, and the STC busy
with its reservation write for 10 ms (R87, R169).
CALIBRATION_IMAGE_WRITE_END: verified, the image holds the snapshot with the counter plus one, and the shadow that
counter; not verified, the image fails its check or stands as it was (which is a free value, log 13), and the shadow
stands. The closing write begins in either case (R88, R91, R169).
CALIBRATION_COMMIT_END: a commit whose image verified is applied at once with no passage open (counter up by one,
working set the snapshot, VALID, the zeros the new reference zeros), and HELD with one open; a failed one leaves all of
it as it was, with the outcome FAILED. STORE is raised (R88, R89, R90). -/
def Obligations.CalibrationCommitStartsAndEnds : Prop :=
  (∀ (s : State) (t : Nat) (g : Byte), s.serving →
      (s.calsw = .operate → exec (.calCommit t g) s = .next ((s.taking t).replying g .cal .locked [])) ∧
      (s.calsw = .calibrate → s.isOpen = true →
        exec (.calCommit t g) s = .next ((s.taking t).replying g .cal .passageOpen [])) ∧
      (s.calsw = .calibrate → s.isOpen = false → s.stc.busy ≠ none →
        exec (.calCommit t g) s = .next ((s.taking t).replying g .cal .busy [])) ∧
      (s.calsw = .calibrate → s.isOpen = false → s.stc.busy = none → s.cal.counter = 65535 →
        exec (.calCommit t g) s = .next ((s.taking t).replying g .cal .full [])) ∧
      (∀ f, s.calsw = .calibrate → s.isOpen = false → s.stc.busy = none → s.cal.counter < 65535 →
        validate s.cal.staging = some f →
        exec (.calCommit t g) s = .next ((s.taking t).replying g .cal .badValue [byteOf f.1, byteOf (f.2.getD 255)])) ∧
      (s.calsw = .calibrate → s.isOpen = false → s.stc.busy = none → s.cal.counter < 65535 → validate s.cal.staging = none →
        exec (.calCommit t g) s = .next ((((s.taking t).setCal { s.cal with
            snapshot := some s.cal.staging, phase := .writing }).setStc { s.stc with
            busy := some ⟨.calibrationCommit, .reservation, (s.taking t).timebase + 200,
              some (s.stc.cell.other, ⟨numberAfter s.ptb.lastNumber 1000, (s.stc.sequence + 1) % 65536⟩), [], false⟩ }).replying
          g .cal .started []))) ∧
  (∀ (s : State) (b : Busy) (c : CalSet) (ok : Bool), s.powered = true → s.stc.busy = some b → b.phase = .body →
      b.op = .calibrationCommit → s.cal.snapshot = some c →
      ∃ s' : State, exec (.calibrationImageWriteEnd ok) s = .next s' ∧ s'.cal = s.cal ∧
        (ok = true → s'.store = { s.store with image := some (c, s.cal.counter + 1), shadow := some (s.cal.counter + 1) }) ∧
        (ok = false → (s'.store.image = none ∨ s'.store.image = s.store.image) ∧ s'.store.shadow = s.store.shadow ∧ s'.store.classes = s.store.classes ∧
          s'.store.places = s.store.places ∧ s'.store.cell1 = s.store.cell1 ∧ s'.store.cell2 = s.store.cell2) ∧
        s'.stc.busy = some (b.closing (!ok) s.stc.cell s.stc.sequence s.ptb.lastNumber)) ∧
  (∀ (s : State) (b : Busy) (c : CalSet) (ok : Bool), s.powered = true → s.stc.busy = some b → b.phase = .closing →
      b.op = .calibrationCommit → s.cal.snapshot = some c →
      ∃ s' : State, exec (.calibrationCommitEnd ok) s = .next s' ∧ s'.fau.attention.getLsbD 5 = true ∧
        (b.failed = false → s.isOpen = false → s'.cal.counter = s.cal.counter + 1 ∧ s'.cal.working = c ∧
          s'.cal.state = .valid ∧ s'.cal.phase = .idle ∧ s'.cal.snapshot = none ∧ s'.cal.lastOutcome = some .succeeded ∧
          s'.cal.staging = (if s.calsw = .operate then c else s.cal.staging) ∧ s'.zcl.zeros = c.zero ∧
          (∀ p, (s'.zcl.platforms.get p).zeroState = .good ∧ (s'.zcl.platforms.get p).offZero = 0 ∧
            (s'.zcl.platforms.get p).acq.state = .idle ∧ (s'.zcl.platforms.get p).block = Block.empty) ∧
          s'.stc.last = some (.succeeded, .calibrationCommit) ∧ s'.stc.failures = 0 ∧ s'.stc.health = .ok) ∧
        (b.failed = false → s.isOpen = true → s'.cal = { s.cal with lastOutcome := some .succeeded, phase := .held } ∧
          s'.zcl = s.zcl) ∧
        (b.failed = true → s'.cal = { s.cal with lastOutcome := some .failed, phase := .idle, snapshot := none } ∧
          s'.zcl = s.zcl ∧ s'.stc.last = some (.failed, .calibrationCommit) ∧
          s'.stc.failures = (if s.stc.failures < 3 then s.stc.failures + 1 else s.stc.failures)))

/-- CALSW_CHANGE: the new position is the switch position; to OPERATE the staging copy becomes the working set; with a
passage open CAL_SWITCH is raised, and to CALIBRATE the open passage is marked UNVERIFIED with its records; a change
with no passage open raises nothing (R83, R84). Before start-up is finished the switch position follows and nothing else
happens (R83). A command that names the position already held is no change (the model's choice, log 8). -/
def Obligations.SwitchChangeIsTaken : Prop :=
  (∀ (s : State) (t : Nat) (p : SwitchPos), s.powered = true →
    (s.condition = .starting → s.calsw ≠ p → exec (.calswChange t p) s = .next ((s.advance t).setCalsw p)) ∧
    (s.calsw = p → exec (.calswChange t p) s = .next (s.advance t))) ∧
  ∀ (s : State) (t : Nat) (p : SwitchPos), s.powered = true → s.condition ≠ .starting → s.calsw ≠ p →
    (s.axt.passage = none → exec (.calswChange t p) s = .next (((s.advance t).setCalsw p).setCal
      (if p = .operate then { s.cal with staging := s.cal.working } else s.cal))) ∧
    (∀ q, s.axt.passage = some q → ∃ s' : State, exec (.calswChange t p) s = .next s' ∧ s'.calsw = p ∧
      s'.cal = (if p = .operate then { s.cal with staging := s.cal.working } else s.cal) ∧
      s'.fau = (takeFault ⟨.calSwitch, (s.advance t).timebase, some q.number, none, some (.switch p)⟩ s).fau ∧
      (p = .operate → s'.ptb = s.ptb) ∧
      (p = .calibrate → (∀ e ∈ s'.ptb.directory, e.close = none → e.unverified = true) ∧
        ∀ r ∈ s'.ptb.slots, r.2.passage = some q.number → r.2.own.unverified = true ∧ r.2.certified = false))

/-! ### Classes and segmentation -/

/-- CLASS_DEFINE and CLASS_REMOVE, by the tables of R106 and R107: a code outside 1 to 24 first, then PASSAGE_OPEN; an
accepted change sets the dirty mark; nothing else changes. The ranges of a CLASS_DEFINE: none fails exactly when every
field is in its range, with n − 1 spacings (R105, R106). CLASS_READ: the record of a code, or NOT_FOUND; for code 0 the
codes and the dirty mark; BAD_VALUE for any other (R107). The count byte before the codes and the byte of the dirty mark
are the model's choices (logs 25 and 23). -/
def Obligations.ClassesAreReadAndChanged : Prop :=
  (∀ (s : State) (t : Nat) (g : Byte), s.serving →
      (∀ f : ClassFields, f.code < 1 ∨ 24 < f.code →
        exec (.classDefine t g f) s = .next ((s.taking t).replying g .cls .badValue [1, 0xFF])) ∧
      (∀ n, n < 1 ∨ 24 < n → exec (.classRemove t g n) s = .next ((s.taking t).replying g .cls .badValue [0, 0xFF])) ∧
      (∀ f : ClassFields, 1 ≤ f.code → f.code ≤ 24 →
        (s.isOpen = true → exec (.classDefine t g f) s = .next ((s.taking t).replying g .cls .passageOpen []) ∧
          exec (.classRemove t g f.code) s = .next ((s.taking t).replying g .cls .passageOpen [])) ∧
        (s.isOpen = false →
          (∀ x, classFailing f = some x →
            exec (.classDefine t g f) s = .next ((s.taking t).replying g .cls .badValue [byteOf x.1, byteOf (x.2.getD 255)])) ∧
          (classFailing f = none → exec (.classDefine t g f) s = .next (((s.taking t).setSeg { s.seg with
              classes := tput s.seg.classes f.code (recordOfFields f), dirty := true, commit := false }).replying g .cls .ok
                [if (tget s.seg.classes f.code).isSome then 1 else 0])) ∧
          (tget s.seg.classes f.code = none →
            exec (.classRemove t g f.code) s = .next ((s.taking t).replying g .cls .notFound [])) ∧
          (tget s.seg.classes f.code ≠ none → exec (.classRemove t g f.code) s = .next (((s.taking t).setSeg { s.seg with
            classes := tdel s.seg.classes f.code, dirty := true, commit := false }).replying g .cls .ok []))))) ∧
  (∀ f : ClassFields, classFailing f = none ↔
      f.kind ≤ 1 ∧ 2 ≤ f.n ∧ f.n ≤ 8 ∧ f.spacings.length + 1 = f.n ∧ (∀ d ∈ f.spacings, 500 ≤ d ∧ d ≤ 20000) ∧
      20 ≤ f.tolerance ∧ f.tolerance ≤ 500 ∧ 1000 ≤ f.gapMin ∧ f.gapMin ≤ 8000 ∧ 1000 ≤ f.gapMax ∧ f.gapMax ≤ 8000 ∧
      f.gapMin ≤ f.gapMax ∧ 1000 ≤ f.maxGross ∧ f.maxGross ≤ 400000 ∧ 1000 ≤ f.maxAxle ∧ f.maxAxle ≤ 50000) ∧
  (∀ (s : State) (t : Nat) (g : Byte) (n : Nat), s.serving →
      (24 < n → exec (.classRead t g n) s = .next ((s.taking t).replying g .cls .badValue [0, 0xFF])) ∧
      (n = 0 → exec (.classRead t g n) s = .next ((s.taking t).replying g .cls .ok
        (byteOf s.seg.classes.length :: (s.seg.classes.map fun c => byteOf c.1) ++ [byteOf s.seg.dirty.toNat]))) ∧
      (1 ≤ n → n ≤ 24 →
        (tget s.seg.classes n = none → exec (.classRead t g n) s = .next ((s.taking t).replying g .cls .notFound [])) ∧
        (∀ c, tget s.seg.classes n = some c →
          exec (.classRead t g n) s = .next ((s.taking t).replying g .cls .ok (classData n c)) ∧
          (classData n c).length = 18 + 2 * c.spacings.length)))

/-- A class of n axles is tested against its n − 1 spacings and its trailing gap: FAILED when a present entry is out of
bounds, PASSED when all are present and within; at close the gap is not tested, the axles must remain, and no test is open
(R112). The expected class of a position: of the EXPECTED record there, the register's class of its fleet number, else the
expectation's, each only while it is in the class table (R111). It decides first: PASSED forms the vehicle, open waits with
EXPECTED, FAILED goes on with CLASS_MISMATCH (R113). Automatic matching takes the first class, by descending axle count
and ascending code, that has not FAILED: it forms the vehicle when that class has PASSED and waits with CLASS when it is
open (R114). When every class has FAILED the vehicle is two bogies, UNCLASSIFIED, of kind WAGON, or waits with BOGIE
(R115). A bogie takes the next axle over an entry at or below the bogie maximum, to three axles; it ends at three or at a
greater entry, at close at an absent one too; the second begins behind it, which at close needs the entry there, since
axles on either side of an absent entry are segmented apart (R115, R121; the model's reading, log 46). -/
def Obligations.VehiclesAreDecidedFromSpacings : Prop :=
  (∀ (sp : List (Option Nat)) (c m : Nat) (r : ClassRec),
    let n := r.spacings.length
    let outside := ∃ i w d : Nat, r.spacings[i]? = some w ∧ entryAt sp (c + i) = some d ∧ r.tolerance < ((d : Int) - (w : Int)).natAbs
    let inside := ∀ i w : Nat, r.spacings[i]? = some w →
      ∃ d : Nat, entryAt sp (c + i) = some d ∧ ((d : Int) - (w : Int)).natAbs ≤ r.tolerance
    (classTest false sp c m r = .failed ↔ outside ∨ ∃ d, entryAt sp (c + n) = some d ∧ (d < r.gapMin ∨ r.gapMax < d)) ∧
    (classTest false sp c m r = .passed ↔ inside ∧ ∃ d, entryAt sp (c + n) = some d ∧ r.gapMin ≤ d ∧ d ≤ r.gapMax) ∧
    (classTest true sp c m r = .passed ↔ n + 1 ≤ m ∧ inside) ∧
    (classTest true sp c m r = .failed ↔ ¬ (n + 1 ≤ m ∧ inside))) ∧
  (∀ (s : State) (p : Nat),
    ((∀ k w, s.recordAt s.openNumber p = some (k, w) → w.state ≠ .expected) → s.expectedClass p = none) ∧
    (∀ k w, s.recordAt s.openNumber p = some (k, w) → w.state = .expected →
      let named := fun (c : Nat) (r : ClassRec) => tget s.seg.classes c = some r ∧
        ∃ f g, w.fleet = some f ∧ tget s.wrg.records f = some g ∧ g.fields.cls = some c
      (∀ c r, named c r → s.expectedClass p = some (c, r)) ∧
      ((∀ c r, ¬ named c r) →
        (∀ c r, w.expectedCls = some c → tget s.seg.classes c = some r → s.expectedClass p = some (c, r)) ∧
        ((∀ c r, w.expectedCls = some c → tget s.seg.classes c ≠ some r) → s.expectedClass p = none)))) ∧
  (∀ (s : State) (closing mm : Bool),
    let test := classTest closing s.seg.spacings s.seg.cursor (s.axt.train.length - s.seg.cursor)
    (s.expectedClass (s.seg.vehicles.length + 1) = none → decideVehicle s closing = autoDecide s closing false) ∧
    (∀ c r, s.expectedClass (s.seg.vehicles.length + 1) = some (c, r) →
      (test r = .passed → decideVehicle s closing = .form ⟨s.seg.cursor, r.spacings.length + 1, some c, r.kind, false, false⟩) ∧
      (test r = .undecided → decideVehicle s closing = .wait .expected) ∧
      (test r = .failed → decideVehicle s closing = autoDecide s closing true)) ∧
    (∀ (pre post : List (Nat × ClassRec)) (c : Nat) (r : ClassRec),
      matchingOrder s.seg.classes = pre ++ (c, r) :: post → (∀ q ∈ pre, test q.2 = .failed) →
      (test r = .passed → autoDecide s closing mm = .form ⟨s.seg.cursor, r.spacings.length + 1, some c, r.kind, false, mm⟩) ∧
      (test r = .undecided → autoDecide s closing mm = .wait .cls)) ∧
    ((∀ q ∈ s.seg.classes, test q.2 = .failed) → autoDecide s closing mm =
      match bogiePair closing s.settings.bogieMax s.seg.spacings s.seg.cursor s.axt.train.length with
      | some n => .form ⟨s.seg.cursor, n, none, .wagon, true, mm⟩
      | none => .wait .bogie)) ∧
  (∀ t : Table ClassRec, Table.wf t = true → (∀ c, c ∈ matchingOrder t ↔ c ∈ t) ∧
    (matchingOrder t).Pairwise fun a b => min 7 b.2.spacings.length < min 7 a.2.spacings.length ∨
      (min 7 b.2.spacings.length = min 7 a.2.spacings.length ∧ a.1 < b.1)) ∧
  (∀ (limit : Nat) (sp : List (Option Nat)) (start total k : Nat), start < total →
    let joined := ∀ j, j + 1 < k → ∃ d, entryAt sp (start + j) = some d ∧ d ≤ limit
    let beyond := ∃ d, entryAt sp (start + k - 1) = some d ∧ limit < d
    (bogieAt false limit sp start total = some k ↔ 1 ≤ k ∧ k ≤ 3 ∧ joined ∧ (k = 3 ∨ beyond)) ∧
    (bogieAt true limit sp start total = some k ↔
      1 ≤ k ∧ k ≤ 3 ∧ joined ∧ (k = 3 ∨ beyond ∨ entryAt sp (start + k - 1) = none))) ∧
  (∀ (limit : Nat) (sp : List (Option Nat)) (start total n : Nat), start < total →
    (bogiePair false limit sp start total = some n ↔ ∃ x y, bogieAt false limit sp start total = some x ∧
      start + x < total ∧ bogieAt false limit sp (start + x) total = some y ∧ n = x + y) ∧
    (bogiePair true limit sp start total = some n ↔ ∃ x, bogieAt true limit sp start total = some x ∧
      ((entryAt sp (start + x - 1) = none ∨ total ≤ start + x) ∧ n = x ∨
        entryAt sp (start + x - 1) ≠ none ∧ start + x < total ∧
          ∃ y, bogieAt true limit sp (start + x) total = some y ∧ n = x + y)))

/-- Told of a forward crossing time, the Segmenter looks for each absent spacing at the first of E, M and F that is OK and
holds both times, nearest of H × Δt × 2 / (h + h'), within 0 to 99,999 mm; a present one stands; when one became present
the cursor is evaluated (R109). An evaluation stops while the passage is ABANDONED or the limit mark is set, ends with wait
reason NONE at the end of the train, waits as decided, or forms the vehicle and evaluates anew; at position 641 it sets the
mark, stops and raises TABLE_FULL with 641 (R110, R117, R122). A vehicle formed joins the list, the cursor moves behind it,
its axles take position and UNCLASSIFIED, V is reported, and the PTB binds it (R116). The removal of the tail axle takes
its spacing, and dissolves the last vehicle when it belonged to one (R119): the entry leaves, its axles lose position and
UNCLASSIFIED, the cursor returns to its first axle, the limit mark is cleared, V is reported and the PTB told (R120). The
close: the axles in APPROACH are discarded, each pending head is an incident in the order S1, S2, S3, the rest of an
unabandoned train is segmented, with every axle in a vehicle or the limit met, and the passage finalised (R12, R50,
R121). -/
def Obligations.VehiclesAreFormedAndDissolved : Prop :=
  (∀ (s : State) (t k : Nat) (a b : Axle), s.axt.train[k]? = some a → s.axt.train[k + 1]? = some b →
    (segTold t s).seg.spacings.length + 1 = s.axt.train.length ∧
    entryAt (segTold t s).seg.spacings k = (match entryAt s.seg.spacings k with | some d => some d | none => spacingOf s a b) ∧
    spacingOf s a b = (match spacingAt s a b .e, spacingAt s a b .m with
      | some d, _ => some d
      | none, some d => some d
      | none, none => spacingAt s a b .f) ∧
    ∀ p d, spacingAt s a b p = some d ↔ s.postOk p = true ∧ ∃ x y, a.times.get p = some x ∧ b.times.get p = some y ∧
      d = min 99999 (roundDiv (s.cal.working.headSpacing * ((y.time : Int) - x.time) * 2) (x.interval + y.interval)).toNat) ∧
  (∀ (s : State) (t : Nat), let u := s.setSeg { s.seg with spacings := (segTold t s).seg.spacings }
    ((∃ k d, k + 1 < s.axt.train.length ∧ entryAt s.seg.spacings k = none ∧ entryAt u.seg.spacings k = some d) →
      s.seg.spacings.length < s.axt.train.length → segTold t s = evaluate t false u) ∧
    ((∀ k, k + 1 < s.axt.train.length → entryAt s.seg.spacings k = none → entryAt u.seg.spacings k = none) →
      segTold t s = u)) ∧
  (∀ (s : State) (t : Nat) (closing : Bool),
    (s.axt.abandoned = true ∨ s.seg.limit = true → evaluate t closing s = s.setSeg { s.seg with wait := .stopped }) ∧
    (s.axt.abandoned = false → s.seg.limit = false →
      (s.axt.train.length ≤ s.seg.cursor → evaluate t closing s = s.setSeg { s.seg with wait := .none }) ∧
      (s.seg.cursor < s.axt.train.length →
        (∀ r, decideVehicle s closing = .wait r → evaluate t closing s = s.setSeg { s.seg with wait := r }) ∧
        (∀ v, decideVehicle s closing = .form v →
          (s.seg.vehicles.length < 640 → evaluate t closing s = evaluate t closing (formVehicle t v s)) ∧
          (640 ≤ s.seg.vehicles.length → s.condition = .ready → evaluate t closing s =
            takeFault ⟨.tableFull, t, s.openNumber, some .positions, some (.number 641)⟩
              (s.setSeg { s.seg with limit := true, wait := .stopped })))) ∧
      ((evaluate t true s).seg.limit = true ∨
        s.axt.train.length ≤ (evaluate t true s).seg.cursor ∧ (evaluate t true s).seg.wait = .none))) ∧
  (∀ (s : State) (t : Nat) (v : Vehicle),
    let p := s.seg.vehicles.length + 1
    ∃ u : State, formVehicle t v s = bindVehicle t p v u ∧ (formVehicle t v s).seg = u.seg ∧ (formVehicle t v s).axt = u.axt ∧
      u.seg = { s.seg with vehicles := s.seg.vehicles ++ [v], cursor := v.first + v.count } ∧
      (∀ i, u.axt.train[i]? = (s.axt.train[i]?).map fun a => if v.first ≤ i ∧ i < v.first + v.count then
        { a with vehicle := some p, unclassified := a.unclassified || v.unclassified } else a) ∧
      u.axt = { s.axt with train := u.axt.train } ∧ u.ptb = { s.ptb with
        directory := s.ptb.directory.map fun e => if e.close = none then { e with vehicles := p } else e }) ∧
  (∀ (s : State) (a : Axle),
    let u := s.setSeg { s.seg with spacings := s.seg.spacings.take (s.axt.train.length - 1) }
    (a.vehicle = none → segRemoved a s = u) ∧ (a.vehicle ≠ none → segRemoved a s = dissolveLast u)) ∧
  (∀ (s : State) (v : Vehicle) (l : List Vehicle), s.seg.vehicles = l ++ [v] →
    ∃ u : State, dissolveLast s = dissolveVehicle (l.length + 1) v u ∧ (dissolveLast s).seg = u.seg ∧
      (dissolveLast s).axt = u.axt ∧ u.seg = { s.seg with vehicles := l, cursor := v.first, limit := false } ∧
      (∀ i, u.axt.train[i]? = (s.axt.train[i]?).map fun a => if v.first ≤ i ∧ i < v.first + v.count then
        { a with vehicle := none, unclassified := false } else a) ∧
      u.axt = { s.axt with train := u.axt.train } ∧ u.ptb = { s.ptb with
        directory := s.ptb.directory.map fun e => if e.close = none then { e with vehicles := l.length } else e }) ∧
  (∀ (s : State) (t : Nat) (cause : CloseCause),
    let u := [Station.s1, .s2, .s3].foldl (fun v k =>
      if (v.wsu.get k).pending ≠ none then headIncident .pendingAtClose t k v else v) (discardApproach s.axt.train.length s)
    closeFirst t cause s = finalisePassage t cause (if u.axt.abandoned then u else evaluate t true u))

/-! ### Wagon records and passages -/

/-- The FREE slot a record takes is the one of lowest number, below 640 (R127, R130). EXPECT for the pending set:
BAD_VALUE out of range or with neither fleet number nor class code; EXISTS where a record stands at the position or
holds the fleet number; FULL without a FREE slot; else a new EXPECTED record of origin EXPECTATION takes the lowest FREE
slot, which the reply carries. For a passage that is not open: STATE. For the open passage at a position above its vehicle
count V, the same rows over the records of that passage; the new record takes the passage's number and its calibration
counter at open, and UNVERIFIED when the passage is marked (R127, R84). A taken slot evaluates PERMIT (R152). -/
def Obligations.ExpectationIsCreated : Prop :=
  (∀ s : State, (∀ k, s.freeSlot = some k ↔ k < 640 ∧ tget s.ptb.slots k = none ∧ ∀ j, j < k → tget s.ptb.slots j ≠ none) ∧
      (s.freeSlot = none ↔ ∀ j, j < 640 → tget s.ptb.slots j ≠ none)) ∧
  (∀ (s : State) (t : Nat) (g : Byte) (p : Nat) (f c : Option Nat), s.serving →
      (∀ n, expectOk p f c = false → exec (.expect t g n p f c) s = .next ((s.taking t).replying g .pass .badValue [0, 0xFF])) ∧
      (∀ n, expectOk p f c = true → n ≠ 0 → s.openNumber ≠ some n →
        exec (.expect t g n p f c) s = .next ((s.taking t).replying g .pass .state [])) ∧
      (expectOk p f c = true → (s.recordAt none p).isSome = true ∨ (∃ x, f = some x ∧ s.fleetHeld none x none = true) →
        exec (.expect t g 0 p f c) s = .next ((s.taking t).replying g .pass .alreadyExists [])) ∧
      (expectOk p f c = true → s.recordAt none p = none → (∀ x, f = some x → s.fleetHeld none x none = false) →
        s.freeSlot = none → exec (.expect t g 0 p f c) s = .next ((s.taking t).replying g .pass .full [])) ∧
      (∀ k, expectOk p f c = true → s.recordAt none p = none → (∀ x, f = some x → s.fleetHeld none x none = false) →
        s.freeSlot = some k → ∃ (s' : State) (w : Wagon), exec (.expect t g 0 p f c) s = .next s' ∧
          s'.slk.service = some ⟨g, 5, .ok, be 2 k, false⟩ ∧ s'.ptb.slots = tput s.ptb.slots k w ∧
          w.origin = .expectation ∧ w.passage = none ∧ w.position = p ∧ w.state = .expected ∧ w.fleet = f ∧
          w.expectedCls = c ∧ w.kind = (c.bind (tget s.seg.classes)).map (·.kind) ∧ w.axles = [] ∧ w.certified = false ∧
          s'.ptb.directory = s.ptb.directory ∧ s'.wrg = s.wrg ∧ s'.axt = s.axt)) ∧
  (∀ (s : State) (t : Nat) (g : Byte) (n p : Nat) (f c : Option Nat), s.serving → s.openNumber = some n → n ≠ 0 →
      s.seg.vehicles.length < p → expectOk p f c = true →
      ((s.recordAt (some n) p).isSome = true ∨ (∃ x, f = some x ∧ s.fleetHeld (some n) x none = true) →
        exec (.expect t g n p f c) s = .next ((s.taking t).replying g .pass .alreadyExists [])) ∧
      (s.recordAt (some n) p = none → (∀ x, f = some x → s.fleetHeld (some n) x none = false) →
        s.freeSlot = none → exec (.expect t g n p f c) s = .next ((s.taking t).replying g .pass .full [])) ∧
      (∀ k e, s.recordAt (some n) p = none → (∀ x, f = some x → s.fleetHeld (some n) x none = false) →
        s.freeSlot = some k → s.ptb.directory.find? (fun e => e.close.isNone) = some e →
        s.settings.lowWater < s.settings.highWater →
        ∃ (s' : State) (w : Wagon), exec (.expect t g n p f c) s = .next s' ∧
          s'.slk.service = some ⟨g, 5, .ok, be 2 k, false⟩ ∧ s'.ptb.slots = tput s.ptb.slots k w ∧
          w.origin = .expectation ∧ w.passage = some n ∧ w.position = p ∧ w.state = .expected ∧ w.fleet = f ∧
          w.expectedCls = c ∧ w.kind = (c.bind (tget s.seg.classes)).map (·.kind) ∧ w.axles = [] ∧ w.certified = false ∧
          w.calCounter = some e.calCounter ∧ w.own = { OwnQuals.none with unverified := e.unverified } ∧
          s'.ptb.directory = s.ptb.directory ∧ s'.wrg = s.wrg ∧ s'.axt = s.axt ∧ s'.seg = s.seg ∧ s'.permitOk)) ∧
  (∀ (s : State) (n p x : Nat) (f : Option Nat),
      ((s.recordAt f p).isSome = true ↔ ∃ r ∈ s.ptb.slots, r.2.passage = f ∧ r.2.position = p) ∧
      (s.fleetHeld f x none = true ↔ ∃ r ∈ s.ptb.slots, r.2.passage = f ∧ r.2.fleet = some x) ∧
      (s.fleetHeld f x (some n) = true ↔ ∃ r ∈ s.ptb.slots, r.2.passage = f ∧ r.2.fleet = some x ∧ r.1 ≠ n))

/-- Binding: the EXPECTED record at the vehicle's position, else a new record of origin TABLE in the lowest FREE slot with
the passage's number and counter, NO_IDENTITY, and UNVERIFIED when the passage is marked (R130). It takes the vehicle's
first axle, class, kind, mismatch mark and one line for each axle; the snapshot of its fleet number's register record and
its class (R131); UNKNOWN_WAGON, NO_IDENTITY, and the verdicts HOLD and CLASS_MISMATCH, which a record of kind TRACTION
does not carry (R132). With every axle settled it completes at once, with its values, and the completion is reported; else
it is WEIGHING (R130, R135, R138). The passage's recorded count, and for TRACTION its traction count, go up by one (R147);
taking a slot evaluates PERMIT. With no record and no FREE slot the vehicle is unrecorded: the count goes up and TABLE_FULL
is taken with the position (R133). Dissolution: a record of origin EXPECTATION is EXPECTED again, keeping passage, position,
fleet number, expected class, counter and UNVERIFIED, its kind that of its expected class, and nothing else; one of origin
TABLE is freed, with an evaluation of PERMIT; the recorded count goes down, or the unrecorded one where no record stands,
and the traction count (R141). -/
def Obligations.VehiclesAreBoundToRecords : Prop :=
  (∀ (s : State) (v : Vehicle) (x : Wagon),
    let w := takeVehicle s v x
    let reg := (x.fleet.bind (tget s.wrg.records)).map (·.fields)
    let cls := v.cls.bind (tget s.seg.classes)
    w.origin = x.origin ∧ w.passage = x.passage ∧ w.position = x.position ∧ w.fleet = x.fleet ∧
    w.expectedCls = x.expectedCls ∧ w.calCounter = x.calCounter ∧ w.kind = some v.kind ∧ w.cls = v.cls ∧
    w.firstAxle = some v.first ∧ w.segMismatch = v.mismatch ∧
    w.axles = ((s.axt.train.drop v.first).take v.count).map Axle.line ∧
    w.snapshot = { cls := reg.bind (·.cls), tare := reg.bind (·.tare), maxAxle := cls.map (·.maxAxle)
                   maxGross := (reg.bind (·.maxGross)).orElse fun _ => cls.map (·.maxGross) } ∧
    w.own = { x.own with unknownWagon := if x.fleet = none then x.own.unknownWagon else reg.isNone
                         noIdentity := x.own.noIdentity || x.fleet.isNone } ∧
    (w.verdicts.hold = true ↔ v.kind = .wagon ∧ ∃ r, reg = some r ∧ hasFlag r.flags .hold = true) ∧
    (w.verdicts.classMismatch = true ↔ v.kind = .wagon ∧
      (v.mismatch = true ∨ ∃ c, reg.bind (·.cls) = some c ∧ v.cls ≠ some c))) ∧
  (∀ (s : State) (t p : Nat) (v : Vehicle),
    let s' := bindVehicle t p v s
    let settled := ∀ a ∈ (s.axt.train.drop v.first).take v.count, a.settled = true
    let counted := fun (recorded unrecorded : Nat) => s.ptb.directory.map fun e => if e.close = none then
      { e with recorded := e.recorded + recorded, unrecorded := e.unrecorded + unrecorded
               traction := if v.kind = .traction then e.traction + 1 else e.traction } else e
    let bound := fun (x w : Wagon) => w.snapshot = (takeVehicle s v x).snapshot ∧ w.own = (takeVehicle s v x).own ∧
      w.axles = (takeVehicle s v x).axles ∧ w.fleet = x.fleet ∧ w.position = x.position ∧ w.passage = x.passage ∧
      w.origin = x.origin ∧ w.kind = some v.kind ∧ w.cls = v.cls ∧ w.firstAxle = some v.first ∧
      w.verdicts.hold = (takeVehicle s v x).verdicts.hold ∧
      w.verdicts.classMismatch = (takeVehicle s v x).verdicts.classMismatch ∧
      (settled → w.state = .complete ∧ w.completion = some t ∧
        w.values = valuesOf s.cal.working.interval.toNat w.snapshot.tare w.axles ∧
        w.certified = decide (w.quals &&& disqualifying = 0)) ∧
      (¬ settled → w.state = .weighing ∧ w.values = x.values ∧ w.completion = x.completion ∧ w.certified = false)
    s'.axt = s.axt ∧ s'.seg = s.seg ∧ s'.wrg = s.wrg ∧ s'.meu = s.meu ∧
    (∀ k x, s.recordAt s.openNumber p = some (k, x) → ∃ w : Wagon, bound x w ∧ s'.ptb.slots = tput s.ptb.slots k w ∧
      s'.ptb.directory = counted 1 0 ∧
      (settled → s'.fau = (countCompletion t (if w.verdicts.hold then raiseAtt .hold s else s)).fau) ∧
      (¬ settled → s'.fau = s.fau)) ∧
    (∀ k e, s.recordAt s.openNumber p = none → s.freeSlot = some k →
      s.ptb.directory.find? (fun e => e.close.isNone) = some e → s.settings.lowWater < s.settings.highWater →
      ∃ w : Wagon, bound { Wagon.blank .table s.openNumber p with
          calCounter := some e.calCounter, own := { OwnQuals.none with unverified := e.unverified, noIdentity := true } } w ∧
        w.calCounter = some e.calCounter ∧ s'.ptb.slots = tput s.ptb.slots k w ∧ s'.ptb.directory = counted 1 0 ∧ s'.permitOk) ∧
    (s.recordAt s.openNumber p = none → s.freeSlot = none → s.condition = .ready →
      s'.ptb.slots = s.ptb.slots ∧ s'.ptb.directory = counted 0 1 ∧
      s'.fau = (takeFault ⟨.tableFull, t, s.openNumber, some .slots, some (.number p)⟩ s).fau)) ∧
  (∀ (s : State) (p : Nat) (v : Vehicle),
    let s' := dissolveVehicle p v s
    let counted := fun (recorded unrecorded : Nat) => s.ptb.directory.map fun e => if e.close = none then
      { e with recorded := e.recorded - recorded, unrecorded := e.unrecorded - unrecorded
               traction := if v.kind = .traction then e.traction - 1 else e.traction } else e
    s'.axt = s.axt ∧ s'.seg = s.seg ∧ s'.wrg = s.wrg ∧ s'.meu = s.meu ∧
    (s.recordAt s.openNumber p = none → s'.ptb.slots = s.ptb.slots ∧ s'.ptb.directory = counted 0 1) ∧
    (∀ k w, s.recordAt s.openNumber p = some (k, w) → s'.ptb.directory = counted 1 0 ∧
      (w.origin = .expectation → s'.ptb.slots = tput s.ptb.slots k { Wagon.blank .expectation w.passage w.position with
        kind := (w.expectedCls.bind (tget s.seg.classes)).map (·.kind), fleet := w.fleet, expectedCls := w.expectedCls
        calCounter := w.calCounter, own := { OwnQuals.none with unverified := w.own.unverified } }) ∧
      (w.origin = .table → s'.ptb.slots = tdel s.ptb.slots k ∧
        (s.settings.lowWater < s.settings.highWater → s'.permitOk)))) ∧
  (∀ (o : Origin) (n : Option Nat) (p : Nat), (Wagon.blank o n p).state = .expected ∧ (Wagon.blank o n p).axles = [] ∧
    (Wagon.blank o n p).values = ⟨none, none, none, none, none, none, none⟩ ∧ (Wagon.blank o n p).firstAxle = none ∧
    (Wagon.blank o n p).cls = none ∧ (Wagon.blank o n p).snapshot = ⟨none, none, none, none⟩ ∧
    (Wagon.blank o n p).segMismatch = false ∧ (Wagon.blank o n p).certified = false ∧
    (Wagon.blank o n p).completion = none ∧ (Wagon.blank o n p).applied = none)

/-- ASSIGN: BAD_VALUE out of range, NOT_FOUND, STATE for an EXPECTED or MISSING record, EXISTS when another record of
the passage holds the number; else the record takes the fleet number, loses NO_IDENTITY, gains LATE_BOUND, and takes
its snapshot (the register's class, tare and maximum gross, the last from the class where the register gives none, and
the class's maximum axle load), identity qualifiers and verdicts HOLD and CLASS_MISMATCH afresh; its axle list, gross
and rail totals stand (R131, R132, R142, R143). A COMPLETE or FINAL record takes its net, its limit verdicts and
CERTIFIED afresh, any other keeps them; a record of kind TRACTION carries no verdict (R136, R137). For a FINAL record
the totals of its CLOSED passage are adjusted (the net for a WAGON, the qualifiers for any), and its register
update is applied when it is weighed, of kind WAGON, its number is in the register and is not the last one applied
(R143, R145, R146; that only the last is tested is the model's choice, log 47). An EXPECT that names the open passage
and a position at or below V: STATE for an unrecorded vehicle, EXISTS for any record but one of origin TABLE with no
fleet number; for that one it acts as ASSIGN of the fleet number given (R128). -/
def Obligations.IdentityIsAssigned : Prop :=
  (∀ (s : State) (t : Nat) (g : Byte) (r : RecordRef) (f : Nat), s.serving →
      (fleetOk f = false ∨ refOk r = false →
        exec (.assign t g r f) s = .next ((s.taking t).replying g .pass .badValue [0, 0xFF])) ∧
      (fleetOk f = true → refOk r = true → s.refRecord r = none →
        exec (.assign t g r f) s = .next ((s.taking t).replying g .pass .notFound [])) ∧
      (∀ k w, fleetOk f = true → refOk r = true → s.refRecord r = some (k, w) →
        (w.state = .expected ∨ w.state = .missing →
          exec (.assign t g r f) s = .next ((s.taking t).replying g .pass .state [])) ∧
        (w.state ≠ .expected → w.state ≠ .missing → s.fleetHeld w.passage f (some k) = true →
          exec (.assign t g r f) s = .next ((s.taking t).replying g .pass .alreadyExists [])) ∧
        (w.state ≠ .expected → w.state ≠ .missing → s.fleetHeld w.passage f (some k) = false →
          ∃ (s' : State) (w' : Wagon), exec (.assign t g r f) s = .next s' ∧
            s'.slk.service = some ⟨g, 5, .ok, [], false⟩ ∧ tget s'.ptb.slots k = some w' ∧
            (∀ j, j ≠ k → tget s'.ptb.slots j = tget s.ptb.slots j) ∧
            w'.fleet = some f ∧ w'.own.noIdentity = false ∧ w'.own.lateBound = true ∧
            w'.own.unknownWagon = (tget s.wrg.records f).isNone ∧
            (let reg := (tget s.wrg.records f).map (·.fields)
             let cls := w.cls.bind (tget s.seg.classes)
             w'.snapshot = { cls := reg.bind (·.cls), tare := reg.bind (·.tare), maxAxle := cls.map (·.maxAxle)
                             maxGross := (reg.bind (·.maxGross)).orElse fun _ => cls.map (·.maxGross) } ∧
             w'.verdicts.hold = (decide (w.kind = some .wagon) && (reg.map fun x => hasFlag x.flags .hold).getD false) ∧
             w'.verdicts.classMismatch = (decide (w.kind = some .wagon) && (w.segMismatch ||
               ((reg.bind (·.cls)).map fun c => decide (w.cls ≠ some c)).getD false)) ∧
             (w.state ≠ .complete → w.state ≠ .final → w'.values = w.values ∧ w'.certified = w.certified ∧
               w'.verdicts = { w.verdicts with hold := w'.verdicts.hold, classMismatch := w'.verdicts.classMismatch }) ∧
             (w.state = .complete ∨ w.state = .final →
               w'.values = { w.values with net := w.values.reported.bind fun x => (reg.bind (·.tare)).map fun n : Nat => x - (n : Int) } ∧
               w'.certified = decide (w'.quals &&& disqualifying = 0) ∧
               (w.kind ≠ some .wagon → w'.verdicts = Verdicts.none) ∧
               (w.kind = some .wagon →
                 (w'.verdicts.overload = true ↔ ∃ x m, w.values.reported = some x ∧ w'.snapshot.maxGross = some m ∧ (m : Int) < x) ∧
                 (w'.verdicts.axleOverload = true ↔ ∃ m, w'.snapshot.maxAxle = some m ∧
                   ∃ a ∈ w.axles, ∃ x, a.load = some x ∧ (m : Int) < x) ∧
                 (w'.verdicts.imbalanceSide = true ↔ ∃ x, w.values.side = some x ∧ s.settings.sideLimit < x) ∧
                 (w'.verdicts.imbalanceEnd = true ↔ ∃ x, w.values.endwise = some x ∧ s.settings.endLimit < x) ∧
                 (w'.verdicts.netNegative = true ↔ ∃ x, w'.values.net = some x ∧ x < 0))) ∧
             (w.state ≠ .final → s'.wrg = s.wrg ∧ s'.ptb.directory = s.ptb.directory ∧ w'.applied = w.applied) ∧
             (w.state = .final →
               s'.ptb.directory = s.ptb.directory.map (fun e => if some e.number = w.passage ∧ e.close.isSome = true then
                 { e with totals := e.totals.map fun x => { x with
                   net := if w.kind = some .wagon then x.net + w'.values.net.getD 0 - w.values.net.getD 0 else x.net
                   quals := x.quals ||| w'.quals } } else e) ∧
               (∀ x, w.values.reported = some x → w.kind = some .wagon → reg ≠ none → w.applied ≠ some f →
                 w'.applied = some f ∧ s'.wrg = { s.wrg with
                   records := tupd s.wrg.records f (RegRec.change (passageUpdate x w.passage w'.verdicts w'.certified)) }) ∧
               (w.values.reported = none ∨ w.kind ≠ some .wagon ∨ reg = none ∨ w.applied = some f →
                 w'.applied = w.applied ∧ s'.wrg = s.wrg))) ∧
            w'.axles = w.axles ∧ w'.state = w.state ∧ w'.position = w.position ∧ w'.passage = w.passage ∧
            w'.kind = w.kind ∧ w'.cls = w.cls ∧ w'.segMismatch = w.segMismatch ∧
            w'.values.exact = w.values.exact ∧ w'.values.reported = w.values.reported ∧
            w'.values.p1 = w.values.p1 ∧ w'.values.p2 = w.values.p2 ∧ s'.axt = s.axt))) ∧
  (∀ (s : State) (t : Nat) (g : Byte) (n p x : Nat) (c : Option Nat), s.serving → s.openNumber = some n → n ≠ 0 →
      1 ≤ p → p ≤ s.seg.vehicles.length → p ≤ 640 → fleetOk x = true → optionOk codeOk c = true →
      (s.recordAt (some n) p = none →
        exec (.expect t g n p (some x) c) s = .next ((s.taking t).replying g .pass .state [])) ∧
      (∀ k w, s.recordAt (some n) p = some (k, w) → w.origin = .expectation ∨ w.fleet ≠ none →
        exec (.expect t g n p (some x) c) s = .next ((s.taking t).replying g .pass .alreadyExists [])) ∧
      (∀ k w, s.recordAt (some n) p = some (k, w) → w.origin = .table → w.fleet = none →
        exec (.expect t g n p (some x) c) s = exec (.assign t g ⟨0, n, p⟩ x) s))

/-- RETIRE_RECORD: BAD_VALUE, NOT_FOUND, STATE for a WEIGHING or COMPLETE record; else its slot is freed and the
directory stands (R149). RETIRE_PASSAGE: BAD_VALUE for 0, NOT_FOUND, STATE for the OPEN passage; else every record of
the passage is freed, its directory entry is FREE, and the reply carries the number of records freed (R150). -/
def Obligations.RecordsAndPassagesAreRetired : Prop :=
  (∀ (s : State) (t : Nat) (g : Byte) (r : RecordRef), s.serving →
      (refOk r = false → exec (.retireRecord t g r) s = .next ((s.taking t).replying g .pass .badValue [0, 0xFF])) ∧
      (refOk r = true → s.refRecord r = none →
        exec (.retireRecord t g r) s = .next ((s.taking t).replying g .pass .notFound [])) ∧
      (∀ k w, refOk r = true → s.refRecord r = some (k, w) →
        (w.state = .weighing ∨ w.state = .complete →
          exec (.retireRecord t g r) s = .next ((s.taking t).replying g .pass .state [])) ∧
        (w.state = .final ∨ w.state = .missing ∨ w.state = .expected →
          ∃ s' : State, exec (.retireRecord t g r) s = .next s' ∧ s'.slk.service = some ⟨g, 5, .ok, [], false⟩ ∧
            s'.ptb.slots = tdel s.ptb.slots k ∧ s'.ptb.directory = s.ptb.directory ∧ s'.wrg = s.wrg ∧ s'.axt = s.axt))) ∧
  (∀ (s : State) (t : Nat) (g : Byte) (n : Nat), s.serving →
      (n = 0 → exec (.retirePassage t g n) s = .next ((s.taking t).replying g .pass .badValue [0, 0xFF])) ∧
      (n ≠ 0 → (∀ e ∈ s.ptb.directory, e.number ≠ n) →
        exec (.retirePassage t g n) s = .next ((s.taking t).replying g .pass .notFound [])) ∧
      (∀ e, n ≠ 0 → s.ptb.directory.find? (fun e => decide (e.number = n)) = some e →
        (e.close = none → exec (.retirePassage t g n) s = .next ((s.taking t).replying g .pass .state [])) ∧
        (e.close ≠ none → ∃ s' : State, exec (.retirePassage t g n) s = .next s' ∧
          s'.slk.service = some ⟨g, 5, .ok, be 2 (recordCount n s), false⟩ ∧
          (∀ r, r ∈ s'.ptb.slots ↔ r ∈ s.ptb.slots ∧ r.2.passage ≠ some n) ∧
          (∀ d, d ∈ s'.ptb.directory ↔ d ∈ s.ptb.directory ∧ d.number ≠ n) ∧ s'.wrg = s.wrg ∧ s'.axt = s.axt)))

/-- RECORD_READ, PASSAGE_READ and PASSAGE_LIST change nothing; the bodies have the lengths of R205 and R206 (R151).
That PASSAGE_LIST is preceded by a count of one byte, and so its length, is the model's choice (log 25). -/
def Obligations.PassagesAreRead : Prop :=
  ∀ (s : State) (t : Nat) (g : Byte), s.serving →
    (∀ n, (∀ e ∈ s.ptb.directory, e.number ≠ n) →
      exec (.passageRead t g n) s = .next ((s.taking t).replying g .pass .notFound [])) ∧
    (∀ n e, s.ptb.directory.find? (fun e => decide (e.number = n)) = some e →
      exec (.passageRead t g n) s = .next ((s.taking t).replying g .pass .ok (dirBody e)) ∧ (dirBody e).length = 46) ∧
    exec (.passageList t g) s = .next ((s.taking t).replying g .pass .ok (passageListData s)) ∧
    (passageListData s).length = 5 + 5 * s.ptb.directory.length ∧
    (∀ r, refOk r = false → exec (.recordRead t g r) s = .next ((s.taking t).replying g .pass .badValue [0, 0xFF])) ∧
    (∀ r, refOk r = true → s.refRecord r = none →
      exec (.recordRead t g r) s = .next ((s.taking t).replying g .pass .notFound [])) ∧
    (∀ r k w, refOk r = true → s.refRecord r = some (k, w) →
      exec (.recordRead t g r) s = .next ((s.taking t).replying g .pass .ok (wagonBody k w)) ∧
      (wagonBody k w).length = 80 + 18 * w.axles.length)

/-- The values of a record: the exact gross is the sum of the axle loads, absent when an axle has no load or carries
OVERCAP; the reported gross is the nearest multiple of e, halves away from zero; the net is the reported gross less the
tare (R135). A wagon may carry CERTIFIED only when COMPLETE or FINAL and with none of the twelve disqualifying
qualifiers (R136). A notice of an axle fills its line of the record's list. When it leaves no axle of a WEIGHING record
unsettled the record completes: COMPLETE with the time, its values and limit verdicts from the list, CERTIFIED decided,
and the completion reported to the trigger, with HOLD raised for a record that carries it; else it waits (R134, R135,
R138). A COMPLETE record whose axle is unsettled reopens, WEIGHING without values, limit verdicts, CERTIFIED and
completion time (R139); one whose settled axle changed takes its values afresh and keeps its completion time (R140). -/
def Obligations.ValuesAndCertificationFollowTheAxleList : Prop :=
  (∀ (e : Nat) (tare : Option Nat) (l : List AxleLine), 0 < e →
      ((∃ a ∈ l, a.load = none ∨ hasQual a.quals .overcap = true) → valuesOf e tare l = Values.none) ∧
      ((∀ a ∈ l, a.load ≠ none ∧ hasQual a.quals .overcap = false) →
        ∃ x y : Int, (valuesOf e tare l).exact = some x ∧ x = sumInt (l.map fun a => a.load.getD 0) ∧
          (valuesOf e tare l).reported = some y ∧ y % e = 0 ∧ 2 * (x - y).natAbs ≤ e ∧
          (2 * (x - y).natAbs = e → x.natAbs < y.natAbs) ∧
          (valuesOf e tare l).net = tare.map fun n : Nat => y - (n : Int))) ∧
  (∀ w : Wagon, w.certify.certified = true ↔ (w.state = .complete ∨ w.state = .final) ∧
      ∀ q : Qual, q ∈ [Qual.single, .disagree, .shared, .outOfBand, .uneven, .interpolated, .suspect, .overcap, .notWeighed,
        .unclassified, .incomplete, .unverified] → hasQual w.quals q = false) ∧
  (∀ (s : State) (t i k : Nat) (a : Axle) (w : Wagon),
      let x : Wagon := { w with axles := updateAt (fun _ => a.line) (i - w.firstAxle.getD 0) w.axles }
      let v := valuesOf s.cal.working.interval.toNat w.snapshot.tare x.axles
      let y : Wagon := { x with
        values := v
        certified := decide (x.quals &&& disqualifying = 0)
        verdicts := if w.kind = some .wagon then { w.verdicts with
            overload := aboveOpt v.reported w.snapshot.maxGross
            axleOverload := x.axles.any fun l => aboveOpt l.load w.snapshot.maxAxle
            imbalanceSide := overLimit v.side s.settings.sideLimit
            imbalanceEnd := overLimit v.endwise s.settings.endLimit
            netNegative := negative v.net } else Verdicts.none }
      (w.state = .weighing → (∀ b ∈ s.axlesOfRecord w, b.settled = true) →
        let u := s.setPtb { s.ptb with slots := tput s.ptb.slots k { y with state := .complete, completion := some t } }
        noticeRecord t i a k w s = countCompletion t (if y.verdicts.hold then raiseAtt .hold u else u)) ∧
      (w.state = .weighing → (∃ b ∈ s.axlesOfRecord w, b.settled = false) →
        noticeRecord t i a k w s = s.setPtb { s.ptb with slots := tput s.ptb.slots k x }) ∧
      (w.state = .complete → a.settled = false →
        noticeRecord t i a k w s = s.setPtb { s.ptb with slots := tput s.ptb.slots k { x with
          state := .weighing, values := Values.none, certified := false, completion := none
          verdicts := { Verdicts.none with hold := w.verdicts.hold, classMismatch := w.verdicts.classMismatch } } }) ∧
      (w.state = .complete → a.settled = true →
        noticeRecord t i a k w s = s.setPtb { s.ptb with slots := tput s.ptb.slots k y }) ∧
      (w.state ≠ .weighing → w.state ≠ .complete → noticeRecord t i a k w s = s))

/-! ### The wagon register -/

/-- REG_ADD: BAD_VALUE with the failing field, EXISTS, the reclaimed place, FULL, or the lowest free place; the new
record is dirty, not marked, with weigh count 0 and no last gross or passage, and the reply carries the place (R156).
The place a new record takes is the lowest that neither a record nor an entry of the retirement list holds (R154, R156).
REG_CHANGE: BAD_VALUE, NOT_FOUND, BAD_VALUE with the first failing field; else every field named takes its value,
the others stand, the dirty mark is set and the commit mark cleared (R158). -/
def Obligations.RegisterRecordIsAddedAndChanged : Prop :=
  (∀ (s : State) (t : Nat) (g : Byte) (f : Nat) (c ta w : Option Nat) (m : Byte), s.serving →
      (∀ k, addFailing f c ta w m = some k →
        exec (.regAdd t g f c ta w m) s = .next ((s.taking t).replying g .reg .badValue [byteOf k, 0xFF])) ∧
      (addFailing f c ta w m = none → tget s.wrg.records f ≠ none →
        exec (.regAdd t g f c ta w m) s = .next ((s.taking t).replying g .reg .alreadyExists [])) ∧
      (addFailing f c ta w m = none → tget s.wrg.records f = none → retiredPlace s.wrg f = none →
        4096 ≤ s.wrg.records.length ∨ freePlace s.wrg = none →
        exec (.regAdd t g f c ta w m) s = .next ((s.taking t).replying g .reg .full [])) ∧
      (∀ k, addFailing f c ta w m = none → tget s.wrg.records f = none →
        retiredPlace s.wrg f = some k ∨ (retiredPlace s.wrg f = none ∧ s.wrg.records.length < 4096 ∧ freePlace s.wrg = some k) →
        exec (.regAdd t g f c ta w m) s = .next (((s.taking t).setWrg
          { records := tput s.wrg.records f ⟨⟨f, c, ta, w, m, none, none, 0⟩, k, true, false⟩
            retired := tdel s.wrg.retired k }).replying g .reg .ok (be 2 k)))) ∧
  (∀ (w : Wrg) (k : Nat), freePlace w = some k ↔
      k < 4096 ∧ (∀ r ∈ w.records, r.2.place ≠ k) ∧ tget w.retired k = none ∧
        ∀ j, j < k → (∃ r ∈ w.records, r.2.place = j) ∨ tget w.retired j ≠ none) ∧
  (∀ (s : State) (t : Nat) (g : Byte) (f : Nat) (m : Byte) (v : RegValues), s.serving →
      (fleetOk f = false ∨ m = 0 ∨ m.getLsbD 0 = true →
        exec (.regChange t g f m v) s = .next ((s.taking t).replying g .reg .badValue [0, 0xFF])) ∧
      (fleetOk f = true → m ≠ 0 → m.getLsbD 0 = false →
        (tget s.wrg.records f = none →
          exec (.regChange t g f m v) s = .next ((s.taking t).replying g .reg .notFound [])) ∧
        (∀ r, tget s.wrg.records f = some r →
          (∀ k, failingField m v = some k →
            exec (.regChange t g f m v) s = .next ((s.taking t).replying g .reg .badValue [byteOf k, 0xFF])) ∧
          (failingField m v = none →
            exec (.regChange t g f m v) s = .next (((s.taking t).setWrg { s.wrg with
              records := tput s.wrg.records f { r with dirty := true, commit := false, fields := {
                fleet := r.fields.fleet
                cls := if m.getLsbD 1 then v.cls else r.fields.cls
                tare := if m.getLsbD 2 then v.tare else r.fields.tare
                maxGross := if m.getLsbD 3 then v.maxGross else r.fields.maxGross
                flags := if m.getLsbD 4 then v.flags.getD r.fields.flags else r.fields.flags
                lastGross := if m.getLsbD 5 then v.lastGross else r.fields.lastGross
                lastPassage := if m.getLsbD 6 then v.lastPassage else r.fields.lastPassage
                weighCount := if m.getLsbD 7 then v.weighCount.getD r.fields.weighCount else r.fields.weighCount } } }).replying
              g .reg .ok [])))))

/-- REG_FLAGS with AND, OR and XOR: an OR or XOR mask that names position eight is refused, an AND mask is not; an
accepted request answers the old and the new flags; the marks change only when the flags do (R155, R159). -/
def Obligations.RegisterFlagsAreChanged : Prop :=
  ∀ (s : State) (t : Nat) (g : Byte) (f : Nat) (m : Byte), s.serving →
    (fleetOk f = false → exec (.regFlagsAnd t g f m) s = .next ((s.taking t).replying g .reg .badValue [0, 0xFF])) ∧
    (fleetOk f = false ∨ m.getLsbD 7 = true →
      exec (.regFlagsOr t g f m) s = .next ((s.taking t).replying g .reg .badValue [0, 0xFF]) ∧
      exec (.regFlagsXor t g f m) s = .next ((s.taking t).replying g .reg .badValue [0, 0xFF])) ∧
    (fleetOk f = true → tget s.wrg.records f = none →
      exec (.regFlagsAnd t g f m) s = .next ((s.taking t).replying g .reg .notFound []) ∧
      (m.getLsbD 7 = false → exec (.regFlagsOr t g f m) s = .next ((s.taking t).replying g .reg .notFound []) ∧
        exec (.regFlagsXor t g f m) s = .next ((s.taking t).replying g .reg .notFound []))) ∧
    (∀ r, fleetOk f = true → tget s.wrg.records f = some r →
      let after := fun new : Byte => Host.Outcome.next (φ := Fault) (ρ := Refusal) (((s.taking t).setWrg { s.wrg with
        records := tput s.wrg.records f (if new = r.fields.flags then r
          else { r with fields := { r.fields with flags := new }, dirty := true, commit := false }) }).replying
            g .reg .ok [r.fields.flags, new])
      exec (.regFlagsAnd t g f m) s = after (r.fields.flags &&& m) ∧
      (m.getLsbD 7 = false → exec (.regFlagsOr t g f m) s = after (r.fields.flags ||| m) ∧
        exec (.regFlagsXor t g f m) s = after (r.fields.flags ^^^ m)))

/-- REG_RETIRE: BAD_VALUE, NOT_FOUND; else the record leaves the register and an entry of its place and fleet number,
its commit mark clear, joins the retirement list (R160). REG_READ, REG_NEXT and REG_COUNT change nothing; REG_NEXT
answers the record of the smallest fleet number above the one named, or NOT_FOUND; a record body is 29 bytes (R157,
R161, R206). -/
def Obligations.RegisterIsReadAndRetired : Prop :=
  (∀ (s : State) (t : Nat) (g : Byte) (f : Nat), s.serving →
      (fleetOk f = false → exec (.regRetire t g f) s = .next ((s.taking t).replying g .reg .badValue [0, 0xFF])) ∧
      (fleetOk f = true → tget s.wrg.records f = none →
        exec (.regRetire t g f) s = .next ((s.taking t).replying g .reg .notFound [])) ∧
      (∀ r, fleetOk f = true → tget s.wrg.records f = some r →
        exec (.regRetire t g f) s = .next (((s.taking t).setWrg
          { records := tdel s.wrg.records f, retired := tput s.wrg.retired r.place ⟨f, false⟩ }).replying g .reg .ok []))) ∧
  (∀ (s : State) (t : Nat) (g : Byte) (f : Nat), s.serving → Table.wf s.wrg.records = true →
      (fleetOk f = false → exec (.regRead t g f) s = .next ((s.taking t).replying g .reg .badValue [0, 0xFF])) ∧
      (fleetOk f = true → tget s.wrg.records f = none →
        exec (.regRead t g f) s = .next ((s.taking t).replying g .reg .notFound [])) ∧
      (∀ r, fleetOk f = true → tget s.wrg.records f = some r →
        exec (.regRead t g f) s = .next ((s.taking t).replying g .reg .ok (regBody r)) ∧ (regBody r).length = 29) ∧
      (999999999999 < f → exec (.regNext t g f) s = .next ((s.taking t).replying g .reg .badValue [0, 0xFF])) ∧
      (f ≤ 999999999999 → (∀ q ∈ s.wrg.records, q.1 ≤ f) →
        exec (.regNext t g f) s = .next ((s.taking t).replying g .reg .notFound [])) ∧
      (∀ k r, f ≤ 999999999999 → (k, r) ∈ s.wrg.records → f < k → (∀ q ∈ s.wrg.records, f < q.1 → k ≤ q.1) →
        exec (.regNext t g f) s = .next ((s.taking t).replying g .reg .ok (regBody r))) ∧
      exec (.regCount t g) s = .next ((s.taking t).replying g .reg .ok (regCountData s)) ∧ (regCountData s).length = 13)

/-- A passage update: weigh count up by one to 65,535, last gross, also where it lies below the range of R154 (the
model's choice, log 34), last passage, OVERLOAD_SEEN with OVERLOAD or
AXLE_OVERLOAD, and tare learning from a CERTIFIED gross of 0 to 200,000 kg, which clears LEARN_TARE (R163, R164).
Finalisation at the close: of each record of the passage a COMPLETE becomes FINAL with its values, a WEIGHING FINAL and
INCOMPLETE without values, an EXPECTED MISSING, CERTIFIED decided again; every other record stands (R144). A FINAL
record that is weighed, of kind WAGON and in the register is handed to the WRG: its applied number becomes its fleet
number and the register record takes the passage update, the other register records standing (R145, R163). The open
entry takes the close time and cause and the totals: gross over the weighed WAGON records and unrecorded WAGON
vehicles, net over the WAGON records, and the union of the qualifiers of the FINAL records (R146). -/
def Obligations.PassageUpdatesTheRegister : Prop :=
  (∀ (gross : Int) (n : Option Nat) (v : Verdicts) (cert : Bool) (r : RegFields),
    let r' := passageUpdate gross n v cert r
    let learns := hasFlag r.flags .learnTare = true ∧ cert = true ∧ 0 ≤ gross ∧ gross ≤ 200000
    r'.weighCount = (if r.weighCount < 65535 then r.weighCount + 1 else r.weighCount) ∧
    r'.lastGross = some gross ∧ r'.lastPassage = n ∧ r'.fleet = r.fleet ∧ r'.cls = r.cls ∧ r'.maxGross = r.maxGross ∧
    (hasFlag r'.flags .overloadSeen = (hasFlag r.flags .overloadSeen || v.overload || v.axleOverload)) ∧
    (learns → (r'.tare.map Int.ofNat) = some gross ∧ hasFlag r'.flags .learnTare = false) ∧
    (¬ learns → r'.tare = r.tare ∧ hasFlag r'.flags .learnTare = hasFlag r.flags .learnTare) ∧
    (∀ x : RegFlag, x ≠ .learnTare → x ≠ .overloadSeen → hasFlag r'.flags x = hasFlag r.flags x)) ∧
  (∀ w : Wagon,
    (w.state = .complete → finalise w = { w with state := .final, certified := decide (w.quals &&& disqualifying = 0) }) ∧
    (w.state = .weighing → finalise w = { w with
      state := .final, values := Values.none, certified := false, completion := none
      own := { w.own with incomplete := true }
      verdicts := { Verdicts.none with hold := w.verdicts.hold, classMismatch := w.verdicts.classMismatch } }) ∧
    (w.state = .expected → finalise w = { w with state := .missing }) ∧
    (w.state = .final ∨ w.state = .missing → finalise w = w)) ∧
  (∀ (t : Nat) (cause : CloseCause) (s : State), Table.wf s.ptb.slots = true →
    let s' := finalisePassage t cause s
    let handed := fun w : Wagon => w.passage = s.openNumber ∧ (finalise w).state = .final ∧ (finalise w).values.reported ≠ none ∧
      w.kind = some .wagon ∧ ∃ f, w.fleet = some f ∧ tget s.wrg.records f ≠ none
    let wagons := (s'.ptb.slots.map (·.2)).filter fun w =>
      decide (w.passage = s.openNumber ∧ w.state = .final ∧ w.kind = some .wagon)
    (∀ k w, tget s.ptb.slots k = some w →
      (w.passage ≠ s.openNumber → tget s'.ptb.slots k = some w) ∧
      (handed w → tget s'.ptb.slots k = some { finalise w with applied := w.fleet }) ∧
      (w.passage = s.openNumber → ¬ handed w → tget s'.ptb.slots k = some (finalise w))) ∧
    (∀ k, tget s.ptb.slots k = none → tget s'.ptb.slots k = none) ∧
    (∀ f, (∀ k w, tget s.ptb.slots k = some w → handed w → w.fleet ≠ some f) → tget s'.wrg.records f = tget s.wrg.records f) ∧
    (∀ k w f, tget s.ptb.slots k = some w → handed w → w.fleet = some f →
      (∀ j v, tget s.ptb.slots j = some v → handed v → v.fleet = some f → j = k) →
      tget s'.wrg.records f = (tget s.wrg.records f).map (RegRec.change (passageUpdate ((finalise w).values.reported.getD 0)
        w.passage (finalise w).verdicts (finalise w).certified))) ∧
    ∃ x : Totals, s'.ptb.directory = s.ptb.directory.map (fun e => if e.close = none then
        { e with close := some (t, cause), totals := some x } else e) ∧
      x.gross = (wagons.map fun w => w.values.reported.getD 0).sum +
        ((unrecordedWagons s').map fun v => (unrecordedGross s v).getD 0).sum ∧
      x.net = (wagons.map fun w => w.values.net.getD 0).sum ∧
      (∀ q : Qual, hasQual x.quals q = true ↔ ∃ r ∈ s'.ptb.slots, r.2.passage = s.openNumber ∧ r.2.state = .final ∧
        hasQual r.2.quals q = true))

/-! ### The store -/

/-- REG_COMMIT: BUSY while the STC is busy, STORE_FAULT while the store state is FAILED, else STARTED: every dirty
record and every entry of the retirement list is marked, and the reservation write is in hand for 10 ms with the items
of the commit (R166, R167, R169). The items: the class table when it is dirty, first; then, in ascending place, one write
of each dirty record's content to its place and one erasure of each listed place, and no other (R167). -/
def Obligations.RegisterCommitStarts : Prop :=
  (∀ (s : State) (t : Nat) (g : Byte), s.serving →
    (s.stc.busy ≠ none → exec (.regCommit t g) s = .next ((s.taking t).replying g .reg .busy [])) ∧
    (s.stc.busy = none → s.stc.health = .failed →
      exec (.regCommit t g) s = .next ((s.taking t).replying g .reg .storeFault [])) ∧
    (s.stc.busy = none → s.stc.health = .ok → ∃ s' : State, exec (.regCommit t g) s = .next s' ∧
      s'.slk.service = some ⟨g, 6, .started, [], false⟩ ∧
      s'.stc = { s.stc with busy := some ⟨.registerCommit, .reservation, (s.taking t).timebase + 200,
        some (s.stc.cell.other, ⟨numberAfter s.ptb.lastNumber 1000, (s.stc.sequence + 1) % 65536⟩), commitItems s, false⟩ } ∧
      (∀ f, tget s'.wrg.records f = (tget s.wrg.records f).map fun r => { r with commit := r.commit || r.dirty }) ∧
      (∀ k, tget s'.wrg.retired k = (tget s.wrg.retired k).map fun r => { r with commit := true }) ∧
      s'.seg = { s.seg with commit := s.seg.dirty } ∧ s'.store = s.store ∧ s'.ptb = s.ptb ∧ s'.axt = s.axt)) ∧
  (∀ s : State, Table.wf s.wrg.records = true → Table.wf s.wrg.retired = true → s.wrg.placesOk →
    commitItems s = (if s.seg.dirty then [.classArea s.seg.classes] else []) ++ (placeItems s.wrg).map (·.2) ∧
    Table.wf (placeItems s.wrg) = true ∧
    (∀ (k : Nat) (i : Item), tget (placeItems s.wrg) k = some i ↔
      (∃ r ∈ s.wrg.records, r.2.dirty = true ∧ r.2.place = k ∧ i = .write k r.2.fields) ∨
      (tget s.wrg.retired k ≠ none ∧ i = .erase k)))

/-- RESERVATION_WRITE_END, verified: the cell holds the reservation and becomes the cell in use; the operation goes on
to its first item (3 ms), its image (40 ms), or its closing write of the last passage number (10 ms) (R167, R169, R88).
A reservation write that fails its verify raises STORE_FAULT with the operation and the write, and the operation goes on
all the same, to the same item, image or closing write at the same time, its outcome not decided by it (R169). That the
cell in use and its sequence number then stand, so that the closing write is of the same cell, is the model's choice (log 50). -/
def Obligations.ReservationWriteEnds : Prop :=
  (∀ (s : State) (b : Busy) (c : CellId) (v : Cell), s.powered = true → s.stc.busy = some b → b.phase = .reservation →
      b.write = some (c, v) → b.op ≠ .load →
      ∃ s' : State, exec (.reservationWriteEnd true) s = .next s' ∧ s'.store = s.store.setCell c (some v) ∧
        s'.stc.cell = c ∧ s'.stc.sequence = v.sequence ∧ s'.ptb = s.ptb ∧ s'.wrg = s.wrg ∧ s'.cal = s.cal ∧ s'.fau = s.fau ∧
        (b.op = .registerCommit → b.items ≠ [] →
          s'.stc.busy = some { b with phase := .body, due := b.due + 60, write := none }) ∧
        (b.op = .calibrationCommit → s'.stc.busy = some { b with phase := .body, due := b.due + 800, write := none }) ∧
        (b.op = .passageNumber ∨ (b.op = .registerCommit ∧ b.items = []) →
          s'.stc.busy = some (b.closing b.failed c v.sequence s.ptb.lastNumber))) ∧
  (∀ (s : State) (b : Busy) (c : CellId) (v : Cell), s.powered = true → s.condition ≠ .starting → s.stc.busy = some b →
      b.phase = .reservation → b.write = some (c, v) → b.op ≠ .load →
      ∃ s' : State, exec (.reservationWriteEnd false) s = .next s' ∧
        (b.op = .registerCommit → b.items ≠ [] →
          s'.stc.busy = some { b with phase := .body, due := b.due + 60, write := none }) ∧
        (b.op = .calibrationCommit → s'.stc.busy = some { b with phase := .body, due := b.due + 800, write := none }) ∧
        (b.op = .passageNumber ∨ (b.op = .registerCommit ∧ b.items = []) →
          s'.stc.busy = some (b.closing b.failed s.stc.cell s.stc.sequence s.ptb.lastNumber)) ∧
        s'.stc = { s.stc with busy := s'.stc.busy } ∧ s'.ptb = s.ptb ∧ s'.wrg = s.wrg ∧ s'.cal = s.cal ∧
        s'.store.cell c.other = s.store.cell c.other ∧ s'.store.places = s.store.places ∧
        s'.store.classes = s.store.classes ∧ s'.store.image = s.store.image ∧ s'.store.shadow = s.store.shadow ∧
        s'.fau = (takeFault ⟨.storeFault, (s.advance b.due).timebase, s.openNumber, none,
          some (.store b.op (some .reservation))⟩ s).fau)

/-- REGISTER_COMMIT_ITEM: a verified write puts the copied content at its place, a verified erasure empties it, and
nothing else of the store changes; an item that fails its verify is the last: the closing write begins (R167, R168).
REGISTER_COMMIT_END: success clears the dirty and commit marks of the records still marked, drops the marked entries of
the retirement list, and clears the class table's dirty mark when the table is still the one committed; failure clears
every commit mark and leaves every dirty mark and list entry. The outcome is recorded and STORE raised (R168, R165). -/
def Obligations.RegisterCommitIsWrittenAndEnds : Prop :=
  (∀ (s : State) (b : Busy) (i : Item) (l : List Item), s.powered = true → s.stc.busy = some b → b.phase = .body →
      b.op = .registerCommit → b.items = i :: l →
      (∃ s' : State, exec (.registerCommitItem true) s = .next s' ∧ s'.wrg = s.wrg ∧ s'.seg = s.seg ∧ s'.ptb = s.ptb ∧
        (∀ k f, i = .write k f → s'.store = { s.store with places := tput s.store.places k (.sound f) }) ∧
        (∀ k, i = .erase k → s'.store = { s.store with places := tdel s.store.places k }) ∧
        (∀ t, i = .classArea t → Table.wf s.store.classes = true →
          ∀ c, 1 ≤ c → c ≤ 24 → tget s'.store.classes c = (tget t c).map .sound) ∧
        (l ≠ [] → s'.stc.busy = some { b with due := b.due + 60, items := l, write := none }) ∧
        (l = [] → s'.stc.busy = some (b.closing b.failed s.stc.cell s.stc.sequence s.ptb.lastNumber))) ∧
      (∃ s' : State, exec (.registerCommitItem false) s = .next s' ∧ s'.wrg = s.wrg ∧ s'.seg = s.seg ∧ s'.ptb = s.ptb ∧
        s'.stc.busy = some (b.closing true s.stc.cell s.stc.sequence s.ptb.lastNumber))) ∧
  (∀ (s : State) (b : Busy) (ok : Bool), s.powered = true → s.stc.busy = some b → b.phase = .closing →
      b.op = .registerCommit → Table.wf s.wrg.retired = true →
      ∃ s' : State, exec (.registerCommitEnd ok) s = .next s' ∧ s'.fau.attention.getLsbD 5 = true ∧
        s'.stc.last = some (if b.failed then .failed else .succeeded, .registerCommit) ∧
        (b.failed = false →
          (∀ f, tget s'.wrg.records f = (tget s.wrg.records f).map fun r =>
            { r with dirty := r.dirty && !r.commit, commit := false }) ∧
          (∀ k, tget s'.wrg.retired k = (tget s.wrg.retired k).bind fun r => if r.commit then none else some r) ∧
          s'.seg.dirty = (s.seg.dirty && !s.seg.commit) ∧ s'.stc.failures = 0 ∧ s'.stc.health = .ok) ∧
        (b.failed = true →
          (∀ f, tget s'.wrg.records f = (tget s.wrg.records f).map fun r => { r with commit := false }) ∧
          (∀ k, tget s'.wrg.retired k = (tget s.wrg.retired k).map fun r => { r with commit := false }) ∧
          s'.seg.dirty = s.seg.dirty ∧
          s'.stc.failures = (if s.stc.failures < 3 then s.stc.failures + 1 else s.stc.failures)) ∧
        s'.seg.classes = s.seg.classes ∧ s'.ptb = s.ptb ∧ s'.cal = s.cal)

/-- PASSAGE_NUMBER_END, verified with no write waiting: the cell holds the last number and is the cell in use, the STC
is IDLE with outcome SUCCEEDED, no failure, store state OK, and STORE raised; not verified: IDLE with outcome FAILED, one
failure more, FAILED at the third, and STORE raised, the other cell and the rest of the store standing. With a write
waiting the next passage-number operation starts at once, in either case (R165, R169). That after a failed write the cell in
use and its sequence number stand, so that the next write is of the same cell with the same sequence number, is the model's
choice (log 50). A closing write that fails its verify reports STORE_FAULT for itself and, of a passage number, for the
operation (log 17): an empty capture, the kind unmasked, holds the one or the other. For every operation, which is first of
the write's occurrence and those of the operation's end is the model's free value, and shows in the capture alone (log 54). -/
def Obligations.PassageNumberIsWritten : Prop :=
  (∀ (s : State) (b : Busy) (c : CellId) (v : Cell), s.powered = true → s.stc.busy = some b → b.phase = .closing →
    b.op = .passageNumber → b.write = some (c, v) →
    (∃ s' : State, exec (.passageNumberEnd true) s = .next s' ∧ s'.store = s.store.setCell c (some v) ∧ s'.stc.cell = c ∧
      s'.stc.sequence = v.sequence ∧ s'.stc.last = some (.succeeded, .passageNumber) ∧ s'.stc.failures = 0 ∧
      s'.stc.health = .ok ∧ s'.stc.waiting = false ∧ s'.fau.attention.getLsbD 5 = true ∧ s'.ptb = s.ptb ∧
      (s.stc.waiting = false → s'.stc.busy = none) ∧
      (s.stc.waiting = true → s'.stc.busy = some ⟨.passageNumber, .reservation, b.due + 200,
        some (c.other, ⟨numberAfter s.ptb.lastNumber 1000, (v.sequence + 1) % 65536⟩), [], false⟩)) ∧
    (∃ s' : State, exec (.passageNumberEnd false) s = .next s' ∧ s'.stc.last = some (.failed, .passageNumber) ∧
      s'.stc.cell = s.stc.cell ∧ s'.stc.sequence = s.stc.sequence ∧
      s'.stc.failures = (if s.stc.failures < 3 then s.stc.failures + 1 else s.stc.failures) ∧
      (2 ≤ s.stc.failures → s.stc.failures ≤ 3 → s'.stc.health = .failed) ∧
      (s.stc.failures < 2 → s'.stc.health = s.stc.health) ∧
      s'.stc.waiting = false ∧ s'.fau.attention.getLsbD 5 = true ∧ s'.ptb = s.ptb ∧
      (s.stc.waiting = false → s'.stc.busy = none) ∧
      (s.stc.waiting = true → s'.stc.busy = some ⟨.passageNumber, .reservation, b.due + 200,
        some (s.stc.cell.other, ⟨numberAfter s.ptb.lastNumber 1000, (s.stc.sequence + 1) % 65536⟩), [], false⟩) ∧
      s'.store.cell c.other = s.store.cell c.other ∧ s'.store.places = s.store.places ∧
      s'.store.classes = s.store.classes ∧ s'.store.image = s.store.image ∧ s'.store.shadow = s.store.shadow ∧
      (s.condition ≠ .starting → s.fau.capture = none → isMasked s.settings.faultMask .storeFault = false →
        let fault := fun w => FaultOcc.mk .storeFault (s.advance b.due).timebase s.openNumber none (some (.store .passageNumber w))
        s'.fau.capture = some (fault (some .closing)) ∨ s'.fau.capture = some (fault none)))) ∧
  (∀ (b : Busy) (ok : Bool) (finish : State → State) (s : State),
    let writeFirst := finish (endCellWrite b ok s)
    ∃ k, endClosing b ok finish s = writeFirst.setFau { writeFirst.fau with capture := k } ∧
      (k = writeFirst.fau.capture ∨ (ok = false ∧ k = (reportCellWrite b false (finish (leaveCell b false s))).fau.capture)))

/-! ### The service link -/

/-- BYTE_RECEIVED in HUNT, after any gap: 0x5A goes to LENGTH, any other byte or a framing error is discarded and
counted; in LENGTH: 3 to 243 begins BODY, any other value drops the partial frame; a framing error in LENGTH or BODY
drops it; a byte of BODY while more are expected is kept (R192). A byte in LENGTH or BODY more than 80 ticks after the
one before it finds the partial frame dropped and counted for the gap, and is taken in HUNT (R192; log 28). GAP_TIMEOUT: a
gap that runs out in LENGTH or BODY, 80 ticks after the last byte, drops the partial frame and counts; in HUNT the gap is
not timed (R192). LINK_BREAK empties the queue without counting, returns the receiver to HUNT and counts the break; the
request in service and every other block are unchanged (R194). -/
def Obligations.BytesReachTheReceiver : Prop :=
  (∀ (s : State) (t : Nat) (b : Byte), s.powered = true →
      let x : Slk := { s.slk with lastByte := (s.advance t).timebase }
      let y : Slk := { x with receiver := .hunt, stats := { x.stats with gap := satSucc 65535 x.stats.gap } }
      (s.slk.receiver = .hunt → exec (.byteReceived t 0x5A false) s =
        .next ((s.advance t).setSlk { x with receiver := .length })) ∧
      (s.slk.receiver = .hunt → exec (.byteReceived t b true) s =
        .next ((s.advance t).setSlk { x with stats := { x.stats with hunt := satSucc 65535 x.stats.hunt } })) ∧
      (s.slk.receiver = .hunt → b ≠ 0x5A → exec (.byteReceived t b false) s =
        .next ((s.advance t).setSlk { x with stats := { x.stats with hunt := satSucc 65535 x.stats.hunt } })) ∧
      ((s.advance t).timebase ≤ s.slk.lastByte + 80 →
        (s.slk.receiver = .length → 3 ≤ b.toNat → b.toNat ≤ 243 → exec (.byteReceived t b false) s =
          .next ((s.advance t).setSlk { x with receiver := .body b.toNat [] })) ∧
        (s.slk.receiver = .length → b.toNat < 3 ∨ 243 < b.toNat → exec (.byteReceived t b false) s =
          .next ((s.advance t).setSlk { x with
            receiver := .hunt, stats := { x.stats with length := satSucc 65535 x.stats.length } })) ∧
        (s.slk.receiver ≠ .hunt → exec (.byteReceived t b true) s =
          .next ((s.advance t).setSlk { x with
            receiver := .hunt, stats := { x.stats with framing := satSucc 65535 x.stats.framing } })) ∧
        (∀ n l, s.slk.receiver = .body n l → l.length + 1 < n + 2 → exec (.byteReceived t b false) s =
          .next ((s.advance t).setSlk { x with receiver := .body n (l ++ [b]) }))) ∧
      (s.slk.lastByte + 80 < (s.advance t).timebase → s.slk.receiver ≠ .hunt →
        exec (.byteReceived t 0x5A false) s = .next ((s.advance t).setSlk { y with receiver := .length }) ∧
        (∀ e, b ≠ 0x5A ∨ e = true → exec (.byteReceived t b e) s =
          .next ((s.advance t).setSlk { y with stats := { y.stats with hunt := satSucc 65535 y.stats.hunt } })))) ∧
  (∀ s : State, s.powered = true →
      (s.slk.receiver = .hunt → exec .gapTimeout s = .next s) ∧
      (s.slk.receiver ≠ .hunt → exec .gapTimeout s = .next ((s.advance (s.slk.lastByte + 80)).setSlk { s.slk with
        receiver := .hunt, stats := { s.slk.stats with gap := satSucc 65535 s.slk.stats.gap } }))) ∧
  (∀ (s : State) (t : Nat), s.powered = true → exec (.linkBreak t) s = .next ((s.advance t).setSlk { s.slk with
      queue := [], receiver := .hunt, stats := { s.slk.stats with
        breaks := if s.slk.stats.breaks < 65535 then s.slk.stats.breaks + 1 else s.slk.stats.breaks } }))

/-- The last byte of a frame: a bad CRC drops it and counts; a good CRC delivers it: with 4 frames waiting it is
dropped, counted, and LINK_DROPPED raised; with a request in service it joins the tail of the queue, and with none the
oldest frame waiting, this one where none was, is taken at once (R192, R193, R195). -/
def Obligations.FrameIsDelivered : Prop :=
  ∀ (s : State) (t : Nat) (b : Byte) (n : Nat) (l : List Byte), s.powered = true → s.condition ≠ .starting →
    (s.advance t).timebase ≤ s.slk.lastByte + 80 → s.slk.receiver = .body n l → l.length + 1 = n + 2 →
    let x : Slk := { s.slk with lastByte := (s.advance t).timebase, receiver := .hunt }
    (crcGood n (l ++ [b]) = false → exec (.byteReceived t b false) s =
      .next ((s.advance t).setSlk { x with stats := { x.stats with crc := satSucc 65535 x.stats.crc } })) ∧
    (crcGood n (l ++ [b]) = true → 4 ≤ s.slk.queue.length → exec (.byteReceived t b false) s =
      .next (takeFault ⟨.linkDropped, (s.advance t).timebase, s.openNumber, none, none⟩
        ((s.advance t).setSlk { x with stats := { x.stats with queue := satSucc 65535 x.stats.queue } }))) ∧
    (crcGood n (l ++ [b]) = true → s.slk.queue.length < 4 → s.slk.service ≠ none → exec (.byteReceived t b false) s =
      .next ((s.advance t).setSlk { x with
        queue := s.slk.queue ++ [frameOf n (l ++ [b])]
        stats := { x.stats with delivered := satSucc 65535 x.stats.delivered } })) ∧
    (∀ f q, crcGood n (l ++ [b]) = true → s.slk.queue.length < 4 → s.slk.service = none →
      s.slk.queue ++ [frameOf n (l ++ [b])] = f :: q → exec (.byteReceived t b false) s =
      .next (takeFrame f ((s.advance t).setSlk { x with
        queue := q, stats := { x.stats with delivered := satSucc 65535 x.stats.delivered } })))

/-- REPLY_SENT: the reply has left and is counted; then the oldest waiting frame is taken (R195; before any RESET that
falls due, by the model's choice, log 52). Checked in this order: a target that R198 does not list is answered
BAD_TARGET; a command that its target does not have, BAD_COMMAND; before start-up is finished every request but IDENTIFY,
STATUS and TIME, NOT_READY; DATA of another length than R198 gives, BAD_LENGTH; each refusal changes nothing else. Any
other frame is served as the request row that it spells, with its tag and the operands its DATA holds, and a REG_FLAGS of
none of the three operations is answered BAD_VALUE (R159, R195, R198, R199). A frame that a delivery takes at once is
taken in the same way. The CRC of the nine bytes 0x31 to 0x39 is 0x29B1, and that of the TIME request of the example
0xAA5A (R191). -/
def Obligations.ReplyLeavesAndTheNextIsTaken : Prop :=
  (∀ (s : State) (t : Nat), s.powered = true → s.slk.queue = [] →
      (s.slk.service = none → exec (.replySent t) s = .next (s.advance t)) ∧
      (∀ q, s.slk.service = some q → exec (.replySent t) s = .next ((s.advance t).setSlk { s.slk with
        service := none, restartDue := s.slk.restartDue && !q.restart
        stats := { s.slk.stats with replies := satSucc 65535 s.slk.stats.replies } }))) ∧
  (∀ (s : State) (t : Nat) (q : InService) (f : Frame) (l : List Frame), s.powered = true → s.slk.service = some q →
      s.slk.queue = f :: l →
      let x : Slk := { s.slk with
        service := none, restartDue := s.slk.restartDue && !q.restart, queue := l
        stats := { s.slk.stats with replies := satSucc 65535 s.slk.stats.replies } }
      exec (.replySent t) s = .next (takeFrame f ((s.advance t).setSlk x)) ∧
      (∀ i, f.row t = some (true, some i) → exec (.replySent t) s = exec i (s.setSlk { s.slk with queue := l }))) ∧
  (∀ (s : State) (t : Nat) (f : Frame),
      let refused := fun (o : ReplyCode) (d : List Byte) => s.setSlk { s.slk with service := some ⟨f.tag, f.target, o, d, false⟩ }
      (f.target.toNat = 0 ∨ 7 < f.target.toNat → takeFrame f s = refused .badTarget []) ∧
      (1 ≤ f.target.toNat → f.target.toNat ≤ 7 → (f.row t = none ↔ f.command.toNat = 0 ∨
          ([9, 3, 5, 3, 8, 8, 3] : List Nat).getD (f.target.toNat - 1) 0 < f.command.toNat) ∧
        (f.row t = none → takeFrame f s = refused .badCommand [])) ∧
      (∀ ok r, f.row t = some (ok, r) → s.condition = .starting → (∀ i, r = some i → i.servedAlways = false) →
        takeFrame f s = refused .notReady []) ∧
      (∀ r, f.row t = some (false, r) → s.condition ≠ .starting ∨ (∃ i, r = some i ∧ i.servedAlways = true) →
        takeFrame f s = refused .badLength []) ∧
      (f.row t = some (true, none) → s.condition ≠ .starting → takeFrame f s = refused .badValue [0, 0xFF])) ∧
  (crc [0x31, 0x32, 0x33, 0x34, 0x35, 0x36, 0x37, 0x38, 0x39] = 0x29B1 ∧ crc [0x03, 0x17, 0x01, 0x04] = 0xAA5A)

/-! ### What every step keeps -/

/-- The state right after power-on meets every property below. -/
def Obligations.ResetMeetsEveryProperty : Prop :=
  State.reset.attnOk ∧ State.reset.permitOk ∧ State.reset.tablesOk ∧ State.reset.wrg.placesOk ∧ State.reset.certifiedOk ∧
    State.reset.trackerOk ∧ State.reset.directoryOk ∧ State.reset.queueOk ∧ State.reset.stationsOk ∧ State.reset.countsOk ∧
    State.reset.triggerOk ∧ State.reset.startOk ∧ State.reset.timeOk ∧ State.reset.fau.attn = false ∧
    State.reset.ptb.permit = .withdrawn ∧ State.reset.settings = defaultSettings

/-- ATTN is asserted exactly while the attention set and the attention mask have a bit in common (R185). -/
def Obligations.AttnFollowsSetAndMask : Prop :=
  ∀ s s' : State, s.attnOk → step s = .next s' → s'.attnOk

/-- PERMIT is asserted exactly while all of its conditions hold (R152, R153). While PERMIT is asserted, the part is
ready, the calibration is VALID, at least one platform is IN_SERVICE, a directory entry is free, and the used slots are
below the high-water setting (R152). The water state's hysteresis (R153). -/
def Obligations.PermitFollowsItsConditions : Prop :=
  (∀ s s' : State, s.tablesOk → s.permitOk → step s = .next s' → s'.permitOk) ∧
  (∀ s : State, s.permitOk → s.ptb.permit = .asserted →
      s.condition = .ready ∧ s.cal.state = .valid ∧
        (s.lcu.platforms.a.service = .inService ∨ s.lcu.platforms.b.service = .inService) ∧
        s.ptb.directory.length < 8 ∧ s.usedSlots < s.settings.highWater) ∧
  (∀ used high low : Nat, (high ≤ used → waterNext .normal used high low = .high) ∧
      (used < high → waterNext .normal used high low = .normal) ∧
      (used ≤ low → waterNext .high used high low = .normal) ∧ (low < used → waterNext .high used high low = .high))

/-- The tables stay canonical and within their numbers (R124, R154). No place is held twice, by records or by a record
and an entry of the retirement list (R154). -/
def Obligations.TablesStayCanonical : Prop :=
  ∀ s s' : State, s.tablesOk → s.wrg.placesOk → step s = .next s' → s'.tablesOk ∧ s'.wrg.placesOk

/-- A CERTIFIED record is COMPLETE or FINAL and carries no disqualifying qualifier (R136). -/
def Obligations.CertifiedStaysDeserved : Prop :=
  ∀ s s' : State, s.certifiedOk → step s = .next s' → s'.certifiedOk

/-- The axle train holds at most 2,048 axles, and is empty, with the whole passage record, whenever no passage is open
(R26, R30). The passage directory holds at most 8 entries, and an OPEN one only while a passage is open (R124, R147,
R148). The request queue holds up to 4 frames (R193). -/
def Obligations.DirectoryAndTrainStayBounded : Prop :=
  (∀ s s' : State, s.trackerOk → step s = .next s' → s'.trackerOk) ∧
  (∀ s s' : State, s.directoryOk → step s = .next s' → s'.directoryOk) ∧
  (∀ s s' : State, s.queueOk → step s = .next s' → s'.queueOk)

/-- Motion and return counts stay in range, and a FAULTED station holds no pending head and counts no returns (R4, R5).
The further counts, the link statistics and the failure count saturate, and the store state is FAILED exactly at three
failures (R165, R176, R192). The settings stay in range and the trigger counter below the trigger count (R187, R203). -/
def Obligations.CountsStayInRange : Prop :=
  (∀ s s' : State, s.stationsOk → step s = .next s' → s'.stationsOk) ∧
  (∀ s s' : State, s.countsOk → step s = .next s' → s'.countsOk) ∧
  (∀ s s' : State, s.triggerOk → step s = .next s' → s'.triggerOk)

/-- No channel's working zero changes while a passage is open (R94). -/
def Obligations.ZerosAreFrozenInAPassage : Prop :=
  ∀ s s' : State, s.startOk → step s = .next s' → s'.startOk ∧
    (s.isOpen = true → s'.isOpen = true → s'.zcl.zeros = s.zcl.zeros)

/-- The change counter never decreases while the part runs (R91). The timebase stays
within its 48 bits, and runs forward in a part that keeps its power and is not reset (00, section 4.2). -/
def Obligations.ChangeCounterAndTimebaseRunForward : Prop :=
  (∀ (c : Instr) (s s' : State), c ≠ .powerOn → c ≠ .reset → c ≠ .lossOfPower → (∀ f, c ≠ .storeLoadEnd f) →
      exec c s = .next s' → s.cal.counter ≤ s'.cal.counter) ∧
  (∀ (c : Instr) (s s' : State), s.timeOk → exec c s = .next s' → s'.timeOk ∧
      (c ≠ .powerOn → c ≠ .reset → c ≠ .lossOfPower → s.timebase ≤ s'.timebase))
end

