-- ==== Sys2Proof/Laws/Catalogue.lean ====
section
/-! SUPPORT. The catalogue of requests as the link serves it agrees with the catalogue as rows. -/

namespace Sys2Proof.Machine

set_option Elab.async false

/-- A handler and a spelt row are of one request: both absent; or the same length, condition and action, and no action but
BAD_VALUE where no row is spelt. -/
def Agrees (k : Target) (t : Nat) (g : Byte) (d : List Byte) (o : Option Handler) (x : Option Spelt) : Prop :=
  match o, x with
  | none, none => True
  | some h, some (ok, r) => h.lengthOk d = ok ∧
      (∀ i, r = some i → i.servedAlways = h.always ∧ ∀ s : State, exec i s = request t g k h.always (h.run d) s) ∧
      (r = none → h.always = false ∧ h.run d = answer fun _ => .bad)
  | _, _ => False

/-- The requests of SYS. -/
theorem sys_agrees (t : Nat) (g : Byte) (d : List Byte) : ∀ n, Agrees .sys t g d (sysHandler n) (sysRow t g d n) := by
  intro n
  match n with
  | 0 => trivial
  | 1 | 2 | 3 | 4 | 5 | 6 | 7 | 8 | 9 => exact ⟨rfl, fun i hi => by cases hi; exact ⟨rfl, fun s => rfl⟩, fun h => by cases h⟩
  | n + 10 => trivial

/-- The requests of CHAN. -/
theorem chan_agrees (t : Nat) (g : Byte) (d : List Byte) : ∀ n, Agrees .chan t g d (chanHandler n) (chanRow t g d n) := by
  intro n
  match n with
  | 0 => trivial
  | 1 | 2 | 3 => exact ⟨rfl, fun i hi => by cases hi; exact ⟨rfl, fun s => rfl⟩, fun h => by cases h⟩
  | n + 4 => trivial

/-- The requests of CAL. -/
theorem cal_agrees (t : Nat) (g : Byte) (d : List Byte) : ∀ n, Agrees .cal t g d (calHandler n) (calRow t g d n) := by
  intro n
  match n with
  | 0 => trivial
  | 1 | 3 | 4 | 5 => exact ⟨rfl, fun i hi => by cases hi; exact ⟨rfl, fun s => rfl⟩, fun h => by cases h⟩
  | 2 =>
    simp only [calHandler, calRow]
    by_cases e : field d 0 1 = 14
    · rw [if_pos e]
      refine ⟨by simp [stageLength, e], fun i hi => ?_, fun h => by cases h⟩
      cases hi
      refine ⟨rfl, fun s => ?_⟩
      simp only [readStage, e, if_true]
      rfl
    · rw [if_neg e]
      refine ⟨by simp [stageLength, e], fun i hi => ?_, fun h => by cases h⟩
      cases hi
      refine ⟨rfl, fun s => ?_⟩
      simp only [readStage, e, if_false]
      rfl
  | n + 6 => trivial

/-- The requests of ZERO. -/
theorem zero_agrees (t : Nat) (g : Byte) (d : List Byte) : ∀ n, Agrees .zero t g d (zeroHandler n) (zeroRow t g d n) := by
  intro n
  match n with
  | 0 => trivial
  | 1 | 2 | 3 => exact ⟨rfl, fun i hi => by cases hi; exact ⟨rfl, fun s => rfl⟩, fun h => by cases h⟩
  | n + 4 => trivial

/-- The requests of PASS. -/
theorem pass_agrees (t : Nat) (g : Byte) (d : List Byte) : ∀ n, Agrees .pass t g d (passHandler n) (passRow t g d n) := by
  intro n
  match n with
  | 0 => trivial
  | 1 | 2 | 3 | 4 | 5 | 6 | 7 | 8 => exact ⟨rfl, fun i hi => by cases hi; exact ⟨rfl, fun s => rfl⟩, fun h => by cases h⟩
  | n + 9 => trivial

/-- The requests of REG. -/
theorem reg_agrees (t : Nat) (g : Byte) (d : List Byte) : ∀ n, Agrees .reg t g d (regHandler n) (regRow t g d n) := by
  intro n
  match n with
  | 0 => trivial
  | 1 | 2 | 3 | 5 | 6 | 7 | 8 => exact ⟨rfl, fun i hi => by cases hi; exact ⟨rfl, fun s => rfl⟩, fun h => by cases h⟩
  | 4 =>
    refine ⟨rfl, fun i hi => ?_, fun hi => ?_⟩
    · have h : i.servedAlways = false ∧ ∀ s : State, exec i s = request t g .reg false (readFlags d) s := by
        change flagsRow t g d = some i at hi
        unfold flagsRow at hi
        unfold readFlags
        generalize field d 6 1 = x at hi ⊢
        match x, hi with
        | 0, hi | 1, hi | 2, hi => cases hi; exact ⟨rfl, fun s => rfl⟩
        | n + 3, hi => cases hi
      exact h
    · have h : readFlags d = answer fun _ => .bad := by
        change flagsRow t g d = none at hi
        unfold flagsRow at hi
        unfold readFlags
        generalize field d 6 1 = x at hi ⊢
        match x, hi with
        | 0, hi | 1, hi | 2, hi => cases hi
        | n + 3, _ => rfl
      exact ⟨rfl, h⟩
  | n + 9 => trivial

/-- The requests of CLASS. -/
theorem cls_agrees (t : Nat) (g : Byte) (d : List Byte) : ∀ n, Agrees .cls t g d (clsHandler n) (clsRow t g d n) := by
  intro n
  match n with
  | 0 => trivial
  | 1 | 2 | 3 => exact ⟨rfl, fun i hi => by cases hi; exact ⟨rfl, fun s => rfl⟩, fun h => by cases h⟩
  | n + 4 => trivial

/-- What serves a frame of a listed target: the handler of its request, which agrees with the row it spells, absent for a
command beyond the target's (R195, R198). -/
theorem frame_served (t : Nat) (f : Frame) (h1 : 1 ≤ f.target.toNat) (h2 : f.target.toNat ≤ 7) :
    ∃ (k : Target) (o : Option Handler),
    byteOf (targetNum k) = f.target ∧ Agrees k t f.tag f.data o (f.row t) ∧
    (o = none ↔ f.command.toNat = 0 ∨ ([9, 3, 5, 3, 8, 8, 3] : List Nat).getD (f.target.toNat - 1) 0 < f.command.toNat) ∧
    (frameAction f = match o with | none => (true, bare .badCommand) | some h => (h.always, checkedAction h f.data)) := by
  have ht : ∀ n : Nat, f.target.toNat = n → byteOf n = f.target := by
    intro n hn; rw [← hn]; simp [byteOf]
  have hc : f.target.toNat = 1 ∨ f.target.toNat = 2 ∨ f.target.toNat = 3 ∨ f.target.toNat = 4 ∨
      f.target.toNat = 5 ∨ f.target.toNat = 6 ∨ f.target.toNat = 7 := by omega
  unfold Frame.row frameAction
  rcases hc with e | e | e | e | e | e | e <;> rw [e]
  · refine ⟨.sys, _, ht _ e, sys_agrees .., ?_, rfl⟩
    unfold sysHandler; split <;> simp_all <;> omega
  · refine ⟨.chan, _, ht _ e, chan_agrees .., ?_, rfl⟩
    unfold chanHandler; split <;> simp_all <;> omega
  · refine ⟨.cal, _, ht _ e, cal_agrees .., ?_, rfl⟩
    unfold calHandler; split <;> simp_all <;> omega
  · refine ⟨.zero, _, ht _ e, zero_agrees .., ?_, rfl⟩
    unfold zeroHandler; split <;> simp_all <;> omega
  · refine ⟨.pass, _, ht _ e, pass_agrees .., ?_, rfl⟩
    unfold passHandler; split <;> simp_all <;> omega
  · refine ⟨.reg, _, ht _ e, reg_agrees .., ?_, rfl⟩
    unfold regHandler; split <;> simp_all <;> omega
  · refine ⟨.cls, _, ht _ e, cls_agrees .., ?_, rfl⟩
    unfold clsHandler; split <;> simp_all <;> omega

end Sys2Proof.Machine
end

