-- ==== Sys2Proof/Laws/Tables.lean ====
section
/-! SUPPORT. Keyed tables and lists: what a get, a put, a deletion and a map answer, that each keeps the canonical form,
and what belongs to the result. -/

namespace Sys2Proof.Machine

set_option Elab.async false

variable {α β : Type}

/-! ### What a key holds -/

/-- A key below the bound of a rising table holds nothing. -/
theorem tget_of_lt {t : Table α} : ∀ {b k : Nat}, Table.rising b t = true → k < b → tget t k = none := by
  induction t with
  | nil => intros; rfl
  | cons r t ih =>
    obtain ⟨j, a⟩ := r
    intro b k h hk
    simp only [Table.rising, Bool.and_eq_true, decide_eq_true_eq] at h
    simp only [tget]
    rw [if_neg (by omega)]
    exact ih h.2 (by omega)

/-- A lower bound is a bound. -/
theorem rising_mono {t : Table α} : ∀ {b c : Nat}, Table.rising b t = true → c ≤ b → Table.rising c t = true := by
  cases t with
  | nil => intros; rfl
  | cons r t =>
    obtain ⟨j, a⟩ := r
    intro b c h hc
    simp only [Table.rising, Bool.and_eq_true, decide_eq_true_eq] at h ⊢
    exact ⟨by omega, h.2⟩

/-- An entry put is read back, and no other entry is touched, in any table, canonical or not. -/
theorem tget_tput_any (t : Table α) (k : Nat) (v : α) (j : Nat) : tget (tput t k v) j = if j = k then some v else tget t j := by
  induction t with
  | nil =>
    simp only [tput, tget]
    split <;> simp_all [eq_comm]
  | cons r t ih =>
    simp only [tput]
    split
    · simp only [tget]
      split <;> simp_all [eq_comm]
    · split
      · simp only [tget]
        split <;> simp_all [eq_comm]
      · simp only [tget, ih]
        split <;> simp_all
        intro h
        omega

/-- The key just put holds what was put; every other key holds what it held. -/
theorem tget_tput {t : Table α} {k : Nat} {v : α} :
    ∀ {b : Nat}, Table.rising b t = true → ∀ j, tget (tput t k v) j = if j = k then some v else tget t j := by
  induction t with
  | nil =>
    intro b _ j
    by_cases h : j = k
    · subst h; simp [tput, tget]
    · simp [tput, tget, h, Ne.symm h]
  | cons r t ih =>
    obtain ⟨i, a⟩ := r
    intro b h j
    have hr := h
    simp only [Table.rising, Bool.and_eq_true, decide_eq_true_eq] at h
    simp only [tput]
    split
    · simp only [tget]
      by_cases hj : k = j
      · simp [hj]
      · rw [if_neg hj, if_neg (Ne.symm hj)]
    · split
      · next hik =>
        subst hik
        simp only [tget]
        by_cases hj : k = j
        · simp [hj]
        · rw [if_neg hj, if_neg (Ne.symm hj), if_neg hj]
      · simp only [tget]
        by_cases hj : i = j
        · rw [if_pos hj, if_neg (by omega), if_pos hj]
        · rw [if_neg hj, ih h.2, if_neg hj]

/-- The key deleted holds nothing; every other key holds what it held. -/
theorem tget_tdel {t : Table α} {k : Nat} :
    ∀ {b : Nat}, Table.rising b t = true → ∀ j, tget (tdel t k) j = if j = k then none else tget t j := by
  induction t with
  | nil => intro b _ j; simp [tdel, tget]
  | cons r t ih =>
    obtain ⟨i, a⟩ := r
    intro b h j
    simp only [Table.rising, Bool.and_eq_true, decide_eq_true_eq] at h
    simp only [tdel]
    split
    · next hik =>
      subst hik
      simp only [tget]
      by_cases hj : j = i
      · subst hj; simp [tget_of_lt h.2 (Nat.lt_succ_self _)]
      · rw [if_neg hj, if_neg (Ne.symm hj)]
    · simp only [tget]
      by_cases hj : i = j
      · rw [if_pos hj, if_neg (by omega), if_pos hj]
      · rw [if_neg hj, ih h.2, if_neg hj]

/-- A map changes what each key holds. -/
@[simp] theorem tget_tmap (f : Nat → α → β) (t : Table α) (k : Nat) : tget (tmap f t) k = (tget t k).map (f k) := by
  induction t with
  | nil => rfl
  | cons r t ih =>
    obtain ⟨j, a⟩ := r
    simp only [tmap, tget]
    split
    · next h => subst h; rfl
    · exact ih

/-- A filter keeps what meets its test. -/
theorem tget_tkeep (p : Nat → α → Bool) {t : Table α} :
    ∀ {b : Nat}, Table.rising b t = true →
      ∀ k, tget (tkeep p t) k = (tget t k).bind fun a => if p k a then some a else none := by
  induction t with
  | nil => intro b _ k; rfl
  | cons r t ih =>
    obtain ⟨j, a⟩ := r
    intro b h k
    simp only [Table.rising, Bool.and_eq_true, decide_eq_true_eq] at h
    simp only [tkeep]
    split
    · next hp =>
      simp only [tget]
      split
      · next hj => subst hj; simp [hp]
      · exact ih h.2 k
    · next hp =>
      simp only [tget]
      split
      · next hj => subst hj; rw [ih h.2, tget_of_lt h.2 (Nat.lt_succ_self _)]; simp [hp]
      · exact ih h.2 k

/-! ### The canonical form -/

/-- A put keeps the form, under a bound that the key meets. -/
theorem rising_tput {t : Table α} {k : Nat} {v : α} :
    ∀ {b : Nat}, Table.rising b t = true → b ≤ k → Table.rising b (tput t k v) = true := by
  induction t with
  | nil => intro b _ hk; simp [tput, Table.rising, hk]
  | cons r t ih =>
    obtain ⟨i, a⟩ := r
    intro b h hk
    simp only [Table.rising, Bool.and_eq_true, decide_eq_true_eq] at h
    simp only [tput]
    split
    · simp only [Table.rising, Bool.and_eq_true, decide_eq_true_eq]; exact ⟨hk, by omega, h.2⟩
    · split
      · next hik => subst hik; simp only [Table.rising, Bool.and_eq_true, decide_eq_true_eq]; exact ⟨hk, h.2⟩
      · simp only [Table.rising, Bool.and_eq_true, decide_eq_true_eq]; exact ⟨h.1, ih h.2 (by omega)⟩

/-- A put keeps the canonical form. -/
theorem wf_tput {t : Table α} (h : Table.wf t = true) (k : Nat) (v : α) : Table.wf (tput t k v) = true :=
  rising_tput h (Nat.zero_le _)

/-- A deletion keeps the form. -/
theorem rising_tdel {t : Table α} {k : Nat} :
    ∀ {b : Nat}, Table.rising b t = true → Table.rising b (tdel t k) = true := by
  induction t with
  | nil => intro b h; exact h
  | cons r t ih =>
    obtain ⟨i, a⟩ := r
    intro b h
    simp only [Table.rising, Bool.and_eq_true, decide_eq_true_eq] at h
    simp only [tdel]
    split
    · exact rising_mono h.2 (by omega)
    · simp only [Table.rising, Bool.and_eq_true, decide_eq_true_eq]; exact ⟨h.1, ih h.2⟩

/-- A deletion keeps the canonical form. -/
theorem wf_tdel {t : Table α} (h : Table.wf t = true) (k : Nat) : Table.wf (tdel t k) = true := rising_tdel h

/-- A map keeps the form. -/
theorem rising_tmap {f : Nat → α → β} {t : Table α} : ∀ {b : Nat}, Table.rising b (tmap f t) = Table.rising b t := by
  induction t with
  | nil => intro b; rfl
  | cons r t ih => obtain ⟨i, a⟩ := r; intro b; simp only [tmap, Table.rising, ih]

/-- A map keeps the canonical form. -/
@[simp] theorem wf_tmap (f : Nat → α → β) (t : Table α) : Table.wf (tmap f t) = Table.wf t := rising_tmap

/-- A filter keeps the form. -/
theorem rising_tkeep {p : Nat → α → Bool} {t : Table α} :
    ∀ {b : Nat}, Table.rising b t = true → Table.rising b (tkeep p t) = true := by
  induction t with
  | nil => intro b h; exact h
  | cons r t ih =>
    obtain ⟨i, a⟩ := r
    intro b h
    simp only [Table.rising, Bool.and_eq_true, decide_eq_true_eq] at h
    simp only [tkeep]
    split
    · simp only [Table.rising, Bool.and_eq_true, decide_eq_true_eq]; exact ⟨h.1, ih h.2⟩
    · exact rising_mono (ih h.2) (by omega)

/-- A filter keeps the canonical form. -/
theorem wf_tkeep {p : Nat → α → Bool} {t : Table α} (h : Table.wf t = true) : Table.wf (tkeep p t) = true :=
  rising_tkeep h

/-- Puts one after another keep the canonical form. -/
theorem wf_tputAll (l : List (Nat × α)) : ∀ {t : Table α}, Table.wf t = true → Table.wf (tputAll t l) = true := by
  induction l with
  | nil => intro t h; exact h
  | cons r l ih => intro t h; exact ih (wf_tput h _ _)

/-- An update of one key keeps the canonical form. -/
@[simp] theorem wf_tupd (t : Table α) (k : Nat) (f : α → α) : Table.wf (tupd t k f) = Table.wf t := wf_tmap _ _

/-! ### What belongs to a table -/

/-- What a put leaves in a table: the new thing, or what was there. -/
theorem mem_tput {t : Table α} {k : Nat} {v : α} {r : Nat × α} : r ∈ tput t k v → r = (k, v) ∨ r ∈ t := by
  induction t with
  | nil => simp [tput]
  | cons q t ih =>
    obtain ⟨j, a⟩ := q
    simp only [tput]
    split
    · simp
    · split
      · intro h; rcases List.mem_cons.mp h with h | h
        · exact Or.inl h
        · exact Or.inr (List.mem_cons_of_mem _ h)
      · intro h; rcases List.mem_cons.mp h with h | h
        · exact Or.inr (by simp [h])
        · rcases ih h with h | h
          · exact Or.inl h
          · exact Or.inr (List.mem_cons_of_mem _ h)

/-- What a put leaves in a table beside the new thing had another key. -/
theorem mem_tput_ne {t : Table α} {k : Nat} {v : α} {r : Nat × α} :
    ∀ {b : Nat}, Table.rising b t = true → r ∈ tput t k v → r = (k, v) ∨ (r ∈ t ∧ r.1 ≠ k) := by
  induction t with
  | nil => intro b _; simp [tput]
  | cons q t ih =>
    obtain ⟨j, a⟩ := q
    intro b h hr
    simp only [Table.rising, Bool.and_eq_true, decide_eq_true_eq] at h
    have above : ∀ r ∈ t, j < r.1 := by
      have : ∀ {t : Table α} {b : Nat}, Table.rising b t = true → ∀ r ∈ t, b ≤ r.1 := by
        intro t
        induction t with
        | nil => intro b _ r hr; simp at hr
        | cons q t ih =>
          obtain ⟨j, a⟩ := q
          intro b h r hr
          simp only [Table.rising, Bool.and_eq_true, decide_eq_true_eq] at h
          rcases List.mem_cons.mp hr with hr | hr
          · subst hr; exact h.1
          · have := ih h.2 r hr; omega
      intro r hr; exact this h.2 r hr
    simp only [tput] at hr
    split at hr
    · next hk =>
      rcases List.mem_cons.mp hr with hr | hr
      · exact Or.inl hr
      · refine Or.inr ⟨hr, ?_⟩
        rcases List.mem_cons.mp hr with hr | hr
        · subst hr; simp; omega
        · have := above r hr; omega
    · split at hr
      · next hk =>
        subst hk
        rcases List.mem_cons.mp hr with hr | hr
        · exact Or.inl hr
        · exact Or.inr ⟨List.mem_cons_of_mem _ hr, by have := above r hr; omega⟩
      · next h1 h2 =>
        rcases List.mem_cons.mp hr with hr | hr
        · subst hr; exact Or.inr ⟨by simp, by simp; omega⟩
        · rcases ih h.2 hr with hr | hr
          · exact Or.inl hr
          · exact Or.inr ⟨List.mem_cons_of_mem _ hr.1, hr.2⟩

/-- What a deletion leaves was there. -/
theorem mem_tdel {t : Table α} {k : Nat} {r : Nat × α} : r ∈ tdel t k → r ∈ t := by
  induction t with
  | nil => simp [tdel]
  | cons q t ih =>
    obtain ⟨j, a⟩ := q
    simp only [tdel]
    split
    · exact fun h => List.mem_cons_of_mem _ h
    · intro h; rcases List.mem_cons.mp h with h | h
      · simp [h]
      · exact List.mem_cons_of_mem _ (ih h)

/-- What a map leaves comes from what was there. -/
theorem mem_tmap {f : Nat → α → β} {t : Table α} {r : Nat × β} :
    r ∈ tmap f t ↔ ∃ q ∈ t, r = (q.1, f q.1 q.2) := by
  induction t with
  | nil => simp [tmap]
  | cons q t ih =>
    obtain ⟨j, a⟩ := q
    simp only [tmap, List.mem_cons, ih]
    constructor
    · rintro (h | ⟨q, hq, h⟩)
      · exact ⟨(j, a), Or.inl rfl, h⟩
      · exact ⟨q, Or.inr hq, h⟩
    · rintro ⟨q, hq | hq, h⟩
      · subst hq; exact Or.inl h
      · exact Or.inr ⟨q, hq, h⟩

/-- What a filter leaves. -/
theorem mem_tkeep {p : Nat → α → Bool} {t : Table α} {r : Nat × α} :
    r ∈ tkeep p t ↔ r ∈ t ∧ p r.1 r.2 = true := by
  induction t with
  | nil => simp [tkeep]
  | cons q t ih =>
    obtain ⟨j, a⟩ := q
    simp only [tkeep]
    split
    · next hp =>
      simp only [List.mem_cons, ih]
      constructor
      · rintro (h | h)
        · subst h; exact ⟨Or.inl rfl, hp⟩
        · exact ⟨Or.inr h.1, h.2⟩
      · rintro ⟨h | h, hp'⟩
        · exact Or.inl h
        · exact Or.inr ⟨h, hp'⟩
    · next hp =>
      simp only [List.mem_cons, ih]
      constructor
      · exact fun h => ⟨Or.inr h.1, h.2⟩
      · rintro ⟨h | h, hp'⟩
        · subst h; exact absurd hp' hp
        · exact ⟨h, hp'⟩

/-- The keys of a rising table meet its bound. -/
theorem rising_le {t : Table α} : ∀ {b : Nat}, Table.rising b t = true → ∀ r ∈ t, b ≤ r.1 := by
  induction t with
  | nil => intro b _ r hr; simp at hr
  | cons q t ih =>
    obtain ⟨j, a⟩ := q
    intro b h r hr
    simp only [Table.rising, Bool.and_eq_true, decide_eq_true_eq] at h
    rcases List.mem_cons.mp hr with hr | hr
    · subst hr; exact h.1
    · have := ih h.2 r hr; omega

/-- In a canonical table, what a key holds is what belongs to it. -/
theorem tget_eq_some {t : Table α} :
    ∀ {b : Nat}, Table.rising b t = true → ∀ {k : Nat} {a : α}, tget t k = some a ↔ (k, a) ∈ t := by
  induction t with
  | nil => intro b _ k a; simp [tget]
  | cons q t ih =>
    obtain ⟨j, v⟩ := q
    intro b h k a
    simp only [Table.rising, Bool.and_eq_true, decide_eq_true_eq] at h
    simp only [tget]
    split
    · next hj =>
      subst hj
      constructor
      · intro h'; simp only [Option.some.injEq] at h'; simp [h']
      · intro h'
        rcases List.mem_cons.mp h' with h' | h'
        · simp only [Prod.mk.injEq] at h'; simp [h'.2]
        · exact absurd (rising_le h.2 _ h') (Nat.not_succ_le_self _)
    · next hj =>
      rw [ih h.2]
      constructor
      · exact fun h' => List.mem_cons_of_mem _ h'
      · intro h'
        rcases List.mem_cons.mp h' with h' | h'
        · simp only [Prod.mk.injEq] at h'; exact absurd h'.1.symm hj
        · exact h'

/-- What a key holds belongs to the table. -/
theorem mem_of_tget {t : Table α} {k : Nat} {a : α} (h : tget t k = some a) : (k, a) ∈ t := by
  induction t with
  | nil => simp [tget] at h
  | cons q t ih =>
    obtain ⟨j, v⟩ := q
    simp only [tget] at h
    split at h
    · next hj => subst hj; simp only [Option.some.injEq] at h; simp [h]
    · exact List.mem_cons_of_mem _ (ih h)

/-- What a key holds after puts on distinct keys. -/
theorem tget_tputAll : ∀ {l : List (Nat × α)} {t : Table α} {k : Nat} {v : α}, l.Pairwise (fun a b => a.1 ≠ b.1) →
    (tget (tputAll t l) k = some v ↔ (k, v) ∈ l ∨ ((∀ x ∈ l, x.1 ≠ k) ∧ tget t k = some v))
  | [], t, k, v, _ => by simp [tputAll]
  | (j, a) :: l, t, k, v, h => by
    obtain ⟨h1, h2⟩ := List.pairwise_cons.mp h
    have ih := tget_tputAll (t := tput t j a) (k := k) (v := v) h2
    show tget (tputAll (tput t j a) l) k = some v ↔ _
    rw [ih, tget_tput_any]
    by_cases hk : k = j
    · subst hk
      have hn : ∀ x ∈ l, x.1 ≠ k := fun x hx => (h1 x hx).symm
      constructor
      · rintro (hm | ⟨_, he⟩)
        · exact absurd rfl (hn _ hm)
        · simp at he; simp [he]
      · rintro (hm | ⟨hm, _⟩)
        · rcases List.mem_cons.mp hm with hm | hm
          · cases hm; exact Or.inr ⟨hn, by simp⟩
          · exact absurd rfl (hn _ hm)
        · exact absurd rfl (hm _ (List.mem_cons_self ..))
    · rw [if_neg hk]
      constructor
      · rintro (hm | ⟨hn, he⟩)
        · exact Or.inl (List.mem_cons_of_mem _ hm)
        · refine Or.inr ⟨fun x hx => ?_, he⟩
          rcases List.mem_cons.mp hx with rfl | hx
          · exact Ne.symm hk
          · exact hn x hx
      · rintro (hm | ⟨hn, he⟩)
        · rcases List.mem_cons.mp hm with hm | hm
          · cases hm; exact absurd rfl hk
          · exact Or.inl hm
        · exact Or.inr ⟨fun x hx => hn x (List.mem_cons_of_mem _ hx), he⟩

/-- The keys of a canonical table rise strictly, from its bound on. -/
theorem rising_pairwise : ∀ {t : Table α} {b : Nat}, Table.rising b t = true →
    t.Pairwise (fun a b => a.1 < b.1) ∧ ∀ r ∈ t, b ≤ r.1
  | [], b, _ => by simp
  | (k, v) :: t, b, h => by
    simp only [Table.rising, Bool.and_eq_true, decide_eq_true_eq] at h
    obtain ⟨h1, h2⟩ := rising_pairwise h.2
    refine ⟨List.pairwise_cons.mpr ⟨fun r hr => h2 r hr, h1⟩, fun r hr => ?_⟩
    rcases List.mem_cons.mp hr with rfl | hr
    · exact h.1
    · exact Nat.le_trans (Nat.le_trans h.1 (Nat.le_succ k)) (h2 r hr)

/-! ### Lists -/

/-- A change at a place keeps the length. -/
@[simp] theorem length_updateAt (f : α → α) : ∀ (i : Nat) (l : List α), (updateAt f i l).length = l.length
  | _, [] => by simp [updateAt]
  | 0, a :: l => by simp [updateAt]
  | i + 1, a :: l => by simp [updateAt, length_updateAt f i l]

/-- What stands at a place after a change at a place. -/
theorem getElem?_updateAt (f : α → α) : ∀ (i : Nat) (l : List α) (j : Nat),
    (updateAt f i l)[j]? = if j = i then (l[j]?).map f else l[j]?
  | _, [], j => by simp [updateAt]
  | 0, a :: l, 0 => by simp [updateAt]
  | 0, a :: l, j + 1 => by simp [updateAt]
  | i + 1, a :: l, 0 => by simp [updateAt]
  | i + 1, a :: l, j + 1 => by simp [updateAt, getElem?_updateAt f i l j]

/-- A change of one entry that leaves what a function reads leaves what it reads of all. -/
theorem map_updateAt {β : Type} {g : α → β} {f : α → α} (h : ∀ a, g (f a) = g a) :
    ∀ (i : Nat) (l : List α), (updateAt f i l).map g = l.map g
  | _, [] => by simp [updateAt]
  | 0, a :: l => by simp [updateAt, h]
  | i + 1, a :: l => by simp [updateAt, map_updateAt h i l]

/-- A change of one entry sets what a function reads of it. -/
theorem map_updateAt_set {β : Type} {g : α → β} {f : α → α} :
    ∀ {i : Nat} {l : List α} {a : α}, l[i]? = some a → (updateAt f i l).map g = (l.map g).set i (g (f a))
  | _, [], _, h => by simp at h
  | 0, b :: l, a, h => by
    obtain rfl : b = a := by simpa using h
    simp [updateAt]
  | i + 1, b :: l, a, h => by
    have h : l[i]? = some a := by simpa using h
    simp [updateAt, map_updateAt_set h]

/-- The first place that meets a test. -/
theorem firstIdx_eq {p : α → Bool} : ∀ {l : List α} {i : Nat} {a : α}, l[i]? = some a → p a = true →
    (∀ j b, j < i → l[j]? = some b → p b = false) → firstIdx p l = some i
  | [], _, _, h, _, _ => by simp at h
  | b :: l, 0, a, h, hp, _ => by
    obtain rfl : b = a := by simpa using h
    simp [firstIdx, hp]
  | b :: l, i + 1, a, h, hp, hn => by
    have h0 := hn 0 b (Nat.succ_pos i) rfl
    have := firstIdx_eq (l := l) (i := i) (by simpa using h) hp
      (fun j d hj hd => hn (j + 1) d (Nat.succ_lt_succ hj) (by simpa using hd))
    simp [firstIdx, h0, this]

/-- No place meets a test. -/
theorem firstIdx_eq_none {p : α → Bool} {l : List α} : firstIdx p l = none ↔ ∀ b ∈ l, p b = false := by
  induction l with
  | nil => simp [firstIdx]
  | cons b l ih => simp [firstIdx]; cases h : p b <;> simp [ih]

/-- No place meets a test. -/
theorem lastIdx_eq_none {p : α → Bool} {l : List α} : lastIdx p l = none ↔ ∀ b ∈ l, p b = false := by
  induction l with
  | nil => simp [lastIdx]
  | cons b l ih =>
    simp only [lastIdx]
    cases h : lastIdx p l with
    | none => cases h2 : p b <;> simp_all
    | some i =>
      rw [h] at ih
      simp only [reduceCtorEq, false_iff] at ih ⊢
      exact fun h => ih fun b hb => h b (List.mem_cons_of_mem _ hb)

/-- The last place that meets a test. -/
theorem lastIdx_eq {p : α → Bool} : ∀ {l : List α} {i : Nat} {a : α}, l[i]? = some a → p a = true →
    (∀ j b, i < j → l[j]? = some b → p b = false) → lastIdx p l = some i
  | [], _, _, h, _, _ => by simp at h
  | b :: l, 0, a, h, hp, hn => by
    obtain rfl : b = a := by simpa using h
    have : lastIdx p l = none := by
      rw [lastIdx_eq_none]
      intro d hd
      obtain ⟨j, hj⟩ := List.mem_iff_getElem?.mp hd
      exact hn (j + 1) d (Nat.succ_pos j) (by simpa using hj)
    simp [lastIdx, hp, this]
  | b :: l, i + 1, a, h, hp, hn => by
    have := lastIdx_eq (l := l) (i := i) (by simpa using h) hp
      (fun j d hj hd => hn (j + 1) d (Nat.succ_lt_succ hj) (by simpa using hd))
    simp [lastIdx, this]

/-- What belongs to a list after a change at a place. -/
theorem mem_updateAt {f : α → α} : ∀ {i : Nat} {l : List α} {x : α}, x ∈ updateAt f i l → x ∈ l ∨ ∃ y ∈ l, x = f y
  | _, [], x => by simp [updateAt]
  | 0, a :: l, x => by
    simp only [updateAt, List.mem_cons]
    rintro (h | h)
    · exact Or.inr ⟨a, Or.inl rfl, h⟩
    · exact Or.inl (Or.inr h)
  | i + 1, a :: l, x => by
    simp only [updateAt, List.mem_cons]
    rintro (h | h)
    · exact Or.inl (Or.inl h)
    · rcases mem_updateAt h with h | ⟨y, hy, h⟩
      · exact Or.inl (Or.inr h)
      · exact Or.inr ⟨y, Or.inr hy, h⟩

/-- An insertion adds one. -/
@[simp] theorem length_insertBy (key : α → Nat) (a : α) : ∀ l : List α, (insertBy key a l).length = l.length + 1
  | [] => rfl
  | b :: l => by
    simp only [insertBy]
    split
    · simp
    · simp [length_insertBy key a l]

/-- What belongs to a list after an insertion. -/
@[simp] theorem mem_insertBy (key : α → Nat) (a x : α) : ∀ l : List α, x ∈ insertBy key a l ↔ x = a ∨ x ∈ l
  | [] => by simp [insertBy]
  | b :: l => by
    simp only [insertBy]
    split
    · simp
    · simp only [List.mem_cons, mem_insertBy key a x l]
      constructor
      · rintro (h | h | h)
        · exact Or.inr (Or.inl h)
        · exact Or.inl h
        · exact Or.inr (Or.inr h)
      · rintro (h | h | h)
        · exact Or.inr (Or.inl h)
        · exact Or.inl h
        · exact Or.inr (Or.inr h)

/-- Insertions one after another, into a list: their length. -/
theorem length_foldl_insertBy (key : α → Nat) (l : List α) :
    ∀ u : List α, (l.foldl (fun u a => insertBy key a u) u).length = u.length + l.length := by
  induction l with
  | nil => intro u; rfl
  | cons a l ih => intro u; simp only [List.foldl_cons, ih, length_insertBy, List.length_cons]; omega

/-- A sorted list has the length of the list. -/
@[simp] theorem length_sortBy (key : α → Nat) (l : List α) : (sortBy key l).length = l.length := by
  simp [sortBy, length_foldl_insertBy]

/-- Insertions one after another, into a list: what belongs. -/
theorem mem_foldl_insertBy (key : α → Nat) (x : α) (l : List α) :
    ∀ u : List α, x ∈ l.foldl (fun u a => insertBy key a u) u ↔ x ∈ u ∨ x ∈ l := by
  induction l with
  | nil => intro u; simp
  | cons a l ih =>
    intro u
    simp only [List.foldl_cons, ih, mem_insertBy, List.mem_cons]
    constructor
    · rintro ((h | h) | h)
      · exact Or.inr (Or.inl h)
      · exact Or.inl h
      · exact Or.inr (Or.inr h)
    · rintro (h | h | h)
      · exact Or.inl (Or.inr h)
      · exact Or.inl (Or.inl h)
      · exact Or.inr h

/-- A sorted list holds what the list holds. -/
@[simp] theorem mem_sortBy (key : α → Nat) (x : α) (l : List α) : x ∈ sortBy key l ↔ x ∈ l := by
  simp [sortBy, mem_foldl_insertBy]

/-- An insertion is a permutation. -/
theorem perm_insertBy (key : α → Nat) (a : α) : ∀ l : List α, (insertBy key a l).Perm (a :: l)
  | [] => List.Perm.refl _
  | b :: l => by
    simp only [insertBy]
    split
    · exact List.Perm.refl _
    · exact ((perm_insertBy key a l).cons b).trans (List.Perm.swap a b l)

/-- Insertions one after another are a permutation. -/
theorem perm_foldl_insertBy (key : α → Nat) : ∀ l u : List α, (l.foldl (fun u a => insertBy key a u) u).Perm (u ++ l)
  | [], u => by simp
  | a :: l, u =>
    (perm_foldl_insertBy key l (insertBy key a u)).trans
      (((perm_insertBy key a u).append_right l).trans List.perm_middle.symm)

/-- A sorted list is a permutation of the list. -/
theorem perm_sortBy (key : α → Nat) (l : List α) : (sortBy key l).Perm l := by
  simpa [sortBy] using perm_foldl_insertBy key l []

/-- A list sorted by a key is in ascending order of it, and things of one key stand as they stood. -/
theorem pairwise_insertBy {R : α → α → Prop} (key : α → Nat) (a : α) : ∀ l : List α,
    l.Pairwise (fun x y => key x < key y ∨ (key x = key y ∧ R x y)) → (∀ x ∈ l, R x a) →
    (insertBy key a l).Pairwise (fun x y => key x < key y ∨ (key x = key y ∧ R x y))
  | [], _, _ => by simp [insertBy]
  | b :: l, h, hr => by
    obtain ⟨hb, hl⟩ := List.pairwise_cons.mp h
    simp only [insertBy]
    split
    · next hlt =>
      refine List.pairwise_cons.mpr ⟨fun y hy => Or.inl ?_, h⟩
      rcases List.mem_cons.mp hy with rfl | hy
      · exact hlt
      · rcases hb y hy with h | h <;> omega
    · next hlt =>
      refine List.pairwise_cons.mpr ⟨fun y hy => ?_, pairwise_insertBy key a l hl fun x hx => hr x (List.mem_cons_of_mem _ hx)⟩
      rcases (mem_insertBy _ _ _ _).mp hy with rfl | hy
      · have := hr b List.mem_cons_self
        by_cases he : key b = key y
        · exact Or.inr ⟨he, this⟩
        · exact Or.inl (by omega)
      · exact hb y hy

/-- A list sorted by a key is in ascending order of it, and things of one key stand as they stood. -/
theorem pairwise_sortBy {R : α → α → Prop} (key : α → Nat) {l : List α} (h : l.Pairwise R) :
    (sortBy key l).Pairwise (fun x y => key x < key y ∨ (key x = key y ∧ R x y)) := by
  have go : ∀ (l u : List α), l.Pairwise R → u.Pairwise (fun x y => key x < key y ∨ (key x = key y ∧ R x y)) →
      (∀ x ∈ u, ∀ y ∈ l, R x y) →
      (l.foldl (fun u a => insertBy key a u) u).Pairwise (fun x y => key x < key y ∨ (key x = key y ∧ R x y)) := by
    intro l
    induction l with
    | nil => intro u _ hu _; exact hu
    | cons a l ih =>
      intro u hl hu hx
      obtain ⟨ha, hl⟩ := List.pairwise_cons.mp hl
      refine ih _ hl (pairwise_insertBy key a u hu fun x h => hx x h a List.mem_cons_self) ?_
      intro x h y hy
      rcases (mem_insertBy _ _ _ _).mp h with rfl | h
      · exact ha y hy
      · exact hx x h y (List.mem_cons_of_mem _ hy)
  exact go l [] h List.Pairwise.nil (by simp)

/-- The keys of a rising table rise. -/
theorem pairwise_of_rising {t : Table α} : ∀ {b : Nat}, Table.rising b t = true → t.Pairwise (fun x y => x.1 < y.1) ∧ ∀ x ∈ t, b ≤ x.1 := by
  induction t with
  | nil => intro b _; exact ⟨List.Pairwise.nil, by simp⟩
  | cons r t ih =>
    obtain ⟨i, v⟩ := r
    intro b h
    simp only [Table.rising, Bool.and_eq_true, decide_eq_true_eq] at h
    obtain ⟨h1, h2⟩ := ih h.2
    refine ⟨List.pairwise_cons.mpr ⟨fun y hy => ?_, h1⟩, fun x hx => ?_⟩
    · have := h2 y hy; show i < y.1; omega
    · rcases List.mem_cons.mp hx with rfl | hx
      · exact h.1
      · have := h2 x hx; omega

/-- The model's sum is the library's. -/
theorem sumInt_eq (l : List Int) : sumInt l = l.sum := by
  induction l with
  | nil => rfl
  | cons a l ih => simp [sumInt, ih]

/-- A sum does not depend on the order. -/
theorem sum_perm {l m : List Int} (h : l.Perm m) : l.sum = m.sum := by
  induction h with
  | nil => rfl
  | cons x _ ih => simp [ih]
  | swap x y l => simp only [List.sum_cons]; omega
  | trans _ _ ih1 ih2 => exact ih1.trans ih2

/-- The lowest free number: free, within its range, and none below it is free. -/
theorem lowestFree_eq_some (used : Nat → Bool) : ∀ (fuel b k : Nat),
    lowestFree used fuel b = some k ↔ b ≤ k ∧ k < b + fuel ∧ used k = false ∧ ∀ j, b ≤ j → j < k → used j = true
  | 0, b, k => by simp [lowestFree]; omega
  | fuel + 1, b, k => by
    simp only [lowestFree]
    split
    · next h =>
      rw [lowestFree_eq_some used fuel (b + 1) k]
      constructor
      · rintro ⟨h1, h2, h3, h4⟩
        refine ⟨by omega, by omega, h3, fun j hj hk => ?_⟩
        by_cases hb : j = b
        · subst hb; exact h
        · exact h4 j (by omega) hk
      · rintro ⟨h1, h2, h3, h4⟩
        have : b ≠ k := by rintro rfl; simp [h] at h3
        exact ⟨by omega, by omega, h3, fun j hj hk => h4 j (by omega) hk⟩
    · next h =>
      simp only [Option.some.injEq]
      constructor
      · rintro rfl
        exact ⟨Nat.le_refl _, by omega, by simpa using h, fun j h1 h2 => by omega⟩
      · rintro ⟨h1, h2, h3, h4⟩
        rcases Nat.lt_or_ge b k with hlt | hge
        · exact absurd (h4 b (Nat.le_refl _) hlt) h
        · omega

/-- No number is free when each in the range is in use. -/
theorem lowestFree_eq_none (used : Nat → Bool) : ∀ (fuel b : Nat),
    lowestFree used fuel b = none ↔ ∀ j, b ≤ j → j < b + fuel → used j = true
  | 0, b => by simp [lowestFree]; omega
  | fuel + 1, b => by
    simp only [lowestFree]
    split
    · next h =>
      rw [lowestFree_eq_none used fuel (b + 1)]
      constructor
      · intro h' j h1 h2
        by_cases hb : j = b
        · subst hb; exact h
        · exact h' j (by omega) (by omega)
      · intro h' j h1 h2; exact h' j (by omega) (by omega)
    · next h =>
      simp only [reduceCtorEq, false_iff]
      intro h'
      exact h (h' b (Nat.le_refl _) (by omega))

end Sys2Proof.Machine
end

