-- ==== Sys2Proof/Laws/Finals.lean ====
section
/-! SUPPORT. What an ASSIGN does to a record, the totals and the register, and what the register updates of a closing
passage do. -/

namespace Sys2Proof.Machine

set_option Elab.async false

/-! ### Late identity (R142, R143) -/

/-- Steps 1 and 2 of an accepted ASSIGN, as one record (R131, R132, R143). -/
theorem assignIdentity_eq (s : State) (f : Nat) (w : Wagon) :
    assignIdentity s f w = { w with
      fleet := some f
      snapshot := { cls := (s.lookup f).bind (·.cls), tare := (s.lookup f).bind (·.tare)
                    maxAxle := (s.classOf w.cls).map (·.maxAxle)
                    maxGross := ((s.lookup f).bind (·.maxGross)).orElse fun _ => (s.classOf w.cls).map (·.maxGross) }
      own := { w.own with noIdentity := false, lateBound := true, unknownWagon := (s.lookup f).isNone }
      verdicts := { w.verdicts with
        hold := decide (w.kind = some .wagon) && ((s.lookup f).map fun x => hasFlag x.flags .hold).getD false
        classMismatch := decide (w.kind = some .wagon) && (w.segMismatch ||
          (((s.lookup f).bind (·.cls)).map fun c => decide (w.cls ≠ some c)).getD false) } } := by
  unfold assignIdentity lookUp identify snapshotOf classDiffers
  simp only [State.lookupOpt, Option.bind_some]
  cases e : s.lookup f with
  | none => rfl
  | some q => cases e2 : q.cls <;> (simp only [Option.bind_some, Option.map_some, Option.map_none, Option.getD_some, Option.getD_none, e2]; rfl)

/-- Step 3 of an accepted ASSIGN, as one record (R135 to R137, R143). -/
theorem assignRecompute_eq (s : State) (w : Wagon) :
    assignRecompute s w = if w.state = .complete ∨ w.state = .final then
      let net := w.values.reported.bind fun x => w.snapshot.tare.map fun n : Nat => x - (n : Int)
      { w with
        values := { w.values with net := net }
        certified := decide (w.quals &&& disqualifying = 0)
        verdicts := if w.kind = some .wagon then { w.verdicts with
            overload := aboveOpt w.values.reported w.snapshot.maxGross
            axleOverload := w.axles.any fun a => aboveOpt a.load w.snapshot.maxAxle
            imbalanceSide := overLimit w.values.side s.settings.sideLimit
            imbalanceEnd := overLimit w.values.endwise s.settings.endLimit
            netNegative := negative net } else Verdicts.none }
    else w := by
  unfold assignRecompute
  split
  · next h =>
    have hn : netOf w.values.reported w.snapshot.tare = w.values.reported.bind fun x => w.snapshot.tare.map fun n : Nat => x - (n : Int) := by
      cases w.values.reported <;> cases w.snapshot.tare <;> rfl
    have hb : (decide (w.state = .complete) || decide (w.state = .final)) = true := by simpa using h
    simp only [Wagon.certify, limitVerdicts, hn, hb, Bool.true_and]
    rfl
  · rfl

/-- An accepted ASSIGN, as one state (R143, R145, R146). -/
theorem assignRecord_eq (f k : Nat) (old : Wagon) (s : State) :
    let w := assignRecompute s (assignIdentity s f old)
    let out := { s.ptb with slots := tput s.ptb.slots k w }
    assignRecord f k old s =
      if old.state = .final then
        let dir := s.ptb.directory.map fun e =>
          if some e.number = old.passage ∧ e.close.isSome then { e with totals := e.totals.map (adjustTotals old w) } else e
        if w.values.reported.isSome && decide (old.kind = some .wagon) && (s.lookup f).isSome && decide (some f ≠ old.applied) then
          (s.setPtb { out with slots := tput (tput s.ptb.slots k w) k { w with applied := some f }, directory := dir }).setWrg
            { s.wrg with
              records := tupd s.wrg.records f (RegRec.change (passageUpdate (w.values.reported.getD 0) old.passage w.verdicts w.certified)) }
        else s.setPtb { out with directory := dir }
      else s.setPtb out := by
  intro w out
  have hf : w.fleet = some f ∧ w.applied = old.applied ∧ w.kind = old.kind ∧ w.passage = old.passage ∧ w.state = old.state := by
    simp only [w, assignRecompute_eq, assignIdentity_eq]
    split <;> exact ⟨rfl, rfl, rfl, rfl, rfl⟩
  obtain ⟨h1, h2, h3, h4, h5⟩ := hf
  have hh : ∀ u : State, u.wrg = s.wrg → handable u w = (w.values.reported.isSome && decide (old.kind = some .wagon) && (s.lookup f).isSome) := by
    intro u hu
    simp only [handable, h1, h3, State.lookupOpt, Option.bind_some, State.lookup, hu]
  have h0 : assignRecord f k old s = if w.state = .final then
      let u := updTotals w.passage (adjustTotals old w) (putSlot k w s)
      if handable u w && decide (w.fleet ≠ w.applied) then handOn k w u else u
    else putSlot k w s := rfl
  rw [h0]
  by_cases h : old.state = .final
  · rw [if_pos h, if_pos (h5.trans h)]
    simp only [hh _ (show (updTotals w.passage (adjustTotals old w) (putSlot k w s)).wrg = s.wrg from rfl), h1, h2]
    split
    · unfold handOn
      simp only [h1, h4]
      rfl
    · simp only [h4]; rfl
  · rw [if_neg h, if_neg (fun e => h (h5.symm.trans e))]; rfl

/-! ### The finalisation of a passage (R144, R145) -/

/-- What finalisation leaves of a record's identity (R144). -/
theorem finalise_keeps (w : Wagon) : (finalise w).fleet = w.fleet ∧ (finalise w).kind = w.kind ∧ (finalise w).passage = w.passage ∧
    (finalise w).position = w.position := by
  unfold finalise; split <;> exact ⟨rfl, rfl, rfl, rfl⟩

/-- Is a record of a closing passage handed on, given the register. -/
def isHanded (recs : Table RegRec) (w : Wagon) : Bool :=
  decide (w.state = .final) &&
    (w.values.reported.isSome && decide (w.kind = some .wagon) && ((w.fleet.bind (tget recs)).isSome))

/-- The model's test, by the register alone. -/
theorem isHanded_eq (u : State) (w : Wagon) : (decide (w.state = .final) && handable u w) = isHanded u.wrg.records w := by
  unfold isHanded handable State.lookupOpt State.lookup
  cases w.fleet with
  | none => rfl
  | some f => simp only [Option.bind_some, Option.isSome_map]

/-- A passage update hands no other record on. -/
theorem isHanded_tupd (recs : Table RegRec) (f : Nat) (g : RegRec → RegRec) (w : Wagon) :
    isHanded (tupd recs f g) w = isHanded recs w := by
  unfold isHanded tupd
  cases w.fleet with
  | none => rfl
  | some x => simp only [Option.bind_some, tget_tmap, Option.isSome_map]

/-- The updates of the records of a closing passage, one after another, each slot once: which slots note a fleet number
applied, and which register records take an update (R145). -/
theorem foldl_finalUpdate (recs : Table RegRec) :
    ∀ (l : List (Nat × Wagon)) (u : State), (l.map (·.1)).Nodup →
    (∀ w, isHanded u.wrg.records w = isHanded recs w) → (∀ r ∈ l, tget u.ptb.slots r.1 = some r.2) →
    let u' := l.foldl (fun s r => finalUpdate r.1 s) u
    (∃ sl rc, u' = (u.setSlots sl).setRecords rc) ∧
    (∀ k, tget u'.ptb.slots k = if ∃ r ∈ l, r.1 = k ∧ isHanded recs r.2 = true then
      (tget u.ptb.slots k).map (fun w => { w with applied := w.fleet }) else tget u.ptb.slots k) ∧
    (∀ f, (∀ r ∈ l, isHanded recs r.2 = true → r.2.fleet ≠ some f) → tget u'.wrg.records f = tget u.wrg.records f) ∧
    (∀ k w f, (k, w) ∈ l → isHanded recs w = true → w.fleet = some f →
      (∀ r ∈ l, isHanded recs r.2 = true → r.2.fleet = some f → r.1 = k) →
      tget u'.wrg.records f = (tget u.wrg.records f).map
        (RegRec.change (passageUpdate (w.values.reported.getD 0) w.passage w.verdicts w.certified))) ∧
    (Table.wf u.ptb.slots = true → Table.wf u'.ptb.slots = true)
  | [], u, _, _, _ => by
    refine ⟨⟨u.ptb.slots, u.wrg.records, rfl⟩, fun k => ?_, fun f _ => rfl, fun k w f h => absurd h (by simp), fun h => h⟩
    simp
  | (k, w) :: l, u, hn, hh, ht => by
    intro u'
    have hk : tget u.ptb.slots k = some w := ht _ (List.mem_cons_self ..)
    rw [List.map_cons, List.nodup_cons] at hn
    obtain ⟨v, hv⟩ : ∃ v, v = finalUpdate k u := ⟨_, rfl⟩
    have hu' : u' = l.foldl (fun s r => finalUpdate r.1 s) v := by rw [hv]; rfl
    have hv2 : v = if isHanded recs w then handOn k w u else u := by
      rw [hv]; unfold finalUpdate; rw [hk]; simp only [isHanded_eq, hh]
    have hne : ∀ r ∈ l, r.1 ≠ k := fun r hr e => hn.1 (e ▸ List.mem_map_of_mem (f := (·.1)) hr)
    clear_value u'
    by_cases hw : isHanded recs w = true
    · rw [if_pos hw] at hv2
      have vs : v.ptb.slots = tput u.ptb.slots k { w with applied := w.fleet } := by rw [hv2]; rfl
      have vr : v.wrg.records = tupd u.wrg.records (w.fleet.getD 0)
          (RegRec.change (passageUpdate (w.values.reported.getD 0) w.passage w.verdicts w.certified)) := by rw [hv2]; rfl
      obtain ⟨i1, i2, i3, i4, i5⟩ := foldl_finalUpdate recs l v hn.2 (fun x => by rw [vr, isHanded_tupd, hh]) (fun r hr => by
        rw [vs, tget_tput_any, if_neg (hne r hr)]; exact ht r (List.mem_cons_of_mem _ hr))
      rw [← hu'] at i1 i2 i3 i4 i5
      obtain ⟨fl, hfl⟩ : ∃ fl, w.fleet = some fl := by
        unfold isHanded at hw
        cases e : w.fleet with
        | none => rw [e] at hw; simp at hw
        | some fl => exact ⟨fl, rfl⟩
      rw [hfl] at vr
      simp only [Option.getD_some] at vr
      refine ⟨?_, fun j => ?_, fun f hf => ?_, fun j x f hm hx hf hu => ?_, fun h => i5 (by rw [vs]; exact wf_tput h _ _)⟩
      · obtain ⟨sl, rc, e⟩ := i1
        refine ⟨sl, rc, ?_⟩
        rw [e, hv2]; rfl
      · rw [i2, vs, tget_tput_any]
        by_cases hj : j = k
        · subst hj
          rw [if_pos rfl, if_neg (by rintro ⟨r, hr, e, _⟩; exact hne r hr e), if_pos ⟨_, List.mem_cons_self .., rfl, hw⟩, hk]; rfl
        · rw [if_neg hj]
          congr 1
          simp only [List.mem_cons, exists_eq_or_imp, eq_iff_iff]
          constructor
          · intro h; exact Or.inr h
          · rintro (⟨e, _⟩ | h)
            · exact absurd e.symm hj
            · exact h
      · rw [i3 f (fun r hr => hf r (List.mem_cons_of_mem _ hr)), vr]
        have := hf _ (List.mem_cons_self ..) hw
        simp only [hfl] at this
        unfold tupd
        rw [tget_tmap]
        have e : f ≠ fl := fun e => this (by rw [e])
        simp only [if_neg e]
        cases tget u.wrg.records f <;> rfl
      · rcases List.mem_cons.mp hm with hm | hm
        · cases hm
          rw [i3 f (fun r hr h1 h2 => hne r hr (hu r (List.mem_cons_of_mem _ hr) h1 h2)), vr]
          rw [hfl] at hf; cases hf
          unfold tupd
          rw [tget_tmap]; simp
        · have e : f ≠ fl := fun e => by
            have := hu _ (List.mem_cons_self ..) hw (by rw [e]; exact hfl)
            exact hne _ hm this.symm
          rw [i4 j x f hm hx hf (fun r hr => hu r (List.mem_cons_of_mem _ hr)), vr]
          unfold tupd
          rw [tget_tmap]
          simp only [if_neg e]
          cases tget u.wrg.records f <;> rfl
    · rw [if_neg hw] at hv2
      obtain ⟨i1, i2, i3, i4, i5⟩ := foldl_finalUpdate recs l v hn.2 (fun x => by rw [hv2, hh]) (fun r hr => by
        rw [hv2]; exact ht r (List.mem_cons_of_mem _ hr))
      rw [← hu', hv2] at i1 i2 i3 i4 i5
      refine ⟨i1, fun j => ?_, fun f hf => i3 f (fun r hr => hf r (List.mem_cons_of_mem _ hr)), fun j x f hm hx hf hu => ?_, i5⟩
      · rw [i2]
        congr 1
        simp only [List.mem_cons, exists_eq_or_imp, hw, and_false, false_or, Bool.false_eq_true]
      · rcases List.mem_cons.mp hm with hm | hm
        · cases hm; exact absurd hx hw
        · exact i4 j x f hm hx hf (fun r hr => hu r (List.mem_cons_of_mem _ hr))

end Sys2Proof.Machine
end

