-- ==== Sys2Proof/Laws/State.lean ====
section
/-! SUPPORT. One lemma for each field of State under each update of a field, true by rfl, so that no later
proof unfolds a record update. -/

namespace Sys2Proof.Machine

set_option Elab.async false

@[simp] theorem State.setPending_pending (s : State) (x : List Instr) : (s.setPending x).pending = x := rfl
@[simp] theorem State.setPending_powered (s : State) (x : List Instr) : (s.setPending x).powered = s.powered := rfl
@[simp] theorem State.setPending_condition (s : State) (x : List Instr) : (s.setPending x).condition = s.condition := rfl
@[simp] theorem State.setPending_timebase (s : State) (x : List Instr) : (s.setPending x).timebase = s.timebase := rfl
@[simp] theorem State.setPending_freeCount (s : State) (x : List Instr) : (s.setPending x).freeCount = s.freeCount := rfl
@[simp] theorem State.setPending_calsw (s : State) (x : List Instr) : (s.setPending x).calsw = s.calsw := rfl
@[simp] theorem State.setPending_store (s : State) (x : List Instr) : (s.setPending x).store = s.store := rfl
@[simp] theorem State.setPending_settings (s : State) (x : List Instr) : (s.setPending x).settings = s.settings := rfl
@[simp] theorem State.setPending_wsu (s : State) (x : List Instr) : (s.setPending x).wsu = s.wsu := rfl
@[simp] theorem State.setPending_lcu (s : State) (x : List Instr) : (s.setPending x).lcu = s.lcu := rfl
@[simp] theorem State.setPending_axt (s : State) (x : List Instr) : (s.setPending x).axt = s.axt := rfl
@[simp] theorem State.setPending_meu (s : State) (x : List Instr) : (s.setPending x).meu = s.meu := rfl
@[simp] theorem State.setPending_zcl (s : State) (x : List Instr) : (s.setPending x).zcl = s.zcl := rfl
@[simp] theorem State.setPending_seg (s : State) (x : List Instr) : (s.setPending x).seg = s.seg := rfl
@[simp] theorem State.setPending_ptb (s : State) (x : List Instr) : (s.setPending x).ptb = s.ptb := rfl
@[simp] theorem State.setPending_wrg (s : State) (x : List Instr) : (s.setPending x).wrg = s.wrg := rfl
@[simp] theorem State.setPending_cal (s : State) (x : List Instr) : (s.setPending x).cal = s.cal := rfl
@[simp] theorem State.setPending_stc (s : State) (x : List Instr) : (s.setPending x).stc = s.stc := rfl
@[simp] theorem State.setPending_fau (s : State) (x : List Instr) : (s.setPending x).fau = s.fau := rfl
@[simp] theorem State.setPending_slk (s : State) (x : List Instr) : (s.setPending x).slk = s.slk := rfl
@[simp] theorem State.setPowered_pending (s : State) (x : Bool) : (s.setPowered x).pending = s.pending := rfl
@[simp] theorem State.setPowered_powered (s : State) (x : Bool) : (s.setPowered x).powered = x := rfl
@[simp] theorem State.setPowered_condition (s : State) (x : Bool) : (s.setPowered x).condition = s.condition := rfl
@[simp] theorem State.setPowered_timebase (s : State) (x : Bool) : (s.setPowered x).timebase = s.timebase := rfl
@[simp] theorem State.setPowered_freeCount (s : State) (x : Bool) : (s.setPowered x).freeCount = s.freeCount := rfl
@[simp] theorem State.setPowered_calsw (s : State) (x : Bool) : (s.setPowered x).calsw = s.calsw := rfl
@[simp] theorem State.setPowered_store (s : State) (x : Bool) : (s.setPowered x).store = s.store := rfl
@[simp] theorem State.setPowered_settings (s : State) (x : Bool) : (s.setPowered x).settings = s.settings := rfl
@[simp] theorem State.setPowered_wsu (s : State) (x : Bool) : (s.setPowered x).wsu = s.wsu := rfl
@[simp] theorem State.setPowered_lcu (s : State) (x : Bool) : (s.setPowered x).lcu = s.lcu := rfl
@[simp] theorem State.setPowered_axt (s : State) (x : Bool) : (s.setPowered x).axt = s.axt := rfl
@[simp] theorem State.setPowered_meu (s : State) (x : Bool) : (s.setPowered x).meu = s.meu := rfl
@[simp] theorem State.setPowered_zcl (s : State) (x : Bool) : (s.setPowered x).zcl = s.zcl := rfl
@[simp] theorem State.setPowered_seg (s : State) (x : Bool) : (s.setPowered x).seg = s.seg := rfl
@[simp] theorem State.setPowered_ptb (s : State) (x : Bool) : (s.setPowered x).ptb = s.ptb := rfl
@[simp] theorem State.setPowered_wrg (s : State) (x : Bool) : (s.setPowered x).wrg = s.wrg := rfl
@[simp] theorem State.setPowered_cal (s : State) (x : Bool) : (s.setPowered x).cal = s.cal := rfl
@[simp] theorem State.setPowered_stc (s : State) (x : Bool) : (s.setPowered x).stc = s.stc := rfl
@[simp] theorem State.setPowered_fau (s : State) (x : Bool) : (s.setPowered x).fau = s.fau := rfl
@[simp] theorem State.setPowered_slk (s : State) (x : Bool) : (s.setPowered x).slk = s.slk := rfl
@[simp] theorem State.setCondition_pending (s : State) (x : Condition) : (s.setCondition x).pending = s.pending := rfl
@[simp] theorem State.setCondition_powered (s : State) (x : Condition) : (s.setCondition x).powered = s.powered := rfl
@[simp] theorem State.setCondition_condition (s : State) (x : Condition) : (s.setCondition x).condition = x := rfl
@[simp] theorem State.setCondition_timebase (s : State) (x : Condition) : (s.setCondition x).timebase = s.timebase := rfl
@[simp] theorem State.setCondition_freeCount (s : State) (x : Condition) : (s.setCondition x).freeCount = s.freeCount := rfl
@[simp] theorem State.setCondition_calsw (s : State) (x : Condition) : (s.setCondition x).calsw = s.calsw := rfl
@[simp] theorem State.setCondition_store (s : State) (x : Condition) : (s.setCondition x).store = s.store := rfl
@[simp] theorem State.setCondition_settings (s : State) (x : Condition) : (s.setCondition x).settings = s.settings := rfl
@[simp] theorem State.setCondition_wsu (s : State) (x : Condition) : (s.setCondition x).wsu = s.wsu := rfl
@[simp] theorem State.setCondition_lcu (s : State) (x : Condition) : (s.setCondition x).lcu = s.lcu := rfl
@[simp] theorem State.setCondition_axt (s : State) (x : Condition) : (s.setCondition x).axt = s.axt := rfl
@[simp] theorem State.setCondition_meu (s : State) (x : Condition) : (s.setCondition x).meu = s.meu := rfl
@[simp] theorem State.setCondition_zcl (s : State) (x : Condition) : (s.setCondition x).zcl = s.zcl := rfl
@[simp] theorem State.setCondition_seg (s : State) (x : Condition) : (s.setCondition x).seg = s.seg := rfl
@[simp] theorem State.setCondition_ptb (s : State) (x : Condition) : (s.setCondition x).ptb = s.ptb := rfl
@[simp] theorem State.setCondition_wrg (s : State) (x : Condition) : (s.setCondition x).wrg = s.wrg := rfl
@[simp] theorem State.setCondition_cal (s : State) (x : Condition) : (s.setCondition x).cal = s.cal := rfl
@[simp] theorem State.setCondition_stc (s : State) (x : Condition) : (s.setCondition x).stc = s.stc := rfl
@[simp] theorem State.setCondition_fau (s : State) (x : Condition) : (s.setCondition x).fau = s.fau := rfl
@[simp] theorem State.setCondition_slk (s : State) (x : Condition) : (s.setCondition x).slk = s.slk := rfl
@[simp] theorem State.setTimebase_pending (s : State) (x : Nat) : (s.setTimebase x).pending = s.pending := rfl
@[simp] theorem State.setTimebase_powered (s : State) (x : Nat) : (s.setTimebase x).powered = s.powered := rfl
@[simp] theorem State.setTimebase_condition (s : State) (x : Nat) : (s.setTimebase x).condition = s.condition := rfl
@[simp] theorem State.setTimebase_timebase (s : State) (x : Nat) : (s.setTimebase x).timebase = x := rfl
@[simp] theorem State.setTimebase_freeCount (s : State) (x : Nat) : (s.setTimebase x).freeCount = s.freeCount := rfl
@[simp] theorem State.setTimebase_calsw (s : State) (x : Nat) : (s.setTimebase x).calsw = s.calsw := rfl
@[simp] theorem State.setTimebase_store (s : State) (x : Nat) : (s.setTimebase x).store = s.store := rfl
@[simp] theorem State.setTimebase_settings (s : State) (x : Nat) : (s.setTimebase x).settings = s.settings := rfl
@[simp] theorem State.setTimebase_wsu (s : State) (x : Nat) : (s.setTimebase x).wsu = s.wsu := rfl
@[simp] theorem State.setTimebase_lcu (s : State) (x : Nat) : (s.setTimebase x).lcu = s.lcu := rfl
@[simp] theorem State.setTimebase_axt (s : State) (x : Nat) : (s.setTimebase x).axt = s.axt := rfl
@[simp] theorem State.setTimebase_meu (s : State) (x : Nat) : (s.setTimebase x).meu = s.meu := rfl
@[simp] theorem State.setTimebase_zcl (s : State) (x : Nat) : (s.setTimebase x).zcl = s.zcl := rfl
@[simp] theorem State.setTimebase_seg (s : State) (x : Nat) : (s.setTimebase x).seg = s.seg := rfl
@[simp] theorem State.setTimebase_ptb (s : State) (x : Nat) : (s.setTimebase x).ptb = s.ptb := rfl
@[simp] theorem State.setTimebase_wrg (s : State) (x : Nat) : (s.setTimebase x).wrg = s.wrg := rfl
@[simp] theorem State.setTimebase_cal (s : State) (x : Nat) : (s.setTimebase x).cal = s.cal := rfl
@[simp] theorem State.setTimebase_stc (s : State) (x : Nat) : (s.setTimebase x).stc = s.stc := rfl
@[simp] theorem State.setTimebase_fau (s : State) (x : Nat) : (s.setTimebase x).fau = s.fau := rfl
@[simp] theorem State.setTimebase_slk (s : State) (x : Nat) : (s.setTimebase x).slk = s.slk := rfl
@[simp] theorem State.setFreeCount_pending (s : State) (x : Nat) : (s.setFreeCount x).pending = s.pending := rfl
@[simp] theorem State.setFreeCount_powered (s : State) (x : Nat) : (s.setFreeCount x).powered = s.powered := rfl
@[simp] theorem State.setFreeCount_condition (s : State) (x : Nat) : (s.setFreeCount x).condition = s.condition := rfl
@[simp] theorem State.setFreeCount_timebase (s : State) (x : Nat) : (s.setFreeCount x).timebase = s.timebase := rfl
@[simp] theorem State.setFreeCount_freeCount (s : State) (x : Nat) : (s.setFreeCount x).freeCount = x := rfl
@[simp] theorem State.setFreeCount_calsw (s : State) (x : Nat) : (s.setFreeCount x).calsw = s.calsw := rfl
@[simp] theorem State.setFreeCount_store (s : State) (x : Nat) : (s.setFreeCount x).store = s.store := rfl
@[simp] theorem State.setFreeCount_settings (s : State) (x : Nat) : (s.setFreeCount x).settings = s.settings := rfl
@[simp] theorem State.setFreeCount_wsu (s : State) (x : Nat) : (s.setFreeCount x).wsu = s.wsu := rfl
@[simp] theorem State.setFreeCount_lcu (s : State) (x : Nat) : (s.setFreeCount x).lcu = s.lcu := rfl
@[simp] theorem State.setFreeCount_axt (s : State) (x : Nat) : (s.setFreeCount x).axt = s.axt := rfl
@[simp] theorem State.setFreeCount_meu (s : State) (x : Nat) : (s.setFreeCount x).meu = s.meu := rfl
@[simp] theorem State.setFreeCount_zcl (s : State) (x : Nat) : (s.setFreeCount x).zcl = s.zcl := rfl
@[simp] theorem State.setFreeCount_seg (s : State) (x : Nat) : (s.setFreeCount x).seg = s.seg := rfl
@[simp] theorem State.setFreeCount_ptb (s : State) (x : Nat) : (s.setFreeCount x).ptb = s.ptb := rfl
@[simp] theorem State.setFreeCount_wrg (s : State) (x : Nat) : (s.setFreeCount x).wrg = s.wrg := rfl
@[simp] theorem State.setFreeCount_cal (s : State) (x : Nat) : (s.setFreeCount x).cal = s.cal := rfl
@[simp] theorem State.setFreeCount_stc (s : State) (x : Nat) : (s.setFreeCount x).stc = s.stc := rfl
@[simp] theorem State.setFreeCount_fau (s : State) (x : Nat) : (s.setFreeCount x).fau = s.fau := rfl
@[simp] theorem State.setFreeCount_slk (s : State) (x : Nat) : (s.setFreeCount x).slk = s.slk := rfl
@[simp] theorem State.setCalsw_pending (s : State) (x : SwitchPos) : (s.setCalsw x).pending = s.pending := rfl
@[simp] theorem State.setCalsw_powered (s : State) (x : SwitchPos) : (s.setCalsw x).powered = s.powered := rfl
@[simp] theorem State.setCalsw_condition (s : State) (x : SwitchPos) : (s.setCalsw x).condition = s.condition := rfl
@[simp] theorem State.setCalsw_timebase (s : State) (x : SwitchPos) : (s.setCalsw x).timebase = s.timebase := rfl
@[simp] theorem State.setCalsw_freeCount (s : State) (x : SwitchPos) : (s.setCalsw x).freeCount = s.freeCount := rfl
@[simp] theorem State.setCalsw_calsw (s : State) (x : SwitchPos) : (s.setCalsw x).calsw = x := rfl
@[simp] theorem State.setCalsw_store (s : State) (x : SwitchPos) : (s.setCalsw x).store = s.store := rfl
@[simp] theorem State.setCalsw_settings (s : State) (x : SwitchPos) : (s.setCalsw x).settings = s.settings := rfl
@[simp] theorem State.setCalsw_wsu (s : State) (x : SwitchPos) : (s.setCalsw x).wsu = s.wsu := rfl
@[simp] theorem State.setCalsw_lcu (s : State) (x : SwitchPos) : (s.setCalsw x).lcu = s.lcu := rfl
@[simp] theorem State.setCalsw_axt (s : State) (x : SwitchPos) : (s.setCalsw x).axt = s.axt := rfl
@[simp] theorem State.setCalsw_meu (s : State) (x : SwitchPos) : (s.setCalsw x).meu = s.meu := rfl
@[simp] theorem State.setCalsw_zcl (s : State) (x : SwitchPos) : (s.setCalsw x).zcl = s.zcl := rfl
@[simp] theorem State.setCalsw_seg (s : State) (x : SwitchPos) : (s.setCalsw x).seg = s.seg := rfl
@[simp] theorem State.setCalsw_ptb (s : State) (x : SwitchPos) : (s.setCalsw x).ptb = s.ptb := rfl
@[simp] theorem State.setCalsw_wrg (s : State) (x : SwitchPos) : (s.setCalsw x).wrg = s.wrg := rfl
@[simp] theorem State.setCalsw_cal (s : State) (x : SwitchPos) : (s.setCalsw x).cal = s.cal := rfl
@[simp] theorem State.setCalsw_stc (s : State) (x : SwitchPos) : (s.setCalsw x).stc = s.stc := rfl
@[simp] theorem State.setCalsw_fau (s : State) (x : SwitchPos) : (s.setCalsw x).fau = s.fau := rfl
@[simp] theorem State.setCalsw_slk (s : State) (x : SwitchPos) : (s.setCalsw x).slk = s.slk := rfl
@[simp] theorem State.setStore_pending (s : State) (x : Store) : (s.setStore x).pending = s.pending := rfl
@[simp] theorem State.setStore_powered (s : State) (x : Store) : (s.setStore x).powered = s.powered := rfl
@[simp] theorem State.setStore_condition (s : State) (x : Store) : (s.setStore x).condition = s.condition := rfl
@[simp] theorem State.setStore_timebase (s : State) (x : Store) : (s.setStore x).timebase = s.timebase := rfl
@[simp] theorem State.setStore_freeCount (s : State) (x : Store) : (s.setStore x).freeCount = s.freeCount := rfl
@[simp] theorem State.setStore_calsw (s : State) (x : Store) : (s.setStore x).calsw = s.calsw := rfl
@[simp] theorem State.setStore_store (s : State) (x : Store) : (s.setStore x).store = x := rfl
@[simp] theorem State.setStore_settings (s : State) (x : Store) : (s.setStore x).settings = s.settings := rfl
@[simp] theorem State.setStore_wsu (s : State) (x : Store) : (s.setStore x).wsu = s.wsu := rfl
@[simp] theorem State.setStore_lcu (s : State) (x : Store) : (s.setStore x).lcu = s.lcu := rfl
@[simp] theorem State.setStore_axt (s : State) (x : Store) : (s.setStore x).axt = s.axt := rfl
@[simp] theorem State.setStore_meu (s : State) (x : Store) : (s.setStore x).meu = s.meu := rfl
@[simp] theorem State.setStore_zcl (s : State) (x : Store) : (s.setStore x).zcl = s.zcl := rfl
@[simp] theorem State.setStore_seg (s : State) (x : Store) : (s.setStore x).seg = s.seg := rfl
@[simp] theorem State.setStore_ptb (s : State) (x : Store) : (s.setStore x).ptb = s.ptb := rfl
@[simp] theorem State.setStore_wrg (s : State) (x : Store) : (s.setStore x).wrg = s.wrg := rfl
@[simp] theorem State.setStore_cal (s : State) (x : Store) : (s.setStore x).cal = s.cal := rfl
@[simp] theorem State.setStore_stc (s : State) (x : Store) : (s.setStore x).stc = s.stc := rfl
@[simp] theorem State.setStore_fau (s : State) (x : Store) : (s.setStore x).fau = s.fau := rfl
@[simp] theorem State.setStore_slk (s : State) (x : Store) : (s.setStore x).slk = s.slk := rfl
@[simp] theorem State.setSettings_pending (s : State) (x : Settings) : (s.setSettings x).pending = s.pending := rfl
@[simp] theorem State.setSettings_powered (s : State) (x : Settings) : (s.setSettings x).powered = s.powered := rfl
@[simp] theorem State.setSettings_condition (s : State) (x : Settings) : (s.setSettings x).condition = s.condition := rfl
@[simp] theorem State.setSettings_timebase (s : State) (x : Settings) : (s.setSettings x).timebase = s.timebase := rfl
@[simp] theorem State.setSettings_freeCount (s : State) (x : Settings) : (s.setSettings x).freeCount = s.freeCount := rfl
@[simp] theorem State.setSettings_calsw (s : State) (x : Settings) : (s.setSettings x).calsw = s.calsw := rfl
@[simp] theorem State.setSettings_store (s : State) (x : Settings) : (s.setSettings x).store = s.store := rfl
@[simp] theorem State.setSettings_settings (s : State) (x : Settings) : (s.setSettings x).settings = x := rfl
@[simp] theorem State.setSettings_wsu (s : State) (x : Settings) : (s.setSettings x).wsu = s.wsu := rfl
@[simp] theorem State.setSettings_lcu (s : State) (x : Settings) : (s.setSettings x).lcu = s.lcu := rfl
@[simp] theorem State.setSettings_axt (s : State) (x : Settings) : (s.setSettings x).axt = s.axt := rfl
@[simp] theorem State.setSettings_meu (s : State) (x : Settings) : (s.setSettings x).meu = s.meu := rfl
@[simp] theorem State.setSettings_zcl (s : State) (x : Settings) : (s.setSettings x).zcl = s.zcl := rfl
@[simp] theorem State.setSettings_seg (s : State) (x : Settings) : (s.setSettings x).seg = s.seg := rfl
@[simp] theorem State.setSettings_ptb (s : State) (x : Settings) : (s.setSettings x).ptb = s.ptb := rfl
@[simp] theorem State.setSettings_wrg (s : State) (x : Settings) : (s.setSettings x).wrg = s.wrg := rfl
@[simp] theorem State.setSettings_cal (s : State) (x : Settings) : (s.setSettings x).cal = s.cal := rfl
@[simp] theorem State.setSettings_stc (s : State) (x : Settings) : (s.setSettings x).stc = s.stc := rfl
@[simp] theorem State.setSettings_fau (s : State) (x : Settings) : (s.setSettings x).fau = s.fau := rfl
@[simp] theorem State.setSettings_slk (s : State) (x : Settings) : (s.setSettings x).slk = s.slk := rfl
@[simp] theorem State.setWsu_pending (s : State) (x : Wsu) : (s.setWsu x).pending = s.pending := rfl
@[simp] theorem State.setWsu_powered (s : State) (x : Wsu) : (s.setWsu x).powered = s.powered := rfl
@[simp] theorem State.setWsu_condition (s : State) (x : Wsu) : (s.setWsu x).condition = s.condition := rfl
@[simp] theorem State.setWsu_timebase (s : State) (x : Wsu) : (s.setWsu x).timebase = s.timebase := rfl
@[simp] theorem State.setWsu_freeCount (s : State) (x : Wsu) : (s.setWsu x).freeCount = s.freeCount := rfl
@[simp] theorem State.setWsu_calsw (s : State) (x : Wsu) : (s.setWsu x).calsw = s.calsw := rfl
@[simp] theorem State.setWsu_store (s : State) (x : Wsu) : (s.setWsu x).store = s.store := rfl
@[simp] theorem State.setWsu_settings (s : State) (x : Wsu) : (s.setWsu x).settings = s.settings := rfl
@[simp] theorem State.setWsu_wsu (s : State) (x : Wsu) : (s.setWsu x).wsu = x := rfl
@[simp] theorem State.setWsu_lcu (s : State) (x : Wsu) : (s.setWsu x).lcu = s.lcu := rfl
@[simp] theorem State.setWsu_axt (s : State) (x : Wsu) : (s.setWsu x).axt = s.axt := rfl
@[simp] theorem State.setWsu_meu (s : State) (x : Wsu) : (s.setWsu x).meu = s.meu := rfl
@[simp] theorem State.setWsu_zcl (s : State) (x : Wsu) : (s.setWsu x).zcl = s.zcl := rfl
@[simp] theorem State.setWsu_seg (s : State) (x : Wsu) : (s.setWsu x).seg = s.seg := rfl
@[simp] theorem State.setWsu_ptb (s : State) (x : Wsu) : (s.setWsu x).ptb = s.ptb := rfl
@[simp] theorem State.setWsu_wrg (s : State) (x : Wsu) : (s.setWsu x).wrg = s.wrg := rfl
@[simp] theorem State.setWsu_cal (s : State) (x : Wsu) : (s.setWsu x).cal = s.cal := rfl
@[simp] theorem State.setWsu_stc (s : State) (x : Wsu) : (s.setWsu x).stc = s.stc := rfl
@[simp] theorem State.setWsu_fau (s : State) (x : Wsu) : (s.setWsu x).fau = s.fau := rfl
@[simp] theorem State.setWsu_slk (s : State) (x : Wsu) : (s.setWsu x).slk = s.slk := rfl
@[simp] theorem State.setLcu_pending (s : State) (x : Lcu) : (s.setLcu x).pending = s.pending := rfl
@[simp] theorem State.setLcu_powered (s : State) (x : Lcu) : (s.setLcu x).powered = s.powered := rfl
@[simp] theorem State.setLcu_condition (s : State) (x : Lcu) : (s.setLcu x).condition = s.condition := rfl
@[simp] theorem State.setLcu_timebase (s : State) (x : Lcu) : (s.setLcu x).timebase = s.timebase := rfl
@[simp] theorem State.setLcu_freeCount (s : State) (x : Lcu) : (s.setLcu x).freeCount = s.freeCount := rfl
@[simp] theorem State.setLcu_calsw (s : State) (x : Lcu) : (s.setLcu x).calsw = s.calsw := rfl
@[simp] theorem State.setLcu_store (s : State) (x : Lcu) : (s.setLcu x).store = s.store := rfl
@[simp] theorem State.setLcu_settings (s : State) (x : Lcu) : (s.setLcu x).settings = s.settings := rfl
@[simp] theorem State.setLcu_wsu (s : State) (x : Lcu) : (s.setLcu x).wsu = s.wsu := rfl
@[simp] theorem State.setLcu_lcu (s : State) (x : Lcu) : (s.setLcu x).lcu = x := rfl
@[simp] theorem State.setLcu_axt (s : State) (x : Lcu) : (s.setLcu x).axt = s.axt := rfl
@[simp] theorem State.setLcu_meu (s : State) (x : Lcu) : (s.setLcu x).meu = s.meu := rfl
@[simp] theorem State.setLcu_zcl (s : State) (x : Lcu) : (s.setLcu x).zcl = s.zcl := rfl
@[simp] theorem State.setLcu_seg (s : State) (x : Lcu) : (s.setLcu x).seg = s.seg := rfl
@[simp] theorem State.setLcu_ptb (s : State) (x : Lcu) : (s.setLcu x).ptb = s.ptb := rfl
@[simp] theorem State.setLcu_wrg (s : State) (x : Lcu) : (s.setLcu x).wrg = s.wrg := rfl
@[simp] theorem State.setLcu_cal (s : State) (x : Lcu) : (s.setLcu x).cal = s.cal := rfl
@[simp] theorem State.setLcu_stc (s : State) (x : Lcu) : (s.setLcu x).stc = s.stc := rfl
@[simp] theorem State.setLcu_fau (s : State) (x : Lcu) : (s.setLcu x).fau = s.fau := rfl
@[simp] theorem State.setLcu_slk (s : State) (x : Lcu) : (s.setLcu x).slk = s.slk := rfl
@[simp] theorem State.setAxt_pending (s : State) (x : Axt) : (s.setAxt x).pending = s.pending := rfl
@[simp] theorem State.setAxt_powered (s : State) (x : Axt) : (s.setAxt x).powered = s.powered := rfl
@[simp] theorem State.setAxt_condition (s : State) (x : Axt) : (s.setAxt x).condition = s.condition := rfl
@[simp] theorem State.setAxt_timebase (s : State) (x : Axt) : (s.setAxt x).timebase = s.timebase := rfl
@[simp] theorem State.setAxt_freeCount (s : State) (x : Axt) : (s.setAxt x).freeCount = s.freeCount := rfl
@[simp] theorem State.setAxt_calsw (s : State) (x : Axt) : (s.setAxt x).calsw = s.calsw := rfl
@[simp] theorem State.setAxt_store (s : State) (x : Axt) : (s.setAxt x).store = s.store := rfl
@[simp] theorem State.setAxt_settings (s : State) (x : Axt) : (s.setAxt x).settings = s.settings := rfl
@[simp] theorem State.setAxt_wsu (s : State) (x : Axt) : (s.setAxt x).wsu = s.wsu := rfl
@[simp] theorem State.setAxt_lcu (s : State) (x : Axt) : (s.setAxt x).lcu = s.lcu := rfl
@[simp] theorem State.setAxt_axt (s : State) (x : Axt) : (s.setAxt x).axt = x := rfl
@[simp] theorem State.setAxt_meu (s : State) (x : Axt) : (s.setAxt x).meu = s.meu := rfl
@[simp] theorem State.setAxt_zcl (s : State) (x : Axt) : (s.setAxt x).zcl = s.zcl := rfl
@[simp] theorem State.setAxt_seg (s : State) (x : Axt) : (s.setAxt x).seg = s.seg := rfl
@[simp] theorem State.setAxt_ptb (s : State) (x : Axt) : (s.setAxt x).ptb = s.ptb := rfl
@[simp] theorem State.setAxt_wrg (s : State) (x : Axt) : (s.setAxt x).wrg = s.wrg := rfl
@[simp] theorem State.setAxt_cal (s : State) (x : Axt) : (s.setAxt x).cal = s.cal := rfl
@[simp] theorem State.setAxt_stc (s : State) (x : Axt) : (s.setAxt x).stc = s.stc := rfl
@[simp] theorem State.setAxt_fau (s : State) (x : Axt) : (s.setAxt x).fau = s.fau := rfl
@[simp] theorem State.setAxt_slk (s : State) (x : Axt) : (s.setAxt x).slk = s.slk := rfl
@[simp] theorem State.setMeu_pending (s : State) (x : Meu) : (s.setMeu x).pending = s.pending := rfl
@[simp] theorem State.setMeu_powered (s : State) (x : Meu) : (s.setMeu x).powered = s.powered := rfl
@[simp] theorem State.setMeu_condition (s : State) (x : Meu) : (s.setMeu x).condition = s.condition := rfl
@[simp] theorem State.setMeu_timebase (s : State) (x : Meu) : (s.setMeu x).timebase = s.timebase := rfl
@[simp] theorem State.setMeu_freeCount (s : State) (x : Meu) : (s.setMeu x).freeCount = s.freeCount := rfl
@[simp] theorem State.setMeu_calsw (s : State) (x : Meu) : (s.setMeu x).calsw = s.calsw := rfl
@[simp] theorem State.setMeu_store (s : State) (x : Meu) : (s.setMeu x).store = s.store := rfl
@[simp] theorem State.setMeu_settings (s : State) (x : Meu) : (s.setMeu x).settings = s.settings := rfl
@[simp] theorem State.setMeu_wsu (s : State) (x : Meu) : (s.setMeu x).wsu = s.wsu := rfl
@[simp] theorem State.setMeu_lcu (s : State) (x : Meu) : (s.setMeu x).lcu = s.lcu := rfl
@[simp] theorem State.setMeu_axt (s : State) (x : Meu) : (s.setMeu x).axt = s.axt := rfl
@[simp] theorem State.setMeu_meu (s : State) (x : Meu) : (s.setMeu x).meu = x := rfl
@[simp] theorem State.setMeu_zcl (s : State) (x : Meu) : (s.setMeu x).zcl = s.zcl := rfl
@[simp] theorem State.setMeu_seg (s : State) (x : Meu) : (s.setMeu x).seg = s.seg := rfl
@[simp] theorem State.setMeu_ptb (s : State) (x : Meu) : (s.setMeu x).ptb = s.ptb := rfl
@[simp] theorem State.setMeu_wrg (s : State) (x : Meu) : (s.setMeu x).wrg = s.wrg := rfl
@[simp] theorem State.setMeu_cal (s : State) (x : Meu) : (s.setMeu x).cal = s.cal := rfl
@[simp] theorem State.setMeu_stc (s : State) (x : Meu) : (s.setMeu x).stc = s.stc := rfl
@[simp] theorem State.setMeu_fau (s : State) (x : Meu) : (s.setMeu x).fau = s.fau := rfl
@[simp] theorem State.setMeu_slk (s : State) (x : Meu) : (s.setMeu x).slk = s.slk := rfl
@[simp] theorem State.setZcl_pending (s : State) (x : Zcl) : (s.setZcl x).pending = s.pending := rfl
@[simp] theorem State.setZcl_powered (s : State) (x : Zcl) : (s.setZcl x).powered = s.powered := rfl
@[simp] theorem State.setZcl_condition (s : State) (x : Zcl) : (s.setZcl x).condition = s.condition := rfl
@[simp] theorem State.setZcl_timebase (s : State) (x : Zcl) : (s.setZcl x).timebase = s.timebase := rfl
@[simp] theorem State.setZcl_freeCount (s : State) (x : Zcl) : (s.setZcl x).freeCount = s.freeCount := rfl
@[simp] theorem State.setZcl_calsw (s : State) (x : Zcl) : (s.setZcl x).calsw = s.calsw := rfl
@[simp] theorem State.setZcl_store (s : State) (x : Zcl) : (s.setZcl x).store = s.store := rfl
@[simp] theorem State.setZcl_settings (s : State) (x : Zcl) : (s.setZcl x).settings = s.settings := rfl
@[simp] theorem State.setZcl_wsu (s : State) (x : Zcl) : (s.setZcl x).wsu = s.wsu := rfl
@[simp] theorem State.setZcl_lcu (s : State) (x : Zcl) : (s.setZcl x).lcu = s.lcu := rfl
@[simp] theorem State.setZcl_axt (s : State) (x : Zcl) : (s.setZcl x).axt = s.axt := rfl
@[simp] theorem State.setZcl_meu (s : State) (x : Zcl) : (s.setZcl x).meu = s.meu := rfl
@[simp] theorem State.setZcl_zcl (s : State) (x : Zcl) : (s.setZcl x).zcl = x := rfl
@[simp] theorem State.setZcl_seg (s : State) (x : Zcl) : (s.setZcl x).seg = s.seg := rfl
@[simp] theorem State.setZcl_ptb (s : State) (x : Zcl) : (s.setZcl x).ptb = s.ptb := rfl
@[simp] theorem State.setZcl_wrg (s : State) (x : Zcl) : (s.setZcl x).wrg = s.wrg := rfl
@[simp] theorem State.setZcl_cal (s : State) (x : Zcl) : (s.setZcl x).cal = s.cal := rfl
@[simp] theorem State.setZcl_stc (s : State) (x : Zcl) : (s.setZcl x).stc = s.stc := rfl
@[simp] theorem State.setZcl_fau (s : State) (x : Zcl) : (s.setZcl x).fau = s.fau := rfl
@[simp] theorem State.setZcl_slk (s : State) (x : Zcl) : (s.setZcl x).slk = s.slk := rfl
@[simp] theorem State.setSeg_pending (s : State) (x : Seg) : (s.setSeg x).pending = s.pending := rfl
@[simp] theorem State.setSeg_powered (s : State) (x : Seg) : (s.setSeg x).powered = s.powered := rfl
@[simp] theorem State.setSeg_condition (s : State) (x : Seg) : (s.setSeg x).condition = s.condition := rfl
@[simp] theorem State.setSeg_timebase (s : State) (x : Seg) : (s.setSeg x).timebase = s.timebase := rfl
@[simp] theorem State.setSeg_freeCount (s : State) (x : Seg) : (s.setSeg x).freeCount = s.freeCount := rfl
@[simp] theorem State.setSeg_calsw (s : State) (x : Seg) : (s.setSeg x).calsw = s.calsw := rfl
@[simp] theorem State.setSeg_store (s : State) (x : Seg) : (s.setSeg x).store = s.store := rfl
@[simp] theorem State.setSeg_settings (s : State) (x : Seg) : (s.setSeg x).settings = s.settings := rfl
@[simp] theorem State.setSeg_wsu (s : State) (x : Seg) : (s.setSeg x).wsu = s.wsu := rfl
@[simp] theorem State.setSeg_lcu (s : State) (x : Seg) : (s.setSeg x).lcu = s.lcu := rfl
@[simp] theorem State.setSeg_axt (s : State) (x : Seg) : (s.setSeg x).axt = s.axt := rfl
@[simp] theorem State.setSeg_meu (s : State) (x : Seg) : (s.setSeg x).meu = s.meu := rfl
@[simp] theorem State.setSeg_zcl (s : State) (x : Seg) : (s.setSeg x).zcl = s.zcl := rfl
@[simp] theorem State.setSeg_seg (s : State) (x : Seg) : (s.setSeg x).seg = x := rfl
@[simp] theorem State.setSeg_ptb (s : State) (x : Seg) : (s.setSeg x).ptb = s.ptb := rfl
@[simp] theorem State.setSeg_wrg (s : State) (x : Seg) : (s.setSeg x).wrg = s.wrg := rfl
@[simp] theorem State.setSeg_cal (s : State) (x : Seg) : (s.setSeg x).cal = s.cal := rfl
@[simp] theorem State.setSeg_stc (s : State) (x : Seg) : (s.setSeg x).stc = s.stc := rfl
@[simp] theorem State.setSeg_fau (s : State) (x : Seg) : (s.setSeg x).fau = s.fau := rfl
@[simp] theorem State.setSeg_slk (s : State) (x : Seg) : (s.setSeg x).slk = s.slk := rfl
@[simp] theorem State.setPtb_pending (s : State) (x : Ptb) : (s.setPtb x).pending = s.pending := rfl
@[simp] theorem State.setPtb_powered (s : State) (x : Ptb) : (s.setPtb x).powered = s.powered := rfl
@[simp] theorem State.setPtb_condition (s : State) (x : Ptb) : (s.setPtb x).condition = s.condition := rfl
@[simp] theorem State.setPtb_timebase (s : State) (x : Ptb) : (s.setPtb x).timebase = s.timebase := rfl
@[simp] theorem State.setPtb_freeCount (s : State) (x : Ptb) : (s.setPtb x).freeCount = s.freeCount := rfl
@[simp] theorem State.setPtb_calsw (s : State) (x : Ptb) : (s.setPtb x).calsw = s.calsw := rfl
@[simp] theorem State.setPtb_store (s : State) (x : Ptb) : (s.setPtb x).store = s.store := rfl
@[simp] theorem State.setPtb_settings (s : State) (x : Ptb) : (s.setPtb x).settings = s.settings := rfl
@[simp] theorem State.setPtb_wsu (s : State) (x : Ptb) : (s.setPtb x).wsu = s.wsu := rfl
@[simp] theorem State.setPtb_lcu (s : State) (x : Ptb) : (s.setPtb x).lcu = s.lcu := rfl
@[simp] theorem State.setPtb_axt (s : State) (x : Ptb) : (s.setPtb x).axt = s.axt := rfl
@[simp] theorem State.setPtb_meu (s : State) (x : Ptb) : (s.setPtb x).meu = s.meu := rfl
@[simp] theorem State.setPtb_zcl (s : State) (x : Ptb) : (s.setPtb x).zcl = s.zcl := rfl
@[simp] theorem State.setPtb_seg (s : State) (x : Ptb) : (s.setPtb x).seg = s.seg := rfl
@[simp] theorem State.setPtb_ptb (s : State) (x : Ptb) : (s.setPtb x).ptb = x := rfl
@[simp] theorem State.setPtb_wrg (s : State) (x : Ptb) : (s.setPtb x).wrg = s.wrg := rfl
@[simp] theorem State.setPtb_cal (s : State) (x : Ptb) : (s.setPtb x).cal = s.cal := rfl
@[simp] theorem State.setPtb_stc (s : State) (x : Ptb) : (s.setPtb x).stc = s.stc := rfl
@[simp] theorem State.setPtb_fau (s : State) (x : Ptb) : (s.setPtb x).fau = s.fau := rfl
@[simp] theorem State.setPtb_slk (s : State) (x : Ptb) : (s.setPtb x).slk = s.slk := rfl
@[simp] theorem State.setWrg_pending (s : State) (x : Wrg) : (s.setWrg x).pending = s.pending := rfl
@[simp] theorem State.setWrg_powered (s : State) (x : Wrg) : (s.setWrg x).powered = s.powered := rfl
@[simp] theorem State.setWrg_condition (s : State) (x : Wrg) : (s.setWrg x).condition = s.condition := rfl
@[simp] theorem State.setWrg_timebase (s : State) (x : Wrg) : (s.setWrg x).timebase = s.timebase := rfl
@[simp] theorem State.setWrg_freeCount (s : State) (x : Wrg) : (s.setWrg x).freeCount = s.freeCount := rfl
@[simp] theorem State.setWrg_calsw (s : State) (x : Wrg) : (s.setWrg x).calsw = s.calsw := rfl
@[simp] theorem State.setWrg_store (s : State) (x : Wrg) : (s.setWrg x).store = s.store := rfl
@[simp] theorem State.setWrg_settings (s : State) (x : Wrg) : (s.setWrg x).settings = s.settings := rfl
@[simp] theorem State.setWrg_wsu (s : State) (x : Wrg) : (s.setWrg x).wsu = s.wsu := rfl
@[simp] theorem State.setWrg_lcu (s : State) (x : Wrg) : (s.setWrg x).lcu = s.lcu := rfl
@[simp] theorem State.setWrg_axt (s : State) (x : Wrg) : (s.setWrg x).axt = s.axt := rfl
@[simp] theorem State.setWrg_meu (s : State) (x : Wrg) : (s.setWrg x).meu = s.meu := rfl
@[simp] theorem State.setWrg_zcl (s : State) (x : Wrg) : (s.setWrg x).zcl = s.zcl := rfl
@[simp] theorem State.setWrg_seg (s : State) (x : Wrg) : (s.setWrg x).seg = s.seg := rfl
@[simp] theorem State.setWrg_ptb (s : State) (x : Wrg) : (s.setWrg x).ptb = s.ptb := rfl
@[simp] theorem State.setWrg_wrg (s : State) (x : Wrg) : (s.setWrg x).wrg = x := rfl
@[simp] theorem State.setWrg_cal (s : State) (x : Wrg) : (s.setWrg x).cal = s.cal := rfl
@[simp] theorem State.setWrg_stc (s : State) (x : Wrg) : (s.setWrg x).stc = s.stc := rfl
@[simp] theorem State.setWrg_fau (s : State) (x : Wrg) : (s.setWrg x).fau = s.fau := rfl
@[simp] theorem State.setWrg_slk (s : State) (x : Wrg) : (s.setWrg x).slk = s.slk := rfl
@[simp] theorem State.setCal_pending (s : State) (x : Cal) : (s.setCal x).pending = s.pending := rfl
@[simp] theorem State.setCal_powered (s : State) (x : Cal) : (s.setCal x).powered = s.powered := rfl
@[simp] theorem State.setCal_condition (s : State) (x : Cal) : (s.setCal x).condition = s.condition := rfl
@[simp] theorem State.setCal_timebase (s : State) (x : Cal) : (s.setCal x).timebase = s.timebase := rfl
@[simp] theorem State.setCal_freeCount (s : State) (x : Cal) : (s.setCal x).freeCount = s.freeCount := rfl
@[simp] theorem State.setCal_calsw (s : State) (x : Cal) : (s.setCal x).calsw = s.calsw := rfl
@[simp] theorem State.setCal_store (s : State) (x : Cal) : (s.setCal x).store = s.store := rfl
@[simp] theorem State.setCal_settings (s : State) (x : Cal) : (s.setCal x).settings = s.settings := rfl
@[simp] theorem State.setCal_wsu (s : State) (x : Cal) : (s.setCal x).wsu = s.wsu := rfl
@[simp] theorem State.setCal_lcu (s : State) (x : Cal) : (s.setCal x).lcu = s.lcu := rfl
@[simp] theorem State.setCal_axt (s : State) (x : Cal) : (s.setCal x).axt = s.axt := rfl
@[simp] theorem State.setCal_meu (s : State) (x : Cal) : (s.setCal x).meu = s.meu := rfl
@[simp] theorem State.setCal_zcl (s : State) (x : Cal) : (s.setCal x).zcl = s.zcl := rfl
@[simp] theorem State.setCal_seg (s : State) (x : Cal) : (s.setCal x).seg = s.seg := rfl
@[simp] theorem State.setCal_ptb (s : State) (x : Cal) : (s.setCal x).ptb = s.ptb := rfl
@[simp] theorem State.setCal_wrg (s : State) (x : Cal) : (s.setCal x).wrg = s.wrg := rfl
@[simp] theorem State.setCal_cal (s : State) (x : Cal) : (s.setCal x).cal = x := rfl
@[simp] theorem State.setCal_stc (s : State) (x : Cal) : (s.setCal x).stc = s.stc := rfl
@[simp] theorem State.setCal_fau (s : State) (x : Cal) : (s.setCal x).fau = s.fau := rfl
@[simp] theorem State.setCal_slk (s : State) (x : Cal) : (s.setCal x).slk = s.slk := rfl
@[simp] theorem State.setStc_pending (s : State) (x : Stc) : (s.setStc x).pending = s.pending := rfl
@[simp] theorem State.setStc_powered (s : State) (x : Stc) : (s.setStc x).powered = s.powered := rfl
@[simp] theorem State.setStc_condition (s : State) (x : Stc) : (s.setStc x).condition = s.condition := rfl
@[simp] theorem State.setStc_timebase (s : State) (x : Stc) : (s.setStc x).timebase = s.timebase := rfl
@[simp] theorem State.setStc_freeCount (s : State) (x : Stc) : (s.setStc x).freeCount = s.freeCount := rfl
@[simp] theorem State.setStc_calsw (s : State) (x : Stc) : (s.setStc x).calsw = s.calsw := rfl
@[simp] theorem State.setStc_store (s : State) (x : Stc) : (s.setStc x).store = s.store := rfl
@[simp] theorem State.setStc_settings (s : State) (x : Stc) : (s.setStc x).settings = s.settings := rfl
@[simp] theorem State.setStc_wsu (s : State) (x : Stc) : (s.setStc x).wsu = s.wsu := rfl
@[simp] theorem State.setStc_lcu (s : State) (x : Stc) : (s.setStc x).lcu = s.lcu := rfl
@[simp] theorem State.setStc_axt (s : State) (x : Stc) : (s.setStc x).axt = s.axt := rfl
@[simp] theorem State.setStc_meu (s : State) (x : Stc) : (s.setStc x).meu = s.meu := rfl
@[simp] theorem State.setStc_zcl (s : State) (x : Stc) : (s.setStc x).zcl = s.zcl := rfl
@[simp] theorem State.setStc_seg (s : State) (x : Stc) : (s.setStc x).seg = s.seg := rfl
@[simp] theorem State.setStc_ptb (s : State) (x : Stc) : (s.setStc x).ptb = s.ptb := rfl
@[simp] theorem State.setStc_wrg (s : State) (x : Stc) : (s.setStc x).wrg = s.wrg := rfl
@[simp] theorem State.setStc_cal (s : State) (x : Stc) : (s.setStc x).cal = s.cal := rfl
@[simp] theorem State.setStc_stc (s : State) (x : Stc) : (s.setStc x).stc = x := rfl
@[simp] theorem State.setStc_fau (s : State) (x : Stc) : (s.setStc x).fau = s.fau := rfl
@[simp] theorem State.setStc_slk (s : State) (x : Stc) : (s.setStc x).slk = s.slk := rfl
@[simp] theorem State.setFau_pending (s : State) (x : Fau) : (s.setFau x).pending = s.pending := rfl
@[simp] theorem State.setFau_powered (s : State) (x : Fau) : (s.setFau x).powered = s.powered := rfl
@[simp] theorem State.setFau_condition (s : State) (x : Fau) : (s.setFau x).condition = s.condition := rfl
@[simp] theorem State.setFau_timebase (s : State) (x : Fau) : (s.setFau x).timebase = s.timebase := rfl
@[simp] theorem State.setFau_freeCount (s : State) (x : Fau) : (s.setFau x).freeCount = s.freeCount := rfl
@[simp] theorem State.setFau_calsw (s : State) (x : Fau) : (s.setFau x).calsw = s.calsw := rfl
@[simp] theorem State.setFau_store (s : State) (x : Fau) : (s.setFau x).store = s.store := rfl
@[simp] theorem State.setFau_settings (s : State) (x : Fau) : (s.setFau x).settings = s.settings := rfl
@[simp] theorem State.setFau_wsu (s : State) (x : Fau) : (s.setFau x).wsu = s.wsu := rfl
@[simp] theorem State.setFau_lcu (s : State) (x : Fau) : (s.setFau x).lcu = s.lcu := rfl
@[simp] theorem State.setFau_axt (s : State) (x : Fau) : (s.setFau x).axt = s.axt := rfl
@[simp] theorem State.setFau_meu (s : State) (x : Fau) : (s.setFau x).meu = s.meu := rfl
@[simp] theorem State.setFau_zcl (s : State) (x : Fau) : (s.setFau x).zcl = s.zcl := rfl
@[simp] theorem State.setFau_seg (s : State) (x : Fau) : (s.setFau x).seg = s.seg := rfl
@[simp] theorem State.setFau_ptb (s : State) (x : Fau) : (s.setFau x).ptb = s.ptb := rfl
@[simp] theorem State.setFau_wrg (s : State) (x : Fau) : (s.setFau x).wrg = s.wrg := rfl
@[simp] theorem State.setFau_cal (s : State) (x : Fau) : (s.setFau x).cal = s.cal := rfl
@[simp] theorem State.setFau_stc (s : State) (x : Fau) : (s.setFau x).stc = s.stc := rfl
@[simp] theorem State.setFau_fau (s : State) (x : Fau) : (s.setFau x).fau = x := rfl
@[simp] theorem State.setFau_slk (s : State) (x : Fau) : (s.setFau x).slk = s.slk := rfl
@[simp] theorem State.setSlk_pending (s : State) (x : Slk) : (s.setSlk x).pending = s.pending := rfl
@[simp] theorem State.setSlk_powered (s : State) (x : Slk) : (s.setSlk x).powered = s.powered := rfl
@[simp] theorem State.setSlk_condition (s : State) (x : Slk) : (s.setSlk x).condition = s.condition := rfl
@[simp] theorem State.setSlk_timebase (s : State) (x : Slk) : (s.setSlk x).timebase = s.timebase := rfl
@[simp] theorem State.setSlk_freeCount (s : State) (x : Slk) : (s.setSlk x).freeCount = s.freeCount := rfl
@[simp] theorem State.setSlk_calsw (s : State) (x : Slk) : (s.setSlk x).calsw = s.calsw := rfl
@[simp] theorem State.setSlk_store (s : State) (x : Slk) : (s.setSlk x).store = s.store := rfl
@[simp] theorem State.setSlk_settings (s : State) (x : Slk) : (s.setSlk x).settings = s.settings := rfl
@[simp] theorem State.setSlk_wsu (s : State) (x : Slk) : (s.setSlk x).wsu = s.wsu := rfl
@[simp] theorem State.setSlk_lcu (s : State) (x : Slk) : (s.setSlk x).lcu = s.lcu := rfl
@[simp] theorem State.setSlk_axt (s : State) (x : Slk) : (s.setSlk x).axt = s.axt := rfl
@[simp] theorem State.setSlk_meu (s : State) (x : Slk) : (s.setSlk x).meu = s.meu := rfl
@[simp] theorem State.setSlk_zcl (s : State) (x : Slk) : (s.setSlk x).zcl = s.zcl := rfl
@[simp] theorem State.setSlk_seg (s : State) (x : Slk) : (s.setSlk x).seg = s.seg := rfl
@[simp] theorem State.setSlk_ptb (s : State) (x : Slk) : (s.setSlk x).ptb = s.ptb := rfl
@[simp] theorem State.setSlk_wrg (s : State) (x : Slk) : (s.setSlk x).wrg = s.wrg := rfl
@[simp] theorem State.setSlk_cal (s : State) (x : Slk) : (s.setSlk x).cal = s.cal := rfl
@[simp] theorem State.setSlk_stc (s : State) (x : Slk) : (s.setSlk x).stc = s.stc := rfl
@[simp] theorem State.setSlk_fau (s : State) (x : Slk) : (s.setSlk x).fau = s.fau := rfl
@[simp] theorem State.setSlk_slk (s : State) (x : Slk) : (s.setSlk x).slk = x := rfl

/-! Of two updates of one field the later stands. -/

@[simp] theorem State.setPending_setPending (s : State) (x y : List Instr) : (s.setPending x).setPending y = s.setPending y := rfl
@[simp] theorem State.setPowered_setPowered (s : State) (x y : Bool) : (s.setPowered x).setPowered y = s.setPowered y := rfl
@[simp] theorem State.setCondition_setCondition (s : State) (x y : Condition) : (s.setCondition x).setCondition y = s.setCondition y := rfl
@[simp] theorem State.setTimebase_setTimebase (s : State) (x y : Nat) : (s.setTimebase x).setTimebase y = s.setTimebase y := rfl
@[simp] theorem State.setFreeCount_setFreeCount (s : State) (x y : Nat) : (s.setFreeCount x).setFreeCount y = s.setFreeCount y := rfl
@[simp] theorem State.setCalsw_setCalsw (s : State) (x y : SwitchPos) : (s.setCalsw x).setCalsw y = s.setCalsw y := rfl
@[simp] theorem State.setStore_setStore (s : State) (x y : Store) : (s.setStore x).setStore y = s.setStore y := rfl
@[simp] theorem State.setSettings_setSettings (s : State) (x y : Settings) : (s.setSettings x).setSettings y = s.setSettings y := rfl
@[simp] theorem State.setWsu_setWsu (s : State) (x y : Wsu) : (s.setWsu x).setWsu y = s.setWsu y := rfl
@[simp] theorem State.setLcu_setLcu (s : State) (x y : Lcu) : (s.setLcu x).setLcu y = s.setLcu y := rfl
@[simp] theorem State.setAxt_setAxt (s : State) (x y : Axt) : (s.setAxt x).setAxt y = s.setAxt y := rfl
@[simp] theorem State.setMeu_setMeu (s : State) (x y : Meu) : (s.setMeu x).setMeu y = s.setMeu y := rfl
@[simp] theorem State.setZcl_setZcl (s : State) (x y : Zcl) : (s.setZcl x).setZcl y = s.setZcl y := rfl
@[simp] theorem State.setSeg_setSeg (s : State) (x y : Seg) : (s.setSeg x).setSeg y = s.setSeg y := rfl
@[simp] theorem State.setPtb_setPtb (s : State) (x y : Ptb) : (s.setPtb x).setPtb y = s.setPtb y := rfl
@[simp] theorem State.setWrg_setWrg (s : State) (x y : Wrg) : (s.setWrg x).setWrg y = s.setWrg y := rfl
@[simp] theorem State.setCal_setCal (s : State) (x y : Cal) : (s.setCal x).setCal y = s.setCal y := rfl
@[simp] theorem State.setStc_setStc (s : State) (x y : Stc) : (s.setStc x).setStc y = s.setStc y := rfl
@[simp] theorem State.setFau_setFau (s : State) (x y : Fau) : (s.setFau x).setFau y = s.setFau y := rfl
@[simp] theorem State.setSlk_setSlk (s : State) (x y : Slk) : (s.setSlk x).setSlk y = s.setSlk y := rfl

end Sys2Proof.Machine
end

