-- ==== Sys2Proof/Laws/Kept.lean ====
section
/-! SUPPORT. What every operation of the part keeps: one relation between the state before and the state after, closed under
composition, and one lemma that says it for each update of a block. The properties are those of Safety.lean. -/

namespace Sys2Proof.Machine

set_option Elab.async false

/-! ### The properties, block by block -/

/-- The slots: canonical, and numbered below 640 (R124). -/
def SlotsOk (t : Table Wagon) : Prop := Table.wf t = true ∧ Table.below maxSlots t

/-- The register: canonical tables and distinct places (R154). -/
def WrgOk (w : Wrg) : Prop :=
  Table.wf w.records = true ∧ Table.wf w.retired = true ∧ Table.below maxRegister w.retired ∧ w.placesOk

/-- The store's two keyed areas are canonical. -/
def StoreOk (x : Store) : Prop := Table.wf x.classes = true ∧ Table.wf x.places = true

/-- The fourteen counts, each at most 255 (R176). -/
def CountsOk (l : List Nat) : Prop := l.length = 14 ∧ ∀ n ∈ l, n ≤ 255

/-- The failure count and the store state (R165). -/
def StcOk (x : Stc) : Prop := x.failures ≤ 3 ∧ (x.health = .failed ↔ x.failures = 3)

/-- The settings are in range and the trigger counter below its count (R187, R203). -/
def RangesOk (s : State) : Prop :=
  (∀ k ∈ settingIndices, settingOk s.settings k = true) ∧ s.fau.trigger < s.settings.triggerCount

/-- The store load is in hand only while the part is STARTING (R199). -/
def LoadOk (s : State) : Prop := ∀ b, s.stc.busy = some b → b.op = .load → s.condition = .starting

/-- Every entry of a directory is CLOSED (R147). -/
def AllClosed (l : List DirEntry) : Prop := ∀ e ∈ l, e.close.isSome = true

/-- With no passage open the tracker is at its reset values (R26). -/
def TrackerReset (s : State) : Prop := s.axt.passage = none → s.axt = Axt.reset

/-- What PERMIT is decided on, part by part (R152, R153). -/
def PermitView (x : Settings) (permit : Permit) (water : Water) (used entries : Nat) (c : Condition) (v : CalState)
    (a b : Service) : Prop :=
  x.lowWater < x.highWater ∧
    (permit = .asserted ↔ c = .ready ∧ v = .valid ∧ (a = .inService ∨ b = .inService) ∧ entries < maxDirectory ∧
      water = .normal) ∧
    waterNext water used x.highWater x.lowWater = water

/-- PERMIT's property, part by part. -/
theorem permitOk_iff (s : State) : s.permitOk ↔ PermitView s.settings s.ptb.permit s.ptb.water s.ptb.slots.length
    s.ptb.directory.length s.condition s.cal.state s.lcu.platforms.a.service s.lcu.platforms.b.service := by
  simp [State.permitOk, permitHolds, PermitView, State.usedSlots, and_assoc]

/-- The conditions of PERMIT, part by part (R152). -/
theorem permitHolds_iff (s : State) : permitHolds s = true ↔ s.condition = .ready ∧ s.cal.state = .valid ∧
    (s.lcu.platforms.a.service = .inService ∨ s.lcu.platforms.b.service = .inService) ∧
    s.ptb.directory.length < maxDirectory ∧ s.ptb.water = .normal := by
  simp [permitHolds, and_assoc]

/-! ### The relation -/

/-- What of a directory entry only an opening, a close and a retirement write (R147, R148, R150). -/
def DirEntry.key (e : DirEntry) : Nat × Option (Nat × CloseCause) := (e.number, e.close)

/-- Inside a passage: only the tracker, the MEU, the segmentation, the Passage Table, the register and the FAU change, and
the directory holds the same entries, as OPEN or CLOSED as they were. -/
structure Inner (s s' : State) : Prop where
  timebase : s'.timebase = s.timebase := by rfl
  freeCount : s'.freeCount = s.freeCount := by rfl
  calsw : s'.calsw = s.calsw := by rfl
  store : s'.store = s.store := by rfl
  wsu : s'.wsu = s.wsu := by rfl
  lcu : s'.lcu = s.lcu := by rfl
  zcl : s'.zcl = s.zcl := by rfl
  cal : s'.cal = s.cal := by rfl
  stc : s'.stc = s.stc := by rfl
  slk : s'.slk = s.slk := by rfl
  keys : s'.ptb.directory.map DirEntry.key = s.ptb.directory.map DirEntry.key := by rfl

theorem Inner.trans {s m s' : State} (h : Inner s m) (k : Inner m s') : Inner s s' where
  timebase := k.timebase.trans h.timebase
  freeCount := k.freeCount.trans h.freeCount
  calsw := k.calsw.trans h.calsw
  store := k.store.trans h.store
  wsu := k.wsu.trans h.wsu
  lcu := k.lcu.trans h.lcu
  zcl := k.zcl.trans h.zcl
  cal := k.cal.trans h.cal
  stc := k.stc.trans h.stc
  slk := k.slk.trans h.slk
  keys := k.keys.trans h.keys

/-- What an operation keeps. With `p`, PERMIT as well stands as its conditions say; with `o`, no passage opens or closes,
no calibration is applied, and the zeros of an open passage stand; with `u`, it is inside a passage. -/
structure Kept (p o u : Bool) (s s' : State) : Prop where
  pending : s'.pending = s.pending := by rfl
  powered : s'.powered = s.powered := by rfl
  condition : s'.condition = s.condition := by rfl
  settings : s'.settings = s.settings := by rfl
  time : s.timebase ≤ s'.timebase := by exact Nat.le_refl _
  timeOk : s.timeOk → s'.timeOk := by exact id
  attn : s.attnOk → s'.attnOk := by exact id
  waters : s.settings.lowWater < s.settings.highWater → s'.settings.lowWater < s'.settings.highWater := by exact id
  ranges : RangesOk s → RangesOk s' := by exact id
  slots : SlotsOk s.ptb.slots → SlotsOk s'.ptb.slots := by exact id
  wrg : StoreOk s.store → WrgOk s.wrg → WrgOk s'.wrg := by exact fun _ => id
  classes : StoreOk s.store → Table.wf s.seg.classes = true → Table.wf s'.seg.classes = true := by exact fun _ => id
  store : StoreOk s.store → StoreOk s'.store := by exact id
  certified : s.certifiedOk → s'.certifiedOk := by exact id
  train : s.axt.train.length ≤ maxAxles → s'.axt.train.length ≤ maxAxles := by exact id
  stations : s.stationsOk → s'.stationsOk := by exact id
  counts : CountsOk s.fau.counts → CountsOk s'.fau.counts := by exact id
  queue : s.queueOk → s'.queueOk := by exact id
  stats : s.slk.stats.ok → s'.slk.stats.ok := by exact id
  stc : StcOk s.stc → StcOk s'.stc := by exact id
  load : LoadOk s → LoadOk s' := by exact id
  permit : p = true → SlotsOk s.ptb.slots → s.permitOk → s'.permitOk := by exact fun _ _ h => h
  opened : o = true → s'.isOpen = s.isOpen := by exact fun _ => rfl
  zeros : o = true → s.isOpen = true → s'.zcl.zeros = s.zcl.zeros := by exact fun _ _ => rfl
  entries : o = true → s'.ptb.directory.length = s.ptb.directory.length := by exact fun _ => rfl
  closed : o = true → AllClosed s.ptb.directory → AllClosed s'.ptb.directory := by exact fun _ h => h
  counter : o = true → s'.cal.counter = s.cal.counter := by exact fun _ => rfl
  tracker : o = true → TrackerReset s → TrackerReset s' := by exact fun _ h => h
  inner : u = true → Inner s s' := by first | exact fun _ => {} | exact fun h => absurd h (by decide)

namespace Kept

variable {p o u : Bool} {s s' s'' : State}

/-- Nothing done keeps everything. -/
theorem refl (s : State) : Kept p o u s s := {}

/-- One operation after another. -/
theorem trans (h : Kept p o u s s') (k : Kept p o u s' s'') : Kept p o u s s'' where
  pending := k.pending.trans h.pending
  powered := k.powered.trans h.powered
  condition := k.condition.trans h.condition
  settings := k.settings.trans h.settings
  time := Nat.le_trans h.time k.time
  timeOk := k.timeOk ∘ h.timeOk
  attn := k.attn ∘ h.attn
  waters := k.waters ∘ h.waters
  ranges := k.ranges ∘ h.ranges
  slots := k.slots ∘ h.slots
  wrg e := k.wrg (h.store e) ∘ h.wrg e
  classes e := k.classes (h.store e) ∘ h.classes e
  store := k.store ∘ h.store
  certified := k.certified ∘ h.certified
  train := k.train ∘ h.train
  stations := k.stations ∘ h.stations
  counts := k.counts ∘ h.counts
  queue := k.queue ∘ h.queue
  stats := k.stats ∘ h.stats
  stc := k.stc ∘ h.stc
  load := k.load ∘ h.load
  permit hp hs ho := k.permit hp (h.slots hs) (h.permit hp hs ho)
  opened ho := (k.opened ho).trans (h.opened ho)
  zeros ho hi := (k.zeros ho ((h.opened ho).trans hi)).trans (h.zeros ho hi)
  entries ho := (k.entries ho).trans (h.entries ho)
  closed ho hc := k.closed ho (h.closed ho hc)
  counter ho := (k.counter ho).trans (h.counter ho)
  tracker ho ht := k.tracker ho (h.tracker ho ht)
  inner e := (h.inner e).trans (k.inner e)

/-- What is kept with PERMIT is kept without. -/
theorem drop (h : Kept true o u s s') : Kept p o u s s' :=
  { h with permit := fun _ => h.permit rfl }

/-- What is kept inside a passage is kept. -/
theorem outside (h : Kept p true u s s') : Kept p o u s s' :=
  { h with
    opened := fun _ => h.opened rfl, zeros := fun _ => h.zeros rfl, entries := fun _ => h.entries rfl
    closed := fun _ => h.closed rfl, counter := fun _ => h.counter rfl, tracker := fun _ => h.tracker rfl }

/-- Operations one after another over a list. -/
theorem foldl {α : Type} {f : State → α → State} (h : ∀ s a, Kept p o u s (f s a)) (l : List α) :
    ∀ s, Kept p o u s (l.foldl f s) := by
  induction l with
  | nil => intro s; exact refl s
  | cons a l ih => intro s; exact (h s a).trans (ih _)

/-- Operations one after another over a list, each from a state that kept a property. -/
theorem foldl_of {α : Type} {r : State → Prop} {f : State → α → State} (h : ∀ s a, r s → Kept p o u s (f s a) ∧ r (f s a))
    (l : List α) : ∀ s, r s → Kept p o u s (l.foldl f s) ∧ r (l.foldl f s) := by
  induction l with
  | nil => intro s hq; exact ⟨refl s, hq⟩
  | cons a l ih =>
    intro s hq
    have h1 := h s a hq
    have h2 := ih _ h1.2
    exact ⟨h1.1.trans h2.1, h2.2⟩

/-! ### The updates of one block -/

/-- The timebase moves on. -/
theorem advance (s : State) (t : Nat) : Kept p o false s (s.advance t) where
  time := Nat.le_max_left _ _
  timeOk h := by
    have : t % timebaseRange < timebaseRange := Nat.mod_lt _ (by decide)
    simp only [State.timeOk, State.advance, State.setTimebase_timebase] at h ⊢
    omega

theorem setFreeCount (s : State) (x : Nat) : Kept p o false s (s.setFreeCount x) := {}

theorem setCalsw (s : State) (x : SwitchPos) : Kept p o false s (s.setCalsw x) := {}

theorem setMeu (s : State) (x : Meu) : Kept p o u s (s.setMeu x) := {}

theorem setStore {s : State} {x : Store} (h : StoreOk s.store → StoreOk x) : Kept p o false s (s.setStore x) where
  store := h

theorem setWsu {s : State} {x : Wsu} (h : s.wsu.s1.ok ∧ s.wsu.s2.ok ∧ s.wsu.s3.ok → x.s1.ok ∧ x.s2.ok ∧ x.s3.ok) :
    Kept p o false s (s.setWsu x) where
  stations := h

theorem setLcu {s : State} {x : Lcu}
    (h : p = true → x.platforms.a.service = s.lcu.platforms.a.service ∧ x.platforms.b.service = s.lcu.platforms.b.service) :
    Kept p o false s (s.setLcu x) where
  permit hp _ hs := by
    have h := h hp
    rw [permitOk_iff] at hs ⊢
    simpa [h.1, h.2] using hs

theorem setZcl {s : State} {x : Zcl} (h : o = true → s.isOpen = true → x.zeros = s.zcl.zeros) : Kept p o false s (s.setZcl x) where
  zeros := h

theorem setSeg {s : State} {x : Seg} (h : Table.wf s.seg.classes = true → Table.wf x.classes = true) :
    Kept p o u s (s.setSeg x) where
  classes _ := h

theorem setWrg {s : State} {x : Wrg} (h : WrgOk s.wrg → WrgOk x) : Kept p o u s (s.setWrg x) where
  wrg _ := h

theorem setCal {s : State} {x : Cal} (h : o = true → x.counter = s.cal.counter)
    (hp : p = true → x.state = s.cal.state) : Kept p o false s (s.setCal x) where
  counter := h
  permit h _ hs := by
    have h := hp h
    rw [permitOk_iff] at hs ⊢
    simpa [h] using hs

theorem setStc {s : State} {x : Stc} (h : StcOk s.stc → StcOk x)
    (hl : LoadOk s → ∀ b, x.busy = some b → b.op = .load → s.condition = .starting) : Kept p o false s (s.setStc x) where
  stc := h
  load := hl

theorem setFau {s : State} {x : Fau} (ha : s.attnOk → x.attn = attnLevel x.attention s.settings.attentionMask)
    (hc : CountsOk s.fau.counts → CountsOk x.counts)
    (ht : s.fau.trigger < s.settings.triggerCount → x.trigger < s.settings.triggerCount) : Kept p o u s (s.setFau x) where
  attn := ha
  counts := hc
  ranges h := ⟨h.1, ht h.2⟩

theorem setSlk {s : State} {x : Slk} (hq : s.slk.queue.length ≤ maxQueue → x.queue.length ≤ maxQueue)
    (hs : s.slk.stats.ok → x.stats.ok) : Kept p o false s (s.setSlk x) where
  queue := hq
  stats := hs

theorem setAxt {s : State} {x : Axt} (ht : s.axt.train.length ≤ maxAxles → x.train.length ≤ maxAxles)
    (ho : o = true → x.passage.isSome = s.axt.passage.isSome)
    (hr : o = true → s.axt.passage = none → s.axt = Axt.reset → x = Axt.reset) : Kept p o u s (s.setAxt x) where
  train := ht
  opened := ho
  tracker hoo ht hp := by
    have h1 : s.axt.passage = none := by
      have := ho hoo
      simp only [State.setAxt_axt] at hp
      rw [hp] at this
      simpa using this.symm
    exact hr hoo h1 (ht h1)

/-- The slots: numbered and deserving still, and as many when PERMIT is to stand. -/
theorem setSlots {s : State} {x : Table Wagon} (hs : SlotsOk s.ptb.slots → SlotsOk x)
    (hc : s.certifiedOk → ∀ r ∈ x, r.2.certifiedOk)
    (hp : p = true → SlotsOk s.ptb.slots → x.length = s.ptb.slots.length) : Kept p o u s (s.setSlots x) where
  slots := hs
  certified := hc
  permit h hs ho := by
    have h := hp h hs
    rw [permitOk_iff] at ho ⊢
    simpa [State.setSlots, h] using ho

/-- The directory: as many entries. -/
theorem setDirectory {s : State} {x : List DirEntry} (hl : p = true ∨ o = true → x.length = s.ptb.directory.length)
    (hc : o = true → AllClosed s.ptb.directory → AllClosed x)
    (hk : u = true → x.map DirEntry.key = s.ptb.directory.map DirEntry.key) : Kept p o u s (s.setDirectory x) where
  inner h := { keys := hk h }
  entries h := hl (Or.inr h)
  closed := hc
  permit h _ ho := by
    have h := hl (Or.inl h)
    rw [permitOk_iff] at ho ⊢
    simpa [State.setDirectory, h] using ho

end Kept

/-! ### Attention, faults and the trigger -/

/-- The taking of an occurrence changes the FAU only. -/
theorem takeFault_eq (f : FaultOcc) (s : State) : takeFault f s = s.setFau (takeFault f s).fau := by
  unfold takeFault
  simp only
  split <;> rfl

/-- The report of an occurrence changes the FAU only. -/
theorem reportFault_eq (f : FaultOcc) (s : State) : reportFault f s = s.setFau (reportFault f s).fau := by
  unfold reportFault
  split
  · exact takeFault_eq f s
  · rfl

/-- A completion changes the FAU only. -/
theorem countCompletion_eq (t : Nat) (s : State) : countCompletion t s = s.setFau (countCompletion t s).fau := by
  unfold countCompletion
  simp only
  split <;> rfl

/-- The report of a completion changes the FAU only. -/
theorem reportCompletion_eq (t : Nat) (hold : Bool) (s : State) :
    reportCompletion t hold s = s.setFau (reportCompletion t hold s).fau := by
  unfold reportCompletion
  rw [countCompletion_eq]
  split <;> rfl

theorem raiseAtt_kept {p o u : Bool} (b : AttBit) (s : State) : Kept p o u s (raiseAtt b s) :=
  Kept.setFau (fun _ => rfl) id id

theorem counts_satSucc {l : List Nat} (i : Nat) (h : CountsOk l) : CountsOk (updateAt (satSucc 255) i l) := by
  refine ⟨by simpa using h.1, fun n hn => ?_⟩
  rcases mem_updateAt hn with hn | ⟨m, hm, rfl⟩
  · exact h.2 n hn
  · have := h.2 m hm
    simp only [satSucc]
    split <;> omega

theorem takeFault_kept {p o u : Bool} (f : FaultOcc) (s : State) : Kept p o u s (takeFault f s) := by
  unfold takeFault
  simp only
  split
  · exact Kept.setFau id (counts_satSucc _) id
  · refine Kept.trans (s' := s.setFau _) (Kept.setFau ?_ ?_ ?_) (raiseAtt_kept _ _)
    · exact id
    · exact counts_satSucc _
    · exact id

theorem reportFault_kept {p o u : Bool} (f : FaultOcc) (s : State) : Kept p o u s (reportFault f s) := by
  unfold reportFault
  split
  · exact takeFault_kept f s
  · exact Kept.setFau id id id

theorem fireTrigger_kept {p o u : Bool} (s : State) : Kept p o u s (fireTrigger s) :=
  Kept.trans (s' := s.setFau { s.fau with trigger := 0 })
    (Kept.setFau id id (fun h => Nat.lt_of_le_of_lt (Nat.zero_le _) h)) (raiseAtt_kept _ _)

theorem countCompletion_kept {p o u : Bool} (t : Nat) (s : State) : Kept p o u s (countCompletion t s) := by
  unfold countCompletion
  simp only
  split
  · next h =>
    unfold fireTrigger
    refine Kept.trans (s' := s.setFau { s.fau with lastCompletion := some t, trigger := 0 }) (Kept.setFau id id ?_)
      (raiseAtt_kept _ _)
    exact fun h => Nat.lt_of_le_of_lt (Nat.zero_le _) h
  · next h =>
    refine Kept.setFau id id ?_
    intro hlt
    simp only [State.setFau_fau, State.setFau_settings] at h
    show s.fau.trigger + 1 < s.settings.triggerCount
    omega

theorem reportCompletion_kept {p o u : Bool} (t : Nat) (hold : Bool) (s : State) :
    Kept p o u s (reportCompletion t hold s) := by
  unfold reportCompletion
  split
  · exact (raiseAtt_kept _ _).trans (countCompletion_kept _ _)
  · exact countCompletion_kept _ _

/-! ### PERMIT -/

/-- The water state, once evaluated, stands until the slots in use change. -/
theorem waterNext_idem {w : Water} {u h l : Nat} (hl : l < h) : waterNext (waterNext w u h l) u h l = waterNext w u h l := by
  cases w <;> simp only [waterNext]
  · by_cases h1 : h ≤ u
    · simp [h1, show ¬ u ≤ l by omega]
    · simp [h1]
  · by_cases h1 : u ≤ l
    · simp [h1, show ¬ h ≤ u by omega]
    · simp [h1]

/-- What the evaluation of PERMIT leaves: the water state first, then PERMIT by its conditions (R152, R153). -/
theorem evalPermit_ptb (s : State) : (evalPermit s).ptb = { s.ptb with
    water := waterNext s.ptb.water s.usedSlots s.settings.highWater s.settings.lowWater
    permit := if permitHolds (s.setPtb { s.ptb with
      water := waterNext s.ptb.water s.usedSlots s.settings.highWater s.settings.lowWater }) then .asserted else .withdrawn } := by
  unfold evalPermit
  generalize waterNext s.ptb.water s.usedSlots s.settings.highWater s.settings.lowWater = w
  simp only
  generalize (if permitHolds (s.setPtb { s.ptb with water := w }) = true then Permit.asserted else Permit.withdrawn) = x
  split
  · next h => rw [h]; rfl
  · rfl

/-- The evaluation of PERMIT changes the PTB and the FAU only. -/
theorem evalPermit_eq (s : State) : evalPermit s = (s.setPtb (evalPermit s).ptb).setFau (evalPermit s).fau := by
  unfold evalPermit
  generalize waterNext s.ptb.water s.usedSlots s.settings.highWater s.settings.lowWater = w
  simp only
  generalize (if permitHolds (s.setPtb { s.ptb with water := w }) = true then Permit.asserted else Permit.withdrawn) = x
  split <;> rfl

/-- After its evaluation PERMIT stands as its conditions say. -/
theorem evalPermit_permitOk {s : State} (h : s.settings.lowWater < s.settings.highWater) : (evalPermit s).permitOk := by
  rw [permitOk_iff, evalPermit_eq]
  simp only [State.setFau_settings, State.setPtb_settings, State.setFau_ptb, State.setPtb_ptb, State.setFau_condition,
    State.setPtb_condition, State.setFau_cal, State.setPtb_cal, State.setFau_lcu, State.setPtb_lcu]
  rw [evalPermit_ptb]
  refine ⟨h, ?_, waterNext_idem h⟩
  have e := permitHolds_iff (s.setPtb { s.ptb with
    water := waterNext s.ptb.water s.usedSlots s.settings.highWater s.settings.lowWater })
  simp only [State.setPtb_condition, State.setPtb_cal, State.setPtb_lcu, State.setPtb_ptb] at e
  show (if _ then Permit.asserted else Permit.withdrawn) = _ ↔ _
  rw [← e]
  split <;> simp_all

/-- The evaluation of PERMIT keeps all but PERMIT. -/
theorem evalPermit_kept' {o u : Bool} (s : State) : Kept false o u s (evalPermit s) := by
  have hp : ∀ x : Ptb, x.slots = s.ptb.slots → x.directory = s.ptb.directory → Kept false o u s (s.setPtb x) := by
    intro x hs hd
    exact { slots := by simp [hs], certified := by simp [State.certifiedOk, hs], permit := by simp,
            entries := by simp [hd], closed := by simp [hd], inner := fun _ => { keys := by simp [hd] } }
  unfold evalPermit
  generalize waterNext s.ptb.water s.usedSlots s.settings.highWater s.settings.lowWater = w
  simp only
  generalize (if permitHolds (s.setPtb { s.ptb with water := w }) = true then Permit.asserted else Permit.withdrawn) = x
  split
  · exact hp _ rfl rfl
  · exact Kept.trans (s' := (s.setPtb { s.ptb with water := w }).setPtb { s.ptb with water := w, permit := x })
      (hp _ rfl rfl) (raiseAtt_kept _ _)

/-- An operation, then the evaluation of PERMIT. -/
theorem Kept.thenPermit {p o u : Bool} {s m : State} (h : Kept false o u s m) : Kept p o u s (evalPermit m) :=
  { h.trans (evalPermit_kept' m) with
    permit := fun _ _ hs => evalPermit_permitOk (h.waters hs.1) }

theorem evalPermit_kept {p o u : Bool} (s : State) : Kept p o u s (evalPermit s) := (Kept.refl s).thenPermit

end Sys2Proof.Machine
end

