-- ==== Sys2Proof/Laws/KeptRecords.lean ====
section
/-! SUPPORT. What the operations of the Passage Table, the Measurement Engine and the Segmenter keep. -/

namespace Sys2Proof.Machine

set_option Elab.async false

/-! ### Slots -/

/-- A put on a key that holds something adds nothing. -/
theorem length_tput {α : Type} {t : Table α} {k : Nat} {v : α} :
    ∀ {b : Nat}, Table.rising b t = true → tget t k ≠ none → (tput t k v).length = t.length := by
  induction t with
  | nil => intro b _ h; simp [tget] at h
  | cons r t ih =>
    obtain ⟨j, a⟩ := r
    intro b h hk
    simp only [Table.rising, Bool.and_eq_true, decide_eq_true_eq] at h
    simp only [tget] at hk
    simp only [tput]
    split
    · next hlt => rw [if_neg (by omega), tget_of_lt h.2 (by omega)] at hk; exact absurd rfl hk
    · split
      · rfl
      · next h2 =>
        rw [if_neg (Ne.symm h2)] at hk
        rw [List.length_cons, ih h.2 hk, List.length_cons]

/-- What was put belongs to the table. -/
theorem mem_tput_self {α : Type} (t : Table α) (k : Nat) (v : α) : (k, v) ∈ tput t k v := by
  induction t with
  | nil => simp [tput]
  | cons r t ih =>
    obtain ⟨j, a⟩ := r
    simp only [tput]
    split
    · simp
    · split
      · simp
      · exact List.mem_cons_of_mem _ ih

/-- A slot that may be written: numbered, and in use when PERMIT is to stand. -/
def SlotFor (p : Bool) (t : Table Wagon) (k : Nat) : Prop :=
  (SlotsOk t → k < maxSlots) ∧ (p = true → SlotsOk t → tget t k ≠ none)

theorem SlotFor.of_mem {p : Bool} {t : Table Wagon} {k : Nat} {w : Wagon} (h : (k, w) ∈ t) : SlotFor p t k :=
  ⟨fun ht => ht.2 _ h, fun _ ht => by rw [(tget_eq_some ht.1).mpr h]; simp⟩

theorem SlotFor.new {t : Table Wagon} {k : Nat} (h : k < maxSlots) : SlotFor false t k :=
  ⟨fun _ => h, fun h => absurd h (by decide)⟩

theorem below_tput {α : Type} {n : Nat} {t : Table α} {k : Nat} {v : α} (h : Table.below n t) (hk : k < n) :
    Table.below n (tput t k v) := by
  intro r hr
  rcases mem_tput hr with rfl | hr
  · exact hk
  · exact h r hr

theorem putSlot_kept {p o u : Bool} {k : Nat} {w : Wagon} {s : State} (hk : SlotFor p s.ptb.slots k)
    (hw : s.certifiedOk → w.certifiedOk) : Kept p o u s (putSlot k w s) := by
  refine Kept.setSlots (fun h => ⟨wf_tput h.1 _ _, below_tput h.2 (hk.1 h)⟩) (fun h r hr => ?_) (fun hp h => ?_)
  · rcases mem_tput hr with rfl | hr
    · exact hw h
    · exact h r hr
  · exact length_tput h.1 (hk.2 hp h)

/-- A record found in the slots. -/
theorem mem_of_recordAt {s : State} {n : Option Nat} {p k : Nat} {w : Wagon} (h : s.recordAt n p = some (k, w)) :
    (k, w) ∈ s.ptb.slots := List.mem_of_find?_eq_some h

/-- A FREE slot is numbered below 640. -/
theorem lt_of_freeSlot {s : State} {k : Nat} (h : s.freeSlot = some k) : k < maxSlots := by
  have := (lowestFree_eq_some _ _ _ _).mp h
  omega

/-- A map over the records that keeps what they deserve. -/
theorem mapSlots_kept {p o u : Bool} {f : Nat → Wagon → Wagon} {s : State}
    (h : ∀ k w, (k, w) ∈ s.ptb.slots → w.certifiedOk → (f k w).certifiedOk) :
    Kept p o u s (s.setSlots (tmap f s.ptb.slots)) := by
  refine Kept.setSlots (fun hs => ⟨by simpa using hs.1, ?_⟩) (fun hc r hr => ?_) (fun _ _ => ?_)
  · intro r hr
    obtain ⟨q, hq, rfl⟩ := mem_tmap.mp hr
    exact hs.2 q hq
  · obtain ⟨q, hq, rfl⟩ := mem_tmap.mp hr
    exact h q.1 q.2 hq (hc q hq)
  · induction s.ptb.slots with
    | nil => rfl
    | cons r t ih => simp [tmap, ih]

/-- Records taken away. -/
theorem fewerSlots_kept {o u : Bool} {x : Table Wagon} {s : State} (hw : SlotsOk s.ptb.slots → Table.wf x = true)
    (hm : ∀ r ∈ x, r ∈ s.ptb.slots) : Kept false o u s (s.setSlots x) :=
  Kept.setSlots (fun h => ⟨hw h, fun r hr => h.2 r (hm r hr)⟩) (fun h r hr => h r (hm r hr))
    (fun h => absurd h (by decide))

theorem freeRecords_kept {o u : Bool} (n : Nat) (s : State) : Kept false o u s (freeRecords n s) :=
  fewerSlots_kept (fun h => wf_tkeep h.1) (fun _ hr => (mem_tkeep.mp hr).1)

/-! ### The directory -/

theorem updOpenEntry_kept {p o u : Bool} (f : DirEntry → DirEntry) (s : State)
    (hf : u = true → ∀ e, (f e).key = e.key := by exact fun _ _ => rfl) : Kept p o u s (updOpenEntry f s) := by
  refine Kept.setDirectory (fun _ => by simp) (fun _ hc e he => ?_) (fun h => ?_)
  rotate_left
  · rw [List.map_map]
    refine List.map_congr_left fun e _ => ?_
    simp only [Function.comp]
    split
    · exact hf h e
    · rfl
  obtain ⟨d, hd, rfl⟩ := List.mem_map.mp he
  have := hc d hd
  have hn : d.close.isNone = false := by cases h : d.close <;> simp_all
  simpa [hn] using this

theorem updTotals_kept {p o u : Bool} (n : Option Nat) (f : Totals → Totals) (s : State) : Kept p o u s (updTotals n f s) := by
  refine Kept.setDirectory (fun _ => by simp) (fun _ hc e he => ?_) (fun _ => ?_)
  rotate_left
  · rw [List.map_map]
    refine List.map_congr_left fun e _ => ?_
    simp only [Function.comp]
    split <;> rfl
  obtain ⟨d, hd, rfl⟩ := List.mem_map.mp he
  have := hc d hd
  split <;> simpa using this

/-! ### The CERTIFIED mark -/

theorem certify_ok (w : Wagon) : w.certify.certifiedOk := by
  intro h
  simp only [Wagon.certify, Bool.and_eq_true, Bool.or_eq_true, decide_eq_true_eq] at h ⊢
  exact h

theorem recompute_ok (s : State) (w : Wagon) : (recompute s w).certifiedOk := certify_ok _

theorem uncertified_ok {w : Wagon} (h : w.certified = false) : w.certifiedOk := by
  intro hc; rw [h] at hc; exact absurd hc (by decide)

theorem unverify_ok (w : Wagon) : w.unverify.certifiedOk := certify_ok _

theorem finalise_ok (w : Wagon) (h : w.certifiedOk) : (finalise w).certifiedOk := by
  unfold finalise
  split
  · exact certify_ok _
  · exact certify_ok _
  · next he =>
    refine uncertified_ok ?_
    have := h
    cases hc : w.certified with
    | false => rfl
    | true => have := (h hc).1; simp [he] at this
  · exact h

theorem assignRecompute_ok (s : State) (w : Wagon) (h : w.state ≠ .complete → w.state ≠ .final → w.certified = false) :
    (assignRecompute s w).certifiedOk := by
  unfold assignRecompute
  split
  · exact certify_ok _
  · next hn =>
    have h1 : w.state ≠ .complete := fun e => hn (Or.inl e)
    have h2 : w.state ≠ .final := fun e => hn (Or.inr e)
    exact uncertified_ok (h h1 h2)

/-! ### Completion and binding -/

theorem complete_kept {p o u : Bool} {t k : Nat} {w : Wagon} {s : State} (hk : SlotFor p s.ptb.slots k) :
    Kept p o u s (complete t k w s) :=
  Kept.trans (putSlot_kept hk fun _ => recompute_ok _ _) (reportCompletion_kept _ _ _)

theorem noticeRecord_kept {p o u : Bool} {t i : Nat} {a : Axle} {k : Nat} {w : Wagon} {s : State}
    (h : (k, w) ∈ s.ptb.slots) : Kept p o u s (noticeRecord t i a k w s) := by
  have hk : SlotFor p s.ptb.slots k := .of_mem h
  unfold noticeRecord
  simp only
  split
  · next hw =>
    split
    · exact complete_kept hk
    · refine putSlot_kept hk fun hc => uncertified_ok ?_
      have := hc _ h
      cases e : w.certified with
      | false => rfl
      | true => have := (this e).1; rw [hw] at this; simp at this
  · split
    · exact putSlot_kept hk fun _ => recompute_ok _ _
    · exact putSlot_kept hk fun _ => uncertified_ok rfl
  · exact Kept.refl s

theorem noticeAxle_kept {p o u : Bool} (t i : Nat) (s : State) : Kept p o u s (noticeAxle t i s) := by
  unfold noticeAxle
  split
  · exact Kept.refl s
  · split
    · exact Kept.refl s
    · next k w h =>
      obtain ⟨v, _, hv⟩ := Option.bind_eq_some_iff.mp h
      exact noticeRecord_kept (mem_of_recordAt hv)

theorem bindRecord_kept {p o u : Bool} {t k : Nat} {v : Vehicle} {w : Wagon} {s : State} (hk : SlotFor p s.ptb.slots k) :
    Kept p o u s (bindRecord t k v w s) := by
  unfold bindRecord
  simp only
  refine (updOpenEntry_kept (fun e => { e with recorded := e.recorded + 1 }) s).trans ?_
  split
  · exact complete_kept hk
  · exact putSlot_kept hk fun _ => uncertified_ok rfl

theorem countTraction_kept {p o u : Bool} (f : Nat → Nat) (v : Vehicle) (s : State) : Kept p o u s (countTraction f v s) := by
  unfold countTraction
  split
  · exact updOpenEntry_kept _ s
  · exact Kept.refl s

theorem bindUnrecorded_kept {p o u : Bool} (t n : Nat) (s : State) : Kept p o u s (bindUnrecorded t n s) :=
  (updOpenEntry_kept _ s).trans (reportFault_kept _ _)

theorem bindVehicle_kept {p o u : Bool} (t n : Nat) (v : Vehicle) (s : State) : Kept p o u s (bindVehicle t n v s) := by
  unfold bindVehicle
  simp only
  refine (countTraction_kept (· + 1) v s).trans ?_
  split
  · next h => exact bindRecord_kept (.of_mem (mem_of_recordAt h))
  · split
    · next h => exact Kept.thenPermit (bindRecord_kept (.new (lt_of_freeSlot h)))
    · exact bindUnrecorded_kept _ _ _

theorem dissolveVehicle_kept {p o u : Bool} (n : Nat) (v : Vehicle) (s : State) : Kept p o u s (dissolveVehicle n v s) := by
  unfold dissolveVehicle
  simp only
  refine (countTraction_kept (· - 1) v s).trans ?_
  split
  · exact updOpenEntry_kept _ _
  · next k w h =>
    refine (updOpenEntry_kept (fun e => { e with recorded := e.recorded - 1 }) _).trans ?_
    split
    · exact putSlot_kept (.of_mem (mem_of_recordAt h)) fun _ => uncertified_ok rfl
    · exact Kept.thenPermit (fewerSlots_kept (fun h => wf_tdel h.1 _) (fun _ hr => mem_tdel hr))

/-! ### Identity, the register, the close -/

theorem applyUpdate_ok {w : Wrg} (h : WrgOk w) (fleet : Nat) {f : RegFields → RegFields} (hf : ∀ r, (f r).fleet = r.fleet) :
    WrgOk { w with records := tupd w.records fleet (RegRec.change f) } := by
  obtain ⟨h1, h2, h3, h4, h5⟩ := h
  have hm : ∀ r ∈ tupd w.records fleet (RegRec.change f), ∃ q ∈ w.records, r.1 = q.1 ∧ r.2.place = q.2.place ∧
      r.2.fields.fleet = q.2.fields.fleet := by
    intro r hr
    obtain ⟨q, hq, rfl⟩ := mem_tmap.mp hr
    refine ⟨q, hq, rfl, ?_⟩
    simp only
    split <;> simp [RegRec.change, hf]
  refine ⟨by simpa using h1, h2, h3, fun r hr => ?_, fun r hr r' hr' hp => ?_⟩
  · obtain ⟨q, hq, e1, e2, e3⟩ := hm r hr
    have := h4 q hq
    rw [e1, e2, e3]
    exact this
  · obtain ⟨q, hq, e1, e2, _⟩ := hm r hr
    obtain ⟨q', hq', e1', e2', _⟩ := hm r' hr'
    rw [e1, e1']
    exact h5 q hq q' hq' (by rw [← e2, ← e2', hp])

theorem passageUpdate_fleet (x : Int) (n : Option Nat) (v : Verdicts) (c : Bool) (r : RegFields) :
    (passageUpdate x n v c r).fleet = r.fleet := by
  unfold passageUpdate learnTare
  generalize (if (v.overload || v.axleOverload) = true then _ else _ : Byte) = y
  split <;> rfl

theorem handOn_kept {p o u : Bool} {k : Nat} {w : Wagon} {s : State} (hk : SlotFor p s.ptb.slots k)
    (hw : s.certifiedOk → w.certifiedOk) : Kept p o u s (handOn k w s) := by
  unfold handOn applyUpdate
  refine Kept.trans (s' := s.setRecords (tupd s.wrg.records (w.fleet.getD 0)
    (RegRec.change (passageUpdate (w.values.reported.getD 0) w.passage w.verdicts w.certified))))
    (Kept.setWrg fun h => applyUpdate_ok h _ fun r => passageUpdate_fleet _ _ _ _ r) ?_
  exact putSlot_kept hk hw

theorem assignRecord_kept {p o u : Bool} {fleet k : Nat} {w : Wagon} {s : State} (h : (k, w) ∈ s.ptb.slots) :
    Kept p o u s (assignRecord fleet k w s) := by
  have hk : SlotFor p s.ptb.slots k := .of_mem h
  unfold assignRecord
  simp only
  generalize hw : assignRecompute s (assignIdentity s fleet w) = x
  have hx : s.certifiedOk → x.certifiedOk := by
    intro hc
    rw [← hw]
    refine assignRecompute_ok _ _ fun h1 h2 => ?_
    cases e : w.certified with
    | false => exact e
    | true =>
      rcases (hc _ h e).1 with h3 | h3
      · exact absurd h3 h1
      · exact absurd h3 h2
  have hp : Kept p o u s (putSlot k x s) := putSlot_kept hk hx
  have hm : (k, x) ∈ (putSlot k x s).ptb.slots := mem_tput_self _ _ _
  split
  · split
    · exact (hp.trans (updTotals_kept x.passage (adjustTotals w x) _)).trans
        (handOn_kept (.of_mem (w := x) hm) fun hc => hc _ hm)
    · exact hp.trans (updTotals_kept _ _ _)
  · exact hp

theorem retireSlot_kept {p o u : Bool} (k : Nat) (s : State) : Kept p o u s (retireSlot k s) :=
  Kept.thenPermit (fewerSlots_kept (fun h => wf_tdel h.1 _) (fun _ hr => mem_tdel hr))

theorem markUnverified_kept {p o u : Bool} (s : State) : Kept p o u s (markUnverified s) := by
  refine (updOpenEntry_kept (fun e => { e with unverified := true }) s).trans (mapSlots_kept fun k w _ h => ?_)
  split
  · exact unverify_ok w
  · exact h

theorem takeCounter_kept {p o u : Bool} (n : Nat) (s : State) : Kept p o u s (takeCounter n s) := by
  refine (updOpenEntry_kept (fun e => { e with calCounter := n }) s).trans (mapSlots_kept fun k w _ h => ?_)
  split
  · exact h
  · exact h

theorem finalUpdate_kept {p o u : Bool} (k : Nat) (s : State) : Kept p o u s (finalUpdate k s) := by
  unfold finalUpdate
  split
  · exact Kept.refl s
  · next w h =>
    split
    · exact handOn_kept (.of_mem (mem_of_tget h)) fun hc => hc _ (mem_of_tget h)
    · exact Kept.refl s

theorem finalisePassage_kept {p o : Bool} (t : Nat) (c : CloseCause) (s : State) : Kept p o false s (finalisePassage t c s) := by
  unfold finalisePassage
  simp only
  refine Kept.trans (s' := s.setSlots (tmap (fun _ w => if w.passage = s.openNumber then finalise w else w) s.ptb.slots))
    (mapSlots_kept fun k w _ h => ?_) ?_
  · split
    · exact finalise_ok w h
    · exact h
  · exact (Kept.foldl (fun s (r : Nat × Wagon) => finalUpdate_kept r.1 s) _ _).trans (updOpenEntry_kept _ _ fun h => absurd h (by decide))

/-! ### The Measurement Engine -/

theorem updMeu_kept {p o u : Bool} (q : Platform) (f : MeuPlatform → MeuPlatform) (s : State) : Kept p o u s (updMeu q f s) :=
  Kept.setMeu s _

/-- A new train of the same length. -/
theorem setTrain_kept {p o u : Bool} {l : List Axle} {s : State} (h : l.length = s.axt.train.length) :
    Kept p o u s (s.setAxt { s.axt with train := l }) := by
  refine Kept.setAxt (fun hl => by rw [← h] at hl; exact hl) (fun _ => rfl) (fun _ _ hr => ?_)
  rw [hr] at h ⊢
  have : l = [] := List.eq_nil_of_length_eq_zero h
  rw [this]
  rfl

theorem updAxle_kept {p o u : Bool} (i : Nat) (f : Axle → Axle) (s : State) : Kept p o u s (updAxle i f s) :=
  setTrain_kept (by simp)

theorem writeMeas_kept {p o u : Bool} (q : Platform) (i : Nat) (m : Measurement) (s : State) :
    Kept p o u s (writeMeas q i m s) := updAxle_kept _ _ _

theorem dropEntries_kept {p o u : Bool} (q : Platform) (f : WindowEntry → Bool) (s : State) :
    Kept p o u s (dropEntries q f s) := updMeu_kept _ _ _

theorem resolveEntry_kept {p o u : Bool} (q : Platform) (x : Option (Int × Int)) (e : WindowEntry) (s : State) :
    Kept p o u s (resolveEntry q x e s) := by
  unfold resolveEntry
  split
  · exact (dropEntries_kept _ _ _).trans (writeMeas_kept _ _ _ _)
  · exact dropEntries_kept _ _ _

theorem resolveWhere_kept {p o u : Bool} (q : Platform) (x : Option (Int × Int)) (f : WindowEntry → Bool) (s : State) :
    Kept p o u s (resolveWhere q x f s) := Kept.foldl (fun s e => resolveEntry_kept q x e s) _ _

theorem afterExit_kept {p o u : Bool} (q : Platform) (x : Span) (n : Nat) (m : Option (Int × Int)) (s : State) :
    Kept p o u s (afterExit q x n m s) := (updMeu_kept _ _ _).trans (resolveWhere_kept _ _ _ _)

theorem closeSpan_kept {p o u : Bool} (q : Platform) (a : Axle) (e : WindowEntry) (x : Span) (s : State) :
    Kept p o u s (closeSpan q a e x s) := by
  unfold closeSpan
  simp only
  split
  · exact ((dropEntries_kept _ _ _).trans (writeMeas_kept _ _ _ _)).trans (afterExit_kept _ _ _ _ _)
  · split
    · exact (updMeu_kept _ _ _).trans (afterExit_kept _ _ _ _ _)
    · exact ((dropEntries_kept _ _ _).trans (writeMeas_kept _ _ _ _)).trans (afterExit_kept _ _ _ _ _)

theorem meuClose_kept {p o u : Bool} (q : Platform) (x : Span) (s : State) : Kept p o u s (meuClose q x s) := by
  unfold meuClose
  split
  · exact Kept.refl s
  · exact closeSpan_kept _ _ _ _ _

theorem meuOpen_kept {p o u : Bool} (q : Platform) (i t : Nat) (s : State) : Kept p o u s (meuOpen q i t s) :=
  updMeu_kept _ _ _

theorem meuCancel_kept {p o u : Bool} (q : Platform) (i : Nat) (s : State) : Kept p o u s (meuCancel q i s) :=
  (dropEntries_kept _ _ _).trans (resolveWhere_kept _ _ _ _)

theorem combineSettled_kept {p o u : Bool} (i : Nat) (s : State) : Kept p o u s (combineSettled i s) :=
  ((resolveWhere_kept _ _ _ _).trans (resolveWhere_kept _ _ _ _)).trans (updAxle_kept _ _ _)

theorem recombine_kept {p o u : Bool} (i : Nat) (s : State) : Kept p o u s (recombine i s) := by
  unfold recombine
  split
  · exact Kept.refl s
  · split
    · simp only
      split
      · exact Kept.refl s
      · exact (updAxle_kept _ _ _).trans (noticeAxle_kept _ _ _)
    · exact Kept.refl s

theorem poisonTrain_kept {p o u : Bool} (q : Platform) (t : Nat) (s : State) : Kept p o u s (poisonTrain q t s) := by
  unfold poisonTrain
  exact (setTrain_kept (by simp)).trans (Kept.foldl (fun s i => recombine_kept i s) _ _)

theorem meuNotice_kept {p o u : Bool} (q : Platform) (t : Nat) (s : State) : Kept p o u s (meuNotice q t s) := by
  unfold meuNotice
  split
  · exact (updMeu_kept _ _ _).trans (poisonTrain_kept _ _ _)
  · exact Kept.refl s

/-! ### The Segmenter -/

theorem setWait_kept {p o u : Bool} (r : WaitReason) (s : State) : Kept p o u s (setWait r s) := Kept.setSeg id

theorem length_updVehicle (l : List Axle) (v : Vehicle) (f : Axle → Axle) :
    (l.take v.first ++ (axlesOf l v.first v.count).map f ++ l.drop (v.first + v.count)).length = l.length := by
  simp [axlesOf]
  omega

theorem updVehicleAxles_kept {p o u : Bool} (v : Vehicle) (f : Axle → Axle) (s : State) :
    Kept p o u s (updVehicleAxles v f s) := setTrain_kept (length_updVehicle _ _ _)

theorem reportV_kept {p o u : Bool} (s : State) : Kept p o u s (reportV s) := updOpenEntry_kept _ _

theorem formVehicle_kept {p o u : Bool} (t : Nat) (v : Vehicle) (s : State) : Kept p o u s (formVehicle t v s) := by
  unfold formVehicle
  simp only
  refine Kept.trans (s' := s.setSeg { s.seg with vehicles := s.seg.vehicles ++ [v], cursor := v.first + v.count })
    (Kept.setSeg id) ?_
  exact ((updVehicleAxles_kept _ _ _).trans (reportV_kept _)).trans (bindVehicle_kept _ _ _ _)

theorem meetLimit_kept {p o u : Bool} (t : Nat) (s : State) : Kept p o u s (meetLimit t s) := by
  unfold meetLimit
  refine Kept.trans (s' := s.setSeg { s.seg with limit := true }) (Kept.setSeg id) ?_
  exact (setWait_kept _ _).trans (reportFault_kept _ _)

theorem evalCursor_kept {p o u : Bool} (t : Nat) (c : Bool) : ∀ (fuel : Nat) (s : State), Kept p o u s (evalCursor t c fuel s)
  | 0, s => Kept.refl s
  | fuel + 1, s => by
    unfold evalCursor
    split
    · exact setWait_kept _ _
    · split
      · exact setWait_kept _ _
      · split
        · exact setWait_kept _ _
        · split
          · exact meetLimit_kept _ _
          · exact (formVehicle_kept _ _ _).trans (evalCursor_kept t c fuel _)

theorem evaluate_kept {p o u : Bool} (t : Nat) (c : Bool) (s : State) : Kept p o u s (evaluate t c s) :=
  evalCursor_kept _ _ _ _

theorem segTold_kept {p o u : Bool} (t : Nat) (s : State) : Kept p o u s (segTold t s) := by
  unfold segTold
  simp only
  refine Kept.trans (s' := s.setSeg { s.seg with spacings := findSpacings s s.axt.train s.seg.spacings })
    (Kept.setSeg id) ?_
  split
  · exact evaluate_kept _ _ _
  · exact Kept.refl _

theorem dissolveLast_kept {p o u : Bool} (s : State) : Kept p o u s (dissolveLast s) := by
  unfold dissolveLast
  split
  · exact Kept.refl s
  · next v _ =>
    simp only
    refine Kept.trans (s' := s.setSeg { s.seg with vehicles := s.seg.vehicles.dropLast, cursor := v.first, limit := false })
      (Kept.setSeg id) ?_
    exact ((updVehicleAxles_kept _ _ _).trans (reportV_kept _)).trans (dissolveVehicle_kept _ _ _)

theorem segRemoved_kept {p o u : Bool} (a : Axle) (s : State) : Kept p o u s (segRemoved a s) := by
  unfold segRemoved
  simp only
  refine Kept.trans (s' := s.setSeg { s.seg with spacings := s.seg.spacings.take (s.axt.train.length - 1) })
    (Kept.setSeg id) ?_
  split
  · exact dissolveLast_kept _
  · exact Kept.refl _

end Sys2Proof.Machine
end

