-- ==== Sys2Proof/Laws/Orders.lean ====
section
/-! SUPPORT. The orders of R179 at a sampling instant: what the channels and the platforms leave whichever is taken first,
and that the FAU is the only block in which the order shows. -/

namespace Sys2Proof.Machine

set_option Elab.async false

/-! ### Channels and platforms by name -/

theorem PerChannel.get_set {α : Type} (x : PerChannel α) (c d : Fin 8) (v : α) :
    (x.set c v).get d = if d = c then v else x.get d := by
  match c, d with
  | ⟨i, hi⟩, ⟨j, hj⟩ =>
    have h1 : i = 0 ∨ i = 1 ∨ i = 2 ∨ i = 3 ∨ i = 4 ∨ i = 5 ∨ i = 6 ∨ i = 7 := by omega
    have h2 : j = 0 ∨ j = 1 ∨ j = 2 ∨ j = 3 ∨ j = 4 ∨ j = 5 ∨ j = 6 ∨ j = 7 := by omega
    rcases h1 with rfl | rfl | rfl | rfl | rfl | rfl | rfl | rfl <;>
      rcases h2 with rfl | rfl | rfl | rfl | rfl | rfl | rfl | rfl <;> rfl

theorem PerPlatform.get_set {α : Type} (x : PerPlatform α) (p q : Platform) (v : α) :
    (x.set p v).get q = if q = p then v else x.get q := by
  cases p <;> cases q <;> rfl

theorem mem_channels (c : Fin 8) : c ∈ channels := by revert c; decide

theorem mem_channelsOf {c : Fin 8} {p : Platform} : c ∈ channelsOf p ↔ platformOfChannel c = p := by
  cases p <;> revert c <;> decide

theorem PerChannel.ext_get {α : Type} {x y : PerChannel α} (h : ∀ c, x.get c = y.get c) : x = y := by
  obtain ⟨a0, a1, a2, a3, a4, a5, a6, a7⟩ := x
  obtain ⟨b0, b1, b2, b3, b4, b5, b6, b7⟩ := y
  simp only [PerChannel.mk.injEq]
  exact ⟨h 0, h 1, h 2, h 3, h 4, h 5, h 6, h 7⟩

/-! ### Platform service (R19) -/

/-- The LCU after the re-evaluation of one platform: its service state is what its conditions say. -/
theorem evalPlatform_lcu (t : Nat) (p : Platform) (s : State) : (evalPlatform t p s).lcu =
    { s.lcu with platforms := s.lcu.platforms.set p { s.lcu.platforms.get p with
        service := if (serviceConditions s p).all id then .inService else .out } } := by
  have hs : ∀ v : Service, (s.lcu.platforms.get p).service = v →
      s.lcu = { s.lcu with platforms := s.lcu.platforms.set p { s.lcu.platforms.get p with service := v } } := by
    intro v hv
    subst hv
    cases p <;> rfl
  unfold evalPlatform
  simp only
  cases hc : (serviceConditions s p).all id with
  | true =>
    cases hv : (s.lcu.platforms.get p).service with
    | inService => simpa using hs _ hv
    | out => simp only; rw [evalPermit_eq]; rfl
  | false =>
    cases hv : (s.lcu.platforms.get p).service with
    | inService => simp only; rw [evalPermit_eq, reportFault_eq]; rfl
    | out => simpa using hs _ hv

/-- The conditions of R19 are decided on the channels, the senses and the calibration state. -/
theorem serviceConditions_congr {s s' : State} (p : Platform) (h1 : s'.lcu.channels = s.lcu.channels)
    (h2 : (s'.lcu.platforms.get p).sense = (s.lcu.platforms.get p).sense) (h3 : s'.cal.state = s.cal.state) :
    serviceConditions s' p = serviceConditions s p := by
  unfold serviceConditions State.fittedOf
  rw [h1, h2, h3]

/-- A re-evaluation of one platform changes the LCU, the PTB and the FAU only. -/
theorem evalPlatform_frame (t : Nat) (p : Platform) (s : State) : evalPlatform t p s =
    { s with lcu := (evalPlatform t p s).lcu, ptb := (evalPlatform t p s).ptb, fau := (evalPlatform t p s).fau } := by
  unfold evalPlatform
  simp only
  split
  · rw [evalPermit_eq, reportFault_eq]; rfl
  · rw [evalPermit_eq]; rfl
  · rfl

/-- What a re-evaluation of one platform leaves to the conditions of another: all of them. -/
theorem serviceConditions_evalPlatform (t : Nat) {p q : Platform} (h : q ≠ p) (s : State) :
    serviceConditions (evalPlatform t p s) q = serviceConditions s q := by
  refine serviceConditions_congr q (by rw [evalPlatform_lcu]) ?_ (by rw [evalPlatform_frame])
  rw [evalPlatform_lcu]
  simp [PerPlatform.get_set, h]

theorem serviceChanges_evalPlatform (t : Nat) {p q : Platform} (h : q ≠ p) (s : State) :
    serviceChanges (evalPlatform t p s) q = serviceChanges s q := by
  unfold serviceChanges
  rw [serviceConditions_evalPlatform t h, evalPlatform_lcu]
  simp [PerPlatform.get_set, h]

/-- PERMIT is evaluated when a service state changes (R19). -/
theorem evalPlatform_ptb {t : Nat} {p : Platform} {s : State} (h : serviceChanges s p = true) :
    (evalPlatform t p s).ptb = (evalPermit (s.setLcu (evalPlatform t p s).lcu)).ptb := by
  rw [evalPlatform_lcu, evalPermit_ptb]
  unfold serviceChanges at h
  unfold evalPlatform
  simp only
  cases hc : (serviceConditions s p).all id <;> cases hv : (s.lcu.platforms.get p).service <;>
    simp [hc, hv] at h
  · simp only
    rw [evalPermit_ptb, reportFault_eq]
    rfl
  · simp only
    rw [evalPermit_ptb]
    rfl

/-- Two platforms re-evaluated one after the other leave the same LCU in either order. -/
theorem evalTwo_lcu (t : Nat) (s : State) :
    (evalPlatform t .a (evalPlatform t .b s)).lcu = (evalPlatform t .b (evalPlatform t .a s)).lcu := by
  rw [evalPlatform_lcu, serviceConditions_evalPlatform t (by decide), evalPlatform_lcu t .b s, evalPlatform_lcu t .b,
    serviceConditions_evalPlatform t (by decide), evalPlatform_lcu t .a s]
  rfl

/-- Two platforms that both change leave the same PTB in either order. -/
theorem evalTwo_ptb (t : Nat) {s : State} (ha : serviceChanges s .a = true) (hb : serviceChanges s .b = true) :
    (evalPlatform t .a (evalPlatform t .b s)).ptb = (evalPlatform t .b (evalPlatform t .a s)).ptb := by
  rw [evalPlatform_ptb (by rw [serviceChanges_evalPlatform t (by decide)]; exact ha),
    evalPlatform_ptb (p := .b) (by rw [serviceChanges_evalPlatform t (by decide)]; exact hb), evalTwo_lcu]
  generalize (evalPlatform t .b (evalPlatform t .a s)).lcu = x
  have h1 := evalPlatform_frame t .a s
  have h2 := evalPlatform_frame t .b s
  have p1 : (evalPlatform t .a s).ptb = _ := (evalPlatform_ptb ha).trans (evalPermit_ptb _)
  have p2 : (evalPlatform t .b s).ptb = _ := (evalPlatform_ptb hb).trans (evalPermit_ptb _)
  rw [evalPermit_ptb, evalPermit_ptb]
  rw [h1, h2, p1, p2]
  rfl

/-- The platforms in the order in which a state's free value takes them (R179; notes/assumptions/44.md). -/
def platformsInOrder (s : State) : Platform × Platform :=
  if platformsTie s && Config.platformBFirst s.freeCount then (.b, .a) else (.a, .b)

theorem platformsInOrder_cases (s : State) : platformsInOrder s = (.a, .b) ∨ platformsInOrder s = (.b, .a) := by
  unfold platformsInOrder
  split
  · exact .inr rfl
  · exact .inl rfl

/-- Both platforms are re-evaluated, one after the other, and the counter of free values advances. -/
theorem evalPlatforms_eq (t : Nat) (s : State) : evalPlatforms t s =
    (evalPlatform t (platformsInOrder s).2 (evalPlatform t (platformsInOrder s).1 s)).drawFree := by
  unfold evalPlatforms platformsInOrder
  cases h : platformsTie s && Config.platformBFirst s.freeCount
  · rfl
  · have ht : serviceChanges s .a = true ∧ serviceChanges s .b = true := by
      simp only [platformsTie, Bool.and_eq_true] at h
      exact h.1.1
    have hl := evalTwo_lcu t s
    have hp := evalTwo_ptb t ht.1 ht.2
    have f1 : evalPlatform t .a (evalPlatform t .b s) = _ := evalPlatform_frame ..
    have f2 : evalPlatform t .b (evalPlatform t .a s) = _ := evalPlatform_frame ..
    simp only [if_true]
    congr 1
    generalize (evalPlatform t .a (evalPlatform t .b s)).fau = f at f1 ⊢
    rw [f2, f1, hl, hp, evalPlatform_frame t .a s, evalPlatform_frame t .b s]
    rfl

/-! ### The channels of an instant (R14, R25) -/

/-- A channel's advance changes that channel, and the FAU. -/
theorem advanceChannel_lcu (t : Nat) (r : Readings) (c : Fin 8) (s : State) : (advanceChannel t r c s).lcu = { s.lcu with
    channels := s.lcu.channels.set c ((s.lcu.channels.get c).step t (r.raw.get c) (r.sense.get (platformOfChannel c))) } := by
  unfold advanceChannel
  simp only
  split
  · rw [reportFault_eq]; rfl
  · rfl

/-- Channels taken one after another change their own records. -/
theorem advanceAll_lcu (t : Nat) (r : Readings) : ∀ (l : List (Fin 8)) (s : State), l.Nodup →
    (advanceAll t r l s).lcu.platforms = s.lcu.platforms ∧ (advanceAll t r l s).lcu.lastInstant = s.lcu.lastInstant ∧
    ∀ c, (advanceAll t r l s).lcu.channels.get c = if c ∈ l then
      (s.lcu.channels.get c).step t (r.raw.get c) (r.sense.get (platformOfChannel c)) else s.lcu.channels.get c
  | [], s, _ => ⟨rfl, rfl, fun c => by simp [advanceAll]⟩
  | d :: l, s, h => by
    obtain ⟨h1, h2⟩ := List.nodup_cons.mp h
    obtain ⟨k1, k2, k3⟩ := advanceAll_lcu t r l (advanceChannel t r d s) h2
    rw [advanceChannel_lcu] at k1 k2
    show (advanceAll t r l (advanceChannel t r d s)).lcu.platforms = _ ∧ _
    refine ⟨k1, k2, fun c => ?_⟩
    show (advanceAll t r l (advanceChannel t r d s)).lcu.channels.get c = _
    rw [k3 c, advanceChannel_lcu]
    simp only [PerChannel.get_set, List.mem_cons]
    by_cases hc : c = d
    · subst hc; simp [h1]
    · simp [hc]

/-- Each channel of an instant is taken once. -/
theorem channelOrder_perm (t : Nat) (r : Readings) (s : State) : (channelOrder t r s).Perm channels := by
  unfold channelOrder
  split
  · exact .refl _
  · split
    · exact .refl _
    · exact perm_sortBy _ _

/-- The channels that share a fault slot of an instant, those of a platform whose sense is ABSENT, are taken in ascending
order (R16, R25). -/
theorem channelOrder_ascending (t : Nat) (r : Readings) (s : State) :
    (channelOrder t r s).Pairwise fun c d => faultSlot r c = faultSlot r d → c.val < d.val := by
  have ha : channels.Pairwise fun c d => c.val < d.val := by decide
  have hc : channels.Pairwise fun c d => faultSlot r c = faultSlot r d → c.val < d.val := ha.imp (by intro a b h _; exact h)
  unfold channelOrder
  split
  · exact hc
  · split
    · exact hc
    · refine (pairwise_sortBy _ ha).imp ?_
      rintro c d (h | h) e
      · rw [e] at h; omega
      · exact h.2

/-- Channels change nothing but their records and the FAU. -/
theorem advanceAll_frame (t : Nat) (r : Readings) : ∀ (l : List (Fin 8)) (s : State), advanceAll t r l s =
    (s.setLcu (advanceAll t r l s).lcu).setFau (advanceAll t r l s).fau
  | [], _ => rfl
  | c :: l, s => by
    have h := advanceAll_frame t r l (advanceChannel t r c s)
    have e : advanceChannel t r c s = (s.setLcu (advanceChannel t r c s).lcu).setFau (advanceChannel t r c s).fau := by
      unfold advanceChannel
      simp only
      split
      · rw [reportFault_eq]; rfl
      · rfl
    show advanceAll t r l (advanceChannel t r c s) = (s.setLcu (advanceAll t r l (advanceChannel t r c s)).lcu).setFau
      (advanceAll t r l (advanceChannel t r c s)).fau
    generalize advanceAll t r l (advanceChannel t r c s) = z at h
    rw [e] at h
    exact h

/-- In whatever order the channels are taken, their records come out the same. -/
theorem advanceAll_perm (t : Nat) (r : Readings) {l l' : List (Fin 8)} (h : l.Perm l') (hn : l'.Nodup) (s : State) :
    (advanceAll t r l s).lcu = (advanceAll t r l' s).lcu := by
  obtain ⟨h1, h2, h3⟩ := advanceAll_lcu t r l s (h.nodup_iff.mpr hn)
  obtain ⟨k1, k2, k3⟩ := advanceAll_lcu t r l' s hn
  have hc : (advanceAll t r l s).lcu.channels = (advanceAll t r l' s).lcu.channels := by
    refine PerChannel.ext_get fun c => ?_
    rw [h3 c, k3 c]
    simp only [h.mem_iff]
  generalize (advanceAll t r l s).lcu = x at *
  generalize (advanceAll t r l' s).lcu = y at *
  obtain ⟨a, b, c⟩ := x
  obtain ⟨a', b', c'⟩ := y
  simp_all

theorem advanceChannels_lcu (t : Nat) (r : Readings) (s : State) :
    (advanceChannels t r s).lcu = (advanceAll t r channels s).lcu := by
  unfold advanceChannels
  rw [State.setFau_lcu]

/-- The channels of an instant are taken one after another in the order of the free value (R179). -/
theorem advanceChannels_eq (t : Nat) (r : Readings) (s : State) :
    advanceChannels t r s = advanceAll t r (channelOrder t r s) s := by
  unfold advanceChannels
  have hp := advanceAll_perm t r (channelOrder_perm t r s) (by decide) s
  have h1 := advanceAll_frame t r channels s
  have h2 := advanceAll_frame t r (channelOrder t r s) s
  generalize advanceAll t r channels s = x at *
  generalize advanceAll t r (channelOrder t r s) s = y at *
  rw [h1, h2, hp]
  rfl

end Sys2Proof.Machine
end

