-- ==== Sys2Proof/Laws/KeptUnits.lean ====
section
/-! SUPPORT. What the operations of the Load Channel Unit, the Zero Control, the Calibration Unit, the register's marks and
the Store Controller keep. -/

namespace Sys2Proof.Machine

set_option Elab.async false

/-! ### The Load Channel Unit -/

theorem setChannels_kept {p o : Bool} (x : PerChannel Channel) (s : State) : Kept p o false s (s.setChannels x) :=
  Kept.setLcu fun _ => ⟨rfl, rfl⟩

theorem updChannel_kept {p o : Bool} (c : Fin 8) (f : Channel → Channel) (s : State) : Kept p o false s (updChannel c f s) :=
  setChannels_kept _ _

theorem advanceChannel_kept {p o : Bool} (t : Nat) (r : Readings) (c : Fin 8) (s : State) :
    Kept p o false s (advanceChannel t r c s) := by
  unfold advanceChannel
  simp only
  split
  · exact (setChannels_kept _ _).trans (reportFault_kept _ _)
  · exact setChannels_kept _ _

theorem setService_kept {o : Bool} (q : Platform) (v : Service) (s : State) : Kept false o false s (setService q v s) :=
  Kept.setLcu fun h => absurd h (by decide)

theorem evalPlatform_kept {p o : Bool} (t : Nat) (q : Platform) (s : State) : Kept p o false s (evalPlatform t q s) := by
  unfold evalPlatform
  simp only
  split
  · exact Kept.thenPermit ((setService_kept _ _ _).trans (reportFault_kept _ _))
  · exact Kept.thenPermit (setService_kept _ _ _)
  · exact Kept.refl s

theorem evalPlatforms_kept {p o : Bool} (t : Nat) (s : State) : Kept p o false s (evalPlatforms t s) := by
  rw [evalPlatforms_eq]
  exact ((evalPlatform_kept _ _ _).trans (evalPlatform_kept _ _ _)).trans (Kept.setFreeCount _ _)

theorem applyPattern_kept {p o : Bool} (t : Nat) (x : Int) (s : State) : Kept p o false s (applyPattern t x s) :=
  (setChannels_kept _ _).trans (evalPlatforms_kept _ _)

/-! ### The Zero Control -/

theorem updZcl_kept {p o : Bool} (q : Platform) (f : ZclPlatform → ZclPlatform) (s : State) : Kept p o false s (updZcl q f s) :=
  Kept.setZcl fun _ _ => rfl

theorem setZeros_kept {p o : Bool} {cs : List (Fin 8)} {f : Fin 8 → Int} {s : State} (h : o = true → s.isOpen = false) :
    Kept p o false s (setZeros cs f s) :=
  Kept.setZcl fun ho hi => absurd hi (by rw [h ho]; decide)

theorem zclFreeze_kept {p o : Bool} (s : State) : Kept p o false s (zclFreeze s) := Kept.setZcl fun _ _ => rfl

theorem zclUnfreeze_kept {p o : Bool} (s : State) : Kept p o false s (zclUnfreeze s) := Kept.setZcl fun _ _ => rfl

theorem endAcquisition_kept {p o : Bool} (q : Platform) (r : AcqResult) (s : State) :
    Kept p o false s (endAcquisition q r s) := (updZcl_kept _ _ _).trans (raiseAtt_kept _ _)

theorem endIfInHand_kept {p o : Bool} (q : Platform) (r : AcqResult) (s : State) : Kept p o false s (endIfInHand q r s) := by
  unfold endIfInHand
  split
  · exact Kept.refl s
  · exact endAcquisition_kept _ _ _

theorem finishAcquisition_kept {p o : Bool} {q : Platform} {s : State} (h : o = true → s.isOpen = false) :
    Kept p o false s (finishAcquisition q s) := by
  unfold finishAcquisition
  simp only
  split
  · exact ((setZeros_kept h).trans (updZcl_kept _ _ _)).trans (endAcquisition_kept _ _ _)
  · exact endAcquisition_kept _ _ _

theorem collectInstant_kept {p o : Bool} {q : Platform} {raw : PerChannel Int} {x : Int} {s : State}
    (h : o = true → s.isOpen = false) : Kept p o false s (collectInstant q raw x s) := by
  unfold collectInstant
  simp only
  split
  · exact (updZcl_kept _ _ _).trans (finishAcquisition_kept h)
  · exact updZcl_kept _ _ _

theorem nearZero_kept {p o : Bool} {q : Platform} {b : Block} {s : State} (h : o = true → s.isOpen = false) :
    Kept p o false s (nearZero q b s) := by
  unfold nearZero
  simp only
  split
  · exact (updZcl_kept _ _ _).trans (reportFault_kept _ _)
  · exact (updZcl_kept _ _ _).trans (setZeros_kept h)

theorem offZero_kept {p o : Bool} (q : Platform) (x : Int) (s : State) : Kept p o false s (offZero q x s) := by
  unfold offZero
  simp only
  split
  · exact ((updZcl_kept _ _ _).trans (updZcl_kept _ _ _)).trans (reportFault_kept _ _)
  · exact updZcl_kept _ _ _

theorem judgeBlock_kept {p o : Bool} {q : Platform} {s : State} (h : o = true → s.isOpen = false) :
    Kept p o false s (judgeBlock q s) := by
  unfold judgeBlock
  simp only
  split
  · exact updZcl_kept _ _ _
  · split
    · exact (updZcl_kept _ _ _).trans (nearZero_kept h)
    · exact (updZcl_kept _ _ _).trans (offZero_kept _ _ _)

theorem trackInstant_kept {p o : Bool} {q : Platform} {raw : PerChannel Int} {x : Int} {s : State}
    (h : o = true → s.isOpen = false) : Kept p o false s (trackInstant q raw x s) := by
  unfold trackInstant
  simp only
  split
  · exact (updZcl_kept _ _ _).trans (judgeBlock_kept h)
  · exact updZcl_kept _ _ _

theorem discardBlock_kept {p o : Bool} (q : Platform) (s : State) : Kept p o false s (discardBlock q s) := updZcl_kept _ _ _

theorem quiet_closed {s : State} {q : Platform} (h : quiet s q = true) : s.isOpen = false := by
  simp only [quiet, Bool.and_eq_true, Bool.not_eq_true'] at h
  exact h.1.1.1

theorem zclInstant_kept {p o : Bool} (q : Platform) (raw : PerChannel Int) (s : State) :
    Kept p o false s (zclInstant q raw s) := by
  unfold zclInstant
  simp only
  split
  · exact (discardBlock_kept _ _).trans (endIfInHand_kept _ _ _)
  · split
    · refine (discardBlock_kept q s).trans ?_
      split
      · next h => exact collectInstant_kept fun _ => quiet_closed h
      · exact Kept.refl _
    · exact discardBlock_kept _ _
    · split
      · exact discardBlock_kept _ _
      · split
        · next h => exact trackInstant_kept fun _ => quiet_closed h
        · exact Kept.refl _

theorem zclApply_kept {p : Bool} (s : State) : Kept p false false s (zclApply s) := by
  unfold zclApply
  simp only
  refine ((endIfInHand_kept .a .cancelled s).trans (endIfInHand_kept .b .cancelled _)).trans ?_
  exact Kept.setZcl fun h => absurd h (by decide)

theorem returnZero_kept {p o : Bool} {c : Fin 8} {s : State} (h : o = true → s.isOpen = false) :
    Kept p o false s (returnZero c s) := (discardBlock_kept _ _).trans (setZeros_kept h)

/-! ### The sampling instant -/

theorem takeSenses_kept {p o : Bool} (t : Nat) (x : PerPlatform Sense) (s : State) : Kept p o false s (takeSenses t x s) :=
  Kept.setLcu fun _ => ⟨rfl, rfl⟩

theorem advanceChannels_kept {p o : Bool} (t : Nat) (r : Readings) (s : State) :
    Kept p o false s (advanceChannels t r s) := by
  rw [advanceChannels_eq]
  exact Kept.foldl (fun s c => advanceChannel_kept t r c s) _ _

theorem lcuInstant_kept {p o : Bool} (t : Nat) (r : Readings) (s : State) : Kept p o false s (lcuInstant t r s) :=
  ((takeSenses_kept _ _ _).trans (advanceChannels_kept _ _ _)).trans (evalPlatforms_kept _ _)

theorem noticeFaults_kept {p o : Bool} (old : PerChannel Channel) (s : State) : Kept p o false s (noticeFaults old s) := by
  refine Kept.foldl (fun s c => ?_) _ _
  simp only
  split
  · exact meuNotice_kept _ _ _
  · exact Kept.refl s

theorem zclPlatforms_kept {p o : Bool} (raw : PerChannel Int) (s : State) : Kept p o false s (zclPlatforms raw s) := by
  unfold zclPlatforms
  split
  · exact (zclInstant_kept _ _ _).trans (zclInstant_kept _ _ _)
  · exact (zclInstant_kept _ _ _).trans (zclInstant_kept _ _ _)

theorem handOnInstant_kept {p o : Bool} (old : PerChannel Channel) (t : Nat) (r : Readings) (s : State) :
    Kept p o false s (handOnInstant old t r s) :=
  (((noticeFaults_kept old s).trans (Kept.setMeu _ _)).trans (zclPlatforms_kept _ _))

theorem sample_kept {p o : Bool} (t : Nat) (r : Readings) (s : State) : Kept p o false s (sample t r s) := by
  unfold sample instantAt
  simp only
  exact (((Kept.advance _ _).trans (Kept.advance _ _)).trans (lcuInstant_kept _ _ _)).trans (handOnInstant_kept _ _ _ _)

/-! ### The Store Controller -/

theorem setBusy_kept {p o : Bool} {b : Busy} {s : State} (h : LoadOk s → b.op = .load → s.condition = .starting) :
    Kept p o false s (setBusy b s) :=
  Kept.setStc id fun hl x hx hop => by
    simp only [Option.some.injEq] at hx
    subst hx
    exact h hl hop

theorem startOperation_kept {p o : Bool} {op : StoreOp} (h : op ≠ .load) (l : List Item) (t : Nat) (s : State) :
    Kept p o false s (startOperation op l t s) := setBusy_kept fun _ e => absurd e h

theorem storeFault_kept {p o : Bool} (op : StoreOp) (w : Option WritePhase) (s : State) :
    Kept p o false s (storeFault op w s) := reportFault_kept _ _

theorem coverNumber_kept {p o : Bool} (t : Nat) (s : State) : Kept p o false s (coverNumber t s) := by
  unfold coverNumber
  split
  · exact startOperation_kept (by decide) _ _ _
  · split
    · exact Kept.setStc id id
    · exact Kept.refl s

theorem record_ok {x : Stc} (h : StcOk x) (op : StoreOp) (ok : Bool) : StcOk (x.record op ok) := by
  obtain ⟨h1, h2⟩ := h
  unfold Stc.record
  cases ok with
  | true => exact ⟨Nat.zero_le _, by simp⟩
  | false =>
    simp only [Bool.false_eq_true, if_false, satSucc, StcOk]
    split
    · refine ⟨by omega, ?_⟩
      split
      · simp_all
      · constructor
        · intro h; have := h2.mp h; omega
        · intro h; omega
    · have : x.failures = 3 := by omega
      simp [this]

theorem startWaiting_kept {p o : Bool} (t : Nat) (s : State) : Kept p o false s (startWaiting t s) := by
  unfold startWaiting
  split
  · exact Kept.trans (s' := s.setStc { s.stc with waiting := false }) (Kept.setStc id id)
      (startOperation_kept (by decide) _ _ _)
  · exact Kept.refl s

theorem endOperation_kept {p o : Bool} (op : StoreOp) (ok : Bool) (due : Nat) (s : State) :
    Kept p o false s (endOperation op ok due s) := by
  unfold endOperation
  simp only
  refine Kept.trans (s' := s.setStc { s.stc.record op ok with busy := none })
    (Kept.setStc (fun h => record_ok h _ _) fun _ b hb => by simp at hb) ?_
  split
  · exact (raiseAtt_kept _ _).trans (startWaiting_kept _ _)
  · exact ((storeFault_kept _ _ _).trans (raiseAtt_kept _ _)).trans (startWaiting_kept _ _)

theorem reachDue_kept {p o : Bool} (b : Busy) (s : State) : Kept p o false s (reachDue b s) := Kept.advance _ _

theorem setCell_ok {x : Store} (h : StoreOk x) (c : CellId) (v : Option Cell) : StoreOk (x.setCell c v) := by
  cases c <;> exact h

theorem drawFree_kept {p o : Bool} (s : State) : Kept p o false s s.drawFree := Kept.setFreeCount _ _

theorem endCellWrite_kept {p o : Bool} (b : Busy) (v : Bool) (s : State) : Kept p o false s (endCellWrite b v s) := by
  refine Kept.trans (s' := leaveCell b v s) ?_ ?_
  · unfold leaveCell
    split
    · exact Kept.refl s
    · split
      · exact Kept.trans (Kept.setStore fun h => setCell_ok h _ _) (Kept.setStc id id)
      · exact (Kept.setStore fun h => setCell_ok h _ _).trans (drawFree_kept _)
  · unfold endCellWrite reportCellWrite
    split
    · exact Kept.refl _
    · exact storeFault_kept _ _ _

/-- The order of a closing write's fault and the end of its operation shows in the capture alone. -/
theorem endClosing_kept {p o : Bool} (b : Busy) (v : Bool) (f : State → State) (s : State) :
    Kept p o false (f (endCellWrite b v s)) (endClosing b v f s) := Kept.setFau id id id

/-- The writing of a stored entry keeps the form. -/
theorem wf_putStored {α : Type} {t : Table (Stored α)} (h : Table.wf t = true) (k : Nat) (v : Option (Stored α)) :
    Table.wf (putStored t k v) = true := by
  cases v with
  | none => exact wf_tdel h _
  | some x => exact wf_tput h _ _

theorem wf_writeClasses {t : Table (Stored ClassRec)} (h : Table.wf t = true) (n : Table ClassRec) (f : Nat → Option Bool) :
    Table.wf (writeClasses t n f) = true := by
  unfold writeClasses
  generalize classCodes = l
  have : ∀ (l : List Nat) (u : Table (Stored ClassRec)), Table.wf u = true →
      Table.wf (l.foldl (fun u c => putStored u c (storedAfter (f c) ((tget n c).map .sound) (tget t c))) u) = true := by
    intro l
    induction l with
    | nil => intro u hu; exact hu
    | cons a l ih => intro u hu; exact ih _ (wf_putStored hu _ _)
  exact this l t h

theorem writeItem_ok {x : Store} (h : StoreOk x) (i : Item) (f : Nat → Option Bool) : StoreOk (x.writeItem i f) := by
  cases i with
  | classArea t => exact ⟨wf_writeClasses h.1 _ _, h.2⟩
  | write k r => exact ⟨h.1, wf_putStored h.2 _ _⟩
  | erase k => exact ⟨h.1, wf_putStored h.2 _ _⟩

theorem endItem_kept {p o : Bool} (i : Item) (v : Bool) (s : State) : Kept p o false s (endItem i v s) := by
  unfold endItem
  split
  · exact Kept.setStore fun h => writeItem_ok h _ _
  · exact Kept.trans (Kept.setStore fun h => writeItem_ok h _ _) (Kept.setFreeCount _ _)

/-- A change of the marks alone keeps the register. -/
theorem marks_ok {w : Wrg} (h : WrgOk w) {f : Nat → RegRec → RegRec} {g : Nat → Retired → Retired}
    (hf : ∀ k r, (f k r).fields = r.fields ∧ (f k r).place = r.place) :
    WrgOk ⟨tmap f w.records, tmap g w.retired⟩ := by
  obtain ⟨h1, h2, h3, h4, h5⟩ := h
  refine ⟨by simpa using h1, by simpa using h2, ?_, fun r hr => ?_, fun r hr q hq hp => ?_⟩
  · intro r hr
    obtain ⟨q, hq, rfl⟩ := mem_tmap.mp hr
    exact h3 q hq
  · obtain ⟨q, hq, rfl⟩ := mem_tmap.mp hr
    have := h4 q hq
    simp only [hf, tget_tmap, this.2.2, Option.map_none, and_true]
    exact ⟨this.1, this.2.1⟩
  · obtain ⟨r', hr', rfl⟩ := mem_tmap.mp hr
    obtain ⟨q', hq', rfl⟩ := mem_tmap.mp hq
    simp only [hf] at hp
    exact h5 r' hr' q' hq' hp

theorem markCommit_kept {p o : Bool} (s : State) : Kept p o false s (markCommit s) := by
  unfold markCommit
  refine Kept.trans (s' := s.setWrg ⟨tmap (fun _ r => { r with commit := r.commit || r.dirty }) s.wrg.records,
    tmap (fun _ r => { r with commit := true }) s.wrg.retired⟩)
    (Kept.setWrg fun h => marks_ok h fun k r => ⟨rfl, rfl⟩) ?_
  exact Kept.setSeg (x := { s.seg with commit := s.seg.dirty }) fun h => h

theorem startCommit_kept {p o : Bool} (t : Nat) (s : State) : Kept p o false s (startCommit t s) :=
  (markCommit_kept s).trans (startOperation_kept (by decide) _ _ _)

theorem keepRetired_ok {w : Wrg} (h : WrgOk w) (f : Nat → Retired → Bool) :
    WrgOk { w with retired := tkeep f w.retired } := by
  obtain ⟨h1, h2, h3, h4, h5⟩ := h
  refine ⟨h1, wf_tkeep h2, fun r hr => h3 r (mem_tkeep.mp hr).1, fun r hr => ?_, h5⟩
  have := h4 r hr
  refine ⟨this.1, this.2.1, ?_⟩
  rw [tget_tkeep f h2, this.2.2]
  rfl

theorem commitSucceeded_kept {p o : Bool} (s : State) : Kept p o false s (commitSucceeded s) := by
  unfold commitSucceeded
  simp only
  have hw : Kept p o false s (s.setWrg { records := tmap (fun _ r => r.committed) s.wrg.records
                                         retired := tkeep (fun _ r => !r.commit) s.wrg.retired }) := by
    refine Kept.setWrg fun h => keepRetired_ok (w := ⟨tmap (fun _ r => r.committed) s.wrg.records, s.wrg.retired⟩) ?_ _
    have := marks_ok (f := fun _ r => r.committed) (g := fun _ r => r) h fun k r => by
      unfold RegRec.committed; split <;> exact ⟨rfl, rfl⟩
    have e : tmap (fun _ (r : Retired) => r) s.wrg.retired = s.wrg.retired := by
      induction s.wrg.retired with
      | nil => rfl
      | cons r t ih => simp [tmap, ih]
    rwa [e] at this
  split
  · exact hw.trans (Kept.setSeg id)
  · exact hw

theorem commitFailed_kept {p o : Bool} (s : State) : Kept p o false s (commitFailed s) := by
  unfold commitFailed
  refine Kept.trans (s' := s.setWrg ⟨tmap (fun _ r => { r with commit := false }) s.wrg.records,
    tmap (fun _ r => { r with commit := false }) s.wrg.retired⟩)
    (Kept.setWrg fun h => marks_ok h fun k r => ⟨rfl, rfl⟩) ?_
  exact Kept.setSeg (x := { s.seg with commit := false }) fun h => h

/-! ### The Calibration Unit -/

theorem discardStaging_kept {p o : Bool} (s : State) : Kept p o false s (discardStaging s) :=
  Kept.setCal (fun _ => rfl) fun _ => rfl

theorem stage_kept {p o : Bool} (f c : Nat) (v : Int) (l : List Band) (s : State) : Kept p o false s (stage f c v l s) :=
  Kept.setCal (fun _ => rfl) fun _ => rfl

theorem beginCalCommit_kept {p o : Bool} (t : Nat) (s : State) : Kept p o false s (beginCalCommit t s) := by
  unfold beginCalCommit
  exact Kept.trans (s' := s.setCal { s.cal with snapshot := some s.cal.staging, phase := .writing })
    (Kept.setCal (fun _ => rfl) fun _ => rfl) (startOperation_kept (by decide) _ _ _)

theorem applyCommit_kept {p : Bool} (c : CalSet) (s : State) : Kept p false false s (applyCommit c s) := by
  unfold applyCommit
  refine Kept.thenPermit ?_
  refine Kept.trans (s' := adoptSet c s) ?_ ((zclApply_kept _).trans (applyPattern_kept _ _ _))
  exact Kept.setCal (fun h => absurd h (by decide)) fun h => absurd h (by decide)

theorem applyHeld_kept {p : Bool} (s : State) : Kept p false false s (applyHeld s) := by
  unfold applyHeld
  split
  · exact applyCommit_kept _ _
  · exact Kept.refl s

theorem calFailed_kept {p o : Bool} (s : State) : Kept p o false s (calFailed s) := Kept.setCal (fun _ => rfl) fun _ => rfl

theorem endImage_kept {p o : Bool} (v : Bool) (s : State) : Kept p o false s (endImage v s) := by
  unfold endImage
  split
  · split
    · exact Kept.setStore id
    · exact Kept.refl s
  · exact Kept.trans (s' := s.setStore { s.store with
      image := if Config.imageFailsAfterFailedVerify s.freeCount then none else s.store.image })
      (Kept.setStore id) (drawFree_kept _)

theorem switchChanged_kept {p o : Bool} (x : SwitchPos) (s : State) : Kept p o false s (switchChanged x s) := by
  have h1 : Kept p o false s (if x = .operate then discardStaging s else s) := by
    split
    · exact discardStaging_kept s
    · exact Kept.refl s
  have h2 : ∀ m : State, Kept p o false m (if m.isOpen then
      reportFault (m.occNow .calSwitch m.timebase none (some (.switch x))) (markIfCalibrate x m) else m) := by
    intro m
    split
    · refine Kept.trans (s' := markIfCalibrate x m) ?_ (reportFault_kept _ _)
      unfold markIfCalibrate
      split
      · exact markUnverified_kept _
      · exact Kept.refl _
    · exact Kept.refl _
  exact h1.trans (h2 _)

/-! ### The ends of the writes -/

/-- A cell write leaves the operation in hand. -/
theorem endCellWrite_busy (b : Busy) (v : Bool) (s : State) : (endCellWrite b v s).stc.busy = s.stc.busy := by
  have h : (leaveCell b v s).stc.busy = s.stc.busy := by
    unfold leaveCell
    split
    · rfl
    · split <;> rfl
  unfold endCellWrite reportCellWrite
  split
  · exact h
  · unfold storeFault
    rw [reportFault_eq]
    exact h

theorem inHand_busy {s : State} {ph : WritePhase} {op : Option StoreOp} {b : Busy} (h : s.inHand ph op = some b) :
    s.stc.busy = some b := by
  unfold State.inHand at h
  split at h
  · simp at h
  · next c hc =>
    split at h
    · rw [hc]; exact h
    · simp at h

theorem setBusy_of {p o : Bool} {b d : Busy} {s : State} (h : s.stc.busy = some b) (e : d.op = b.op) :
    Kept p o false s (setBusy d s) :=
  setBusy_kept fun hl hop => hl b h (e ▸ hop)

theorem startClosing_kept {p o : Bool} {b d : Busy} {s : State} (h : s.stc.busy = some b) (e : d.op = b.op) :
    Kept p o false s (startClosing d s) := setBusy_of h e

theorem continueOperation_kept {p o : Bool} {b d : Busy} {s : State} (h : s.stc.busy = some b) (e : d.op = b.op) :
    Kept p o false s (continueOperation d s) := by
  unfold continueOperation
  split
  · exact setBusy_of h e
  · exact setBusy_of h e
  · exact startClosing_kept h e

theorem reservationEnds_kept {p o : Bool} (v : Bool) (s : State) : Kept p o false s (reservationEnds v s) := by
  unfold reservationEnds
  split
  · exact Kept.refl s
  · next b h =>
    refine ((reachDue_kept b s).trans (endCellWrite_kept b v _)).trans (continueOperation_kept (b := b) ?_ rfl)
    rw [endCellWrite_busy]
    exact inHand_busy h

theorem endItem_busy (i : Item) (v : Bool) (s : State) : (endItem i v s).stc.busy = s.stc.busy := by
  unfold endItem
  split <;> rfl

theorem itemEnds_kept {p o : Bool} (v : Bool) (s : State) : Kept p o false s (itemEnds v s) := by
  unfold itemEnds
  split
  · exact Kept.refl s
  · next b h =>
    split
    · exact Kept.refl s
    · next i l _ =>
      have hb : (endItem i v (reachDue b s)).stc.busy = some b := by rw [endItem_busy]; exact inHand_busy h
      simp only
      refine ((reachDue_kept b s).trans (endItem_kept i v _)).trans ?_
      split
      · exact continueOperation_kept hb rfl
      · exact startClosing_kept hb rfl

theorem registerCommitEnds_kept {p o : Bool} (v : Bool) (s : State) : Kept p o false s (registerCommitEnds v s) := by
  unfold registerCommitEnds
  split
  · exact Kept.refl s
  · next b _ =>
    refine Kept.trans ?_ (endClosing_kept b v (fun s => endOperation .registerCommit (!b.failed) b.due
      (if b.failed then commitFailed s else commitSucceeded s)) (reachDue b s))
    refine ((reachDue_kept b s).trans (endCellWrite_kept b v _)).trans (Kept.trans ?_ (endOperation_kept _ _ _ _))
    split
    · exact commitFailed_kept _
    · exact commitSucceeded_kept _

theorem numberEnds_kept {p o : Bool} (v : Bool) (s : State) : Kept p o false s (numberEnds v s) := by
  unfold numberEnds
  split
  · exact Kept.refl s
  · next b _ =>
    exact (((reachDue_kept b s).trans (endCellWrite_kept b v _)).trans (endOperation_kept _ _ _ _)).trans
      (endClosing_kept b v (endOperation .passageNumber v b.due) _)

theorem imageEnds_kept {p o : Bool} (v : Bool) (s : State) : Kept p o false s (imageEnds v s) := by
  unfold imageEnds
  split
  · exact Kept.refl s
  · next b h =>
    refine ((reachDue_kept b s).trans (endImage_kept v _)).trans (startClosing_kept (b := b) ?_ rfl)
    have : ∀ x : State, (endImage v x).stc = x.stc := by
      intro x
      unfold endImage
      split
      · split <;> rfl
      · rfl
    rw [this]
    exact inHand_busy h

end Sys2Proof.Machine
end

