-- ==== Sys2Proof/Laws/KeptTracker.lean ====
section
/-! SUPPORT. What the operations of the Wheel Station Unit and the Axle Tracker keep, and what an opening and a close
leave. -/

namespace Sys2Proof.Machine

set_option Elab.async false

/-! ### Stations -/

/-- A change of the station records, each kept in range. -/
theorem mapWsu_kept {p o : Bool} {f : StationRec → StationRec} (h : ∀ r, r.ok → (f r).ok) (s : State) :
    Kept p o false s (s.setWsu (s.wsu.map f)) :=
  Kept.setWsu fun hs => ⟨h _ hs.1, h _ hs.2.1, h _ hs.2.2⟩

theorem updStation_kept {p o : Bool} {k : Station} {f : StationRec → StationRec} {s : State}
    (h : (s.wsu.get k).ok → (f (s.wsu.get k)).ok) : Kept p o false s (updStation k f s) := by
  refine Kept.setWsu fun hs => ?_
  cases k
  · exact ⟨h hs.1, hs.2.1, hs.2.2⟩
  · exact ⟨hs.1, h hs.2.1, hs.2.2⟩
  · exact ⟨hs.1, hs.2.1, h hs.2.2⟩

theorem fault_ok (r : StationRec) : r.fault.ok :=
  ⟨fun p hp => by simp [StationRec.fault] at hp, Nat.zero_le _, fun _ => ⟨rfl, rfl⟩⟩

theorem release_ok (r : StationRec) : r.release.ok :=
  ⟨fun p hp => by simp [StationRec.release] at hp, Nat.zero_le _, fun h => by simp [StationRec.release] at h⟩

theorem moved_ok {r : StationRec} (h : r.ok) : r.moved.ok := by
  refine ⟨fun p hp => ?_, h.2.1, fun hf => ?_⟩
  · simp only [StationRec.moved, Option.map_eq_some_iff] at hp
    obtain ⟨q, hq, rfl⟩ := hp
    have := h.1 q hq
    simp only [satSucc]
    split <;> omega
  · have := h.2.2 hf
    simp [StationRec.moved, this.1, this.2]

theorem return_ok {r : StationRec} (h : r.ok) (hs : r.state = .ok) : r.return.ok := by
  refine ⟨fun p hp => by simp [StationRec.return] at hp, ?_, fun hf => ?_⟩
  · have := h.2.1
    simp only [StationRec.return, satSucc]
    split <;> omega
  · simp [StationRec.return, hs] at hf

/-! ### Reports, windows, settlement -/

theorem touch_kept {p o u : Bool} (t : Nat) (s : State) : Kept p o u s (touch t s) := by
  refine Kept.setAxt id (fun _ => by simp) (fun _ hn hr => ?_)
  rw [hr]
  rfl

theorem reportTracker_kept {p o u : Bool} (s : State) : Kept p o u s (reportTracker s) := updOpenEntry_kept _ _

theorem markWindow_kept {p o u : Bool} (x : Side) (v : Option Nat) (i : Nat) (s : State) :
    Kept p o u s (markWindow x v i s) := updAxle_kept _ _ _

theorem openWindow_kept {p o u : Bool} (x : Side) (i t : Nat) (s : State) : Kept p o u s (openWindow x i t s) :=
  (markWindow_kept _ _ _ _).trans (meuOpen_kept _ _ _ _)

theorem cancelWindow_kept {p o u : Bool} (x : Side) (i : Nat) (s : State) : Kept p o u s (cancelWindow x i s) := by
  unfold cancelWindow
  split
  · exact Kept.refl s
  · exact (markWindow_kept _ _ _ _).trans (meuCancel_kept _ _ _)

theorem cancelWindows_kept {p o u : Bool} (i : Nat) (s : State) : Kept p o u s (cancelWindows i s) :=
  (cancelWindow_kept _ _ _).trans (cancelWindow_kept _ _ _)

theorem closeWindow_kept {p o u : Bool} (x : Side) (y : Span) (s : State) : Kept p o u s (closeWindow x y s) := by
  unfold closeWindow
  split
  · exact (markWindow_kept _ _ _ _).trans (meuClose_kept _ _ _)
  · exact cancelWindow_kept _ _ _

theorem closeInterpolated_kept {p o u : Bool} (i t : Nat) (a : Axle) (s : State) :
    Kept p o u s (closeInterpolated i t a s) := by
  unfold closeInterpolated
  split
  · simp only
    split
    · exact (closeWindow_kept _ _ _).trans (meuClose_kept _ _ _)
    · exact closeWindow_kept _ _ _
  · exact closeWindow_kept _ _ _
  · exact Kept.refl s

theorem closeBefore_kept {p o u : Bool} (x : Post) (i t : Nat) (s : State) : Kept p o u s (closeBefore x i t s) := by
  unfold closeBefore
  split
  · exact Kept.refl s
  · split
    · exact Kept.refl s
    · split
      · exact closeWindow_kept _ _ _
      · exact Kept.refl s
    · split
      · split
        · exact closeWindow_kept _ _ _
        · exact Kept.refl s
      · exact closeInterpolated_kept _ _ _ _

theorem openAfter_kept {p o u : Bool} (x : Post) (i t : Nat) (s : State) : Kept p o u s (openAfter x i t s) := by
  unfold openAfter
  split
  · split
    · exact openWindow_kept _ _ _ _
    · exact Kept.refl s
  · split
    · exact openWindow_kept _ _ _ _
    · exact Kept.refl s
  · exact Kept.refl s

theorem bound_kept {p o u : Bool} (x : Side) (i : Nat) (s : State) : Kept p o u s (bound x i s) := by
  unfold bound
  split
  · exact Kept.refl s
  · exact updAxle_kept _ _ _

theorem settle_kept {p o u : Bool} (i : Nat) (s : State) : Kept p o u s (settle i s) :=
  (((bound_kept _ _ _).trans (bound_kept _ _ _)).trans (updAxle_kept _ _ _)).trans (combineSettled_kept _ _)

theorem cancelUnmeasurable_kept {p o u : Bool} (x : Side) (i : Nat) (s : State) :
    Kept p o u s (cancelUnmeasurable x i s) := by
  unfold cancelUnmeasurable
  split
  · exact Kept.refl s
  · exact cancelWindow_kept _ _ _

theorem reexamine_kept {p o u : Bool} (t : Nat) (s : State) : Kept p o u s (reexamine t s) := by
  unfold reexamine
  simp only
  exact ((Kept.foldl (fun s i => (cancelUnmeasurable_kept .first i s).trans (cancelUnmeasurable_kept .second i _)) _ _).trans
    (Kept.foldl (fun s i => settle_kept i s) _ _)).trans (Kept.foldl (fun s i => noticeAxle_kept t i s) _ _)

theorem headIncident_kept {p o : Bool} (c : IncidentCause) (t : Nat) (k : Station) (s : State) :
    Kept p o false s (headIncident c t k s) := by
  unfold headIncident
  split
  · exact Kept.refl s
  · simp only
    have h : Kept p o false s (reportFault ((updStation k .fault s).occNow .headIncident t (some (.station k))
        (some (.incident c))) (updStation k .fault s)) :=
      (updStation_kept fun _ => fault_ok _).trans (reportFault_kept _ _)
    split
    · exact h.trans (reexamine_kept _ _)
    · exact h

/-! ### Removal -/

theorem removeTail_kept {p o u : Bool} (s : State) : Kept p o u s (removeTail s) := by
  unfold removeTail
  split
  · exact Kept.refl s
  · simp only
    refine (cancelWindows_kept (s.axt.train.length - 1) s).trans ?_
    generalize cancelWindows (s.axt.train.length - 1) s = m
    refine Kept.trans (s' := m.setTrain m.axt.train.dropLast) ?_ ((reportTracker_kept _).trans (segRemoved_kept _ _))
    refine Kept.setAxt (fun h => ?_) (fun _ => rfl) (fun _ _ hr => ?_)
    · simp only [List.length_dropLast]; omega
    · rw [hr]; rfl

theorem discardApproach_kept {p o u : Bool} : ∀ (fuel : Nat) (s : State), Kept p o u s (discardApproach fuel s)
  | 0, s => Kept.refl s
  | fuel + 1, s => by
    unfold discardApproach
    split
    · split
      · exact (removeTail_kept s).trans (discardApproach_kept fuel _)
      · exact Kept.refl s
    · exact Kept.refl s

theorem closePending_kept {p o : Bool} (t : Nat) (s : State) (k : Station) : Kept p o false s (closePending t s k) := by
  unfold closePending
  split
  · exact headIncident_kept _ _ _ _
  · exact Kept.refl s

theorem closeFirst_kept {p o : Bool} (t : Nat) (c : CloseCause) (s : State) : Kept p o false s (closeFirst t c s) := by
  unfold closeFirst
  simp only
  refine ((discardApproach_kept s.axt.train.length s).trans
    (Kept.foldl (fun s k => closePending_kept t s k) [Station.s1, .s2, .s3] _)).trans (Kept.trans ?_ (finalisePassage_kept _ _ _))
  split
  · exact Kept.refl _
  · exact evaluate_kept _ _ _

/-! ### Forward and backward crossings -/

theorem forwardEffects_kept {p o u : Bool} (x : Post) (c : Crossing) (i : Nat) (s : State) :
    Kept p o u s (forwardEffects x c i s) := by
  unfold forwardEffects
  simp only
  have h := (closeBefore_kept (p := p) (o := o) (u := u) x i c.time s).trans (openAfter_kept x i c.time _)
  split
  · exact ((h.trans (settle_kept _ _)).trans (segTold_kept _ _)).trans (noticeAxle_kept _ _ _)
  · exact h.trans (segTold_kept _ _)

theorem appendAxle_kept {p o u : Bool} {x : Post} {c : Crossing} {s : State} (hl : s.axt.train.length < maxAxles)
    (ho : o = true → s.isOpen = true) : Kept p o u s (appendAxle x c s) := by
  unfold appendAxle
  simp only
  refine Kept.trans (s' := s.setTrain (s.axt.train ++ [Axle.new x c])) ?_
    (((touch_kept _ _).trans (reportTracker_kept _)).trans (forwardEffects_kept _ _ _ _))
  refine Kept.setAxt (fun _ => by simp only [List.length_append, List.length_singleton]; omega) (fun _ => rfl)
    (fun hoo hn _ => ?_)
  have := ho hoo
  simp [State.isOpen, hn] at this

/-- A change of the tracker beside the train, while a passage is open. -/
theorem setAxt_open {p o u : Bool} {x : Axt} {s : State} (ho : o = true → s.isOpen = true) (ht : x.train = s.axt.train)
    (hp : x.passage = s.axt.passage) : Kept p o u s (s.setAxt x) := by
  refine Kept.setAxt (fun h => by rw [ht]; exact h) (fun _ => by rw [hp]) (fun hoo hn _ => ?_)
  have := ho hoo
  simp [State.isOpen, hn] at this

theorem phantom_kept {p o u : Bool} {c : Crossing} {s : State} (ho : o = true → s.isOpen = true) :
    Kept p o u s (phantom c s) := by
  unfold phantom
  simp only
  exact (((setAxt_open (x := { s.axt with phantom := satSucc 65535 s.axt.phantom }) ho rfl rfl).trans (touch_kept _ _)).trans
    (reportTracker_kept _)).trans (reportFault_kept _ _)

theorem abandon_kept {p o u : Bool} {c : Crossing} {s : State} (ho : o = true → s.isOpen = true) :
    Kept p o u s (abandon c s) := by
  have last : ∀ m : State, Kept p o u s m →
      Kept p o u s (setWait .stopped (touch c.time (m.setAxt { m.axt with abandonedCount := 1 }))) := by
    intro m hm
    refine (hm.trans (setAxt_open (x := { m.axt with abandonedCount := 1 }) (fun hoo => ?_) rfl rfl)).trans
      ((touch_kept _ _).trans (setWait_kept _ _))
    rw [hm.opened hoo]
    exact ho hoo
  have mid : ∀ m : State, Kept p o u s m →
      Kept p o u s ((List.range m.axt.train.length).foldl (fun s i => cancelWindows i s) m) :=
    fun m hm => hm.trans (Kept.foldl (fun s i => cancelWindows_kept i s) _ _)
  unfold abandon
  exact last _ (mid _ (((setAxt_open (x := { s.axt with abandoned := true }) ho rfl rfl).trans (reportTracker_kept _)).trans
    (reportFault_kept _ _)))

theorem tryForward_kept {p o u : Bool} {x : Post} {c : Crossing} {s s' : State} (ho : o = true → s.isOpen = true)
    (h : tryForward x c s = some s') : Kept p o u s s' := by
  unfold tryForward at h
  split at h
  · simp only [Option.some.injEq] at h
    subst h
    exact ((updAxle_kept _ _ _).trans (touch_kept _ _)).trans (forwardEffects_kept _ _ _ _)
  · split at h
    · simp only [Option.some.injEq] at h
      subst h
      split
      · exact abandon_kept ho
      · exact appendAxle_kept (by omega) ho
    · simp at h

theorem forward_kept {p o : Bool} {x : Post} {c : Crossing} {s : State} (ho : o = true → s.isOpen = true) :
    Kept p o false s (forward x c s) := by
  unfold forward
  split
  · next h => exact tryForward_kept ho h
  · split
    · exact phantom_kept ho
    · next k _ =>
      simp only
      have h1 : Kept p o false s (headIncident .upstream c.time k s) := headIncident_kept _ _ _ _
      have ho' : o = true → (headIncident .upstream c.time k s).isOpen = true := fun hoo => by
        rw [h1.opened hoo]; exact ho hoo
      refine h1.trans ?_
      generalize headIncident .upstream c.time k s = m at ho' ⊢
      cases h2 : tryForward x c m with
      | none => exact phantom_kept ho'
      | some u => exact tryForward_kept ho' h2

theorem moveBack_kept {p o u : Bool} (z : Zone) (i t : Nat) (s : State) : Kept p o u s (moveBack z i t s) := by
  have last : ∀ (b : Bool) (m : State),
      Kept p o u m (if b = true then noticeAxle t i (updAxle i Axle.uncombine m) else m) := by
    intro b m
    split
    · exact (updAxle_kept _ _ _).trans (noticeAxle_kept _ _ _)
    · exact Kept.refl m
  unfold moveBack
  exact ((updAxle_kept _ _ _).trans (cancelWindows_kept _ _)).trans (last _ _)

theorem endStationTest_kept {p o : Bool} (x : Post) (c : Crossing) (s : State) : Kept p o false s (endStationTest x c s) := by
  unfold endStationTest
  simp only
  split
  · exact headIncident_kept _ _ _ _
  · exact Kept.refl s

/-! ### The opening -/

theorem dropOldest_kept (n : Nat) (s : State) : Kept false false false s (dropOldest n s) := by
  unfold dropOldest
  split
  · exact Kept.refl s
  · split
    · exact Kept.refl s
    · next e _ =>
      simp only
      refine Kept.trans (s' := s.setDirectory (s.ptb.directory.filter fun d => decide (d ≠ e))) ?_
        ((freeRecords_kept _ _).trans ((evalPermit_kept _).trans (reportFault_kept _ _)))
      exact Kept.setDirectory (fun h => by simp at h) (fun h => absurd h (by decide)) (fun h => absurd h (by decide))

theorem openTable_kept {p : Bool} (d : Direction) (t : Nat) (s : State) : Kept p false false s (openTable d t s) := by
  unfold openTable
  simp only
  refine Kept.thenPermit ?_
  refine Kept.trans (s' := s.setPtb { s.ptb with lastNumber := numberAfter s.ptb.lastNumber 1 }) ?_ ?_
  · exact { permit := fun h => absurd h (by decide) }
  · refine (dropOldest_kept (numberAfter s.ptb.lastNumber 1) _).trans ?_
    generalize dropOldest (numberAfter s.ptb.lastNumber 1)
      (s.setPtb { s.ptb with lastNumber := numberAfter s.ptb.lastNumber 1 }) = m
    refine Kept.trans (s' := m.setDirectory (m.ptb.directory ++ [DirEntry.start (numberAfter s.ptb.lastNumber 1) d t]))
      (Kept.setDirectory (fun h => by simp at h) (fun h => absurd h (by decide)) (fun h => absurd h (by decide))) ?_
    refine mapSlots_kept fun k w _ h => ?_
    split <;> exact h

theorem openRecord_kept {p : Bool} (c : Crossing) (s : State) : Kept p false false s (openRecord c s) := by
  unfold openRecord
  simp only
  refine (openTable_kept c.direction c.time s).trans ?_
  exact Kept.setAxt (fun _ => Nat.zero_le _) (fun h => absurd h (by decide)) (fun h => absurd h (by decide))

theorem openCalibration_kept {p o : Bool} (s : State) : Kept p o false s (openCalibration s) := by
  unfold openCalibration
  simp only
  split
  · exact (takeCounter_kept _ _).trans (markUnverified_kept _)
  · exact takeCounter_kept _ _

theorem afterRecord_kept {p o : Bool} (t : Nat) (s : State) :
    Kept p o false s (raiseAtt .opened (coverNumber t (zclFreeze (openCalibration s)))) :=
  (((openCalibration_kept s).trans (zclFreeze_kept _)).trans (coverNumber_kept _ _)).trans (raiseAtt_kept _ _)

theorem openPassage_kept {p : Bool} (c : Crossing) (s : State) : Kept p false false s (openPassage c s) := by
  unfold openPassage
  simp only
  exact (openRecord_kept c s).trans (afterRecord_kept _ _)

/-- A passage is open once its record is made. -/
theorem openRecord_open (c : Crossing) (s : State) : (openRecord c s).isOpen = true := rfl

/-- A passage is open after the opening, with no axle yet. -/
theorem openPassage_open (c : Crossing) (s : State) : (openPassage c s).isOpen = true :=
  ((afterRecord_kept (p := true) (o := true) _ (openRecord c s)).opened rfl).trans (openRecord_open c s)

theorem openWith_kept {p : Bool} {c : Crossing} {s : State}
    (hl : (endStationTest (postOf c.direction c.station) c (openPassage c s)).axt.train.length < maxAxles) :
    Kept p false false s (openWith c s) := by
  unfold openWith
  simp only
  exact ((openPassage_kept c s).trans (endStationTest_kept _ _ _)).trans (appendAxle_kept hl fun h => absurd h (by decide))

/-! ### The close -/

theorem closeLast_kept {p : Bool} (s : State) : Kept p false false s (closeLast s) := by
  unfold closeLast
  simp only
  refine Kept.thenPermit ?_
  refine Kept.trans (s' := clearPassage s) ?_ ?_
  · unfold clearPassage
    refine Kept.trans (s' := s.setAxt .reset) (Kept.setAxt (fun _ => Nat.zero_le _) (fun h => absurd h (by decide))
      (fun h => absurd h (by decide))) ?_
    exact Kept.trans (s' := (s.setAxt .reset).setMeu (s.meu.map .closePassage)) (Kept.setMeu _ _)
      (Kept.setSeg (x := s.seg.closePassage) fun h => h)
  · exact (((mapWsu_kept (fun r _ => release_ok r) _).trans (applyHeld_kept _)).trans (zclUnfreeze_kept _)).trans
      (raiseAtt_kept _ _)

theorem closePassage_kept {p : Bool} (t : Nat) (c : CloseCause) (s : State) : Kept p false false s (closePassage t c s) :=
  (closeFirst_kept t c s).trans (closeLast_kept _)

end Sys2Proof.Machine
end

