-- ==== Sys2Proof/Laws/Frames.lean ====
section
/-! SUPPORT. Which blocks the larger operations change, and what a close and an opening leave. -/

namespace Sys2Proof.Machine

set_option Elab.async false

/-- A state that differs from another in the LCU, in PERMIT and the water state, in the FAU and in the counter of free
values, channels standing. -/
def Evaluated (s s' : State) : Prop :=
  ∃ (x : Lcu) (y : Ptb) (z : Fau) (n : Nat), s' = { s with lcu := x, ptb := y, fau := z, freeCount := n } ∧
    x.channels = s.lcu.channels ∧ x.lastInstant = s.lcu.lastInstant ∧ y.slots = s.ptb.slots ∧
    y.directory = s.ptb.directory ∧ y.lastNumber = s.ptb.lastNumber

theorem Evaluated.refl (s : State) : Evaluated s s := ⟨s.lcu, s.ptb, s.fau, s.freeCount, rfl, rfl, rfl, rfl, rfl, rfl⟩

theorem Evaluated.trans {s s' s'' : State} (h : Evaluated s s') (k : Evaluated s' s'') : Evaluated s s'' := by
  obtain ⟨x, y, z, n, rfl, h1, h2, h3, h4, h5⟩ := h
  obtain ⟨x', y', z', n', rfl, k1, k2, k3, k4, k5⟩ := k
  exact ⟨x', y', z', n', rfl, k1.trans h1, k2.trans h2, k3.trans h3, k4.trans h4, k5.trans h5⟩

/-- The evaluation of PERMIT leaves slots, directory and last number. -/
theorem evalPermit_slots (s : State) : (evalPermit s).ptb.slots = s.ptb.slots := by rw [evalPermit_ptb]
theorem evalPermit_directory (s : State) : (evalPermit s).ptb.directory = s.ptb.directory := by rw [evalPermit_ptb]
theorem evalPermit_lastNumber (s : State) : (evalPermit s).ptb.lastNumber = s.ptb.lastNumber := by rw [evalPermit_ptb]

theorem Evaluated.permit (s : State) : Evaluated s (evalPermit s) :=
  ⟨s.lcu, (evalPermit s).ptb, (evalPermit s).fau, s.freeCount, evalPermit_eq s, rfl, rfl, evalPermit_slots s, evalPermit_directory s,
    evalPermit_lastNumber s⟩

theorem Evaluated.fau (s : State) (z : Fau) : Evaluated s (s.setFau z) :=
  ⟨s.lcu, s.ptb, z, s.freeCount, rfl, rfl, rfl, rfl, rfl, rfl⟩

theorem Evaluated.service (q : Platform) (v : Service) (s : State) : Evaluated s (setService q v s) :=
  ⟨(setService q v s).lcu, s.ptb, s.fau, s.freeCount, rfl, rfl, rfl, rfl, rfl, rfl⟩

theorem evalPlatform_evaluated (t : Nat) (q : Platform) (s : State) : Evaluated s (evalPlatform t q s) := by
  unfold evalPlatform
  simp only
  split
  · rw [reportFault_eq]
    exact ((Evaluated.service _ _ _).trans (Evaluated.fau _ _)).trans (Evaluated.permit _)
  · exact (Evaluated.service _ _ _).trans (Evaluated.permit _)
  · exact Evaluated.refl s

/-- The re-evaluation of both platforms (R19) changes the service states, PERMIT, the FAU and the counter of free values. -/
theorem evalPlatforms_evaluated (t : Nat) (s : State) : Evaluated s (evalPlatforms t s) := by
  rw [evalPlatforms_eq]
  exact ((evalPlatform_evaluated _ _ _).trans (evalPlatform_evaluated _ _ _)).trans ⟨_, _, _, _, rfl, rfl, rfl, rfl, rfl, rfl⟩

/-- A new pattern (R20) changes the channel records beside what a re-evaluation changes. -/
theorem applyPattern_evaluated (t : Nat) (v : Int) (s : State) :
    Evaluated (s.setChannels (.ofFn fun c => (s.lcu.channels.get c).refit (inPattern v c))) (applyPattern t v s) :=
  evalPlatforms_evaluated _ _

/-- The ending of an acquisition changes the ZCL and the FAU only. -/
theorem endIfInHand_eq (q : Platform) (r : AcqResult) (s : State) :
    endIfInHand q r s = (s.setZcl (endIfInHand q r s).zcl).setFau (endIfInHand q r s).fau := by
  unfold endIfInHand
  split <;> rfl

theorem zclApply_eq (s : State) : zclApply s = (s.setZcl (zclApply s).zcl).setFau (zclApply s).fau := by
  unfold zclApply
  rw [endIfInHand_eq .b, endIfInHand_eq .a]
  rfl

/-- The application of a commit (R89) leaves the tracker and the directory, and adds one to the counter. -/
theorem applyCommit_frame (c : CalSet) (s : State) :
    (applyCommit c s).axt = s.axt ∧ (applyCommit c s).ptb.directory = s.ptb.directory ∧
      (applyCommit c s).cal.counter = s.cal.counter + 1 ∧ (applyCommit c s).stc = s.stc ∧
      (applyCommit c s).wsu = s.wsu ∧ (applyCommit c s).seg = s.seg := by
  have hz : ∀ m : State, (zclApply m).axt = m.axt ∧ (zclApply m).ptb = m.ptb ∧ (zclApply m).cal = m.cal ∧
      (zclApply m).stc = m.stc ∧ (zclApply m).wsu = m.wsu ∧ (zclApply m).seg = m.seg := by
    intro m
    rw [zclApply_eq]
    exact ⟨rfl, rfl, rfl, rfl, rfl, rfl⟩
  have hz := hz (adoptSet c s)
  unfold applyCommit
  generalize zclApply (adoptSet c s) = z at hz
  obtain ⟨h1, h2, h3, h4, h5, h6⟩ := hz
  have h := (applyPattern_evaluated s.timebase c.fitted z).trans (Evaluated.permit _)
  generalize evalPermit (applyPattern s.timebase c.fitted z) = y at h
  obtain ⟨x, w, v, _, rfl, _, _, _, h7, _⟩ := h
  refine ⟨h1, h7.trans (congrArg Ptb.directory h2), ?_, h4, h5, h6⟩
  exact congrArg Cal.counter h3

theorem applyHeld_frame (s : State) :
    (applyHeld s).axt = s.axt ∧ (applyHeld s).ptb.directory = s.ptb.directory ∧
      s.cal.counter ≤ (applyHeld s).cal.counter ∧ (applyHeld s).stc = s.stc ∧ (applyHeld s).wsu = s.wsu ∧
      (applyHeld s).seg = s.seg := by
  unfold applyHeld
  split
  · next c _ _ =>
    have h := applyCommit_frame c s
    exact ⟨h.1, h.2.1, by rw [h.2.2.1]; exact Nat.le_succ _, h.2.2.2⟩
  · exact ⟨rfl, rfl, Nat.le_refl _, rfl, rfl, rfl⟩

/-- The evaluation of PERMIT removes no bit of the attention set (R153). -/
theorem evalPermit_keepsAttention {n : Nat} {s : State} (h : s.fau.attention.getLsbD n = true) :
    (evalPermit s).fau.attention.getLsbD n = true := by
  unfold evalPermit
  generalize waterNext s.ptb.water s.usedSlots s.settings.highWater s.settings.lowWater = w
  simp only
  generalize (if permitHolds (s.setPtb { s.ptb with water := w }) = true then Permit.asserted else Permit.withdrawn) = x
  split
  · exact h
  · simp [raiseAtt, evalAttn, h]

/-- What the last steps of a close leave (R50, R108): the tracker, the stations and the segmentation cleared, the
directory standing. -/
theorem closeLast_frame (s : State) :
    (closeLast s).axt = Axt.reset ∧ (closeLast s).ptb.directory = s.ptb.directory ∧
      s.cal.counter ≤ (closeLast s).cal.counter ∧ (closeLast s).zcl.freeze = false ∧
      (closeLast s).wsu = s.wsu.map .release ∧ (closeLast s).seg = s.seg.closePassage ∧
      (closeLast s).fau.attention.getLsbD 2 = true := by
  have h := applyHeld_frame ((clearPassage s).setWsu ((clearPassage s).wsu.map .release))
  have e : closeLast s = evalPermit (raiseAtt .closed (zclUnfreeze (applyHeld
    ((clearPassage s).setWsu ((clearPassage s).wsu.map .release))))) := rfl
  rw [e]
  generalize applyHeld ((clearPassage s).setWsu ((clearPassage s).wsu.map .release)) = m at h
  generalize hr : raiseAtt .closed (zclUnfreeze m) = r
  have hr1 : r.axt = m.axt ∧ r.ptb = m.ptb ∧ r.cal = m.cal ∧ r.zcl.freeze = false ∧ r.wsu = m.wsu ∧ r.seg = m.seg ∧
      r.fau.attention.getLsbD 2 = true := by
    subst hr
    refine ⟨rfl, rfl, rfl, rfl, rfl, rfl, ?_⟩
    simp [raiseAtt, evalAttn, attSet, attNum]
  clear hr e
  obtain ⟨r1, r2, r3, r4, r5, r6, r7⟩ := hr1
  obtain ⟨h1, h2, h3, h4, h5, h6⟩ := h
  have hb := evalPermit_keepsAttention (n := 2) r7
  rw [evalPermit_eq] at hb ⊢
  refine ⟨r1.trans h1, ?_, ?_, r4, r5.trans h5, r6.trans h6, hb⟩
  · show (evalPermit r).ptb.directory = _
    rw [evalPermit_directory, r2]; exact h2
  · show _ ≤ r.cal.counter
    rw [r3]; exact h3

/-- Finalisation closes every OPEN entry of the directory (R144, step 4). -/
theorem finalisePassage_closed (t : Nat) (c : CloseCause) (s : State) :
    AllClosed (finalisePassage t c s).ptb.directory := by
  intro e he
  unfold finalisePassage at he
  simp only at he
  generalize List.foldl (fun s (r : Nat × Wagon) => finalUpdate r.1 s) _ _ = m at he
  obtain ⟨d, _, rfl⟩ := List.mem_map.mp he
  by_cases h : d.close.isNone = true
  · simp [h]
  · simp only [h]
    cases hd : d.close with
    | none => simp [hd] at h
    | some x => simp [hd]

/-- A close leaves no passage open and no OPEN entry (R50). -/
theorem closePassage_frame (t : Nat) (c : CloseCause) (s : State) :
    (closePassage t c s).axt = Axt.reset ∧ AllClosed (closePassage t c s).ptb.directory ∧
      (closePassage t c s).ptb.directory.length = s.ptb.directory.length ∧
      s.cal.counter ≤ (closePassage t c s).cal.counter := by
  unfold closePassage
  have h := closeLast_frame (closeFirst t c s)
  have k := closeFirst_kept (p := true) (o := true) t c s
  have k1 := k.entries rfl
  have k2 := k.counter rfl
  have f : AllClosed (closeFirst t c s).ptb.directory := by
    unfold closeFirst
    simp only
    exact finalisePassage_closed _ _ _
  generalize closeFirst t c s = m at h k1 k2 f
  clear k
  generalize closeLast m = z at h
  obtain ⟨h1, h2, h3, _⟩ := h
  exact ⟨h1, h2 ▸ f, h2 ▸ k1, k2 ▸ h3⟩

/-- A head incident at a bridge with no axle leaves the tracker (R9, R42). -/
theorem headIncident_empty {c : IncidentCause} {t : Nat} {k : Station} {s : State} (h : s.axt.train = []) :
    (headIncident c t k s).axt = s.axt := by
  have hr : ∀ m : State, m.axt.train = [] → reexamine t m = m := by
    intro m hm
    have hl : settleLast m = [] := by unfold settleLast; split <;> simp [hm]
    simp [reexamine, hm, hl]
  unfold headIncident
  split
  · rfl
  · simp only
    rw [reportFault_eq]
    split
    · rw [hr _ (by exact h)]; rfl
    · rfl

/-- The updates of the opening after its record leave the tracker. -/
theorem openPassage_axt (c : Crossing) (s : State) : (openPassage c s).axt = (openRecord c s).axt := by
  unfold openPassage
  simp only
  have hc : ∀ (t : Nat) (m : State), (coverNumber t m).axt = m.axt := by
    intro t m
    unfold coverNumber
    split
    · rfl
    · split <;> rfl
  have ho : ∀ m : State, (openCalibration m).axt = m.axt := by
    intro m
    unfold openCalibration
    simp only
    split <;> rfl
  generalize openRecord c s = m
  have h := ho m
  generalize openCalibration m = n at h
  exact (hc _ _).trans h

/-- A filter that drops a member shortens a list. -/
theorem filter_length_lt {α : Type} {p : α → Bool} {x : α} {l : List α} (hx : x ∈ l) (hp : p x = false) :
    (l.filter p).length < l.length := by
  induction l with
  | nil => simp at hx
  | cons y l ih =>
    rcases List.mem_cons.mp hx with rfl | h
    · rw [List.filter_cons_of_neg (by simp [hp])]
      exact Nat.lt_succ_of_le (List.length_filter_le _ _)
    · have := ih h
      simp only [List.filter_cons, List.length_cons]
      split
      · simpa using this
      · omega

/-- What the opening leaves of the directory: at most eight entries, when every entry was CLOSED (R148). -/
theorem dropOldest_length {n : Nat} {s : State} (h : s.ptb.directory.length ≤ maxDirectory)
    (hc : AllClosed s.ptb.directory) : (dropOldest n s).ptb.directory.length < maxDirectory := by
  unfold dropOldest
  split
  · assumption
  · next hn =>
    split
    · next hnone =>
      exfalso
      unfold oldestClosed at hnone
      rw [List.head?_eq_none_iff] at hnone
      have h1 := length_sortBy (fun e : DirEntry => e.openTime) (s.ptb.directory.filter fun e => e.close.isSome)
      rw [hnone] at h1
      have h2 : s.ptb.directory.filter (fun e => e.close.isSome) = s.ptb.directory :=
        List.filter_eq_self.mpr fun e he => hc e he
      rw [h2] at h1
      simp only [List.length_nil, maxDirectory] at h1 hn
      omega
    · next e he =>
      simp only
      rw [reportFault_eq]
      show (evalPermit _).ptb.directory.length < maxDirectory
      rw [evalPermit_directory]
      show (s.ptb.directory.filter fun d => decide (d ≠ e)).length < maxDirectory
      have hm : e ∈ s.ptb.directory := by
        have := List.mem_of_mem_head? (Option.mem_def.mpr he)
        rw [mem_sortBy] at this
        exact (List.mem_filter.mp this).1
      have : (s.ptb.directory.filter fun d => decide (d ≠ e)).length < s.ptb.directory.length :=
        filter_length_lt hm (by simp)
      omega

/-! ### The faults, field by field -/

/-- An occurrence taken: counted, and captured with FAULT raised unless masked (R179). -/
theorem takeFault_fau (o : FaultOcc) (s : State) : (takeFault o s).fau =
    if isMasked s.settings.faultMask o.kind then countFault s.fau o
    else { countFault s.fau o with
      capture := some (s.fau.capture.getD o), attention := s.fau.attention ||| attSet .fault
      attn := attnLevel (s.fau.attention ||| attSet .fault) s.settings.attentionMask } := by
  unfold takeFault
  simp only
  split
  · rfl
  · unfold raiseAtt evalAttn
    simp only [countFault, State.setFau_fau, State.setFau_settings]
    cases s.fau.capture <;> rfl

/-- A completion counted: WAGONS raised and the counter at 0 when it reaches the trigger count (R187). -/
theorem countCompletion_fau (t : Nat) (s : State) : (countCompletion t s).fau =
    if s.fau.trigger + 1 = s.settings.triggerCount then
      { s.fau with lastCompletion := some t, trigger := 0, attention := s.fau.attention ||| attSet .wagons
                   attn := attnLevel (s.fau.attention ||| attSet .wagons) s.settings.attentionMask }
    else { s.fau with lastCompletion := some t, trigger := s.fau.trigger + 1 } := by
  unfold countCompletion
  simp only
  split
  · next h => rw [if_pos (by exact h)]; rfl
  · next h => rw [if_neg (by exact h)]; rfl

/-! ### What an opening changes (R27) -/

/-- The dropping of the oldest passage changes the PTB and the FAU only (R148). -/
theorem dropOldest_eq (n : Nat) (s : State) :
    dropOldest n s = (s.setPtb (dropOldest n s).ptb).setFau (dropOldest n s).fau := by
  unfold dropOldest
  split
  · rfl
  · split
    · rfl
    · simp only
      rw [reportFault_eq, evalPermit_eq]
      rfl

/-- The PTB's step of the opening changes the PTB and the FAU only (R148). -/
theorem openTable_eq (d : Direction) (t : Nat) (s : State) :
    openTable d t s = (s.setPtb (openTable d t s).ptb).setFau (openTable d t s).fau := by
  unfold openTable
  simp only
  have h := dropOldest_eq (numberAfter s.ptb.lastNumber 1) (s.setPtb { s.ptb with lastNumber := numberAfter s.ptb.lastNumber 1 })
  generalize dropOldest _ _ = m at h
  have hx : ∀ (x : List DirEntry) (y : Table Wagon), (m.setDirectory x).setSlots y = (s.setPtb ((m.setDirectory x).setSlots y).ptb).setFau m.fau := by
    intro x y
    rw [h]
    rfl
  have hx := hx (m.ptb.directory ++ [DirEntry.start (numberAfter s.ptb.lastNumber 1) d t])
    (bindPending (numberAfter s.ptb.lastNumber 1) (m.setDirectory (m.ptb.directory ++ [DirEntry.start (numberAfter s.ptb.lastNumber 1) d t])).ptb.slots)
  generalize (m.setDirectory _).setSlots _ = x at hx
  have e := evalPermit_eq x
  generalize evalPermit x = z at e
  rw [e, hx]
  rfl

/-- The calibration's step of the opening changes the PTB only (R27). -/
theorem openCalibration_eq (s : State) : openCalibration s = s.setPtb (openCalibration s).ptb := by
  unfold openCalibration
  simp only
  split <;> rfl

/-- The STC's step of the opening changes the STC only (R169). -/
theorem coverNumber_eq (t : Nat) (s : State) : coverNumber t s = s.setStc (coverNumber t s).stc := by
  unfold coverNumber
  split
  · rfl
  · split <;> rfl

/-- What an opening leaves of each block it changes (R27). -/
theorem openPassage_eq (c : Crossing) (s : State) :
    openPassage c s = raiseAtt .opened (((((s.setPtb (openCalibration (openRecord c s)).ptb).setAxt (openRecord c s).axt).setZcl
      { s.zcl with freeze := true, platforms := s.zcl.platforms.map .freeze }).setStc (openPassage c s).stc).setFau
        (openTable c.direction c.time s).fau) := by
  have h1 : openRecord c s = ((s.setPtb (openRecord c s).ptb).setAxt (openRecord c s).axt).setFau (openTable c.direction c.time s).fau := by
    unfold openRecord
    simp only
    have h := openTable_eq c.direction c.time s
    generalize openTable c.direction c.time s = m at h
    rw [h]
    rfl
  have h2 : openCalibration (openRecord c s) = ((s.setPtb (openCalibration (openRecord c s)).ptb).setAxt (openRecord c s).axt).setFau
      (openTable c.direction c.time s).fau := by
    have h := openCalibration_eq (openRecord c s)
    generalize openCalibration (openRecord c s) = m at h
    rw [h, h1]
    rfl
  generalize ho : openCalibration (openRecord c s) = o at h2
  have e : openPassage c s = raiseAtt .opened (coverNumber (zclFreeze o).timebase (zclFreeze o)) := by rw [← ho]; rfl
  have h3 := coverNumber_eq (zclFreeze o).timebase (zclFreeze o)
  rw [e]
  generalize coverNumber (zclFreeze o).timebase (zclFreeze o) = m at h3
  show raiseAtt .opened m = raiseAtt .opened (((((s.setPtb o.ptb).setAxt _).setZcl _).setStc m.stc).setFau _)
  rw [h3, h2]
  rfl

end Sys2Proof.Machine
end

