-- ==== Sys2Proof/Laws/Requests.lean ====
section
/-! SUPPORT. Time, power and the taking of a request: what each leaves as it was, and the one equation that says what a
request row answers. -/

namespace Sys2Proof.Machine

set_option Elab.async false

/-! ### Power and time -/

/-- A part with power takes the command. -/
theorem ifPowered_on {s : State} (h : s.powered = true) (f : State → State) : s.ifPowered f = f s := by
  simp [State.ifPowered, h]

/-- A part without power does nothing. -/
theorem ifPowered_off {s : State} (h : s.powered = false) (f : State → State) : s.ifPowered f = s := by
  simp [State.ifPowered, h]

@[simp] theorem State.advance_pending (s : State) (t : Nat) : (s.advance t).pending = s.pending := rfl
@[simp] theorem State.advance_powered (s : State) (t : Nat) : (s.advance t).powered = s.powered := rfl
@[simp] theorem State.advance_condition (s : State) (t : Nat) : (s.advance t).condition = s.condition := rfl
@[simp] theorem State.advance_freeCount (s : State) (t : Nat) : (s.advance t).freeCount = s.freeCount := rfl
@[simp] theorem State.advance_calsw (s : State) (t : Nat) : (s.advance t).calsw = s.calsw := rfl
@[simp] theorem State.advance_store (s : State) (t : Nat) : (s.advance t).store = s.store := rfl
@[simp] theorem State.advance_settings (s : State) (t : Nat) : (s.advance t).settings = s.settings := rfl
@[simp] theorem State.advance_wsu (s : State) (t : Nat) : (s.advance t).wsu = s.wsu := rfl
@[simp] theorem State.advance_lcu (s : State) (t : Nat) : (s.advance t).lcu = s.lcu := rfl
@[simp] theorem State.advance_axt (s : State) (t : Nat) : (s.advance t).axt = s.axt := rfl
@[simp] theorem State.advance_meu (s : State) (t : Nat) : (s.advance t).meu = s.meu := rfl
@[simp] theorem State.advance_zcl (s : State) (t : Nat) : (s.advance t).zcl = s.zcl := rfl
@[simp] theorem State.advance_seg (s : State) (t : Nat) : (s.advance t).seg = s.seg := rfl
@[simp] theorem State.advance_ptb (s : State) (t : Nat) : (s.advance t).ptb = s.ptb := rfl
@[simp] theorem State.advance_wrg (s : State) (t : Nat) : (s.advance t).wrg = s.wrg := rfl
@[simp] theorem State.advance_cal (s : State) (t : Nat) : (s.advance t).cal = s.cal := rfl
@[simp] theorem State.advance_stc (s : State) (t : Nat) : (s.advance t).stc = s.stc := rfl
@[simp] theorem State.advance_fau (s : State) (t : Nat) : (s.advance t).fau = s.fau := rfl
@[simp] theorem State.advance_slk (s : State) (t : Nat) : (s.advance t).slk = s.slk := rfl

/-! ### The reply that leaves -/

/-- The leaving of a reply changes the link only. -/
theorem endReply_eq (s : State) : endReply s = s.setSlk (endReply s).slk := by
  unfold endReply
  split <;> rfl

/-- With no request in service nothing leaves. -/
theorem endReply_none {s : State} (h : s.slk.service = none) : endReply s = s := by simp [endReply, h]

@[simp] theorem endReply_pending (s : State) : (endReply s).pending = s.pending := by rw [endReply_eq]; rfl
@[simp] theorem endReply_powered (s : State) : (endReply s).powered = s.powered := by rw [endReply_eq]; rfl
@[simp] theorem endReply_condition (s : State) : (endReply s).condition = s.condition := by rw [endReply_eq]; rfl
@[simp] theorem endReply_timebase (s : State) : (endReply s).timebase = s.timebase := by rw [endReply_eq]; rfl
@[simp] theorem endReply_freeCount (s : State) : (endReply s).freeCount = s.freeCount := by rw [endReply_eq]; rfl
@[simp] theorem endReply_calsw (s : State) : (endReply s).calsw = s.calsw := by rw [endReply_eq]; rfl
@[simp] theorem endReply_store (s : State) : (endReply s).store = s.store := by rw [endReply_eq]; rfl
@[simp] theorem endReply_settings (s : State) : (endReply s).settings = s.settings := by rw [endReply_eq]; rfl
@[simp] theorem endReply_wsu (s : State) : (endReply s).wsu = s.wsu := by rw [endReply_eq]; rfl
@[simp] theorem endReply_lcu (s : State) : (endReply s).lcu = s.lcu := by rw [endReply_eq]; rfl
@[simp] theorem endReply_axt (s : State) : (endReply s).axt = s.axt := by rw [endReply_eq]; rfl
@[simp] theorem endReply_meu (s : State) : (endReply s).meu = s.meu := by rw [endReply_eq]; rfl
@[simp] theorem endReply_zcl (s : State) : (endReply s).zcl = s.zcl := by rw [endReply_eq]; rfl
@[simp] theorem endReply_seg (s : State) : (endReply s).seg = s.seg := by rw [endReply_eq]; rfl
@[simp] theorem endReply_ptb (s : State) : (endReply s).ptb = s.ptb := by rw [endReply_eq]; rfl
@[simp] theorem endReply_wrg (s : State) : (endReply s).wrg = s.wrg := by rw [endReply_eq]; rfl
@[simp] theorem endReply_cal (s : State) : (endReply s).cal = s.cal := by rw [endReply_eq]; rfl
@[simp] theorem endReply_stc (s : State) : (endReply s).stc = s.stc := by rw [endReply_eq]; rfl
@[simp] theorem endReply_fau (s : State) : (endReply s).fau = s.fau := by rw [endReply_eq]; rfl

/-! ### The taking of a request -/

@[simp] theorem State.taking_pending (s : State) (t : Nat) : (s.taking t).pending = s.pending := by simp [State.taking]
@[simp] theorem State.taking_powered (s : State) (t : Nat) : (s.taking t).powered = s.powered := by simp [State.taking]
@[simp] theorem State.taking_condition (s : State) (t : Nat) : (s.taking t).condition = s.condition := by simp [State.taking]
@[simp] theorem State.taking_freeCount (s : State) (t : Nat) : (s.taking t).freeCount = s.freeCount := by simp [State.taking]
@[simp] theorem State.taking_calsw (s : State) (t : Nat) : (s.taking t).calsw = s.calsw := by simp [State.taking]
@[simp] theorem State.taking_store (s : State) (t : Nat) : (s.taking t).store = s.store := by simp [State.taking]
@[simp] theorem State.taking_settings (s : State) (t : Nat) : (s.taking t).settings = s.settings := by simp [State.taking]
@[simp] theorem State.taking_wsu (s : State) (t : Nat) : (s.taking t).wsu = s.wsu := by simp [State.taking]
@[simp] theorem State.taking_lcu (s : State) (t : Nat) : (s.taking t).lcu = s.lcu := by simp [State.taking]
@[simp] theorem State.taking_axt (s : State) (t : Nat) : (s.taking t).axt = s.axt := by simp [State.taking]
@[simp] theorem State.taking_meu (s : State) (t : Nat) : (s.taking t).meu = s.meu := by simp [State.taking]
@[simp] theorem State.taking_zcl (s : State) (t : Nat) : (s.taking t).zcl = s.zcl := by simp [State.taking]
@[simp] theorem State.taking_seg (s : State) (t : Nat) : (s.taking t).seg = s.seg := by simp [State.taking]
@[simp] theorem State.taking_ptb (s : State) (t : Nat) : (s.taking t).ptb = s.ptb := by simp [State.taking]
@[simp] theorem State.taking_wrg (s : State) (t : Nat) : (s.taking t).wrg = s.wrg := by simp [State.taking]
@[simp] theorem State.taking_cal (s : State) (t : Nat) : (s.taking t).cal = s.cal := by simp [State.taking]
@[simp] theorem State.taking_stc (s : State) (t : Nat) : (s.taking t).stc = s.stc := by simp [State.taking]
@[simp] theorem State.taking_fau (s : State) (t : Nat) : (s.taking t).fau = s.fau := by simp [State.taking]
@[simp] theorem State.taking_timebase (s : State) (t : Nat) : (s.taking t).timebase = max s.timebase (t % timebaseRange) := by
  simp [State.taking]; rfl
@[simp] theorem State.taking_isOpen (s : State) (t : Nat) : (s.taking t).isOpen = s.isOpen := by simp [State.isOpen]
@[simp] theorem State.taking_openNumber (s : State) (t : Nat) : (s.taking t).openNumber = s.openNumber := by
  simp [State.openNumber]
@[simp] theorem State.taking_started (s : State) (t : Nat) : (s.taking t).started = s.started := by simp [State.started]
@[simp] theorem State.taking_usedSlots (s : State) (t : Nat) : (s.taking t).usedSlots = s.usedSlots := by
  simp [State.usedSlots]

/-- The link after a request is taken: the receiver, the queue and the last byte's time stand. -/
theorem State.taking_queue (s : State) (t : Nat) : (s.taking t).slk.queue = s.slk.queue := by
  simp only [State.taking, endReply]
  split <;> rfl

/-- No reply is in service when a request is taken. -/
theorem State.taking_service (s : State) (t : Nat) : (s.taking t).slk.service = none := by
  simp only [State.taking, endReply]
  split
  · assumption
  · rfl

/-- An accepted RESTART whose reply has left is not owed again. -/
theorem State.taking_restartDue {s : State} (h : s.slk.restartDue = false) (t : Nat) : (s.taking t).slk.restartDue = false := by
  simp only [State.taking, endReply]
  split
  · exact h
  · simp [updStats, h]

/-- A request that is served: the state its action leaves, with the reply it composed in service. -/
theorem serve_served {tag : Byte} {k : Target} {always : Bool} {a : Action} {s : State}
    (hs : s.started = true ∨ always = true) (hd : (a s).1.slk.restartDue = s.slk.restartDue) :
    serve tag (byteOf (targetNum k)) always a s = (a s).1.replying tag k (a s).2.outcome (a s).2.data := by
  have h : (s.started || always) = true := by rcases hs with h | h <;> simp [h]
  simp only [serve, actOrRefuse, h, if_true, compose, State.replying, hd]
  simp

/-- A request that is not served: NOT_READY, and nothing else. -/
theorem serve_refused {tag : Byte} {k : Target} {a : Action} {s : State} (hs : s.started = false) :
    serve tag (byteOf (targetNum k)) false a s = s.replying tag k .notReady [] := by
  simp only [serve, actOrRefuse, hs, Bool.or_self, Bool.false_eq_true, if_false, compose, State.replying, Answer.bare]
  simp

/-- What a request row answers in a part with power that serves it. -/
theorem request_served {t : Nat} {tag : Byte} {k : Target} {always : Bool} {a : Action} {s : State}
    (hp : s.powered = true) (hs : s.condition ≠ .starting ∨ always = true)
    (hd : (a (s.taking t)).1.slk.restartDue = (s.taking t).slk.restartDue) :
    request t tag k always a s =
      .next ((a (s.taking t)).1.replying tag k (a (s.taking t)).2.outcome (a (s.taking t)).2.data) := by
  have h : (s.taking t).started = true ∨ always = true := by
    rcases hs with h | h
    · left; simp [State.started, h]
    · exact Or.inr h
  rw [request, ifPowered_on hp]
  exact congrArg _ (serve_served h hd)

/-- What a request row answers before start-up is finished. -/
theorem request_refused {t : Nat} {tag : Byte} {k : Target} {a : Action} {s : State} (hp : s.powered = true)
    (hs : s.condition = .starting) : request t tag k false a s = .next ((s.taking t).replying tag k .notReady []) := by
  rw [request, ifPowered_on hp]
  exact congrArg _ (serve_refused (by simp [State.started, hs]))

/-- What a request row answers when its action changes nothing. -/
theorem request_answer {t : Nat} {tag : Byte} {k : Target} {always : Bool} {a : Action} {s : State} {x : Answer}
    (hp : s.powered = true) (hs : s.condition ≠ .starting ∨ always = true) (ha : a (s.taking t) = (s.taking t, x)) :
    request t tag k always a s = .next ((s.taking t).replying tag k x.outcome x.data) := by
  rw [request_served hp hs (by rw [ha]), ha]

/-- What a request row answers, from what its action answers on the state in which it is taken. -/
theorem request_done {t : Nat} {tag : Byte} {k : Target} {always : Bool} {a : Action} {s s' : State} {x : Answer}
    (hp : s.powered = true) (hs : s.condition ≠ .starting ∨ always = true) (ha : a (s.taking t) = (s', x))
    (hd : s'.slk.restartDue = (s.taking t).slk.restartDue) :
    request t tag k always a s = .next (s'.replying tag k x.outcome x.data) := by
  rw [request_served hp hs (by rw [ha]; exact hd), ha]

/-! ### The request rows -/

theorem exec_identify (t : Nat) (tag : Byte) (s : State) : exec (.identify t tag) s = request t tag .sys true identifyDo s := rfl
theorem exec_capabilities (t : Nat) (tag : Byte) (s : State) : exec (.capabilities t tag) s = request t tag .sys false capabilitiesDo s := rfl
theorem exec_status (t : Nat) (tag : Byte) (s : State) : exec (.status t tag) s = request t tag .sys true statusDo s := rfl
theorem exec_time (t : Nat) (tag : Byte) (s : State) : exec (.time t tag) s = request t tag .sys true timeDo s := rfl
theorem exec_settingsRead (t : Nat) (tag : Byte) (s : State) : exec (.settingsRead t tag) s = request t tag .sys false settingsReadDo s := rfl
theorem exec_settingsWrite (t : Nat) (tag : Byte) (m : BitVec 16) (b : Settings) (s : State) : exec (.settingsWrite t tag m b) s = request t tag .sys false (settingsWriteDo m b) s := rfl
theorem exec_exchangeAttention (t : Nat) (tag : Byte) (m : Byte) (s : State) : exec (.exchangeAttention t tag m) s = request t tag .sys false (exchangeAttentionDo m) s := rfl
theorem exec_exchangeFault (t : Nat) (tag : Byte) (s : State) : exec (.exchangeFault t tag) s = request t tag .sys false exchangeFaultDo s := rfl
theorem exec_restart (t : Nat) (tag : Byte) (s : State) : exec (.restart t tag) s = request t tag .sys false restartDo s := rfl
theorem exec_chanRead (t : Nat) (tag : Byte) (c : Nat) (s : State) : exec (.chanRead t tag c) s = request t tag .chan false (chanReadDo c) s := rfl
theorem exec_chanEnable (t : Nat) (tag : Byte) (c : Nat) (s : State) : exec (.chanEnable t tag c) s = request t tag .chan false (chanEnableDo c) s := rfl
theorem exec_chanDisable (t : Nat) (tag : Byte) (c : Nat) (s : State) : exec (.chanDisable t tag c) s = request t tag .chan false (chanDisableDo c) s := rfl
theorem exec_calRead (t : Nat) (tag : Byte) (copy : Nat) (s : State) : exec (.calRead t tag copy) s = request t tag .cal false (calReadDo copy) s := rfl
theorem exec_calStage (t : Nat) (tag : Byte) (f : Nat) (c : Nat) (v : Int) (l : List Band) (s : State) : exec (.calStage t tag f c v l) s = request t tag .cal false (calStageDo f c v l) s := rfl
theorem exec_calCommit (t : Nat) (tag : Byte) (s : State) : exec (.calCommit t tag) s = request t tag .cal false calCommitDo s := rfl
theorem exec_calDiscard (t : Nat) (tag : Byte) (s : State) : exec (.calDiscard t tag) s = request t tag .cal false calDiscardDo s := rfl
theorem exec_calCounter (t : Nat) (tag : Byte) (s : State) : exec (.calCounter t tag) s = request t tag .cal false calCounterDo s := rfl
theorem exec_zeroAcquire (t : Nat) (tag : Byte) (p : Nat) (s : State) : exec (.zeroAcquire t tag p) s = request t tag .zero false (zeroAcquireDo p) s := rfl
theorem exec_zeroCancel (t : Nat) (tag : Byte) (p : Nat) (s : State) : exec (.zeroCancel t tag p) s = request t tag .zero false (zeroCancelDo p) s := rfl
theorem exec_zeroState (t : Nat) (tag : Byte) (p : Nat) (s : State) : exec (.zeroState t tag p) s = request t tag .zero false (zeroStateDo p) s := rfl
theorem exec_passageRead (t : Nat) (tag : Byte) (n : Nat) (s : State) : exec (.passageRead t tag n) s = request t tag .pass false (passageReadDo n) s := rfl
theorem exec_passageList (t : Nat) (tag : Byte) (s : State) : exec (.passageList t tag) s = request t tag .pass false passageListDo s := rfl
theorem exec_recordRead (t : Nat) (tag : Byte) (r : RecordRef) (s : State) : exec (.recordRead t tag r) s = request t tag .pass false (recordReadDo r) s := rfl
theorem exec_expect (t : Nat) (tag : Byte) (n : Nat) (p : Nat) (f : Option Nat) (c : Option Nat) (s : State) : exec (.expect t tag n p f c) s = request t tag .pass false (expectDo n p f c) s := rfl
theorem exec_assign (t : Nat) (tag : Byte) (r : RecordRef) (f : Nat) (s : State) : exec (.assign t tag r f) s = request t tag .pass false (assignDo r f) s := rfl
theorem exec_retireRecord (t : Nat) (tag : Byte) (r : RecordRef) (s : State) : exec (.retireRecord t tag r) s = request t tag .pass false (retireRecordDo r) s := rfl
theorem exec_retirePassage (t : Nat) (tag : Byte) (n : Nat) (s : State) : exec (.retirePassage t tag n) s = request t tag .pass false (retirePassageDo n) s := rfl
theorem exec_passClose (t : Nat) (tag : Byte) (n : Nat) (s : State) : exec (.passClose t tag n) s = request t tag .pass false (passCloseDo n) s := rfl
theorem exec_regAdd (t : Nat) (tag : Byte) (f : Nat) (c : Option Nat) (ta : Option Nat) (g : Option Nat) (m : Byte) (s : State) : exec (.regAdd t tag f c ta g m) s = request t tag .reg false (regAddDo f c ta g m) s := rfl
theorem exec_regRead (t : Nat) (tag : Byte) (f : Nat) (s : State) : exec (.regRead t tag f) s = request t tag .reg false (regReadDo f) s := rfl
theorem exec_regChange (t : Nat) (tag : Byte) (f : Nat) (m : Byte) (v : RegValues) (s : State) : exec (.regChange t tag f m v) s = request t tag .reg false (regChangeDo f m v) s := rfl
theorem exec_regFlagsAnd (t : Nat) (tag : Byte) (f : Nat) (m : Byte) (s : State) : exec (.regFlagsAnd t tag f m) s = request t tag .reg false (regFlagsDo .and f m) s := rfl
theorem exec_regFlagsOr (t : Nat) (tag : Byte) (f : Nat) (m : Byte) (s : State) : exec (.regFlagsOr t tag f m) s = request t tag .reg false (regFlagsDo .or f m) s := rfl
theorem exec_regFlagsXor (t : Nat) (tag : Byte) (f : Nat) (m : Byte) (s : State) : exec (.regFlagsXor t tag f m) s = request t tag .reg false (regFlagsDo .xor f m) s := rfl
theorem exec_regRetire (t : Nat) (tag : Byte) (f : Nat) (s : State) : exec (.regRetire t tag f) s = request t tag .reg false (regRetireDo f) s := rfl
theorem exec_regNext (t : Nat) (tag : Byte) (f : Nat) (s : State) : exec (.regNext t tag f) s = request t tag .reg false (regNextDo f) s := rfl
theorem exec_regCount (t : Nat) (tag : Byte) (s : State) : exec (.regCount t tag) s = request t tag .reg false regCountDo s := rfl
theorem exec_regCommit (t : Nat) (tag : Byte) (s : State) : exec (.regCommit t tag) s = request t tag .reg false regCommitDo s := rfl
theorem exec_classDefine (t : Nat) (tag : Byte) (c : ClassFields) (s : State) : exec (.classDefine t tag c) s = request t tag .cls false (classDefineDo c) s := rfl
theorem exec_classRead (t : Nat) (tag : Byte) (c : Nat) (s : State) : exec (.classRead t tag c) s = request t tag .cls false (classReadDo c) s := rfl
theorem exec_classRemove (t : Nat) (tag : Byte) (c : Nat) (s : State) : exec (.classRemove t tag c) s = request t tag .cls false (classRemoveDo c) s := rfl

end Sys2Proof.Machine
end

