-- ==== Sys2Proof/Laws/KeptSteps.lean ====
section
/-! SUPPORT. What every command keeps of the state it is run in: one relation for whole commands, weaker than Kept where a
command may open or close a passage, apply a calibration or change the part's condition, and one lemma for each command. -/

namespace Sys2Proof.Machine

set_option Elab.async false

/-- What a command of a part that keeps its power keeps: with `p`, PERMIT stands as its conditions say; with `k`, the
calibration's change counter does not decrease. -/
structure Good (p k : Bool) (s s' : State) : Prop where
  pending : s'.pending = s.pending
  time : s.timebase ≤ s'.timebase
  timeOk : s.timeOk → s'.timeOk
  attn : s.attnOk → s'.attnOk
  waters : p = true → s.settings.lowWater < s.settings.highWater → s'.settings.lowWater < s'.settings.highWater
  ranges : RangesOk s → RangesOk s'
  slots : SlotsOk s.ptb.slots → SlotsOk s'.ptb.slots
  wrg : StoreOk s.store → WrgOk s.wrg → WrgOk s'.wrg
  classes : StoreOk s.store → Table.wf s.seg.classes = true → Table.wf s'.seg.classes = true
  store : StoreOk s.store → StoreOk s'.store
  certified : s.certifiedOk → s'.certifiedOk
  train : s.axt.train.length ≤ maxAxles → s'.axt.train.length ≤ maxAxles
  stations : s.stationsOk → s'.stationsOk
  counts : CountsOk s.fau.counts → CountsOk s'.fau.counts
  queue : s.queueOk → s'.queueOk
  stats : s.slk.stats.ok → s'.slk.stats.ok
  stc : StcOk s.stc → StcOk s'.stc
  permit : p = true → SlotsOk s.ptb.slots → s.permitOk → s'.permitOk
  start : s.startOk → s'.startOk
  tracker : TrackerReset s → TrackerReset s'
  directory : s.directoryOk → s'.directoryOk
  zeros : s.startOk → s.isOpen = true → s'.isOpen = true → s'.zcl.zeros = s.zcl.zeros
  counter : k = true → s.cal.counter ≤ s'.cal.counter

theorem isOpen_false {s : State} : s.isOpen = false ↔ s.axt.passage = none := by
  simp [State.isOpen]

/-- What an operation keeps, a command made of it keeps. -/
theorem Kept.good {p b : Bool} {s s' : State} (h : Kept true true false s s') : Good p b s s' where
  pending := h.pending
  time := h.time
  timeOk := h.timeOk
  attn := h.attn
  waters _ := h.waters
  ranges := h.ranges
  slots := h.slots
  wrg := h.wrg
  classes := h.classes
  store := h.store
  certified := h.certified
  train := h.train
  stations := h.stations
  counts := h.counts
  queue := h.queue
  stats := h.stats
  stc := h.stc
  permit _ := h.permit rfl
  start k := by
    refine ⟨h.load k.1, fun hc => ?_⟩
    rw [h.condition] at hc
    have := isOpen_false.mpr (k.2 hc)
    rw [← h.opened rfl] at this
    exact isOpen_false.mp this
  tracker := h.tracker rfl
  directory k := by
    refine ⟨by rw [h.entries rfl]; exact k.1, fun hp => ?_⟩
    have := isOpen_false.mpr hp
    rw [h.opened rfl] at this
    exact h.closed rfl (k.2 (isOpen_false.mp this))
  zeros _ ho _ := h.zeros rfl ho
  counter _ := Nat.le_of_eq (h.counter rfl).symm

/-- What an operation that may open, close or apply keeps, with what it says of those. -/
theorem Kept.goodOf {s s' : State} (h : Kept true false false s s') (start : s.startOk → s'.startOk)
    (tracker : TrackerReset s → TrackerReset s') (directory : s.directoryOk → s'.directoryOk)
    (zeros : s.startOk → s.isOpen = true → s'.isOpen = true → s'.zcl.zeros = s.zcl.zeros)
    (counter : s.cal.counter ≤ s'.cal.counter) : Good true true s s' where
  pending := h.pending
  time := h.time
  timeOk := h.timeOk
  attn := h.attn
  waters _ := h.waters
  ranges := h.ranges
  slots := h.slots
  wrg := h.wrg
  classes := h.classes
  store := h.store
  certified := h.certified
  train := h.train
  stations := h.stations
  counts := h.counts
  queue := h.queue
  stats := h.stats
  stc := h.stc
  permit _ := h.permit rfl
  start := start
  tracker := tracker
  directory := directory
  zeros := zeros
  counter _ := counter

theorem Good.refl {p b : Bool} (s : State) : Good p b s s := (Kept.refl s).good

/-- One after another: the zeros of a passage open at both ends are the caller's. -/
theorem Good.transOf {p b : Bool} {s m s' : State} (h : Good p b s m) (k : Good p b m s')
    (z : s.startOk → s.isOpen = true → s'.isOpen = true → s'.zcl.zeros = s.zcl.zeros) : Good p b s s' where
  pending := k.pending.trans h.pending
  time := Nat.le_trans h.time k.time
  timeOk := k.timeOk ∘ h.timeOk
  attn := k.attn ∘ h.attn
  waters e := k.waters e ∘ h.waters e
  ranges := k.ranges ∘ h.ranges
  slots := k.slots ∘ h.slots
  wrg e := k.wrg (h.store e) ∘ h.wrg e
  classes e := k.classes (h.store e) ∘ h.classes e
  store := k.store ∘ h.store
  certified := k.certified ∘ h.certified
  train := k.train ∘ h.train
  stations := k.stations ∘ h.stations
  counts := k.counts ∘ h.counts
  queue := k.queue ∘ h.queue
  stats := k.stats ∘ h.stats
  stc := k.stc ∘ h.stc
  permit e hs ho := k.permit e (h.slots hs) (h.permit e hs ho)
  start := k.start ∘ h.start
  tracker := k.tracker ∘ h.tracker
  directory := k.directory ∘ h.directory
  zeros := z
  counter e := Nat.le_trans (h.counter e) (k.counter e)

/-- An operation, then a command. -/
theorem Good.after {p b : Bool} {s m s' : State} (h : Kept true true false s m) (k : Good p b m s') : Good p b s s' :=
  h.good.transOf k fun hs ho ho' =>
    (k.zeros ((h.good (p := p) (b := b)).start hs) ((h.opened rfl).trans ho) ho').trans (h.zeros rfl ho)

/-- A command, then an operation. -/
theorem Good.then {p b : Bool} {s m s' : State} (h : Good p b s m) (k : Kept true true false m s') : Good p b s s' :=
  h.transOf k.good fun hs ho ho' =>
    have hm : m.isOpen = true := (k.opened rfl).symm.trans ho'
    (k.zeros rfl hm).trans (h.zeros hs ho hm)

/-! ### The opening, the close and the application of a calibration -/

/-- A close (R50). -/
theorem closePassage_good (t : Nat) (c : CloseCause) (s : State) : Good true true s (closePassage t c s) := by
  have h := closePassage_frame t c s
  have k := closePassage_kept (p := true) t c s
  refine k.goodOf (fun a => ⟨k.load a.1, fun _ => ?_⟩) (fun _ _ => h.1) (fun a => ⟨?_, fun _ => h.2.1⟩) (fun _ _ ho => ?_) h.2.2.2
  · rw [h.1]; rfl
  · rw [h.2.2.1]; exact a.1
  · exfalso
    simp [State.isOpen, h.1, Axt.reset] at ho

/-- The application of a commit with no passage open (R89). -/
theorem applyCommit_good (c : CalSet) (s : State) (hc : s.isOpen = false) : Good true true s (applyCommit c s) := by
  have h := applyCommit_frame c s
  have k := applyCommit_kept (p := true) c s
  have ho : (applyCommit c s).isOpen = false := by simp only [State.isOpen] at hc ⊢; rw [h.1]; exact hc
  refine k.goodOf (fun a => ⟨k.load a.1, fun e => ?_⟩) (fun a b => ?_) (fun a => ⟨?_, fun b => ?_⟩) (fun _ _ e => ?_) ?_
  · exact isOpen_false.mp ho
  · rw [h.1] at b ⊢; exact a b
  · rw [h.2.1]; exact a.1
  · rw [h.2.1]; exact a.2 (isOpen_false.mp hc)
  · rw [ho] at e; exact absurd e (by decide)
  · rw [h.2.2.1]; exact Nat.le_succ _

/-- An evaluation of PERMIT after a change that keeps the rest. -/
theorem evalPermit_calls (s : State) : (evalPermit s).condition = s.condition ∧ (evalPermit s).axt = s.axt ∧
    (evalPermit s).cal = s.cal ∧ (evalPermit s).zcl = s.zcl ∧ (evalPermit s).stc = s.stc := by
  rw [evalPermit_eq]
  exact ⟨rfl, rfl, rfl, rfl, rfl⟩

/-- The record of an opening changes the tracker, the Passage Table and the FAU. -/
theorem openRecord_cal (c : Crossing) (s : State) : (openRecord c s).cal = s.cal := by
  have hd : ∀ (n : Nat) (m : State), (dropOldest n m).cal = m.cal := by
    intro n m
    unfold dropOldest
    split
    · rfl
    · split
      · rfl
      · simp only
        rw [reportFault_eq]
        exact (evalPermit_calls _).2.2.1
  unfold openRecord openTable
  simp only
  show (evalPermit _).cal = s.cal
  rw [(evalPermit_calls _).2.2.1]
  exact hd _ _

/-- The directory of an opening holds at most eight entries (R148). -/
theorem openRecord_directory {c : Crossing} {s : State} (h : s.ptb.directory.length ≤ maxDirectory)
    (hc : AllClosed s.ptb.directory) : (openRecord c s).ptb.directory.length ≤ maxDirectory := by
  unfold openRecord openTable
  simp only
  show (evalPermit _).ptb.directory.length ≤ maxDirectory
  rw [evalPermit_directory]
  have := dropOldest_length (n := numberAfter s.ptb.lastNumber 1)
    (s := s.setPtb { s.ptb with lastNumber := numberAfter s.ptb.lastNumber 1 }) h hc
  simp only [State.setSlots, State.setDirectory, State.setPtb_ptb, List.length_append, List.length_singleton]
  exact this

/-- A crossing that opens a passage (R27, R28). -/
theorem openWith_good (c : Crossing) (s : State) (hr : s.condition ≠ .starting) (hc : s.isOpen = false) :
    Good true true s (openWith c s) := by
  have hx : (openPassage c s).axt.train = [] := by rw [openPassage_axt]; rfl
  have he : (endStationTest (postOf c.direction c.station) c (openPassage c s)).axt.train = [] := by
    unfold endStationTest
    simp only
    split
    · rw [headIncident_empty hx]; exact hx
    · exact hx
  have hl : (endStationTest (postOf c.direction c.station) c (openPassage c s)).axt.train.length < maxAxles := by
    rw [he]; decide
  have k := openWith_kept (p := true) hl
  have e : Kept true true false (openPassage c s) (endStationTest (postOf c.direction c.station) c (openPassage c s)) :=
    endStationTest_kept _ _ _
  have ho : (endStationTest (postOf c.direction c.station) c (openPassage c s)).isOpen = true :=
    (e.opened rfl).trans (openPassage_open c s)
  have r : Kept true true false (openRecord c s) (openWith c s) :=
    ((afterRecord_kept _ _).trans e).trans (appendAxle_kept hl fun _ => ho)
  have hopen : (openWith c s).isOpen = true := (r.opened rfl).trans (openRecord_open c s)
  refine k.goodOf (fun a => ⟨k.load a.1, fun b => ?_⟩) (fun _ b => ?_) (fun a => ⟨?_, fun b => ?_⟩) (fun _ b => ?_) ?_
  · rw [k.condition] at b; exact absurd b hr
  · rw [isOpen_false.mpr b] at hopen; exact absurd hopen (by decide)
  · rw [r.entries rfl]
    exact openRecord_directory a.1 (a.2 (isOpen_false.mp hc))
  · rw [isOpen_false.mpr b] at hopen; exact absurd hopen (by decide)
  · rw [hc] at b; exact absurd b (by decide)
  · refine Nat.le_of_eq ?_
    rw [r.counter rfl, openRecord_cal]

/-! ### Crossings and head events -/

theorem backward_good (x : Post) (c : Crossing) (s : State) (ho : s.isOpen = true) : Good true true s (backward x c s) := by
  unfold backward
  split
  · exact (phantom_kept fun _ => ho).good
  · simp only
    split
    · exact ((touch_kept _ _).trans (moveBack_kept _ _ _ _)).good
    · split
      · exact Good.after ((touch_kept _ _).trans (removeTail_kept _)) (closePassage_good _ _ _)
      · exact ((touch_kept _ _).trans (removeTail_kept _)).good

theorem takeCrossing_good (c : Crossing) (s : State) (hr : s.condition ≠ .starting) : Good true true s (takeCrossing c s) := by
  unfold takeCrossing
  split
  · next h => exact openWith_good c s hr (isOpen_false.mpr h)
  · next q h =>
    have ho : s.isOpen = true := by simp [State.isOpen, h]
    split
    · refine (Kept.trans (s' := s.setAxt { s.axt with abandonedCount := satSucc 65535 s.axt.abandonedCount })
        (setAxt_open (fun _ => ho) rfl rfl) (touch_kept _ _)).good
    · simp only
      split
      · exact (forward_kept fun _ => ho).good
      · exact backward_good _ _ _ ho

theorem moveOthers_ok (k : Station) {w : Wsu} (h : w.s1.ok ∧ w.s2.ok ∧ w.s3.ok) :
    (moveOthers k w).s1.ok ∧ (moveOthers k w).s2.ok ∧ (moveOthers k w).s3.ok := by
  cases k
  · exact ⟨h.1, moved_ok h.2.1, moved_ok h.2.2⟩
  · exact ⟨moved_ok h.1, h.2.1, moved_ok h.2.2⟩
  · exact ⟨moved_ok h.1, moved_ok h.2.1, h.2.2⟩

theorem completeCrossing_good (k : Station) (p : Pending) (t : Nat) (s : State) (hr : s.condition ≠ .starting) :
    Good true true s (completeCrossing k p t s) := by
  unfold completeCrossing
  simp only
  generalize crossingOf s.cal.working.headSpacing k p t = c
  have h1 : Kept true true false s (updStation k (fun r => { r with pending := none, returns := 0, latest := some c }) s) := by
    refine updStation_kept fun _ => ⟨fun _ e => ?_, Nat.zero_le _, fun _ => ⟨rfl, rfl⟩⟩
    simp at e
  generalize updStation k (fun r => { r with pending := none, returns := 0, latest := some c }) s = m at h1 ⊢
  have h2 : Kept true true false m (m.setWsu (moveOthers k m.wsu)) := Kept.setWsu fun h => moveOthers_ok k h
  refine Good.after (h1.trans h2) (takeCrossing_good c _ ?_)
  rw [h2.condition, h1.condition]
  exact hr

theorem takeHead_good (t : Nat) (k : Station) (h : Head) (s : State) : Good true true s (takeHead t k h s) := by
  unfold takeHead
  split
  · next hc =>
    refine Good.after (touch_kept t s) ?_
    have hk : ((touch t s).wsu.get k).state = .ok := hc.2
    have hr : (touch t s).condition ≠ .starting := by rw [(touch_kept (p := true) (o := true) (u := false) t s).condition, hc.1]; decide
    generalize touch t s = m at hk hr ⊢
    unfold pairHead
    split
    · next hp =>
      refine (updStation_kept fun hok => ⟨fun q e => ?_, hok.2.1, fun e => ?_⟩).good
      · simp only [Option.some.injEq] at e
        rw [← e]
        exact Nat.zero_le _
      · simp only at e
        rw [hk] at e
        exact absurd e (by decide)
    · split
      · exact completeCrossing_good _ _ _ _ hr
      · split
        · exact (updStation_kept fun hok => return_ok hok hk).good
        · exact (headIncident_kept _ _ _ _).good
  · exact Good.refl s

end Sys2Proof.Machine
end

