-- ==== Sys2Proof/Laws/KeptRequests.lean ====
section
/-! SUPPORT. What each request's action keeps, and what the link keeps when it reads, checks and serves one. -/

namespace Sys2Proof.Machine

set_option Elab.async false

/-- What a request's action keeps, in every state that it is served in. -/
def GoodAct (always : Bool) (a : Action) : Prop := ∀ s : State, (s.started || always) = true → Good true true s (a s).1

theorem answer_good (b : Bool) (f : State → Answer) : GoodAct b (answer f) := fun s _ => Good.refl s

theorem bare_good (b : Bool) (c : ReplyCode) : GoodAct b (bare c) := fun s _ => Good.refl s

theorem started_iff {s : State} : (s.started || false) = true ↔ s.condition ≠ .starting := by simp [State.started]

/-! ### System requests -/

theorem exchangeAttentionDo_good (m : Byte) : GoodAct false (exchangeAttentionDo m) := fun s _ =>
  (show Kept true true false s (clearAttention m s) from Kept.setFau (fun _ => rfl) id id).good

theorem exchangeFaultDo_good : GoodAct false exchangeFaultDo := fun s _ =>
  (show Kept true true false s (s.setFau s.fau.clear) from Kept.setFau id
    (fun h => ⟨by simpa [Fau.clear] using h.1, fun n hn => by
      simp only [Fau.clear, List.mem_map] at hn
      obtain ⟨_, _, rfl⟩ := hn
      exact Nat.zero_le _⟩) id).good

/-- A part that becomes RESTARTING (R200). -/
theorem beginRestart_good {s : State} (hr : s.condition = .ready) : Good true true s (beginRestart s) := by
  unfold beginRestart
  generalize hm : (s.setCondition .restarting).setSlk { s.slk with restartDue := true } = m
  have k : Kept false true false m (evalPermit m) := evalPermit_kept' m
  have hp := evalPermit_permitOk (s := m)
  subst hm
  exact {
    pending := k.pending, time := k.time, timeOk := k.timeOk, attn := k.attn, waters := fun _ => k.waters, ranges := k.ranges
    slots := k.slots, wrg := k.wrg, classes := k.classes, store := k.store, certified := k.certified, train := k.train
    stations := k.stations, counts := k.counts, queue := k.queue, stats := k.stats, stc := k.stc
    permit := fun _ _ h => hp h.1
    start := fun a => ⟨k.load fun b hb ho => absurd ((a.1 b hb ho).symm.trans hr) (by decide), fun e => by
      rw [k.condition] at e
      exact absurd e (by simp)⟩
    tracker := k.tracker rfl
    directory := fun a => ⟨by rw [k.entries rfl]; exact a.1, fun e => k.closed rfl (a.2 (by
      have := k.opened rfl
      rw [isOpen_false.mpr e] at this
      exact isOpen_false.mp this.symm))⟩
    zeros := fun _ ho _ => k.zeros rfl ho
    counter := fun _ => Nat.le_of_eq (k.counter rfl).symm }

theorem restartDo_good : GoodAct false restartDo := by
  intro s hs
  unfold restartDo
  split
  · exact Good.refl s
  · split
    · next h => exact beginRestart_good h
    · exact Good.refl s

/-! ### SETTINGS_WRITE (R189, R203) -/

/-- What the writing of one setting keeps: all but PERMIT when it is a water. -/
theorem setSettings_good {s : State} {x : Settings} (ha : x.attentionMask = s.settings.attentionMask)
    (hh : x.highWater = s.settings.highWater) (hl : x.lowWater = s.settings.lowWater)
    (hr : RangesOk s → RangesOk (s.setSettings x)) : Good true true s (s.setSettings x) where
  pending := rfl
  time := Nat.le_refl _
  timeOk := id
  attn h := by simp only [State.attnOk, State.setSettings_fau, State.setSettings_settings, ha]; exact h
  waters _ h := by simpa only [State.setSettings_settings, hh, hl] using h
  ranges := hr
  slots := id
  wrg _ := id
  classes _ := id
  store := id
  certified := id
  train := id
  stations := id
  counts := id
  queue := id
  stats := id
  stc := id
  permit _ _ h := by
    rw [permitOk_iff] at h ⊢
    simpa [PermitView, hh, hl] using h
  start := id
  tracker := id
  directory := id
  zeros _ _ _ := rfl
  counter _ := Nat.le_refl _

/-- What is kept with PERMIT is kept without. -/
theorem Good.drop {p b : Bool} {s s' : State} (h : Good true b s s') : Good p b s s' :=
  { h with waters := fun _ => h.waters rfl, permit := fun _ => h.permit rfl }

/-- What the writing of a water keeps: all but PERMIT. -/
theorem setWater_good {s : State} {x : Settings} (ha : x.attentionMask = s.settings.attentionMask)
    (hr : RangesOk s → RangesOk (s.setSettings x)) : Good false true s (s.setSettings x) where
  pending := rfl
  time := Nat.le_refl _
  timeOk := id
  attn h := by simp only [State.attnOk, State.setSettings_fau, State.setSettings_settings, ha]; exact h
  waters h := absurd h (by decide)
  ranges := hr
  slots := id
  wrg _ := id
  classes _ := id
  store := id
  certified := id
  train := id
  stations := id
  counts := id
  queue := id
  stats := id
  stc := id
  permit h := absurd h (by decide)
  start := id
  tracker := id
  directory := id
  zeros _ _ _ := rfl
  counter _ := Nat.le_refl _

/-- Each setting's range is its own (R203). -/
theorem ranges_of {s : State} {x : Settings} {j : Nat} (hj : settingOk x j = true)
    (hx : ∀ k ∈ settingIndices, k ≠ j → settingOk x k = settingOk s.settings k)
    (ht : s.fau.trigger < s.settings.triggerCount → s.fau.trigger < x.triggerCount) (h : RangesOk s) :
    RangesOk (s.setSettings x) :=
  ⟨fun k hk => if e : k = j then e ▸ hj else (hx k hk e).trans (h.1 k hk), ht h.2⟩

/-- The indices are those of R203. -/
theorem indices_ne {P : Nat → Prop} (h1 : P 1) (h2 : P 2) (h3 : P 3) (h4 : P 4) (h5 : P 5) (h6 : P 6) (h7 : P 7) (h8 : P 8)
    (h9 : P 9) (h10 : P 10) (h11 : P 11) : ∀ k ∈ settingIndices, P k := by
  intro k hk
  simp only [settingIndices, List.mem_cons, List.not_mem_nil, or_false] at hk
  rcases hk with rfl | rfl | rfl | rfl | rfl | rfl | rfl | rfl | rfl | rfl | rfl <;> assumption

/-- The writing of a setting that neither PERMIT nor ATTN depends on. -/
theorem plain_good {s : State} {x : Settings} {j : Nat} (hj : settingOk x j = true)
    (hx : ∀ k ∈ settingIndices, k ≠ j → settingOk x k = settingOk s.settings k)
    (ht : x.triggerCount = s.settings.triggerCount) (ha : x.attentionMask = s.settings.attentionMask)
    (hh : x.highWater = s.settings.highWater) (hl : x.lowWater = s.settings.lowWater) :
    Good true true s (s.setSettings x) :=
  setSettings_good ha hh hl (ranges_of hj hx (by rw [ht]; exact id))

/-- Settings first, then what keeps everything. -/
theorem settings_then {p b : Bool} {s s' : State} {x : Settings} (h : Good p b s (s.setSettings x))
    (k : Good p b (s.setSettings x) s') : Good p b s s' :=
  h.transOf k fun hs ho ho' => k.zeros (h.start hs) ho ho'

theorem writeTriggerCount_good {b : Settings} (hb : settingOk b 1 = true) (s : State) :
    Good true true s (writeTriggerCount b.triggerCount s) := by
  simp only [settingOk, decide_eq_true_eq] at hb
  have hr : ∀ m : State, m.settings = s.settings → m.fau.trigger < b.triggerCount →
      RangesOk m → RangesOk (m.setSettings { s.settings with triggerCount := b.triggerCount }) := by
    intro m hm ht h
    rw [← hm] at *
    exact ⟨indices_ne (decide_eq_true hb) (h.1 2 (by decide)) (h.1 3 (by decide)) (h.1 4 (by decide))
      (h.1 5 (by decide)) (h.1 6 (by decide)) (h.1 7 (by decide)) (h.1 8 (by decide)) (h.1 9 (by decide))
      (h.1 10 (by decide)) (h.1 11 (by decide)), ht⟩
  unfold writeTriggerCount
  simp only
  split
  · next h =>
    have h1 : Kept true true false s (s.setFau { s.fau with trigger := 0 }) :=
      Kept.setFau id id (fun h => Nat.lt_of_le_of_lt (Nat.zero_le _) h)
    have h2 : Good true true (s.setFau { s.fau with trigger := 0 })
        ((s.setFau { s.fau with trigger := 0 }).setSettings { s.settings with triggerCount := b.triggerCount }) :=
      setSettings_good rfl rfl rfl (hr _ rfl (by show 0 < b.triggerCount; omega))
    exact (Good.after h1 h2).then (raiseAtt_kept .wagons _)
  · next h =>
    have h : ¬(1 ≤ s.fau.trigger ∧ b.triggerCount ≤ s.fau.trigger) := h
    exact setSettings_good rfl rfl rfl (hr s rfl (by omega))

theorem writeTriggerIdle_good {b : Settings} (hb : settingOk b 2 = true) (s : State) :
    Good true true s (writeTriggerIdle b.triggerIdle s) := by
  have h : Good true true s (s.setSettings { s.settings with triggerIdle := b.triggerIdle }) :=
    plain_good (j := 2) hb (indices_ne (by simp [settingOk]) (by simp) (by simp [settingOk]) (by simp [settingOk])
      (by simp [settingOk]) (by simp [settingOk]) (by simp [settingOk]) (by simp [settingOk]) (by simp [settingOk])
      (by simp [settingOk]) (by simp [settingOk])) rfl rfl rfl rfl
  unfold writeTriggerIdle
  simp only
  split
  · exact settings_then h (fireTrigger_kept _).good
  · exact h

theorem writeCloseTimeout_good {b : Settings} (hb : settingOk b 3 = true) (s : State) :
    Good true true s (writeCloseTimeout b.closeTimeout s) := by
  have h : Good true true s (s.setSettings { s.settings with closeTimeout := b.closeTimeout }) :=
    plain_good (j := 3) hb (indices_ne (by simp [settingOk]) (by simp [settingOk]) (by simp) (by simp [settingOk])
      (by simp [settingOk]) (by simp [settingOk]) (by simp [settingOk]) (by simp [settingOk]) (by simp [settingOk])
      (by simp [settingOk]) (by simp [settingOk])) rfl rfl rfl rfl
  unfold writeCloseTimeout
  simp only
  split
  · exact settings_then h (closePassage_good _ _ _)
  · exact h

/-- A new attention mask, with the line evaluated (R185). -/
theorem writeMask_good (s : State) (m : Byte) :
    Good true true s (evalAttn (s.setSettings { s.settings with attentionMask := m })) where
  pending := rfl
  time := Nat.le_refl _
  timeOk := id
  attn _ := rfl
  waters _ := id
  ranges h := ⟨indices_ne (h.1 1 (by decide)) (h.1 2 (by decide)) (h.1 3 (by decide)) (h.1 4 (by decide))
    (h.1 5 (by decide)) (h.1 6 (by decide)) (h.1 7 (by decide)) (h.1 8 (by decide)) (h.1 9 (by decide)) rfl
    (h.1 11 (by decide)), h.2⟩
  slots := id
  wrg _ := id
  classes _ := id
  store := id
  certified := id
  train := id
  stations := id
  counts := id
  queue := id
  stats := id
  stc := id
  permit _ _ := id
  start := id
  tracker := id
  directory := id
  zeros _ _ _ := rfl
  counter _ := Nat.le_refl _

/-- The writing of a named setting that is no water keeps PERMIT; that of a water keeps the rest (R203). -/
theorem writeSetting_good {b : Settings} {k : Nat} (hb : settingOk b k = true) (h4 : k ≠ 4) (h5 : k ≠ 5) (s : State) :
    Good true true s (writeSetting b k s) := by
  unfold writeSetting
  split
  · exact writeTriggerCount_good hb s
  · exact writeTriggerIdle_good hb s
  · exact writeCloseTimeout_good hb s
  · exact absurd rfl h4
  · exact absurd rfl h5
  · exact plain_good (j := 6) hb (indices_ne (by simp [settingOk]) (by simp [settingOk]) (by simp [settingOk])
      (by simp [settingOk]) (by simp [settingOk]) (by simp) (by simp [settingOk]) (by simp [settingOk]) (by simp [settingOk])
      (by simp [settingOk]) (by simp [settingOk])) rfl rfl rfl rfl
  · exact plain_good (j := 7) hb (indices_ne (by simp [settingOk]) (by simp [settingOk]) (by simp [settingOk])
      (by simp [settingOk]) (by simp [settingOk]) (by simp [settingOk]) (by simp) (by simp [settingOk]) (by simp [settingOk])
      (by simp [settingOk]) (by simp [settingOk])) rfl rfl rfl rfl
  · exact plain_good (j := 8) hb (indices_ne (by simp [settingOk]) (by simp [settingOk]) (by simp [settingOk])
      (by simp [settingOk]) (by simp [settingOk]) (by simp [settingOk]) (by simp [settingOk]) (by simp) (by simp [settingOk])
      (by simp [settingOk]) (by simp [settingOk])) rfl rfl rfl rfl
  · exact plain_good (j := 9) hb (indices_ne (by simp [settingOk]) (by simp [settingOk]) (by simp [settingOk])
      (by simp [settingOk]) (by simp [settingOk]) (by simp [settingOk]) (by simp [settingOk]) (by simp [settingOk]) (by simp)
      (by simp [settingOk]) (by simp [settingOk])) rfl rfl rfl rfl
  · exact writeMask_good s _
  · exact plain_good (j := 11) hb (indices_ne (by simp [settingOk]) (by simp [settingOk]) (by simp [settingOk])
      (by simp [settingOk]) (by simp [settingOk]) (by simp [settingOk]) (by simp [settingOk]) (by simp [settingOk])
      (by simp [settingOk]) (by simp [settingOk]) (by simp)) rfl rfl rfl rfl
  · exact Good.refl s

theorem writeWater_good {b : Settings} {k : Nat} (hb : settingOk b k = true) (hk : k = 4 ∨ k = 5) (s : State) :
    Good false true s (writeSetting b k s) := by
  rcases hk with rfl | rfl
  · exact setWater_good rfl (ranges_of (j := 4) hb (indices_ne (by simp [settingOk]) (by simp [settingOk])
      (by simp [settingOk]) (by simp) (by simp [settingOk]) (by simp [settingOk]) (by simp [settingOk]) (by simp [settingOk])
      (by simp [settingOk]) (by simp [settingOk]) (by simp [settingOk])) id)
  · exact setWater_good rfl (ranges_of (j := 5) hb (indices_ne (by simp [settingOk]) (by simp [settingOk])
      (by simp [settingOk]) (by simp [settingOk]) (by simp) (by simp [settingOk]) (by simp [settingOk]) (by simp [settingOk])
      (by simp [settingOk]) (by simp [settingOk]) (by simp [settingOk])) id)

/-- Kept, with no passage opened. -/
def Shut (p b : Bool) (s s' : State) : Prop := Good p b s s' ∧ (s'.isOpen = true → s.isOpen = true)

theorem Shut.trans {p b : Bool} {s m s' : State} (h : Shut p b s m) (k : Shut p b m s') : Shut p b s s' :=
  ⟨h.1.transOf k.1 fun hs ho ho' => (k.1.zeros (h.1.start hs) (k.2 ho') ho').trans (h.1.zeros hs ho (k.2 ho')),
    fun e => h.2 (k.2 e)⟩

theorem Shut.foldl {α : Type} {p b : Bool} {f : State → α → State} {l : List α}
    (h : ∀ a ∈ l, ∀ s, Shut p b s (f s a)) : ∀ s, Shut p b s (l.foldl f s) := by
  induction l with
  | nil => intro s; exact ⟨Good.refl s, id⟩
  | cons a l ih =>
    intro s
    exact (h a (by simp) s).trans (ih (fun a ha => h a (by simp [ha])) _)

/-- A close leaves no passage open. -/
theorem closePassage_shut (t : Nat) (c : CloseCause) (s : State) : (closePassage t c s).isOpen = false := by
  simp [State.isOpen, (closePassage_frame t c s).1, Axt.reset]

/-- The writing of a setting opens no passage. -/
theorem writeSetting_shut (b : Settings) (k : Nat) (s : State) : (writeSetting b k s).isOpen = true → s.isOpen = true := by
  unfold writeSetting
  split
  · unfold writeTriggerCount
    simp only
    split <;> exact id
  · unfold writeTriggerIdle
    simp only
    split <;> exact id
  · unfold writeCloseTimeout
    simp only
    split
    · intro h
      rw [closePassage_shut] at h
      exact absurd h (by decide)
    · exact id
  all_goals exact id

/-- The waters that the writing of a setting leaves. -/
theorem writeSetting_waters (b : Settings) (k : Nat) (s : State) :
    (writeSetting b k s).settings.highWater = (if k = 4 then b.highWater else s.settings.highWater) ∧
      (writeSetting b k s).settings.lowWater = (if k = 5 then b.lowWater else s.settings.lowWater) := by
  unfold writeSetting
  split
  · unfold writeTriggerCount
    simp only
    split <;> exact ⟨rfl, rfl⟩
  · unfold writeTriggerIdle
    simp only
    split <;> exact ⟨rfl, rfl⟩
  · unfold writeCloseTimeout
    simp only
    split
    · rw [(closePassage_kept (p := true) _ _ _).settings]; exact ⟨rfl, rfl⟩
    · exact ⟨rfl, rfl⟩
  all_goals first
    | exact ⟨rfl, rfl⟩
    | (rename_i h4 h5 _ _ _ _ _ _; exact ⟨(if_neg h4).symm, (if_neg h5).symm⟩)

/-- The waters of an accepted write, setting by setting. -/
theorem writes_waters (m : BitVec 16) (b : Settings) (l : List Nat) : ∀ s : State,
    (l.foldl (fun s k => if settingNamed m k then writeSetting b k s else s) s).settings.highWater =
        (if 4 ∈ l ∧ settingNamed m 4 = true then b.highWater else s.settings.highWater) ∧
      (l.foldl (fun s k => if settingNamed m k then writeSetting b k s else s) s).settings.lowWater =
        (if 5 ∈ l ∧ settingNamed m 5 = true then b.lowWater else s.settings.lowWater) := by
  induction l with
  | nil => intro s; simp
  | cons a l ih =>
    intro s
    simp only [List.foldl_cons]
    rw [(ih _).1, (ih _).2]
    have h := writeSetting_waters b a s
    constructor
    · by_cases hl : 4 ∈ l ∧ settingNamed m 4 = true
      · simp [hl]
      · rw [if_neg hl]
        by_cases ha : a = 4
        · subst ha
          by_cases hn : settingNamed m 4 = true
          · simp [hn, h.1]
          · simp [hn]
        · have e : ¬(4 ∈ a :: l ∧ settingNamed m 4 = true) := by simpa [Ne.symm ha] using hl
          simp only [if_neg e]
          split
          · rw [h.1, if_neg ha]
          · rfl
    · by_cases hl : 5 ∈ l ∧ settingNamed m 5 = true
      · simp [hl]
      · rw [if_neg hl]
        by_cases ha : a = 5
        · subst ha
          by_cases hn : settingNamed m 5 = true
          · simp [hn, h.2]
          · simp [hn]
        · have e : ¬(5 ∈ a :: l ∧ settingNamed m 5 = true) := by simpa [Ne.symm ha] using hl
          simp only [if_neg e]
          split
          · rw [h.2, if_neg ha]
          · rfl

/-- PERMIT evaluated, after what keeps all but PERMIT (R152). -/
theorem Good.thenPermit {b : Bool} {s m : State} (h : Good false b s m) (hw : m.settings.lowWater < m.settings.highWater) :
    Good true b s (evalPermit m) :=
  { h.then (evalPermit_kept (p := true) m) with
    waters := fun _ _ => by rw [(evalPermit_kept (p := true) (o := true) (u := false) m).settings]; exact hw
    permit := fun _ _ _ => evalPermit_permitOk hw }

/-- An accepted SETTINGS_WRITE (R203). -/
theorem writeSettings_good {m : BitVec 16} {b : Settings} {s : State} (h : settingsFailing m b s.settings = none) :
    Good true true s (writeSettings m b s) := by
  unfold settingsFailing at h
  split at h
  · exact absurd h (by simp)
  split at h
  · exact absurd h (by simp)
  next hf =>
  have hok : ∀ k ∈ settingIndices, settingNamed m k = true → settingOk b k = true := by
    intro k hk hn
    have := List.find?_eq_none.mp hf k hk
    simp only [hn, Bool.true_and, Bool.not_eq_eq_eq_not, Bool.not_true, Bool.not_eq_false] at this
    exact this
  have hw := writes_waters m b settingIndices s
  have h4 : 4 ∈ settingIndices := by decide
  have h5 : 5 ∈ settingIndices := by decide
  simp only [h4, h5, true_and] at hw
  unfold writeSettings
  simp only
  split
  · refine Good.thenPermit (Shut.foldl (fun k hk s => ?_) s).1 ?_
    · split
      · next hn =>
        refine ⟨?_, writeSetting_shut b k s⟩
        by_cases e : k = 4 ∨ k = 5
        · exact writeWater_good (hok k hk hn) e s
        · exact (writeSetting_good (hok k hk hn) (fun e' => e (Or.inl e')) (fun e' => e (Or.inr e')) s).drop
      · exact ⟨Good.refl s, id⟩
    · rw [hw.1, hw.2]
      split at h
      · exact absurd h (by simp)
      · next hle => simpa [watersAfter] using hle
  · next hn =>
    have hn : ¬(settingNamed m 4 = true ∨ settingNamed m 5 = true) := by simpa using hn
    refine (Shut.foldl (fun k hk s => ?_) s).1
    split
    · next hk' =>
      exact ⟨writeSetting_good (hok k hk hk') (fun e => hn (Or.inl (e ▸ hk'))) (fun e => hn (Or.inr (e ▸ hk'))) s,
        writeSetting_shut b k s⟩
    · exact ⟨Good.refl s, id⟩

theorem settingsWriteDo_good (m : BitVec 16) (b : Settings) : GoodAct false (settingsWriteDo m b) := by
  intro s _
  unfold settingsWriteDo
  split
  · exact Good.refl s
  · next h => exact writeSettings_good h

/-! ### Channel, calibration and zero requests -/

theorem enableNamed_good (c : Fin 8) : GoodAct false (enableNamed c) := by
  intro s _
  unfold enableNamed
  simp only
  split
  · exact Good.refl s
  · split
    · exact Good.refl s
    · split
      · exact Good.refl s
      · exact Good.refl s
      · exact Good.refl s
      · exact ((updChannel_kept _ _ _).trans (evalPlatforms_kept _ _)).good

theorem chanEnableDo_good (c : Nat) : GoodAct false (chanEnableDo c) := by
  unfold chanEnableDo
  split
  · exact answer_good _ _
  · exact enableNamed_good _

theorem disableNamed_good (c : Fin 8) : GoodAct false (disableNamed c) := by
  intro s _
  unfold disableNamed
  split
  · exact Good.refl s
  · next ho =>
    split
    · exact Good.refl s
    · exact (((updChannel_kept _ _ _).trans (returnZero_kept fun _ => (by simpa using ho : s.isOpen = false))).trans (evalPlatforms_kept _ _)).good

theorem chanDisableDo_good (c : Nat) : GoodAct false (chanDisableDo c) := by
  unfold chanDisableDo
  split
  · exact answer_good _ _
  · exact disableNamed_good _

theorem calStageDo_good (f c : Nat) (v : Int) (l : List Band) : GoodAct false (calStageDo f c v l) := by
  intro s _
  unfold calStageDo
  split
  · exact Good.refl s
  · split
    · exact Good.refl s
    · exact (stage_kept _ _ _ _ _).good

theorem calCommitDo_good : GoodAct false calCommitDo := by
  intro s _
  unfold calCommitDo
  repeat' split
  all_goals first
    | exact Good.refl s
    | exact (beginCalCommit_kept _ _).good

theorem calDiscardDo_good : GoodAct false calDiscardDo := fun s _ => (discardStaging_kept s).good

theorem zeroAcquireDo_good (q : Nat) : GoodAct false (zeroAcquireDo q) := by
  intro s _
  unfold zeroAcquireDo
  repeat' split
  all_goals first
    | exact Good.refl s
    | exact (show Kept true true false s (beginAcquisition _ s) from updZcl_kept _ _ _).good

theorem zeroCancelDo_good (q : Nat) : GoodAct false (zeroCancelDo q) := by
  intro s _
  unfold zeroCancelDo
  repeat' split
  all_goals first
    | exact Good.refl s
    | exact (endAcquisition_kept _ _ _).good

/-! ### Passage requests -/

theorem assignTo_good {s : State} {fleet k : Nat} {w : Wagon} (h : (k, w) ∈ s.ptb.slots) :
    Good true true s (assignTo fleet k w s).1 := by
  unfold assignTo
  repeat' split
  all_goals first
    | exact Good.refl s
    | exact (assignRecord_kept h).good

theorem refRecord_mem {s : State} {r : RecordRef} {k : Nat} {w : Wagon} (h : s.refRecord r = some (k, w)) :
    (k, w) ∈ s.ptb.slots := by
  unfold State.refRecord at h
  split at h
  · exact mem_of_recordAt h
  · cases e : tget s.ptb.slots r.index with
    | none => rw [e] at h; exact absurd h (by simp)
    | some x =>
      rw [e] at h
      simp only [Option.map_some, Option.some.injEq, Prod.mk.injEq] at h
      obtain ⟨rfl, rfl⟩ := h
      exact mem_of_tget e

theorem assignDo_good (r : RecordRef) (f : Nat) : GoodAct false (assignDo r f) := by
  intro s _
  unfold assignDo
  split
  · split
    · exact Good.refl s
    · next h => exact assignTo_good (refRecord_mem h)
  · exact Good.refl s

theorem lateIdentity_good (q : Nat) (f : Option Nat) (s : State) : Good true true s (lateIdentity q f s).1 := by
  unfold lateIdentity
  split
  · exact Good.refl s
  · next h =>
    split
    · exact assignTo_good (mem_of_recordAt h)
    · exact Good.refl s

theorem expectation_ok (s : State) (n q : Nat) (f c : Option Nat) : (expectation s n q f c).certifiedOk := by
  refine uncertified_ok ?_
  have h : (s.newOpenRecord .expectation q).certified = false := by
    unfold State.newOpenRecord
    simp only
    split <;> rfl
  unfold expectation
  split
  · rfl
  · exact h

theorem expectNew_good (n q : Nat) (f c : Option Nat) (s : State) : Good true true s (expectNew n q f c s).1 := by
  unfold expectNew
  simp only
  repeat' split
  all_goals first
    | exact Good.refl s
    | (next h => exact (Kept.thenPermit (putSlot_kept (.new (lt_of_freeSlot h)) fun _ => expectation_ok _ _ _ _ _)).good)

theorem expectDo_good (n q : Nat) (f c : Option Nat) : GoodAct false (expectDo n q f c) := by
  intro s _
  unfold expectDo
  repeat' split
  all_goals first
    | exact Good.refl s
    | exact lateIdentity_good _ _ _
    | exact expectNew_good _ _ _ _ _

theorem retireRecordDo_good (r : RecordRef) : GoodAct false (retireRecordDo r) := by
  intro s _
  unfold retireRecordDo
  repeat' split
  all_goals first
    | exact Good.refl s
    | exact (retireSlot_kept _ _).good

/-- A CLOSED passage is retired (R150). -/
theorem retireWhole_good (n : Nat) (s : State) : Good true true s (retireWhole n s) := by
  have k1 : Kept false false false (freeRecords n s)
      ((freeRecords n s).setDirectory ((freeRecords n s).ptb.directory.filter fun e => decide (e.number ≠ n))) :=
    Kept.setDirectory (fun h => by simp at h) (fun h => absurd h (by decide)) (fun h => absurd h (by decide))
  have k : Kept true false false s (retireWhole n s) := Kept.thenPermit (Kept.trans (freeRecords_kept n s) k1)
  have hd : (retireWhole n s).ptb.directory = s.ptb.directory.filter fun e => decide (e.number ≠ n) := by
    unfold retireWhole
    simp only
    rw [evalPermit_directory]
    rfl
  have ha : (retireWhole n s).axt = s.axt ∧ (retireWhole n s).cal = s.cal ∧ (retireWhole n s).zcl = s.zcl := by
    unfold retireWhole
    simp only
    rw [evalPermit_eq]
    exact ⟨rfl, rfl, rfl⟩
  refine k.goodOf (fun a => ⟨k.load a.1, fun e => ?_⟩) (fun a e => ?_) (fun a => ⟨?_, fun e => ?_⟩) (fun _ _ _ => ?_) ?_
  · rw [ha.1]; exact a.2 (k.condition ▸ e)
  · rw [ha.1] at e ⊢; exact a e
  · rw [hd]; exact Nat.le_trans (List.length_filter_le _ _) a.1
  · rw [hd]
    rw [ha.1] at e
    exact fun d hm => a.2 e d (List.mem_filter.mp hm).1
  · rw [ha.2.2]
  · refine Nat.le_of_eq ?_
    rw [ha.2.1]

theorem retirePassageDo_good (n : Nat) : GoodAct false (retirePassageDo n) := by
  intro s _
  unfold retirePassageDo
  repeat' split
  all_goals first
    | exact Good.refl s
    | exact retireWhole_good _ _

theorem passCloseDo_good (n : Nat) : GoodAct false (passCloseDo n) := by
  intro s _
  unfold passCloseDo
  repeat' split
  all_goals first
    | exact Good.refl s
    | exact closePassage_good _ _ _

/-! ### Register and class requests -/

/-- A record joins at a place that no other record holds (R154). -/
theorem addRecord_ok {w : Wrg} (h : WrgOk w) {r : RegRec} {fleet : Nat} (hf : r.fields.fleet = fleet)
    (hk : r.place < maxRegister) (hn : ∀ q ∈ w.records, q.2.place ≠ r.place) :
    WrgOk ⟨tput w.records fleet r, tdel w.retired r.place⟩ := by
  obtain ⟨h1, h2, h3, h4, h5⟩ := h
  refine ⟨wf_tput h1 _ _, wf_tdel h2 _, fun q hq => h3 q (mem_tdel hq), fun q hq => ?_, fun q hq q' hq' e => ?_⟩
  · rcases mem_tput hq with rfl | hq
    · exact ⟨hf, hk, by rw [tget_tdel h2]; simp⟩
    · have := h4 q hq
      refine ⟨this.1, this.2.1, ?_⟩
      rw [tget_tdel h2]
      split
      · rfl
      · exact this.2.2
  · rcases mem_tput hq with rfl | hq <;> rcases mem_tput hq' with rfl | hq'
    · rfl
    · exact absurd e.symm (hn q' hq')
    · exact absurd e (hn q hq)
    · exact h5 q hq q' hq' e

/-- The place a new record takes is held by no record (R154, R156). -/
theorem placeFor_free {w : Wrg} (h : WrgOk w) {fleet k : Nat} (hp : placeFor w fleet = some k) :
    k < maxRegister ∧ ∀ q ∈ w.records, q.2.place ≠ k := by
  unfold placeFor at hp
  split at hp
  · next j hj =>
    simp only [Option.some.injEq] at hp
    subst hp
    unfold retiredPlace at hj
    cases e : w.retired.find? fun r => decide (r.2.fleet = fleet) with
    | none => rw [e] at hj; exact absurd hj (by simp)
    | some r =>
      rw [e] at hj
      simp only [Option.map_some, Option.some.injEq] at hj
      subst hj
      have hm := List.mem_of_find?_eq_some e
      refine ⟨h.2.2.1 r hm, fun q hq e' => ?_⟩
      have := (h.2.2.2.1 q hq).2.2
      rw [e', (tget_eq_some h.2.1).mpr hm] at this
      exact absurd this (by simp)
  · split at hp
    · exact absurd hp (by simp)
    · have hp := (lowestFree_eq_some _ _ _ _).mp hp
      refine ⟨by omega, fun q hq e => ?_⟩
      have := hp.2.2.1
      simp only [placeUsed, Bool.or_eq_false_iff, List.any_eq_false, decide_eq_true_eq] at this
      exact this.1 q hq e

theorem regAddDo_good (f : Nat) (c t g : Option Nat) (m : Byte) : GoodAct false (regAddDo f c t g m) := by
  intro s _
  unfold regAddDo
  repeat' split
  all_goals first
    | exact Good.refl s
    | (next h => exact (show Kept true true false s (addRecord f c t g m _ s) from Kept.setWrg fun hw =>
        addRecord_ok hw rfl (placeFor_free hw h).1 (placeFor_free hw h).2).good)

/-- A record takes another's place in the table, with its fleet number and its place (R154). -/
theorem putRecord_ok {w : Wrg} (h : WrgOk w) {fleet : Nat} {r x : RegRec} (hr : tget w.records fleet = some r)
    (hf : x.fields.fleet = r.fields.fleet) (hp : x.place = r.place) : WrgOk { w with records := tput w.records fleet x } := by
  obtain ⟨h1, h2, h3, h4, h5⟩ := h
  have hm := mem_of_tget hr
  have hq := h4 _ hm
  refine ⟨wf_tput h1 _ _, h2, h3, fun q hq' => ?_, fun q hq1 q' hq2 e => ?_⟩
  · rcases mem_tput hq' with rfl | hq'
    · exact ⟨hf.trans hq.1, hp ▸ hq.2.1, hp ▸ hq.2.2⟩
    · exact h4 q hq'
  · rcases mem_tput_ne h1 hq1 with rfl | ⟨hq1, n1⟩ <;> rcases mem_tput_ne h1 hq2 with rfl | ⟨hq2, n2⟩
    · rfl
    · exact h5 (fleet, r) hm q' hq2 (hp.symm.trans e)
    · exact h5 q hq1 (fleet, r) hm (e.trans hp)
    · exact h5 q hq1 q' hq2 e

theorem regChangeDo_good (f : Nat) (m : Byte) (v : RegValues) : GoodAct false (regChangeDo f m v) := by
  intro s _
  unfold regChangeDo
  split
  · split
    · exact Good.refl s
    · next r hr =>
      split
      · exact Good.refl s
      · exact (show Kept true true false s (s.setRecords (tput s.wrg.records f (r.change (RegFields.write m v)))) from
          Kept.setWrg fun hw => putRecord_ok (x := r.change (RegFields.write m v)) hw hr rfl rfl).good
  · exact Good.refl s

theorem regFlagsDo_good (op : FlagOp) (f : Nat) (m : Byte) : GoodAct false (regFlagsDo op f m) := by
  intro s _
  unfold regFlagsDo
  split
  · split
    · exact Good.refl s
    · next r hr =>
      refine (show Kept true true false s (s.setRecords _) from Kept.setWrg fun hw => putRecord_ok hw hr ?_ ?_).good
      · unfold RegRec.setFlags; split <;> rfl
      · unfold RegRec.setFlags; split <;> rfl
  · exact Good.refl s

/-- A record leaves the register, and its place is listed (R160). -/
theorem retireRegister_ok {w : Wrg} (h : WrgOk w) {fleet : Nat} {r : RegRec} (hr : tget w.records fleet = some r) (x : Retired) :
    WrgOk ⟨tdel w.records fleet, tput w.retired r.place x⟩ := by
  obtain ⟨h1, h2, h3, h4, h5⟩ := h
  have hm := mem_of_tget hr
  refine ⟨wf_tdel h1 _, wf_tput h2 _ _, below_tput h3 (h4 _ hm).2.1, fun q hq => ?_, fun q hq q' hq' e =>
    h5 q (mem_tdel hq) q' (mem_tdel hq') e⟩
  have hq1 := h4 q (mem_tdel hq)
  refine ⟨hq1.1, hq1.2.1, ?_⟩
  rw [tget_tput h2]
  split
  · next e =>
    exfalso
    have hk : q.1 = fleet := h5 q (mem_tdel hq) _ hm e
    have := (tget_eq_some (wf_tdel h1 fleet)).mpr hq
    rw [tget_tdel h1, hk] at this
    simp at this
  · exact hq1.2.2

theorem regRetireDo_good (f : Nat) : GoodAct false (regRetireDo f) := by
  intro s _
  unfold regRetireDo
  split
  · split
    · exact Good.refl s
    · next r hr =>
      exact (show Kept true true false s (retireRegister f r s) from Kept.setWrg fun hw => retireRegister_ok hw hr _).good
  · exact Good.refl s

theorem regCommitDo_good : GoodAct false regCommitDo := by
  intro s _
  unfold regCommitDo
  repeat' split
  all_goals first
    | exact Good.refl s
    | exact (startCommit_kept _ _).good

theorem classDefineDo_good (c : ClassFields) : GoodAct false (classDefineDo c) := by
  intro s _
  unfold classDefineDo
  repeat' split
  all_goals first
    | exact Good.refl s
    | exact (show Kept true true false s (changeClasses (fun t => tput t c.code (recordOfFields c)) s) from
        Kept.setSeg fun h => wf_tput h _ _).good

theorem classRemoveDo_good (c : Nat) : GoodAct false (classRemoveDo c) := by
  intro s _
  unfold classRemoveDo
  repeat' split
  all_goals first
    | exact Good.refl s
    | exact (show Kept true true false s (changeClasses (fun t => tdel t c) s) from Kept.setSeg fun h => wf_tdel h _).good

/-! ### Serving a request (R195) -/

theorem satSucc_le {k n : Nat} (h : n ≤ k) : satSucc k n ≤ k := by
  unfold satSucc
  split <;> omega

theorem endReply_kept {p o : Bool} (s : State) : Kept p o false s (endReply s) := by
  unfold endReply
  split
  · exact Kept.refl s
  · refine Kept.trans (s' := s.setSlk _) (Kept.setSlk id id) (Kept.setSlk id fun h => ?_)
    obtain ⟨h1, h2, h3, h4, h5, h6, h7, h8, h9⟩ := h
    exact ⟨h1, satSucc_le h2, h3, h4, h5, h6, h7, h8, h9⟩

theorem serve_good {tag target : Byte} {always : Bool} {a : Action} (h : GoodAct always a) (s : State) :
    Good true true s (serve tag target always a s) := by
  unfold serve compose
  refine Good.then (m := (actOrRefuse always a s).1) ?_ (Kept.setSlk id id)
  unfold actOrRefuse
  split
  · next hs => exact h s hs
  · exact Good.refl s

theorem request_good {t : Nat} {tag : Byte} {k : Target} {always : Bool} {a : Action} {s s' : State}
    (h : GoodAct always a) (e : request t tag k always a s = .next s') : Good true true s s' := by
  unfold request at e
  cases e
  unfold State.ifPowered
  split
  · exact Good.after ((Kept.advance _ _).trans (endReply_kept _)) (serve_good h _)
  · exact Good.refl s

end Sys2Proof.Machine
end

