-- ==== Sys2Proof/Laws/KeptCommands.lean ====
section
/-! SUPPORT. What the link and the commands that are no requests keep, and one lemma over all commands but those of power,
reset and start-up. -/

namespace Sys2Proof.Machine

set_option Elab.async false

/-! ### The catalogue (R198) -/

/-- A request of the catalogue keeps what its action keeps, whatever its DATA. -/
def Handler.good (h : Handler) : Prop := ∀ d, GoodAct h.always (h.run d)

theorem fixed_good {n : Nat} {f : List Byte → Action} (h : ∀ d, GoodAct false (f d)) : (fixed n f).good := h

theorem readStage_good (d : List Byte) : GoodAct false (readStage d) := by
  unfold readStage
  split <;> exact calStageDo_good _ _ _ _

theorem readFlags_good (d : List Byte) : GoodAct false (readFlags d) := by
  unfold readFlags
  split
  · exact regFlagsDo_good _ _ _
  · exact regFlagsDo_good _ _ _
  · exact regFlagsDo_good _ _ _
  · exact answer_good _ _

theorem sysHandler_good {n : Nat} {h : Handler} (e : sysHandler n = some h) : h.good := by
  unfold sysHandler at e
  split at e
  all_goals first
    | (cases e; done)
    | (cases e; intro d; first
        | exact answer_good _ _
        | exact settingsWriteDo_good _ _
        | exact exchangeAttentionDo_good _
        | exact exchangeFaultDo_good
        | exact restartDo_good)

theorem chanHandler_good {n : Nat} {h : Handler} (e : chanHandler n = some h) : h.good := by
  unfold chanHandler at e
  split at e
  all_goals first
    | (cases e; done)
    | (cases e; intro d; first
        | exact answer_good _ _
        | exact chanEnableDo_good _
        | exact chanDisableDo_good _)

theorem calHandler_good {n : Nat} {h : Handler} (e : calHandler n = some h) : h.good := by
  unfold calHandler at e
  split at e
  all_goals first
    | (cases e; done)
    | (cases e; intro d; first
        | exact answer_good _ _
        | exact readStage_good _
        | exact calCommitDo_good
        | exact calDiscardDo_good)

theorem zeroHandler_good {n : Nat} {h : Handler} (e : zeroHandler n = some h) : h.good := by
  unfold zeroHandler at e
  split at e
  all_goals first
    | (cases e; done)
    | (cases e; intro d; first
        | exact answer_good _ _
        | exact zeroAcquireDo_good _
        | exact zeroCancelDo_good _)

theorem passHandler_good {n : Nat} {h : Handler} (e : passHandler n = some h) : h.good := by
  unfold passHandler at e
  split at e
  all_goals first
    | (cases e; done)
    | (cases e; intro d; first
        | exact answer_good _ _
        | exact expectDo_good _ _ _ _
        | exact assignDo_good _ _
        | exact retireRecordDo_good _
        | exact retirePassageDo_good _
        | exact passCloseDo_good _)

theorem regHandler_good {n : Nat} {h : Handler} (e : regHandler n = some h) : h.good := by
  unfold regHandler at e
  split at e
  all_goals first
    | (cases e; done)
    | (cases e; intro d; first
        | exact answer_good _ _
        | exact regAddDo_good _ _ _ _ _
        | exact regChangeDo_good _ _ _
        | exact readFlags_good _
        | exact regRetireDo_good _
        | exact regCommitDo_good)

theorem clsHandler_good {n : Nat} {h : Handler} (e : clsHandler n = some h) : h.good := by
  unfold clsHandler at e
  split at e
  all_goals first
    | (cases e; done)
    | (cases e; intro d; first
        | exact answer_good _ _
        | exact classDefineDo_good _
        | exact classRemoveDo_good _)

theorem catalogue_good {n m : Nat} {t : Nat → Option Handler} {h : Handler} (e : catalogue n = some t) (k : t m = some h) :
    h.good := by
  unfold catalogue at e
  split at e
  · cases e; exact sysHandler_good k
  · cases e; exact chanHandler_good k
  · cases e; exact calHandler_good k
  · cases e; exact zeroHandler_good k
  · cases e; exact passHandler_good k
  · cases e; exact regHandler_good k
  · cases e; exact clsHandler_good k
  · cases e

theorem frameAction_good (f : Frame) : GoodAct (frameAction f).1 (frameAction f).2 := by
  unfold frameAction
  split
  · exact bare_good _ _
  · next t ht =>
    split
    · exact bare_good _ _
    · next h hh =>
      simp only
      unfold checkedAction
      split
      · exact catalogue_good ht hh f.data
      · exact bare_good _ _

/-! ### The link (R192 to R195) -/

theorem takeFrame_good (f : Frame) (s : State) : Good true true s (takeFrame f s) := serve_good (frameAction_good f) s

theorem takeNext_good (s : State) : Good true true s (takeNext s) := by
  unfold takeNext
  split
  · next f l hs hq =>
    refine Good.after (m := s.setSlk { s.slk with queue := l }) (Kept.setSlk (fun h => ?_) id) (takeFrame_good f _)
    rw [hq] at h
    simp only [List.length_cons] at h
    simp only
    omega
  · exact Good.refl s

/-- A change of one saturating statistic. -/
theorem updStats_kept {p o : Bool} {f : LinkStats → LinkStats} (h : ∀ x, x.ok → (f x).ok) (s : State) :
    Kept p o false s (updStats f s) := Kept.setSlk id (h _)

theorem setReceiver_kept {p o : Bool} (r : Receiver) (s : State) : Kept p o false s (setReceiver r s) := Kept.setSlk id id

theorem dropPartial_kept {p o : Bool} {f : LinkStats → LinkStats} (h : ∀ x, x.ok → (f x).ok) (s : State) :
    Kept p o false s (dropPartial f s) := (setReceiver_kept _ _).trans (updStats_kept h _)

theorem delivered_ok (x : LinkStats) (h : x.ok) : ({ x with delivered := bump x.delivered } : LinkStats).ok :=
  ⟨satSucc_le h.1, h.2⟩
theorem hunt_ok (x : LinkStats) (h : x.ok) : ({ x with hunt := bump x.hunt } : LinkStats).ok :=
  ⟨h.1, h.2.1, satSucc_le h.2.2.1, h.2.2.2⟩
theorem framing_ok (x : LinkStats) (h : x.ok) : ({ x with framing := bump x.framing } : LinkStats).ok :=
  ⟨h.1, h.2.1, h.2.2.1, satSucc_le h.2.2.2.1, h.2.2.2.2⟩
theorem gap_ok (x : LinkStats) (h : x.ok) : ({ x with gap := bump x.gap } : LinkStats).ok :=
  ⟨h.1, h.2.1, h.2.2.1, h.2.2.2.1, satSucc_le h.2.2.2.2.1, h.2.2.2.2.2⟩
theorem length_ok (x : LinkStats) (h : x.ok) : ({ x with length := bump x.length } : LinkStats).ok :=
  ⟨h.1, h.2.1, h.2.2.1, h.2.2.2.1, h.2.2.2.2.1, satSucc_le h.2.2.2.2.2.1, h.2.2.2.2.2.2⟩
theorem crc_ok (x : LinkStats) (h : x.ok) : ({ x with crc := bump x.crc } : LinkStats).ok :=
  ⟨h.1, h.2.1, h.2.2.1, h.2.2.2.1, h.2.2.2.2.1, h.2.2.2.2.2.1, satSucc_le h.2.2.2.2.2.2.1, h.2.2.2.2.2.2.2⟩
theorem queue_ok (x : LinkStats) (h : x.ok) : ({ x with queue := bump x.queue } : LinkStats).ok :=
  ⟨h.1, h.2.1, h.2.2.1, h.2.2.2.1, h.2.2.2.2.1, h.2.2.2.2.2.1, h.2.2.2.2.2.2.1, satSucc_le h.2.2.2.2.2.2.2.1,
    h.2.2.2.2.2.2.2.2⟩
theorem breaks_ok (x : LinkStats) (h : x.ok) : ({ x with breaks := bump x.breaks } : LinkStats).ok :=
  ⟨h.1, h.2.1, h.2.2.1, h.2.2.2.1, h.2.2.2.2.1, h.2.2.2.2.2.1, h.2.2.2.2.2.2.1, h.2.2.2.2.2.2.2.1,
    satSucc_le h.2.2.2.2.2.2.2.2⟩

theorem deliver_good (f : Frame) (s : State) : Good true true s (deliver f s) := by
  unfold deliver
  split
  · exact ((updStats_kept queue_ok s).trans (reportFault_kept _ _)).good
  · next h =>
    refine Good.after (Kept.trans (s' := s.setSlk { s.slk with queue := s.slk.queue ++ [f] }) (Kept.setSlk (fun _ => ?_) id)
      (updStats_kept delivered_ok _)) (takeNext_good _)
    simp only [List.length_append, List.length_singleton]
    omega

theorem completeFrame_good (n : Nat) (l : List Byte) (s : State) : Good true true s (completeFrame n l s) := by
  unfold completeFrame
  split
  · exact Good.after (setReceiver_kept _ _) (deliver_good _ _)
  · exact (dropPartial_kept crc_ok s).good

theorem takeGoodByte_good (b : Byte) (s : State) : Good true true s (takeGoodByte b s) := by
  unfold takeGoodByte
  split
  · split
    · exact (setReceiver_kept _ _).good
    · exact (updStats_kept hunt_ok _).good
  · split
    · exact (setReceiver_kept _ _).good
    · exact (dropPartial_kept length_ok _).good
  · simp only
    split
    · exact (setReceiver_kept _ _).good
    · exact completeFrame_good _ _ _

theorem takeBadByte_kept {p o : Bool} (s : State) : Kept p o false s (takeBadByte s) := by
  unfold takeBadByte
  split
  · exact updStats_kept hunt_ok _
  · exact dropPartial_kept framing_ok _

theorem dropForGap_kept {p o : Bool} (s : State) : Kept p o false s (dropForGap s) := by
  unfold dropForGap
  split
  · exact Kept.refl s
  · exact dropPartial_kept gap_ok _

theorem receive_good (b : Byte) (e : Bool) (s : State) : Good true true s (receive b e s) := by
  unfold receive
  have h : Kept true true false s (settleGap s) := by
    unfold settleGap
    split
    · exact dropForGap_kept s
    · exact Kept.refl s
  have k : Kept true true false (settleGap s)
      ((settleGap s).setSlk { (settleGap s).slk with lastByte := (settleGap s).timebase }) := Kept.setSlk id id
  simp only
  split
  · exact ((h.trans k).trans (takeBadByte_kept _)).good
  · exact Good.after (h.trans k) (takeGoodByte_good _ _)

theorem gapRunsOut_kept {p o : Bool} (s : State) : Kept p o false s (gapRunsOut s) := by
  unfold gapRunsOut
  split
  · exact Kept.refl s
  · exact (Kept.advance _ _).trans (dropForGap_kept _)

theorem takeBreak_kept {p o : Bool} (s : State) : Kept p o false s (takeBreak s) :=
  Kept.trans (s' := s.setSlk { s.slk with queue := [], receiver := .hunt }) (Kept.setSlk (fun _ => Nat.zero_le _) id)
    (updStats_kept breaks_ok _)

/-! ### The other commands -/

theorem closeExpires_good (s : State) : Good true true s (closeExpires s) := by
  unfold closeExpires
  split
  · exact Good.refl s
  · simp only
    split
    · exact (Kept.advance _ _).good
    · exact Good.after (Kept.advance _ _) (closePassage_good _ _ _)

theorem sampleIf_kept {p o : Bool} (q : Bool) (t : Nat) (r : Readings) (s : State) : Kept p o false s (sampleIf q t r s) := by
  unfold sampleIf
  split
  · exact sample_kept t r s
  · exact Kept.refl s

theorem moveSwitch_kept {p o : Bool} (t : Nat) (x : SwitchPos) (s : State) : Kept p o false s (moveSwitch t x s) := by
  have h : Kept p o false s ((s.advance t).setCalsw x) := (Kept.advance _ _).trans (Kept.setCalsw _ _)
  unfold moveSwitch
  simp only
  split
  · exact h.trans (switchChanged_kept _ _)
  · exact h

theorem triggerExpires_kept {p o : Bool} (s : State) : Kept p o false s (triggerExpires s) := by
  unfold triggerExpires
  split
  · exact Kept.refl s
  · exact (Kept.advance _ _).trans (fireTrigger_kept _)

/-- The end of a calibration commit (R88 to R90). -/
theorem calSucceeded_good (s : State) : Good true true s (calSucceeded s) := by
  have h : Kept true true false s (s.setCal { s.cal with lastOutcome := some .succeeded }) :=
    Kept.setCal (fun _ => rfl) fun _ => rfl
  unfold calSucceeded
  simp only
  split
  · next c ho hc => exact Good.after h (applyCommit_good c _ ho)
  · have k : ∀ m : State, Kept true true false m (m.setCal { m.cal with phase := .held }) :=
      fun m => Kept.setCal (fun _ => rfl) fun _ => rfl
    exact (h.trans (k _)).good

theorem calibrationEnds_good (v : Bool) (s : State) : Good true true s (calibrationEnds v s) := by
  unfold calibrationEnds
  split
  · exact Good.refl s
  · next b hb =>
    have h : Kept true true false s (endCellWrite b v (reachDue b s)) := (reachDue_kept _ _).trans (endCellWrite_kept _ _ _)
    refine Good.then (m := endOperation .calibrationCommit (!b.failed) b.due (if b.failed then
      calFailed (endCellWrite b v (reachDue b s)) else calSucceeded (endCellWrite b v (reachDue b s)))) ?_
      (endClosing_kept b v (fun s =>
        endOperation .calibrationCommit (!b.failed) b.due (if b.failed then calFailed s else calSucceeded s)) _)
    refine Good.then (m := if b.failed then calFailed (endCellWrite b v (reachDue b s))
      else calSucceeded (endCellWrite b v (reachDue b s))) ?_ (endOperation_kept _ _ _ _)
    split
    · exact (h.trans (calFailed_kept _)).good
    · exact Good.after h (calSucceeded_good _)

theorem ifPowered_good {p b : Bool} {f : State → State} (h : ∀ s, Good p b s (f s)) (s : State) :
    Good p b s (s.ifPowered f) := by
  unfold State.ifPowered
  split
  · exact h s
  · exact Good.refl s

/-- The commands after which the part holds what it held: all but those of power, reset and start-up. -/
def runsOn : Instr → Bool
  | .powerOn => false
  | .reset => false
  | .lossOfPower => false
  | .storeLoadEnd _ => false
  | _ => true

theorem outcome_good {p b : Bool} {s m s' : State} (h : Good p b s m) (e : Host.Outcome.next (φ := Fault) (ρ := Refusal) m = .next s') :
    Good p b s s' := by
  cases e; exact h

/-- Every command but those of power, reset and start-up. -/
theorem exec_good {c : Instr} (hc : runsOn c = true) {s s' : State} (e : exec c s = .next s') : Good true true s s' := by
  cases c with
  | powerOn => exact absurd hc (by decide)
  | reset => exact absurd hc (by decide)
  | lossOfPower => exact absurd hc (by decide)
  | storeLoadEnd f => exact absurd hc (by simp [runsOn])
  | headEvent t k h =>
    exact outcome_good (ifPowered_good (fun s => Good.after (Kept.advance _ _) (takeHead_good _ _ _ _)) s) e
  | closeTimeout => exact outcome_good (ifPowered_good closeExpires_good s) e
  | samplingInstant t r => exact outcome_good (ifPowered_good (fun s => (sample_kept t r s).good) s) e
  | settlingComplete t c r => exact outcome_good (ifPowered_good (fun s => (sampleIf_kept _ t r s).good) s) e
  | overrangeFault t c r => exact outcome_good (ifPowered_good (fun s => (sampleIf_kept _ t r s).good) s) e
  | acquisitionEnd t p r => exact outcome_good (ifPowered_good (fun s => (sampleIf_kept _ t r s).good) s) e
  | trackingBlock t p r => exact outcome_good (ifPowered_good (fun s => (sampleIf_kept _ t r s).good) s) e
  | calswChange t pos =>
    refine outcome_good ?_ e
    split
    · exact ifPowered_good (fun s => (Kept.advance _ _).good) s
    · split
      · exact (moveSwitch_kept _ _ _).good
      · exact (Kept.setCalsw _ _).good
  | calibrationCommitEnd ok => exact outcome_good (ifPowered_good (calibrationEnds_good ok) s) e
  | reservationWriteEnd ok => exact outcome_good (ifPowered_good (fun s => (reservationEnds_kept ok s).good) s) e
  | registerCommitItem ok => exact outcome_good (ifPowered_good (fun s => (itemEnds_kept ok s).good) s) e
  | registerCommitEnd ok => exact outcome_good (ifPowered_good (fun s => (registerCommitEnds_kept ok s).good) s) e
  | passageNumberEnd ok => exact outcome_good (ifPowered_good (fun s => (numberEnds_kept ok s).good) s) e
  | calibrationImageWriteEnd ok => exact outcome_good (ifPowered_good (fun s => (imageEnds_kept ok s).good) s) e
  | triggerIdleExpiry => exact outcome_good (ifPowered_good (fun s => (triggerExpires_kept s).good) s) e
  | byteReceived t b f =>
    exact outcome_good (ifPowered_good (fun s => Good.after (Kept.advance _ _) (receive_good _ _ _)) s) e
  | gapTimeout => exact outcome_good (ifPowered_good (fun s => (gapRunsOut_kept s).good) s) e
  | linkBreak t => exact outcome_good (ifPowered_good (fun s => ((Kept.advance _ _).trans (takeBreak_kept _)).good) s) e
  | replySent t =>
    exact outcome_good (ifPowered_good (fun s => Good.after ((Kept.advance _ _).trans (endReply_kept _)) (takeNext_good _)) s) e
  | settingsWrite t g m b => exact request_good (settingsWriteDo_good m b) e
  | exchangeAttention t g m => exact request_good (exchangeAttentionDo_good m) e
  | exchangeFault t g => exact request_good exchangeFaultDo_good e
  | restart t g => exact request_good restartDo_good e
  | chanEnable t g c => exact request_good (chanEnableDo_good c) e
  | chanDisable t g c => exact request_good (chanDisableDo_good c) e
  | calStage t g f c v l => exact request_good (calStageDo_good f c v l) e
  | calCommit t g => exact request_good calCommitDo_good e
  | calDiscard t g => exact request_good calDiscardDo_good e
  | zeroAcquire t g p => exact request_good (zeroAcquireDo_good p) e
  | zeroCancel t g p => exact request_good (zeroCancelDo_good p) e
  | expect t g n q f c => exact request_good (expectDo_good n q f c) e
  | assign t g r f => exact request_good (assignDo_good r f) e
  | retireRecord t g r => exact request_good (retireRecordDo_good r) e
  | retirePassage t g n => exact request_good (retirePassageDo_good n) e
  | passClose t g n => exact request_good (passCloseDo_good n) e
  | regAdd t g f c w x m => exact request_good (regAddDo_good f c w x m) e
  | regChange t g f m v => exact request_good (regChangeDo_good f m v) e
  | regFlagsAnd t g f m => exact request_good (regFlagsDo_good .and f m) e
  | regFlagsOr t g f m => exact request_good (regFlagsDo_good .or f m) e
  | regFlagsXor t g f m => exact request_good (regFlagsDo_good .xor f m) e
  | regRetire t g f => exact request_good (regRetireDo_good f) e
  | regCommit t g => exact request_good regCommitDo_good e
  | classDefine t g c => exact request_good (classDefineDo_good c) e
  | classRemove t g c => exact request_good (classRemoveDo_good c) e
  | _ => exact request_good (answer_good _ _) e

/-! ### Power, reset and start-up (R171, R172, R199, R200) -/

/-- Every volatile block at its reset value, over a store in its form. -/
structure Fresh (s : State) : Prop where
  timeOk : s.timeOk
  attn : s.attnOk
  ranges : RangesOk s
  slots : SlotsOk s.ptb.slots
  wrg : WrgOk s.wrg
  classes : Table.wf s.seg.classes = true
  certified : s.certifiedOk
  train : s.axt.train.length ≤ maxAxles
  stations : s.stationsOk
  counts : CountsOk s.fau.counts
  queue : s.queueOk
  stats : s.slk.stats.ok
  stc : StcOk s.stc
  permit : s.permitOk
  start : s.startOk
  tracker : TrackerReset s
  directory : s.directoryOk
  shut : s.isOpen = false

theorem volatileReset_fresh (l : List Instr) (n : Nat) (x : SwitchPos) (y : Store) : Fresh (State.volatileReset l n x y) where
  timeOk := by show (0 : Nat) < timebaseRange; decide
  attn := by show Fau.reset.attn = attnLevel Fau.reset.attention defaultSettings.attentionMask; decide
  ranges := ⟨by show ∀ k ∈ settingIndices, settingOk defaultSettings k = true; decide, by
    show 0 < defaultSettings.triggerCount; decide⟩
  slots := ⟨rfl, fun _ h => absurd h (by simp [State.volatileReset, Ptb.reset])⟩
  wrg := ⟨rfl, rfl, fun _ h => absurd h (by simp [State.volatileReset, Wrg.reset]),
    fun _ h => absurd h (by simp [State.volatileReset, Wrg.reset]), fun _ h => absurd h (by simp [State.volatileReset, Wrg.reset])⟩
  classes := by show Table.wf Seg.reset.classes = true; decide
  certified := fun _ h => absurd h (by simp [State.volatileReset, Ptb.reset])
  train := by show Axt.reset.train.length ≤ maxAxles; decide
  stations := by
    have h : StationRec.ok .reset := ⟨fun p h => by simp [StationRec.reset] at h, Nat.zero_le _, fun _ => ⟨rfl, rfl⟩⟩
    exact ⟨h, h, h⟩
  counts := by
    show Fau.reset.counts.length = 14 ∧ ∀ n ∈ Fau.reset.counts, n ≤ 255; decide
  queue := by show Slk.reset.queue.length ≤ maxQueue; decide
  stats := ⟨Nat.zero_le _, Nat.zero_le _, Nat.zero_le _, Nat.zero_le _, Nat.zero_le _, Nat.zero_le _, Nat.zero_le _, Nat.zero_le _,
    Nat.zero_le _⟩
  stc := ⟨by show (0 : Nat) ≤ 3; decide, by show StoreHealth.ok = .failed ↔ 0 = 3; decide⟩
  permit := ⟨by show defaultSettings.lowWater < defaultSettings.highWater; decide, by
    show Ptb.reset.permit = .asserted ↔ permitHolds (State.volatileReset l n x y) = true
    simp [permitHolds, State.volatileReset, Ptb.reset], by
    show waterNext Ptb.reset.water 0 defaultSettings.highWater defaultSettings.lowWater = Ptb.reset.water; decide⟩
  start := ⟨fun _ _ _ => rfl, fun _ => rfl⟩
  tracker := fun _ => rfl
  directory := ⟨by show Ptb.reset.directory.length ≤ maxDirectory; decide, fun _ _ h => absurd h (by
    simp [State.volatileReset, Ptb.reset])⟩
  shut := rfl

theorem setPowered_fresh {s : State} (h : Fresh s) (x : Bool) : Fresh (s.setPowered x) :=
  ⟨h.timeOk, h.attn, h.ranges, h.slots, h.wrg, h.classes, h.certified, h.train, h.stations, h.counts, h.queue, h.stats,
    h.stc, h.permit, h.start, h.tracker, h.directory, h.shut⟩

theorem cutPower_fresh (s : State) : Fresh (cutPower s) := setPowered_fresh (volatileReset_fresh _ _ _ _) _

/-- What a cut leaves of the store is in its form (R172). -/
theorem cutStore_ok {x : Store} (h : StoreOk x) (b : Option Busy) (n : Nat) : StoreOk (cutStore b n x) := by
  have hc : ∀ (b : Busy) (y : Store), StoreOk y → StoreOk (cutCell b y) := by
    intro b y hy
    unfold cutCell
    split
    · exact setCell_ok hy _ _
    · exact hy
  unfold cutStore
  split
  · exact h
  · split
    · exact h
    · unfold cutReservation
      simp only
      split
      · exact hc _ _ h
      · exact hc _ _ h
    · unfold cutBody
      split
      · exact writeItem_ok h _ _
      · exact writeItem_ok h _ _
      · exact h
      · exact h
    · exact hc _ _ h

/-! ### The end of the load -/

theorem mem_loadRecords {t : Table (Stored RegFields)} {b : Nat} (h : Table.rising b t = true) :
    ∀ r ∈ loadRecords t, r.2.fields.fleet = r.1 ∧ r.2.place < maxRegister ∧ b ≤ r.2.place := by
  induction t generalizing b with
  | nil => intro r hr; simp [loadRecords] at hr
  | cons q t ih =>
    obtain ⟨k, v⟩ := q
    simp only [Table.rising, Bool.and_eq_true, decide_eq_true_eq] at h
    intro r hr
    have hr' : r ∈ loadRecords t → r.2.fields.fleet = r.1 ∧ r.2.place < maxRegister ∧ b ≤ r.2.place := by
      intro hr
      have := ih h.2 r hr
      exact ⟨this.1, this.2.1, by omega⟩
    cases v with
    | bad => exact hr' hr
    | sound f =>
      simp only [loadRecords] at hr
      split at hr
      · next hc =>
        simp only [Bool.and_eq_true, decide_eq_true_eq] at hc
        rcases List.mem_cons.mp hr with rfl | hr
        · exact ⟨rfl, hc.1, h.1⟩
        · exact hr' hr
      · exact hr' hr

/-- The places of the records that load are distinct. -/
theorem loadRecords_places {t : Table (Stored RegFields)} {b : Nat} (h : Table.rising b t = true) :
    (loadRecords t).Pairwise fun r q => r.2.place < q.2.place := by
  induction t generalizing b with
  | nil => exact List.Pairwise.nil
  | cons q t ih =>
    obtain ⟨k, v⟩ := q
    simp only [Table.rising, Bool.and_eq_true, decide_eq_true_eq] at h
    cases v with
    | bad => exact ih h.2
    | sound f =>
      simp only [loadRecords]
      split
      · refine List.Pairwise.cons (fun q hq => ?_) (ih h.2)
        have := (mem_loadRecords h.2 q hq).2.2
        simp only
        omega
      · exact ih h.2

/-- A table of what a list puts holds things of the list and of the table before. -/
theorem mem_tputAll {α : Type} (l : List (Nat × α)) : ∀ {t : Table α} {r : Nat × α}, r ∈ tputAll t l → r ∈ l ∨ r ∈ t := by
  induction l with
  | nil => intro t r h; exact Or.inr h
  | cons a l ih =>
    intro t r h
    rcases ih (t := tput t a.1 a.2) h with h | h
    · exact Or.inl (by simp [h])
    · rcases mem_tput h with rfl | h
      · exact Or.inl (by simp)
      · exact Or.inr h

/-- The register that a load leaves (R154, R171). -/
theorem loadWrg_ok {x : Store} (h : StoreOk x) : WrgOk ⟨tputAll [] (loadRecords x.places), []⟩ := by
  have hm : ∀ r ∈ tputAll [] (loadRecords x.places), r ∈ loadRecords x.places := by
    intro r hr
    rcases mem_tputAll _ hr with h | h
    · exact h
    · exact absurd h (by simp)
  have hw : Table.wf (tputAll [] (loadRecords x.places)) = true := wf_tputAll _ rfl
  refine ⟨hw, rfl, fun _ h => absurd h (by simp), fun r hr => ?_, fun r hr q hq e => ?_⟩
  · have := mem_loadRecords h.2 r (hm r hr)
    exact ⟨this.1, this.2.1, rfl⟩
  · have hp := loadRecords_places h.2
    by_cases hne : r = q
    · rw [hne]
    · exfalso
      have key : ∀ l : List (Nat × RegRec), (l.Pairwise fun r q => r.2.place < q.2.place) → r ∈ l → q ∈ l → False := by
        intro l
        induction l with
        | nil => intro _ h; simp at h
        | cons a l ih =>
          intro hl h1 h2
          rw [List.pairwise_cons] at hl
          rcases List.mem_cons.mp h1 with e1 | m1 <;> rcases List.mem_cons.mp h2 with e2 | m2
          · exact hne (e1.trans e2.symm)
          · have := hl.1 q m2; rw [← e1] at this; omega
          · have := hl.1 r m1; rw [← e2] at this; omega
          · exact ih hl.2 m1 m2
      exact key _ hp (hm r hr) (hm q hq)

theorem rising_loadClasses {t : Table (Stored ClassRec)} : ∀ {b : Nat}, Table.rising b t = true →
    Table.rising b (loadClasses t) = true := by
  induction t with
  | nil => intro b _; rfl
  | cons q t ih =>
    obtain ⟨k, v⟩ := q
    intro b h
    simp only [Table.rising, Bool.and_eq_true, decide_eq_true_eq] at h
    have up : Table.rising b (loadClasses t) = true := rising_mono (ih h.2) (by omega)
    cases v with
    | bad => exact up
    | sound c =>
      simp only [loadClasses]
      split
      · simp only [Table.rising, Bool.and_eq_true, decide_eq_true_eq]
        exact ⟨h.1, ih h.2⟩
      · exact up

/-- The load's reading of the store (R92, R170, R171). -/
theorem loadTables_kept (s : State) : Kept false false false s (loadTables s) := by
  have h1 : Kept false false false s (s.setSeg { s.seg with classes := loadClasses s.store.classes, dirty := false, commit := false }) :=
    { classes := fun h _ => rising_loadClasses h.1 }
  have h2 : ∀ m : State, m.store = s.store → Kept false false false m (m.setWrg ⟨tputAll [] (loadRecords s.store.places), []⟩) :=
    fun m e => { wrg := fun h _ => loadWrg_ok (e ▸ h) }
  have h3 : ∀ (m : State) (n : Nat), Kept false false false m (m.setPtb { m.ptb with lastNumber := n }) :=
    fun m n => { permit := fun e => absurd e (by decide) }
  have h4 : ∀ (m : State) (c : CellId) (n : Nat), Kept false false false m (m.setStc ⟨none, false, none, 0, .ok, c, n⟩) :=
    fun m c n => Kept.setStc (fun _ => ⟨Nat.zero_le _, by simp⟩) fun _ b e => by simp at e
  exact ((h1.trans (h2 _ rfl)).trans (h3 _ _)).trans (h4 _ _ _)

theorem loadCalibration_kept (s : State) : Kept false false false s (loadCalibration s) := by
  have h1 : ∀ (m : State) (x : Cal), Kept false false false m (m.setCal x) :=
    fun m x => Kept.setCal (fun e => absurd e (by decide)) fun e => absurd e (by decide)
  have h2 : ∀ (m : State) (x : Zcl), Kept false false false m (m.setZcl x) :=
    fun m x => Kept.setZcl fun e => absurd e (by decide)
  exact ((h1 _ _).trans (h2 _ _)).trans (applyPattern_kept _ _ _)

theorem loadTables_frame (s : State) : (loadTables s).axt = s.axt ∧ (loadTables s).stc.busy = none ∧
    (loadTables s).ptb.directory = s.ptb.directory := ⟨rfl, rfl, rfl⟩

theorem Evaluated.frame {s s' : State} (h : Evaluated s s') :
    s'.axt = s.axt ∧ s'.stc = s.stc ∧ s'.ptb.directory = s.ptb.directory := by
  obtain ⟨x, y, z, _, rfl, _, _, _, hd, _⟩ := h
  exact ⟨rfl, rfl, hd⟩

theorem applyPattern_frame (t : Nat) (v : Int) (s : State) : (applyPattern t v s).axt = s.axt ∧
    (applyPattern t v s).stc = s.stc ∧ (applyPattern t v s).ptb.directory = s.ptb.directory :=
  (applyPattern_evaluated t v s).frame

theorem loadCalibration_frame (s : State) : (loadCalibration s).axt = s.axt ∧ (loadCalibration s).stc = s.stc ∧
    (loadCalibration s).ptb.directory = s.ptb.directory := by
  unfold loadCalibration
  simp only
  generalize examineImage s.store = x
  exact applyPattern_frame _ _ _

theorem takeAll_kept {p o : Bool} (l : List FaultOcc) (s : State) : Kept p o false s (takeAll l s) :=
  Kept.foldl (fun s o => takeFault_kept o s) l s

theorem takeHeld_kept {p o : Bool} (l : List FaultOcc) (s : State) : Kept p o false s (takeHeld l s) :=
  Kept.trans (s' := s.setFau { s.fau with held := [] }) (Kept.setFau id id id) (takeAll_kept _ _)

/-- The end of the store load keeps all but the counter, which it reads from the store (R91, R171). -/
theorem finishLoad_good {s : State} (hc : LoadOk s → s.condition = .starting) (f : Bool) :
    Good true false s (finishLoad f s) := by
  unfold finishLoad
  simp only
  have ha : Kept false false false s (s.advance loadTicks) := Kept.advance _ _
  generalize hl : loadFaults f (s.advance loadTicks).timebase (s.advance loadTicks).store = l
  have k1 : Kept false false false s (loadCalibration (loadTables (s.advance loadTicks))) :=
    (ha.trans (loadTables_kept _)).trans (loadCalibration_kept _)
  have f1 := loadTables_frame (s.advance loadTicks)
  have f2 := loadCalibration_frame (loadTables (s.advance loadTicks))
  generalize loadCalibration (loadTables (s.advance loadTicks)) = m at k1 f2
  have hx : m.axt = s.axt := f2.1.trans f1.1
  have hb : m.stc.busy = none := (congrArg Stc.busy f2.2.1).trans f1.2.1
  have hd : m.ptb.directory = s.ptb.directory := f2.2.2.trans f1.2.2
  have k : Kept false true false (m.setCondition .ready) (evalPermit (takeHeld l (m.setCondition .ready))) :=
    (takeHeld_kept _ _).trans (evalPermit_kept' _)
  have hw : (takeHeld l (m.setCondition .ready)).settings = s.settings :=
    ((takeHeld_kept (p := false) (o := true) l (m.setCondition .ready)).settings).trans k1.settings
  have hp := evalPermit_permitOk (s := takeHeld l (m.setCondition .ready))
  rw [hw] at hp
  generalize evalPermit (takeHeld l (m.setCondition .ready)) = s' at k hp
  have ho : s'.isOpen = s.isOpen := by
    rw [k.opened rfl]
    simp [State.isOpen, hx]
  exact {
    pending := k.pending.trans k1.pending
    time := Nat.le_trans k1.time k.time
    timeOk := fun a => k.timeOk (k1.timeOk a)
    attn := fun a => k.attn (k1.attn a)
    waters := fun _ a => by rw [k.settings.trans k1.settings]; exact a
    ranges := fun a => k.ranges (k1.ranges a)
    slots := fun a => k.slots (k1.slots a)
    wrg := fun e a => k.wrg (k1.store e) (k1.wrg e a)
    classes := fun e a => k.classes (k1.store e) (k1.classes e a)
    store := fun a => k.store (k1.store a)
    certified := fun a => k.certified (k1.certified a)
    train := fun a => k.train (k1.train a)
    stations := fun a => k.stations (k1.stations a)
    counts := fun a => k.counts (k1.counts a)
    queue := fun a => k.queue (k1.queue a)
    stats := fun a => k.stats (k1.stats a)
    stc := fun a => k.stc (k1.stc a)
    permit := fun _ _ a => hp a.1
    start := fun _ => ⟨k.load fun b e => by
      rw [State.setCondition_stc, hb] at e
      exact absurd e (by simp), fun e => by
      rw [k.condition] at e
      exact absurd e (by simp)⟩
    tracker := fun a => k.tracker rfl fun e => by
      rw [State.setCondition_axt, hx] at e ⊢
      exact a e
    directory := fun a => ⟨by rw [k.entries rfl, State.setCondition_ptb, hd]; exact a.1, fun e => k.closed rfl (by
      rw [State.setCondition_ptb, hd]
      refine a.2 ?_
      have := isOpen_false.mpr e
      rw [ho] at this
      exact isOpen_false.mp this)⟩
    zeros := fun a e _ => by
      have := isOpen_false.mpr (a.2 (hc a.1))
      rw [this] at e
      exact absurd e (by decide)
    counter := fun e => absurd e (by decide) }

theorem loadEnds_good (f : Bool) (s : State) : Good true false s (loadEnds f s) := by
  unfold loadEnds
  split
  · exact Good.refl s
  · next b hb =>
    have hop : b.op = .load := by
      unfold State.inHand at hb
      split at hb
      · exact absurd hb (by simp)
      · split at hb
        · next hc =>
          simp only [Option.some.injEq] at hb
          subst hb
          rcases hc.2 with e | e
          · exact absurd e (by simp)
          · exact (Option.some.inj e).symm
        · exact absurd hb (by simp)
    exact finishLoad_good (fun hs => hs b (inHand_busy hb) hop) f

/-! ### Every command, every step -/

/-- A command keeps what the part holds, or leaves every volatile block at its reset value. -/
theorem exec_cases {c : Instr} {s s' : State} (e : exec c s = .next s') :
    Good true false s s' ∨ (Fresh s' ∧ (StoreOk s.store → StoreOk s'.store)) := by
  by_cases hc : runsOn c = true
  · left
    have := exec_good hc e
    exact { this with counter := fun e => absurd e (by decide) }
  · cases c <;> first | exact absurd rfl hc | skip
    · right
      simp only [exec, execPowerOn] at e
      cases e
      refine ⟨volatileReset_fresh _ _ _ _, fun h => ?_⟩
      show StoreOk (if s.powered = true then cutPower s else s).store
      split
      · exact cutStore_ok h _ _
      · exact h
    · simp only [exec, execReset] at e
      cases e
      unfold State.ifPowered
      split
      · simp only
        split
        · right; exact ⟨volatileReset_fresh _ _ _ _, id⟩
        · left; exact Good.refl s
      · left; exact Good.refl s
    · rename_i f
      left
      simp only [exec, execStoreLoadEnd] at e
      cases e
      exact ifPowered_good (loadEnds_good f) s
    · simp only [exec, execLossOfPower] at e
      cases e
      unfold State.ifPowered
      split
      · right; exact ⟨cutPower_fresh s, fun h => cutStore_ok h _ _⟩
      · left; exact Good.refl s

/-- The same of a step, but for the timebase. -/
theorem step_cases {s s' : State} (e : step s = .next s') :
    (∃ m x l, s' = m.setTimebase x ∧ Good true false (s.setPending l) m) ∨ (Fresh s' ∧ (StoreOk s.store → StoreOk s'.store)) := by
  unfold step at e
  split at e
  · cases e
    left
    unfold idle State.ifPowered
    split
    · exact ⟨s, _, s.pending, rfl, Good.refl s⟩
    · exact ⟨s, s.timebase, s.pending, rfl, Good.refl s⟩
  · next c rest hp =>
    rcases exec_cases e with h | h
    · exact Or.inl ⟨s', s'.timebase, rest, rfl, h⟩
    · exact Or.inr h

end Sys2Proof.Machine
end

