-- ==== Sys2Proof/Laws/Measurements.lean ====
section
/-! SUPPORT. Sets of qualifiers, and what decides the status of a measurement. -/

namespace Sys2Proof.Machine

/-! ### Sets of qualifiers -/

theorem hasQual_or (a b : QualSet) (q : Qual) : hasQual (a ||| b) q = (hasQual a q || hasQual b q) := by
  simp [hasQual]

theorem hasQual_when (q r : Qual) (b : Bool) : hasQual (qualWhen q b) r = (b && decide (q = r)) := by
  cases b <;> cases q <;> cases r <;> decide

theorem hasQual_set (q r : Qual) : hasQual (qualSet q) r = decide (q = r) := by
  cases q <;> cases r <;> decide

theorem hasQual_none (q : Qual) : hasQual 0 q = false := by
  cases q <;> decide

/-- A union holds what one of its sets holds. -/
theorem hasQual_union (q : Qual) : ∀ l : List QualSet, hasQual (unionQuals l) q = true ↔ ∃ a ∈ l, hasQual a q = true
  | [] => by
    have := hasQual_none q
    simpa [unionQuals] using this
  | a :: l => by simp [unionQuals, hasQual_or, hasQual_union q l]

/-! ### The status of a measurement (R63) -/

theorem poisons_iff (m : MeuPlatform) (w : Window) :
    m.poisons w = true ↔ ∃ o t, m.poison = some o ∧ w.last = some t ∧ o ≤ t := by
  unfold MeuPlatform.poisons
  cases m.poison <;> cases w.last <;> simp

theorem outFrom_iff (m : MeuPlatform) (t : Nat) : m.outFrom t = true ↔ ∃ u, m.latestOut = some u ∧ t ≤ u := by
  unfold MeuPlatform.outFrom
  cases m.latestOut <;> simp

end Sys2Proof.Machine
end

