-- ==== Sys2Proof/WellFormed.lean ====
section
/-! DEFINITION. Which commands can be put to the part: every operand fits the field the wire gives it
(R197, R198), a time fits the 48-bit timebase, a sampling instant stands at a multiple of 10 ticks (R14) and a
reading is a raw count (R14). A value that fits its field but lies outside the range its rule gives is well
formed: the request is taken and refused with BAD_VALUE. -/

namespace Sys2Proof

/-- Fits an unsigned field of `n` bytes. -/
def fitsBytes (n v : Nat) : Bool := decide (v < 256 ^ n)

/-- Fits a 4-byte two's complement field. -/
def fitsSigned32 (v : Int) : Bool := decide (-2147483648 ≤ v ∧ v ≤ 2147483647)

/-- An optional unsigned field of `n` bytes. -/
def fitsOption (n : Nat) : Option Nat → Bool
  | none => true
  | some v => fitsBytes n v

/-- A value of the 48-bit timebase (00, section 4.2). -/
def wfTime (t : Nat) : Bool := fitsBytes 6 t

/-- The readings of one instant: eight raw counts (R14). -/
def Readings.wf (r : Readings) : Bool :=
  channels.all fun c => decide (-8388608 ≤ r.raw.get c ∧ r.raw.get c ≤ 8388607)

/-- The time and the readings of a sampling instant (R14). -/
def wfInstant (t : Nat) (r : Readings) : Bool := wfTime t && decide (t % 10 = 0) && r.wf

/-- A record reference in its 7 bytes (R197). -/
def RecordRef.wf (r : RecordRef) : Bool := fitsBytes 1 r.selector && fitsBytes 4 r.passage && fitsBytes 2 r.index

/-- The settings block in its 20 bytes (R203). -/
def Settings.wf (b : Settings) : Bool :=
  fitsBytes 1 b.triggerCount && fitsBytes 2 b.triggerIdle && fitsBytes 2 b.closeTimeout && fitsBytes 2 b.highWater &&
    fitsBytes 2 b.lowWater && fitsBytes 2 b.sideLimit && fitsBytes 2 b.endLimit && fitsBytes 2 b.unevenLimit &&
    fitsBytes 2 b.bogieMax

/-- The values of REG_CHANGE in their widths (R206). -/
def RegValues.wf (v : RegValues) : Bool :=
  fitsOption 1 v.cls && fitsOption 4 v.tare && fitsOption 4 v.maxGross &&
    (match v.lastGross with | none => true | some g => fitsSigned32 g) &&
    fitsOption 4 v.lastPassage && fitsOption 2 v.weighCount

/-- A whole class record in its fields; the frame holds at most 240 DATA bytes, so at most 111 spacings (R198). -/
def ClassFields.wf (c : ClassFields) : Bool :=
  fitsBytes 1 c.code && fitsBytes 1 c.kind && fitsBytes 1 c.n && decide (c.spacings.length ≤ 111) &&
    c.spacings.all (fitsBytes 2) && fitsBytes 2 c.tolerance && fitsBytes 2 c.gapMin && fitsBytes 2 c.gapMax &&
    fitsBytes 4 c.maxGross && fitsBytes 4 c.maxAxle

/-- A speed band table in a CAL_STAGE request: at most 39 entries fit 240 DATA bytes (R198). -/
def wfBands (l : List Band) : Bool :=
  decide (l.length ≤ 39) && l.all fun b => fitsBytes 2 b.upper && fitsSigned32 b.k

/-- The command can be put to the part. -/
def Instr.wf : Instr → Bool
  | .powerOn => true
  | .reset => true
  | .storeLoadEnd _ => true
  | .headEvent t _ _ => wfTime t
  | .closeTimeout => true
  | .samplingInstant t r => wfInstant t r
  | .settlingComplete t _ r => wfInstant t r
  | .overrangeFault t _ r => wfInstant t r
  | .acquisitionEnd t _ r => wfInstant t r
  | .trackingBlock t _ r => wfInstant t r
  | .calswChange t _ => wfTime t
  | .calibrationCommitEnd _ => true
  | .reservationWriteEnd _ => true
  | .registerCommitItem _ => true
  | .registerCommitEnd _ => true
  | .passageNumberEnd _ => true
  | .triggerIdleExpiry => true
  | .byteReceived t _ _ => wfTime t
  | .gapTimeout => true
  | .linkBreak t => wfTime t
  | .replySent t => wfTime t
  | .identify t _ => wfTime t
  | .capabilities t _ => wfTime t
  | .status t _ => wfTime t
  | .time t _ => wfTime t
  | .settingsRead t _ => wfTime t
  | .settingsWrite t _ _ b => wfTime t && b.wf
  | .exchangeAttention t _ _ => wfTime t
  | .exchangeFault t _ => wfTime t
  | .restart t _ => wfTime t
  | .chanRead t _ c => wfTime t && fitsBytes 1 c
  | .chanEnable t _ c => wfTime t && fitsBytes 1 c
  | .chanDisable t _ c => wfTime t && fitsBytes 1 c
  | .calRead t _ c => wfTime t && fitsBytes 1 c
  | .calStage t _ f c v l => wfTime t && fitsBytes 1 f && fitsBytes 1 c && fitsSigned32 v && wfBands l
  | .calCommit t _ => wfTime t
  | .calDiscard t _ => wfTime t
  | .calCounter t _ => wfTime t
  | .zeroAcquire t _ p => wfTime t && fitsBytes 1 p
  | .zeroCancel t _ p => wfTime t && fitsBytes 1 p
  | .zeroState t _ p => wfTime t && fitsBytes 1 p
  | .passageRead t _ n => wfTime t && fitsBytes 4 n
  | .passageList t _ => wfTime t
  | .recordRead t _ r => wfTime t && r.wf
  | .expect t _ n p f c => wfTime t && fitsBytes 4 n && fitsBytes 2 p && fitsOption 6 f && fitsOption 1 c
  | .assign t _ r f => wfTime t && r.wf && fitsBytes 6 f
  | .retireRecord t _ r => wfTime t && r.wf
  | .retirePassage t _ n => wfTime t && fitsBytes 4 n
  | .passClose t _ n => wfTime t && fitsBytes 4 n
  | .regAdd t _ f c ta m _ => wfTime t && fitsBytes 6 f && fitsOption 1 c && fitsOption 4 ta && fitsOption 4 m
  | .regRead t _ f => wfTime t && fitsBytes 6 f
  | .regChange t _ f _ v => wfTime t && fitsBytes 6 f && v.wf
  | .regFlagsAnd t _ f _ => wfTime t && fitsBytes 6 f
  | .regFlagsOr t _ f _ => wfTime t && fitsBytes 6 f
  | .regFlagsXor t _ f _ => wfTime t && fitsBytes 6 f
  | .regRetire t _ f => wfTime t && fitsBytes 6 f
  | .regNext t _ f => wfTime t && fitsBytes 6 f
  | .regCount t _ => wfTime t
  | .regCommit t _ => wfTime t
  | .classDefine t _ c => wfTime t && c.wf
  | .classRead t _ c => wfTime t && fitsBytes 1 c
  | .classRemove t _ c => wfTime t && fitsBytes 1 c
  | .lossOfPower => true
  | .calibrationImageWriteEnd _ => true

end Sys2Proof
end

