-- ==== Sys2Proof/Laws/PerInstr.lean ====
section
/-! SUPPORT. One lemma for each command about its operands: what a well-formed one carries, and which requests are served
in every condition. -/

namespace Sys2Proof.Laws.Operands

/-- A well-formed request is taken at a time of 48 bits; a request served in every condition is one of SYS (R195, R202). -/
def Statement (i : Instr) : Prop :=
  (∀ t g k, i.request? = some (t, g, k) → i.wf = true → t < 281474976710656) ∧
    (i.servedAlways = true → ∃ t g, i.request? = some (t, g, Target.sys))

/-- A time that fits six bytes. -/
theorem time_lt {t : Nat} (h : wfTime t = true) : t < 281474976710656 := by
  simpa [wfTime, fitsBytes] using h

/-- A command that is no request. -/
theorem ofEvent {i : Instr} (h : i.request? = none) (k : i.servedAlways = false) : Statement i :=
  ⟨fun _ _ _ e => absurd (h.symm.trans e) (fun x => nomatch x), fun e => absurd (k.symm.trans e) (fun x => nomatch x)⟩

/-- A request. -/
theorem ofRequest {i : Instr} {t : Nat} {g : Byte} {k : Target} (h : i.request? = some (t, g, k))
    (w : i.wf = true → wfTime t = true) (a : i.servedAlways = true → k = .sys) : Statement i :=
  ⟨fun t' g' k' e f => by
    rw [h] at e
    cases e
    exact time_lt (w f), fun e => ⟨t, g, by rw [h, a e]⟩⟩

/-- The first of two checks. -/
theorem fst {a b : Bool} (h : (a && b) = true) : a = true := (Bool.and_eq_true _ _ |>.mp h).1

theorem powerOn : Statement (.powerOn) :=
  ofEvent rfl rfl

theorem reset : Statement (.reset) :=
  ofEvent rfl rfl

theorem storeLoadEnd (calInvalidFirst : Bool) : Statement (.storeLoadEnd calInvalidFirst) :=
  ofEvent rfl rfl

theorem headEvent (t : Nat) (station : Station) (head : Head) : Statement (.headEvent t station head) :=
  ofEvent rfl rfl

theorem closeTimeout : Statement (.closeTimeout) :=
  ofEvent rfl rfl

theorem samplingInstant (t : Nat) (r : Readings) : Statement (.samplingInstant t r) :=
  ofEvent rfl rfl

theorem settlingComplete (t : Nat) (c : Fin 8) (r : Readings) : Statement (.settlingComplete t c r) :=
  ofEvent rfl rfl

theorem overrangeFault (t : Nat) (c : Fin 8) (r : Readings) : Statement (.overrangeFault t c r) :=
  ofEvent rfl rfl

theorem acquisitionEnd (t : Nat) (p : Platform) (r : Readings) : Statement (.acquisitionEnd t p r) :=
  ofEvent rfl rfl

theorem trackingBlock (t : Nat) (p : Platform) (r : Readings) : Statement (.trackingBlock t p r) :=
  ofEvent rfl rfl

theorem calswChange (t : Nat) (pos : SwitchPos) : Statement (.calswChange t pos) :=
  ofEvent rfl rfl

theorem calibrationCommitEnd (verified : Bool) : Statement (.calibrationCommitEnd verified) :=
  ofEvent rfl rfl

theorem reservationWriteEnd (verified : Bool) : Statement (.reservationWriteEnd verified) :=
  ofEvent rfl rfl

theorem registerCommitItem (verified : Bool) : Statement (.registerCommitItem verified) :=
  ofEvent rfl rfl

theorem registerCommitEnd (verified : Bool) : Statement (.registerCommitEnd verified) :=
  ofEvent rfl rfl

theorem passageNumberEnd (verified : Bool) : Statement (.passageNumberEnd verified) :=
  ofEvent rfl rfl

theorem triggerIdleExpiry : Statement (.triggerIdleExpiry) :=
  ofEvent rfl rfl

theorem byteReceived (t : Nat) (byte : Byte) (framingError : Bool) : Statement (.byteReceived t byte framingError) :=
  ofEvent rfl rfl

theorem gapTimeout : Statement (.gapTimeout) :=
  ofEvent rfl rfl

theorem linkBreak (t : Nat) : Statement (.linkBreak t) :=
  ofEvent rfl rfl

theorem replySent (t : Nat) : Statement (.replySent t) :=
  ofEvent rfl rfl

theorem identify (t : Nat) (tag : Byte) :
    Statement (.identify t tag) :=
  ofRequest rfl (fun h => h) (fun _ => rfl)

theorem capabilities (t : Nat) (tag : Byte) :
    Statement (.capabilities t tag) :=
  ofRequest rfl (fun h => h) (fun h => by cases h)

theorem status (t : Nat) (tag : Byte) :
    Statement (.status t tag) :=
  ofRequest rfl (fun h => h) (fun _ => rfl)

theorem time (t : Nat) (tag : Byte) :
    Statement (.time t tag) :=
  ofRequest rfl (fun h => h) (fun _ => rfl)

theorem settingsRead (t : Nat) (tag : Byte) :
    Statement (.settingsRead t tag) :=
  ofRequest rfl (fun h => h) (fun h => by cases h)

theorem settingsWrite (t : Nat) (tag : Byte) (mask : BitVec 16) (block : Settings) :
    Statement (.settingsWrite t tag mask block) :=
  ofRequest rfl (fun h => fst h) (fun h => by cases h)

theorem exchangeAttention (t : Nat) (tag : Byte) (mask : Byte) :
    Statement (.exchangeAttention t tag mask) :=
  ofRequest rfl (fun h => h) (fun h => by cases h)

theorem exchangeFault (t : Nat) (tag : Byte) :
    Statement (.exchangeFault t tag) :=
  ofRequest rfl (fun h => h) (fun h => by cases h)

theorem restart (t : Nat) (tag : Byte) :
    Statement (.restart t tag) :=
  ofRequest rfl (fun h => h) (fun h => by cases h)

theorem chanRead (t : Nat) (tag : Byte) (channel : Nat) :
    Statement (.chanRead t tag channel) :=
  ofRequest rfl (fun h => fst h) (fun h => by cases h)

theorem chanEnable (t : Nat) (tag : Byte) (channel : Nat) :
    Statement (.chanEnable t tag channel) :=
  ofRequest rfl (fun h => fst h) (fun h => by cases h)

theorem chanDisable (t : Nat) (tag : Byte) (channel : Nat) :
    Statement (.chanDisable t tag channel) :=
  ofRequest rfl (fun h => fst h) (fun h => by cases h)

theorem calRead (t : Nat) (tag : Byte) (copy : Nat) :
    Statement (.calRead t tag copy) :=
  ofRequest rfl (fun h => fst h) (fun h => by cases h)

theorem calStage (t : Nat) (tag : Byte) (field : Nat) (channel : Nat) (value : Int) (bands : List Band) :
    Statement (.calStage t tag field channel value bands) :=
  ofRequest rfl (fun h => fst (fst (fst (fst h)))) (fun h => by cases h)

theorem calCommit (t : Nat) (tag : Byte) :
    Statement (.calCommit t tag) :=
  ofRequest rfl (fun h => h) (fun h => by cases h)

theorem calDiscard (t : Nat) (tag : Byte) :
    Statement (.calDiscard t tag) :=
  ofRequest rfl (fun h => h) (fun h => by cases h)

theorem calCounter (t : Nat) (tag : Byte) :
    Statement (.calCounter t tag) :=
  ofRequest rfl (fun h => h) (fun h => by cases h)

theorem zeroAcquire (t : Nat) (tag : Byte) (platform : Nat) :
    Statement (.zeroAcquire t tag platform) :=
  ofRequest rfl (fun h => fst h) (fun h => by cases h)

theorem zeroCancel (t : Nat) (tag : Byte) (platform : Nat) :
    Statement (.zeroCancel t tag platform) :=
  ofRequest rfl (fun h => fst h) (fun h => by cases h)

theorem zeroState (t : Nat) (tag : Byte) (platform : Nat) :
    Statement (.zeroState t tag platform) :=
  ofRequest rfl (fun h => fst h) (fun h => by cases h)

theorem passageRead (t : Nat) (tag : Byte) (passage : Nat) :
    Statement (.passageRead t tag passage) :=
  ofRequest rfl (fun h => fst h) (fun h => by cases h)

theorem passageList (t : Nat) (tag : Byte) :
    Statement (.passageList t tag) :=
  ofRequest rfl (fun h => h) (fun h => by cases h)

theorem recordRead (t : Nat) (tag : Byte) (ref : RecordRef) :
    Statement (.recordRead t tag ref) :=
  ofRequest rfl (fun h => fst h) (fun h => by cases h)

theorem expect (t : Nat) (tag : Byte) (passage : Nat) (position : Nat) (fleet : Option Nat) (cls : Option Nat) :
    Statement (.expect t tag passage position fleet cls) :=
  ofRequest rfl (fun h => fst (fst (fst (fst h)))) (fun h => by cases h)

theorem assign (t : Nat) (tag : Byte) (ref : RecordRef) (fleet : Nat) :
    Statement (.assign t tag ref fleet) :=
  ofRequest rfl (fun h => fst (fst h)) (fun h => by cases h)

theorem retireRecord (t : Nat) (tag : Byte) (ref : RecordRef) :
    Statement (.retireRecord t tag ref) :=
  ofRequest rfl (fun h => fst h) (fun h => by cases h)

theorem retirePassage (t : Nat) (tag : Byte) (passage : Nat) :
    Statement (.retirePassage t tag passage) :=
  ofRequest rfl (fun h => fst h) (fun h => by cases h)

theorem passClose (t : Nat) (tag : Byte) (passage : Nat) :
    Statement (.passClose t tag passage) :=
  ofRequest rfl (fun h => fst h) (fun h => by cases h)

theorem regAdd (t : Nat) (tag : Byte) (fleet : Nat) (cls : Option Nat) (tare : Option Nat) (maxGross : Option Nat) (flags : Byte) :
    Statement (.regAdd t tag fleet cls tare maxGross flags) :=
  ofRequest rfl (fun h => fst (fst (fst (fst h)))) (fun h => by cases h)

theorem regRead (t : Nat) (tag : Byte) (fleet : Nat) :
    Statement (.regRead t tag fleet) :=
  ofRequest rfl (fun h => fst h) (fun h => by cases h)

theorem regChange (t : Nat) (tag : Byte) (fleet : Nat) (mask : Byte) (values : RegValues) :
    Statement (.regChange t tag fleet mask values) :=
  ofRequest rfl (fun h => fst (fst h)) (fun h => by cases h)

theorem regFlagsAnd (t : Nat) (tag : Byte) (fleet : Nat) (mask : Byte) :
    Statement (.regFlagsAnd t tag fleet mask) :=
  ofRequest rfl (fun h => fst h) (fun h => by cases h)

theorem regFlagsOr (t : Nat) (tag : Byte) (fleet : Nat) (mask : Byte) :
    Statement (.regFlagsOr t tag fleet mask) :=
  ofRequest rfl (fun h => fst h) (fun h => by cases h)

theorem regFlagsXor (t : Nat) (tag : Byte) (fleet : Nat) (mask : Byte) :
    Statement (.regFlagsXor t tag fleet mask) :=
  ofRequest rfl (fun h => fst h) (fun h => by cases h)

theorem regRetire (t : Nat) (tag : Byte) (fleet : Nat) :
    Statement (.regRetire t tag fleet) :=
  ofRequest rfl (fun h => fst h) (fun h => by cases h)

theorem regNext (t : Nat) (tag : Byte) (fleet : Nat) :
    Statement (.regNext t tag fleet) :=
  ofRequest rfl (fun h => fst h) (fun h => by cases h)

theorem regCount (t : Nat) (tag : Byte) :
    Statement (.regCount t tag) :=
  ofRequest rfl (fun h => h) (fun h => by cases h)

theorem regCommit (t : Nat) (tag : Byte) :
    Statement (.regCommit t tag) :=
  ofRequest rfl (fun h => h) (fun h => by cases h)

theorem classDefine (t : Nat) (tag : Byte) (fields : ClassFields) :
    Statement (.classDefine t tag fields) :=
  ofRequest rfl (fun h => fst h) (fun h => by cases h)

theorem classRead (t : Nat) (tag : Byte) (code : Nat) :
    Statement (.classRead t tag code) :=
  ofRequest rfl (fun h => fst h) (fun h => by cases h)

theorem classRemove (t : Nat) (tag : Byte) (code : Nat) :
    Statement (.classRemove t tag code) :=
  ofRequest rfl (fun h => fst h) (fun h => by cases h)

theorem lossOfPower : Statement (.lossOfPower) :=
  ofEvent rfl rfl

theorem calibrationImageWriteEnd (verified : Bool) : Statement (.calibrationImageWriteEnd verified) :=
  ofEvent rfl rfl

end Sys2Proof.Laws.Operands
end

