-- ==== Sys2Proof/Laws/Replies.lean ====
section
/-! SUPPORT. The lengths of the fields and of the bodies that replies carry (R197, R201 to R206). -/

namespace Sys2Proof.Machine

set_option Elab.async false

/-! ### Fields -/

@[simp] theorem length_be : ∀ n v : Nat, (be n v).length = n
  | 0, _ => rfl
  | n + 1, v => by simp [be, length_be n]
@[simp] theorem length_be32s (v : Int) : (be32s v).length = 4 := length_be 4 _
@[simp] theorem length_beOpt (n : Nat) (v : Option Nat) : (beOpt n v).length = n := length_be n _
@[simp] theorem length_bePassage (v : Option Nat) : (bePassage v).length = 4 := length_be 4 _
@[simp] theorem length_beWeight (v : Option Int) : (beWeight v).length = 4 := by cases v <;> simp [beWeight]
@[simp] theorem length_beWeightNat (v : Option Nat) : (beWeightNat v).length = 4 := length_be 4 _
@[simp] theorem length_mark (b : Bool) : (mark b).length = 1 := length_be 1 _
@[simp] theorem length_beSet {w : Nat} (n : Nat) (x : BitVec w) : (beSet n x).length = n := length_be n _

/-- A list of bodies of one length. -/
theorem length_flatMap_const {α : Type} {f : α → List Byte} {n : Nat} (h : ∀ a, (f a).length = n) :
    ∀ l : List α, (l.flatMap f).length = n * l.length
  | [] => by simp
  | a :: l => by
    rw [List.flatMap_cons, List.length_append, length_flatMap_const h l, h, List.length_cons, Nat.mul_succ, Nat.add_comm]

/-! ### Bodies -/

@[simp] theorem length_totalsBody (t : Option Totals) : (totalsBody t).length = 12 := by
  cases t <;> simp [totalsBody]
@[simp] theorem length_regBody (r : RegRec) : (regBody r).length = 29 := by simp [regBody]
@[simp] theorem length_dirBody (e : DirEntry) : (dirBody e).length = 46 := by simp [dirBody]
@[simp] theorem length_lineBody (a : AxleLine) : (lineBody a).length = 18 := by simp [lineBody]
theorem length_lines (l : List AxleLine) : (l.flatMap lineBody).length = 18 * l.length :=
  length_flatMap_const length_lineBody l
theorem length_wagonHead (k : Nat) (w : Wagon) : (wagonBody k w).length = 80 + (w.axles.flatMap lineBody).length := by
  unfold wagonBody
  simp only [List.length_append, length_be, length_beOpt, length_bePassage, length_beWeight, length_beWeightNat,
    length_beSet]
@[simp] theorem length_wagonBody (k : Nat) (w : Wagon) : (wagonBody k w).length = 80 + 18 * w.axles.length := by
  rw [length_wagonHead, length_lines]
@[simp] theorem length_passageListData (s : State) : (passageListData s).length = 5 + 5 * s.ptb.directory.length := by
  simp only [passageListData, List.length_append, length_be]
  rw [length_flatMap_const (n := 5) (fun e => by simp), length_sortBy]
  omega
@[simp] theorem length_channelData (s : State) (c : Fin 8) : (channelData s c).length = 24 := by simp [channelData]
@[simp] theorem length_counterData (s : State) : (counterData s).length = 6 := by simp [counterData]
@[simp] theorem length_classData (k : Nat) (c : ClassRec) : (classData k c).length = 18 + 2 * c.spacings.length := by
  simp only [classData, List.length_append, length_be]
  rw [length_flatMap_const (n := 2) (fun e => by simp)]
  omega
@[simp] theorem length_regCountData (s : State) : (regCountData s).length = 13 := by simp [regCountData]
@[simp] theorem length_detailData (d : Option FaultDetail) : (detailData d).length = 4 := by
  cases d with
  | none => simp [detailData]
  | some d => cases d <;> simp [detailData]
@[simp] theorem length_occData (o : Option FaultOcc) : (occData o).length = 17 := by cases o <;> simp [occData]
@[simp] theorem length_stationData (r : StationRec) : (stationData r).length = 25 := by
  simp [stationData, pendingData, latestData]
@[simp] theorem length_trackerData (s : State) : (trackerData s).length = 38 := by simp [trackerData]
@[simp] theorem length_segData (s : State) : (segData s).length = 8 := by simp [segData]
@[simp] theorem length_fauData (s : State) : (fauData s).length = 12 := by simp [fauData]
@[simp] theorem length_statsData (x : LinkStats) : (statsData x).length = 18 := by simp [statsData]
@[simp] theorem length_statusData (s : State) : (statusData s).length = 162 := by simp [statusData]
@[simp] theorem length_settingsData (x : Settings) : (settingsData x).length = 20 := by simp [settingsData]

/-- EXCHANGE_FAULT carries 34 bytes when there are fourteen counts (R182). -/
theorem length_exchangeFaultData {s : State} (h : s.fau.counts.length = 14) : (exchangeFaultData s).length = 34 := by
  simp only [exchangeFaultData, List.length_append, length_occData, length_beOpt, length_beSet]
  rw [length_flatMap_const (n := 1) (fun e => by simp), h]

end Sys2Proof.Machine
end

