-- ==== Sys2Proof/Laws/Samples.lean ====
section
/-! SUPPORT. What a sampling instant leaves of the LCU, the MEU and the ZCL, and what a re-evaluation of the platforms
decides. -/

namespace Sys2Proof.Machine

set_option Elab.async false

/-! ### Platform service (R19) -/

/-- After the re-evaluation of two platforms the service state of each is what its conditions say, its sense stands. -/
theorem evalTwo_service (t : Nat) (p : Platform) {f g : Platform} (h : g ≠ f) (s : State) :
    ((evalPlatform t g (evalPlatform t f s)).lcu.platforms.get p).service =
        (if (serviceConditions s p).all id then .inService else .out) ∧
      ((evalPlatform t g (evalPlatform t f s)).lcu.platforms.get p).sense = (s.lcu.platforms.get p).sense := by
  rw [evalPlatform_lcu, serviceConditions_evalPlatform t h, evalPlatform_lcu]
  cases p <;> cases f <;> cases g <;> first | exact absurd rfl h | exact ⟨rfl, rfl⟩

/-- After a re-evaluation the service state of each platform is what its conditions say (R19), its sense stands. -/
theorem evalPlatforms_service (t : Nat) (p : Platform) (s : State) :
    ((evalPlatforms t s).lcu.platforms.get p).service = (if (serviceConditions s p).all id then .inService else .out) ∧
      ((evalPlatforms t s).lcu.platforms.get p).sense = (s.lcu.platforms.get p).sense := by
  rw [evalPlatforms_eq]
  refine evalTwo_service t p ?_ s
  rcases platformsInOrder_cases s with h | h <;> simp [h]

/-! ### The LCU's part of an instant (R14 to R19) -/

/-- The LCU after an instant: every channel advanced, the senses as read, the instant noted, and each platform's service
as its conditions then say (R14 to R19). -/
theorem lcuInstant_lcu (t : Nat) (r : Readings) (s : State) :
    (∀ c, (lcuInstant t r s).lcu.channels.get c =
      (s.lcu.channels.get c).step t (r.raw.get c) (r.sense.get (platformOfChannel c))) ∧
    (lcuInstant t r s).lcu.lastInstant = some t ∧
    (∀ p, ((lcuInstant t r s).lcu.platforms.get p).sense = r.sense.get p) ∧
    (∀ p, ((lcuInstant t r s).lcu.platforms.get p).service =
      (if (serviceConditions (lcuInstant t r s) p).all id then .inService else .out)) := by
  obtain ⟨h1, h2, h3⟩ := advanceAll_lcu t r channels (takeSenses t r.sense s) (by decide)
  unfold lcuInstant
  rw [← advanceChannels_lcu] at h1 h2 h3
  generalize advanceChannels t r (takeSenses t r.sense s) = m at h1 h2 h3 ⊢
  obtain ⟨x, y, z, n, he, k1, k2, _⟩ := evalPlatforms_evaluated t m
  have hsv := fun p => evalPlatforms_service t p m
  have hcal : (evalPlatforms t m).cal = m.cal := by rw [he]
  have hch : (evalPlatforms t m).lcu.channels = m.lcu.channels := by rw [he]; exact k1
  have hli : (evalPlatforms t m).lcu.lastInstant = m.lcu.lastInstant := by rw [he]; exact k2
  refine ⟨fun c => ?_, hli.trans h2, fun p => ?_, fun p => ?_⟩
  · rw [hch, h3 c, if_pos (mem_channels c)]
    rfl
  · rw [(hsv p).2, h1]
    cases p <;> rfl
  · rw [serviceConditions_congr p hch (hsv p).2 (by rw [hcal])]
    exact (hsv p).1

/-- What differs in the LCU, the PTB, the FAU and the counter of free values only. -/
def LcuTook (s s' : State) : Prop :=
  s' = { s with lcu := s'.lcu, ptb := s'.ptb, fau := s'.fau, freeCount := s'.freeCount }

theorem LcuTook.trans {s m s' : State} (h : LcuTook s m) (k : LcuTook m s') : LcuTook s s' := by
  obtain ⟨x, y, z, n, h⟩ : ∃ x y z n, m = { s with lcu := x, ptb := y, fau := z, freeCount := n } := ⟨_, _, _, _, h⟩
  subst h
  exact k

/-- The LCU's part of an instant changes the LCU, the PTB, the FAU and the counter of free values only. -/
theorem lcuInstant_took (t : Nat) (r : Readings) (s : State) : LcuTook s (lcuInstant t r s) := by
  have h := advanceAll_frame t r (channelOrder t r (takeSenses t r.sense s)) (takeSenses t r.sense s)
  rw [← advanceChannels_eq] at h
  unfold lcuInstant
  generalize advanceChannels t r (takeSenses t r.sense s) = m at h ⊢
  have h : LcuTook s m := LcuTook.trans (m := takeSenses t r.sense s) rfl (by rw [h]; rfl)
  obtain ⟨x, y, z, n, he, _⟩ := evalPlatforms_evaluated t m
  refine h.trans ?_
  rw [he]
  exact rfl

/-- What the LCU's part of an instant leaves of the other blocks. -/
theorem LcuTook.blocks {s s' : State} (h : LcuTook s s') : s'.meu = s.meu ∧ s'.zcl = s.zcl ∧ s'.cal = s.cal ∧
    s'.axt = s.axt ∧ s'.wsu = s.wsu ∧ s'.settings = s.settings ∧ s'.condition = s.condition ∧ s'.timebase = s.timebase := by
  rw [h]
  exact ⟨rfl, rfl, rfl, rfl, rfl, rfl, rfl, rfl⟩

/-! ### The MEU's part of an instant (R18, R53) -/

/-- A notice of an axle changes the PTB and the FAU only. -/
theorem noticeAxle_eq (t i : Nat) (s : State) : noticeAxle t i s = (s.setPtb (noticeAxle t i s).ptb).setFau (noticeAxle t i s).fau := by
  unfold noticeAxle
  split
  · rfl
  · split
    · rfl
    · unfold noticeRecord
      simp only
      split
      · split
        · unfold complete
          simp only
          rw [reportCompletion_eq]
          rfl
        · rfl
      · split <;> rfl
      · rfl

/-- What the notices of channel faults leave: the LCU, the ZCL, the calibration, and of the MEU the histories. -/
structure Noticed (s s' : State) : Prop where
  lcu : s'.lcu = s.lcu := by rfl
  zcl : s'.zcl = s.zcl := by rfl
  cal : s'.cal = s.cal := by rfl
  wsu : s'.wsu = s.wsu := by rfl
  passage : s'.axt.passage = s.axt.passage := by rfl
  history : ∀ p, (s'.meu.get p).history = (s.meu.get p).history := by exact fun _ => rfl
  latestOut : ∀ p, (s'.meu.get p).latestOut = (s.meu.get p).latestOut := by exact fun _ => rfl

theorem Noticed.trans {s m s' : State} (h : Noticed s m) (k : Noticed m s') : Noticed s s' where
  lcu := k.lcu.trans h.lcu
  zcl := k.zcl.trans h.zcl
  cal := k.cal.trans h.cal
  wsu := k.wsu.trans h.wsu
  passage := k.passage.trans h.passage
  history p := (k.history p).trans (h.history p)
  latestOut p := (k.latestOut p).trans (h.latestOut p)

theorem Noticed.foldl {α : Type} {f : State → α → State} (h : ∀ s a, Noticed s (f s a)) (l : List α) :
    ∀ s, Noticed s (l.foldl f s) := by
  induction l with
  | nil => exact fun _ => {}
  | cons a l ih => exact fun s => (h s a).trans (ih _)

theorem recombine_noticed (i : Nat) (s : State) : Noticed s (recombine i s) := by
  unfold recombine
  split
  · exact {}
  · split
    · simp only
      split
      · exact {}
      · generalize hm : updAxle i _ s = m
        have h : Noticed s m := by rw [← hm]; exact {}
        refine h.trans ?_
        rw [noticeAxle_eq]
        exact {}
    · exact {}

theorem meuNotice_noticed (p : Platform) (t : Nat) (s : State) : Noticed s (meuNotice p t s) := by
  have hu : ∀ o : Option Nat, Noticed s (updMeu p (fun m => { m with poison := o }) s) := by
    intro o
    refine { history := fun q => ?_, latestOut := fun q => ?_ } <;> cases p <;> cases q <;> rfl
  unfold meuNotice
  split
  · simp only
    refine (hu (some (earlierOnset (s.meu.get p).poison t))).trans ?_
    unfold poisonTrain
    refine Noticed.trans (m := State.setAxt _ _) ?_ (Noticed.foldl (fun s i => recombine_noticed i s) _ _)
    exact {}
  · exact {}

theorem noticeFaults_noticed (old : PerChannel Channel) (s : State) : Noticed s (noticeFaults old s) := by
  refine Noticed.foldl (fun s c => ?_) _ _
  simp only
  split
  · exact meuNotice_noticed _ _ _
  · exact {}

/-! ### The ZCL's part of an instant (R96 to R103) -/

/-- What the ZCL's taking of an instant for one platform leaves: every block but the ZCL and the FAU, the other platform's
ZCL state, and the zeros of the other platform's channels. -/
structure ZclTook (p : Platform) (s s' : State) : Prop where
  eq : s' = (s.setZcl s'.zcl).setFau s'.fau
  other : ∀ q, q ≠ p → s'.zcl.platforms.get q = s.zcl.platforms.get q
  zeros : ∀ c, platformOfChannel c ≠ p → s'.zcl.zeros.get c = s.zcl.zeros.get c

theorem ZclTook.refl (p : Platform) (s : State) : ZclTook p s s := ⟨rfl, fun _ _ => rfl, fun _ _ => rfl⟩

theorem ZclTook.trans {p : Platform} {s m s' : State} (h : ZclTook p s m) (k : ZclTook p m s') : ZclTook p s s' := by
  refine ⟨?_, fun q hq => (k.other q hq).trans (h.other q hq), fun c hc => (k.zeros c hc).trans (h.zeros c hc)⟩
  have h1 := h.eq
  have h2 := k.eq
  rw [h1] at h2
  exact h2

theorem ZclTook.upd (p : Platform) (f : ZclPlatform → ZclPlatform) (s : State) : ZclTook p s (updZcl p f s) := by
  refine ⟨rfl, fun q hq => ?_, fun _ _ => rfl⟩
  show (s.zcl.platforms.set p _).get q = _
  rw [PerPlatform.get_set, if_neg hq]

theorem ZclTook.fault (p : Platform) (o : FaultOcc) (s : State) : ZclTook p s (reportFault o s) := by
  rw [reportFault_eq]
  exact ⟨rfl, fun _ _ => rfl, fun _ _ => rfl⟩

theorem get_setChans {f : Fin 8 → Int} {c : Fin 8} : ∀ (l : List (Fin 8)) (x : PerChannel Int), l.Nodup →
    (setChans f l x).get c = if c ∈ l then f c else x.get c
  | [], x, _ => by simp [setChans]
  | d :: l, x, h => by
    obtain ⟨h1, h2⟩ := List.nodup_cons.mp h
    have ih := get_setChans (f := f) (c := c) l (x.set d (f d)) h2
    show (setChans f l (x.set d (f d))).get c = _
    rw [ih, PerChannel.get_set]
    by_cases hc : c = d
    · subst hc; simp [h1]
    · simp [hc]

theorem nodup_fittedOf (s : State) (p : Platform) : (s.fittedOf (channelsOf p)).Nodup :=
  List.Nodup.sublist List.filter_sublist (by cases p <;> decide)

/-- The working zeros of a platform's fitted channels are replaced, and no other. -/
theorem ZclTook.setZeros (p : Platform) (f : Fin 8 → Int) (s : State) :
    ZclTook p s (Machine.setZeros (s.fittedOf (channelsOf p)) f s) := by
  refine ⟨rfl, fun _ _ => rfl, fun c hc => ?_⟩
  show (setChans f _ _).get c = _
  rw [get_setChans _ _ (nodup_fittedOf s p), if_neg]
  intro h
  exact hc (mem_channelsOf.mp (List.mem_filter.mp h).1)

theorem ZclTook.fitted {p : Platform} {s s' : State} (h : ZclTook p s s') (cs : List (Fin 8)) :
    s'.fittedOf cs = s.fittedOf cs := by rw [h.eq]; rfl

theorem endAcquisition_took (p : Platform) (r : AcqResult) (s : State) : ZclTook p s (endAcquisition p r s) := by
  unfold endAcquisition
  exact (ZclTook.upd p (fun z => { z with acq := { z.acq with state := .idle, last := some r } }) s).trans
    ⟨rfl, fun _ _ => rfl, fun _ _ => rfl⟩

theorem endIfInHand_took (p : Platform) (r : AcqResult) (s : State) : ZclTook p s (endIfInHand p r s) := by
  unfold endIfInHand
  split
  · exact .refl p s
  · exact endAcquisition_took p r s

theorem finishAcquisition_took (p : Platform) (s : State) : ZclTook p s (finishAcquisition p s) := by
  unfold finishAcquisition
  simp only
  split
  · exact ((ZclTook.setZeros p _ s).trans (ZclTook.upd p _ _)).trans (endAcquisition_took p _ _)
  · exact endAcquisition_took p _ _

theorem nearZero_took (p : Platform) (b : Block) (s : State) : ZclTook p s (nearZero p b s) := by
  unfold nearZero
  simp only
  have h := ZclTook.upd p (fun x => { x with offZero := 0 }) s
  have hf := h.fitted (channelsOf p)
  generalize updZcl p (fun x => { x with offZero := 0 }) s = m at h hf
  rw [← hf]
  split
  · exact h.trans (ZclTook.fault p _ _)
  · exact h.trans (ZclTook.setZeros p _ _)

theorem offZero_took (p : Platform) (x : Int) (s : State) : ZclTook p s (offZero p x s) := by
  unfold offZero
  simp only
  split
  · exact ((ZclTook.upd p _ s).trans (ZclTook.upd p _ _)).trans (ZclTook.fault p _ _)
  · exact ZclTook.upd p _ s

theorem judgeBlock_took (p : Platform) (s : State) : ZclTook p s (judgeBlock p s) := by
  unfold judgeBlock
  simp only
  have h := ZclTook.upd p (fun x => { x with block := .empty }) s
  split
  · exact h
  · split
    · exact h.trans (nearZero_took p _ _)
    · exact h.trans (offZero_took p _ _)

/-- The ZCL takes an instant for one platform (R96). -/
theorem zclInstant_took (p : Platform) (raw : PerChannel Int) (s : State) : ZclTook p s (zclInstant p raw s) := by
  unfold zclInstant
  simp only
  split
  · exact (ZclTook.upd p _ s).trans (endIfInHand_took p _ _)
  · split
    · refine (ZclTook.upd p _ s : ZclTook p s (discardBlock p s)).trans ?_
      split
      · unfold collectInstant
        simp only
        split
        · exact (ZclTook.upd p _ _).trans (finishAcquisition_took p _)
        · exact ZclTook.upd p _ _
      · exact .refl p _
    · exact ZclTook.upd p _ s
    · split
      · exact ZclTook.upd p _ s
      · split
        · unfold trackInstant
          simp only
          split
          · exact (ZclTook.upd p _ _).trans (judgeBlock_took p _)
          · exact ZclTook.upd p _ _
        · exact .refl p s

/-! ### The whole instant -/

/-- What the ZCL leaves of the other blocks. -/
theorem ZclTook.blocks {p : Platform} {s s' : State} (h : ZclTook p s s') : s'.lcu = s.lcu ∧ s'.meu = s.meu ∧ s'.cal = s.cal ∧
    s'.axt = s.axt ∧ s'.wsu = s.wsu ∧ s'.ptb = s.ptb ∧ s'.settings = s.settings ∧ s'.condition = s.condition ∧
    s'.timebase = s.timebase := by
  rw [h.eq]
  exact ⟨rfl, rfl, rfl, rfl, rfl, rfl, rfl, rfl, rfl⟩

/-- The ZCL takes an instant for the one platform and then for the other. -/
theorem zclPlatforms_order (raw : PerChannel Int) (s : State) : ∃ f g : Platform, g ≠ f ∧
    zclPlatforms raw s = zclInstant g raw (zclInstant f raw s) := by
  unfold zclPlatforms
  split
  · exact ⟨.b, .a, by decide, rfl⟩
  · exact ⟨.a, .b, by decide, rfl⟩

/-- What the ZCL's part of an instant leaves of the LCU and the MEU. -/
theorem zclPlatforms_blocks (raw : PerChannel Int) (s : State) :
    (zclPlatforms raw s).lcu = s.lcu ∧ (zclPlatforms raw s).meu = s.meu := by
  obtain ⟨f, g, _, h⟩ := zclPlatforms_order raw s
  have h1 := (zclInstant_took f raw s).blocks
  have h2 := (zclInstant_took g raw (zclInstant f raw s)).blocks
  rw [h]
  exact ⟨h2.1.trans h1.1, h2.2.1.trans h1.2.1⟩

/-- The LCU after a whole instant is as its own part leaves it. -/
theorem sample_lcu (t : Nat) (r : Readings) (s : State) : (sample t r s).lcu = (afterLcu t r s).lcu := by
  show (handOnInstant _ _ r (afterLcu t r s)).lcu = _
  generalize afterLcu t r s = l
  unfold handOnInstant
  rw [(zclPlatforms_blocks _ _).1]
  exact (noticeFaults_noticed _ _).lcu

/-- Each history takes the instant, made from the LCU as it then stands and the working zeros before the ZCL's part. -/
theorem sample_meu (t : Nat) (r : Readings) (s : State) (p : Platform) :
    ((sample t r s).meu.get p).history = appendInstant (s.meu.get p).history
      (instantOf (instantTime (s.advance t)) r (afterLcu t r s) p) ∧
    ((sample t r s).meu.get p).latestOut =
      (match (instantOf (instantTime (s.advance t)) r (afterLcu t r s) p).rails with
        | none => some (instantOf (instantTime (s.advance t)) r (afterLcu t r s) p).time
        | some _ => (s.meu.get p).latestOut) := by
  have hm : (afterLcu t r s).meu = s.meu := (lcuInstant_took _ _ _).blocks.1
  show ((handOnInstant _ _ r (afterLcu t r s)).meu.get p).history = _ ∧ ((handOnInstant _ _ r (afterLcu t r s)).meu.get p).latestOut = _
  rw [← hm]
  generalize afterLcu t r s = l
  unfold handOnInstant
  rw [(zclPlatforms_blocks _ _).2]
  have h := noticeFaults_noticed (((s.advance t).advance (instantTime (s.advance t))).lcu.channels) l
  generalize noticeFaults _ l = n at h
  have hi : instantOf (instantTime (s.advance t)) r n p = instantOf (instantTime (s.advance t)) r l p := by
    unfold instantOf State.fittedOf
    rw [h.lcu, h.zcl, h.cal]
  rw [← hi, ← h.history p, ← h.latestOut p]
  cases p <;> exact ⟨rfl, rfl⟩

end Sys2Proof.Machine
end

