-- ==== Sys2Proof/Laws/Tracks.lean ====
section
/-! SUPPORT. What leaves every axle in its zone with its crossing times, and the passage record: all that the tracker
does beside the crossing itself and a removal. -/

namespace Sys2Proof.Machine

set_option Elab.async false

/-- Every axle keeps its zone and crossing times, and the passage record stands (R29, R32). -/
structure Tracked (s s' : State) : Prop where
  tracks : s'.axt.train.map Axle.track = s.axt.train.map Axle.track := by rfl
  passage : s'.axt.passage = s.axt.passage := by rfl

namespace Tracked

variable {s s' s'' : State}

theorem refl (s : State) : Tracked s s := {}

theorem trans (h : Tracked s s') (k : Tracked s' s'') : Tracked s s'' :=
  ⟨k.tracks.trans h.tracks, k.passage.trans h.passage⟩

theorem of_axt (h : s'.axt = s.axt) : Tracked s s' := ⟨by rw [h], by rw [h]⟩

theorem foldl {α : Type} {f : State → α → State} (h : ∀ s a, Tracked s (f s a)) (l : List α) :
    ∀ s, Tracked s (l.foldl f s) := by
  induction l with
  | nil => exact refl
  | cons a l ih => exact fun s => (h s a).trans (ih _)

/-- The train is as long as it was. -/
theorem length (h : Tracked s s') : s'.axt.train.length = s.axt.train.length := by
  simpa using congrArg List.length h.tracks

end Tracked

theorem setTrain_tracked {l : List Axle} {s : State} (h : l.map Axle.track = s.axt.train.map Axle.track) :
    Tracked s (s.setAxt { s.axt with train := l }) := ⟨h, rfl⟩

theorem updAxle_tracked {i : Nat} {f : Axle → Axle} (s : State) (h : ∀ a, (f a).track = a.track := by exact fun _ => rfl) :
    Tracked s (updAxle i f s) := setTrain_tracked (map_updateAt h i _)

/-! ### The Passage Table and the FAU -/

theorem reportFault_axt (f : FaultOcc) (s : State) : (reportFault f s).axt = s.axt := by rw [reportFault_eq]; rfl

theorem evalPermit_axt (s : State) : (evalPermit s).axt = s.axt := by rw [evalPermit_eq]; rfl

theorem complete_axt (t k : Nat) (w : Wagon) (s : State) : (complete t k w s).axt = s.axt := by
  unfold complete; simp only; rw [reportCompletion_eq]; rfl

theorem noticeAxle_axt (t i : Nat) (s : State) : (noticeAxle t i s).axt = s.axt := by
  unfold noticeAxle
  split
  · rfl
  · split
    · rfl
    · unfold noticeRecord
      simp only
      split
      · split
        · exact complete_axt _ _ _ _
        · rfl
      · split <;> rfl
      · rfl

theorem bindRecord_axt (t k : Nat) (v : Vehicle) (w : Wagon) (s : State) : (bindRecord t k v w s).axt = s.axt := by
  unfold bindRecord
  simp only
  split
  · exact complete_axt _ _ _ _
  · rfl

theorem countTraction_axt (f : Nat → Nat) (v : Vehicle) (s : State) : (countTraction f v s).axt = s.axt := by
  unfold countTraction
  split <;> rfl

theorem bindVehicle_axt (t n : Nat) (v : Vehicle) (s : State) : (bindVehicle t n v s).axt = s.axt := by
  unfold bindVehicle
  simp only
  have h := countTraction_axt (· + 1) v s
  generalize countTraction (· + 1) v s = m at h
  split
  · exact (bindRecord_axt _ _ _ _ _).trans h
  · split
    · exact ((evalPermit_axt _).trans (bindRecord_axt _ _ _ _ _)).trans h
    · unfold bindUnrecorded
      exact (reportFault_axt _ _).trans h

theorem dissolveVehicle_axt (n : Nat) (v : Vehicle) (s : State) : (dissolveVehicle n v s).axt = s.axt := by
  unfold dissolveVehicle
  simp only
  have h := countTraction_axt (· - 1) v s
  generalize countTraction (· - 1) v s = m at h
  split
  · exact h
  · split
    · exact h
    · exact (evalPermit_axt _).trans h

/-! ### The Measurement Engine -/

theorem writeMeas_tracked (p : Platform) (i : Nat) (m : Measurement) (s : State) : Tracked s (writeMeas p i m s) :=
  updAxle_tracked s

theorem resolveEntry_tracked (p : Platform) (x : Option (Int × Int)) (e : WindowEntry) (s : State) :
    Tracked s (resolveEntry p x e s) := by
  unfold resolveEntry
  split
  · exact Tracked.trans (s' := dropEntries p _ s) {} (writeMeas_tracked _ _ _ _)
  · exact {}

theorem resolveWhere_tracked (p : Platform) (x : Option (Int × Int)) (q : WindowEntry → Bool) (s : State) :
    Tracked s (resolveWhere p x q s) := Tracked.foldl (fun s e => resolveEntry_tracked p x e s) _ _

theorem afterExit_tracked (p : Platform) (x : Span) (n : Nat) (m : Option (Int × Int)) (s : State) :
    Tracked s (afterExit p x n m s) := Tracked.trans (s' := updMeu p _ s) {} (resolveWhere_tracked _ _ _ _)

theorem meuClose_tracked (p : Platform) (x : Span) (s : State) : Tracked s (meuClose p x s) := by
  unfold meuClose
  split
  · exact {}
  · unfold closeSpan
    simp only
    split
    · exact Tracked.trans (s' := dropEntries p _ s) {} ((writeMeas_tracked _ _ _ _).trans (afterExit_tracked _ _ _ _ _))
    · split
      · exact Tracked.trans (s' := updMeu p _ s) {} (afterExit_tracked _ _ _ _ _)
      · exact Tracked.trans (s' := dropEntries p _ s) {} ((writeMeas_tracked _ _ _ _).trans (afterExit_tracked _ _ _ _ _))

theorem meuCancel_tracked (p : Platform) (i : Nat) (s : State) : Tracked s (meuCancel p i s) :=
  Tracked.trans (s' := dropEntries p _ s) {} (resolveWhere_tracked _ _ _ _)

theorem combineSettled_tracked (i : Nat) (s : State) : Tracked s (combineSettled i s) := by
  refine ((resolveWhere_tracked _ _ _ _).trans (resolveWhere_tracked _ _ _ _)).trans (updAxle_tracked _ fun a => ?_)
  unfold Axle.combine
  split
  · simp only
    split
    · rfl
    · split <;> rfl
  · rfl
  · rfl
  · rfl

/-- An axle beside its measurements. -/
def Axle.unmeasured (a : Axle) : Axle := { a with meas := ⟨none, none⟩, reweighed := false }

/-- The cancellation of a window in the MEU changes no axle beside its measurements (R57, R61). -/
theorem meuCancel_unmeasured (p : Platform) (i : Nat) (s : State) :
    (meuCancel p i s).axt.train.map Axle.unmeasured = s.axt.train.map Axle.unmeasured := by
  have he : ∀ (x : Option (Int × Int)) (e : WindowEntry) (s : State),
      (resolveEntry p x e s).axt.train.map Axle.unmeasured = s.axt.train.map Axle.unmeasured := by
    intro x e s
    unfold resolveEntry
    split
    · refine map_updateAt ?_ _ _
      exact fun _ => rfl
    · rfl
  have hl : ∀ (l : List WindowEntry) (s : State),
      (l.foldl (fun s e => resolveEntry p none e s) s).axt.train.map Axle.unmeasured = s.axt.train.map Axle.unmeasured := by
    intro l
    induction l with
    | nil => intro s; rfl
    | cons e l ih => intro s; exact (ih _).trans (he none e s)
  exact hl _ (dropEntries p _ s)

/-! ### The Segmenter -/

theorem updVehicleAxles_tracked {v : Vehicle} {f : Axle → Axle} (s : State) (h : ∀ a, (f a).track = a.track) :
    Tracked s (updVehicleAxles v f s) := by
  refine setTrain_tracked ?_
  have e : ∀ l : List Axle, (l.map f).map Axle.track = l.map Axle.track := by
    intro l
    simp [h]
  rw [List.map_append, List.map_append, e, ← List.map_append, ← List.map_append]
  have j : s.axt.train.take v.first ++ axlesOf s.axt.train v.first v.count ++ s.axt.train.drop (v.first + v.count) = s.axt.train := by
    rw [axlesOf, ← List.drop_drop, List.append_assoc, List.take_append_drop, List.take_append_drop]
  rw [j]

theorem formVehicle_tracked (t : Nat) (v : Vehicle) (s : State) : Tracked s (formVehicle t v s) := by
  unfold formVehicle
  simp only
  refine Tracked.trans (s' := s.setSeg { s.seg with vehicles := s.seg.vehicles ++ [v], cursor := v.first + v.count }) {} ?_
  refine (updVehicleAxles_tracked _ ?_).trans (.of_axt (bindVehicle_axt _ _ _ _))
  exact fun _ => rfl

theorem evalCursor_tracked (t : Nat) (c : Bool) : ∀ (fuel : Nat) (s : State), Tracked s (evalCursor t c fuel s)
  | 0, s => .refl s
  | fuel + 1, s => by
    unfold evalCursor
    split
    · exact {}
    · split
      · exact {}
      · split
        · exact {}
        · split
          · exact .of_axt (reportFault_axt _ _)
          · exact (formVehicle_tracked _ _ _).trans (evalCursor_tracked t c fuel _)

theorem segTold_tracked (t : Nat) (s : State) : Tracked s (segTold t s) := by
  unfold segTold
  simp only
  split
  · exact Tracked.trans (s' := s.setSeg { s.seg with spacings := findSpacings s s.axt.train s.seg.spacings }) {}
      (evalCursor_tracked _ _ _ _)
  · exact {}

theorem segRemoved_tracked (a : Axle) (s : State) : Tracked s (segRemoved a s) := by
  unfold segRemoved
  simp only
  split
  · refine Tracked.trans (s' := s.setSeg { s.seg with spacings := s.seg.spacings.take (s.axt.train.length - 1) }) {} ?_
    unfold dissolveLast
    split
    · exact {}
    · simp only
      refine (updVehicleAxles_tracked _ ?_).trans (.of_axt (dissolveVehicle_axt _ _ _))
      exact fun _ => rfl
  · exact {}

/-! ### The tracker -/

theorem cancelWindow_tracked (x : Side) (i : Nat) (s : State) : Tracked s (cancelWindow x i s) := by
  unfold cancelWindow
  split
  · exact {}
  · exact (updAxle_tracked s).trans (meuCancel_tracked _ _ _)

theorem cancelWindows_tracked (i : Nat) (s : State) : Tracked s (cancelWindows i s) :=
  (cancelWindow_tracked _ _ _).trans (cancelWindow_tracked _ _ _)

theorem closeWindow_tracked (x : Side) (y : Span) (s : State) : Tracked s (closeWindow x y s) := by
  unfold closeWindow
  split
  · exact (updAxle_tracked s).trans (meuClose_tracked _ _ _)
  · exact cancelWindow_tracked _ _ _

theorem openWindow_tracked (x : Side) (i t : Nat) (s : State) : Tracked s (openWindow x i t s) :=
  (updAxle_tracked s).trans (s' := markWindow x (some t) i s) {}

theorem closeBefore_tracked (x : Post) (i t : Nat) (s : State) : Tracked s (closeBefore x i t s) := by
  unfold closeBefore
  split
  · exact {}
  · split
    · exact {}
    · split
      · exact closeWindow_tracked _ _ _
      · exact {}
    · split
      · split
        · exact closeWindow_tracked _ _ _
        · exact {}
      · unfold closeInterpolated
        split
        · simp only
          split
          · exact (closeWindow_tracked _ _ _).trans (meuClose_tracked _ _ _)
          · exact closeWindow_tracked _ _ _
        · exact closeWindow_tracked _ _ _
        · exact {}

theorem openAfter_tracked (x : Post) (i t : Nat) (s : State) : Tracked s (openAfter x i t s) := by
  unfold openAfter
  split
  · split
    · exact openWindow_tracked _ _ _ _
    · exact {}
  · split
    · exact openWindow_tracked _ _ _ _
    · exact {}
  · exact {}

theorem bound_tracked (x : Side) (i : Nat) (s : State) : Tracked s (bound x i s) := by
  unfold bound
  split
  · exact {}
  · refine updAxle_tracked s fun a => ?_
    split <;> rfl

theorem settle_tracked (i : Nat) (s : State) : Tracked s (settle i s) :=
  (((bound_tracked _ _ _).trans (bound_tracked _ _ _)).trans (updAxle_tracked _)).trans (combineSettled_tracked _ _)

/-- The re-examination moves no axle (R42). -/
theorem reexamine_tracked (t : Nat) (s : State) : Tracked s (reexamine t s) := by
  have hc : ∀ (x : Side) (i : Nat) (s : State), Tracked s (cancelUnmeasurable x i s) := by
    intro x i s
    unfold cancelUnmeasurable
    split
    · exact {}
    · exact cancelWindow_tracked _ _ _
  unfold reexamine
  exact ((Tracked.foldl (fun s i => (hc .first i s).trans (hc .second i _)) _ _).trans
    (Tracked.foldl (fun s i => settle_tracked i s) _ _)).trans (Tracked.foldl (fun s i => .of_axt (noticeAxle_axt t i s)) _ _)

theorem headIncident_tracked (c : IncidentCause) (t : Nat) (k : Station) (s : State) : Tracked s (headIncident c t k s) := by
  unfold headIncident
  split
  · exact {}
  · simp only
    generalize hm : reportFault _ _ = m
    have h : Tracked s m := .of_axt (by rw [← hm, reportFault_axt]; rfl)
    split
    · exact h.trans (reexamine_tracked _ _)
    · exact h

/-- After the cancellation of its windows an axle has none open (R41). -/
theorem cancelWindows_windows {i : Nat} {s : State} {a : Axle} (h : s.axt.train[i]? = some a) :
    ∃ b : Axle, (cancelWindows i s).axt.train[i]? = some b ∧ b.windows = ⟨none, none⟩ ∧ b.settled = a.settled := by
  have hs : ∀ (x : Side) (s : State) (a : Axle), s.axt.train[i]? = some a →
      ∃ b : Axle, (cancelWindow x i s).axt.train[i]? = some b ∧ b.windows = a.windows.set x none ∧ b.settled = a.settled := by
    intro x s a h
    unfold cancelWindow
    rw [h]
    split
    · next hn =>
      refine ⟨a, h, ?_, rfl⟩
      have hn : a.windows.get x = none := hn
      cases x <;> simp only [PerSide.get] at hn <;> simp only [PerSide.set] <;> rw [← hn]
    · have e := congrArg (·[i]?) (meuCancel_unmeasured (platformOf s.direction x) i (markWindow x none i s))
      have hm : (markWindow x none i s).axt.train[i]? = some { a with windows := a.windows.set x none } := by
        show (updateAt _ i s.axt.train)[i]? = _
        rw [getElem?_updateAt]
        simp [h]
      simp only [List.getElem?_map, hm, Option.map_some] at e
      obtain ⟨b, hb, e⟩ := Option.map_eq_some_iff.mp e
      have ew : b.unmeasured.windows = a.windows.set x none := by rw [e]; rfl
      have es : b.unmeasured.settled = a.settled := by rw [e]; rfl
      exact ⟨b, hb, ew, es⟩
  obtain ⟨b, h1, h2, h3⟩ := hs .first s a h
  obtain ⟨d, k1, k2, k3⟩ := hs .second _ b h1
  exact ⟨d, k1, by rw [k2, h2]; rfl, k3.trans h3⟩

/-- Steps 2 to 6 of a forward crossing move no axle (R34). -/
theorem forwardEffects_tracked (x : Post) (c : Crossing) (i : Nat) (s : State) : Tracked s (forwardEffects x c i s) := by
  unfold forwardEffects
  simp only
  have h := (closeBefore_tracked x i c.time s).trans (openAfter_tracked x i c.time _)
  generalize openAfter x i c.time (closeBefore x i c.time s) = m at h
  split
  · exact h.trans (((settle_tracked _ _).trans (segTold_tracked _ _)).trans (.of_axt (noticeAxle_axt _ _ _)))
  · exact h.trans (segTold_tracked _ _)

end Sys2Proof.Machine
end

