-- ==== Sys2Proof/Laws/Segments.lean ====
section
/-! SUPPORT. What the Segmenter's functions do: the spacing list, the evaluation of the cursor, and a vehicle's binding
and dissolution, which change the passage table and the faults and nothing else. -/

namespace Sys2Proof.Machine

set_option Elab.async false

/-! ### Binding and dissolution -/

theorem complete_eq (t k : Nat) (w : Wagon) (s : State) :
    complete t k w s = (s.setPtb (complete t k w s).ptb).setFau (complete t k w s).fau := by
  unfold complete
  simp only
  rw [reportCompletion_eq]
  rfl

theorem bindRecord_eq (t k : Nat) (v : Vehicle) (w : Wagon) (s : State) :
    bindRecord t k v w s = (s.setPtb (bindRecord t k v w s).ptb).setFau (bindRecord t k v w s).fau := by
  unfold bindRecord
  simp only
  split
  · unfold complete; simp only; rw [reportCompletion_eq]; rfl
  · rfl

theorem countTraction_eq (f : Nat → Nat) (v : Vehicle) (s : State) :
    countTraction f v s = s.setPtb (countTraction f v s).ptb := by
  unfold countTraction
  split <;> rfl

/-- Binding a vehicle changes the passage table and the faults only (R130, R133). -/
theorem bindVehicle_eq (t p : Nat) (v : Vehicle) (s : State) :
    bindVehicle t p v s = (s.setPtb (bindVehicle t p v s).ptb).setFau (bindVehicle t p v s).fau := by
  unfold bindVehicle
  have h := countTraction_eq (· + 1) v s
  generalize countTraction (· + 1) v s = u at *
  simp only
  rw [h]
  split
  · rw [bindRecord_eq]; rfl
  · split
    · rw [evalPermit_eq, bindRecord_eq]; rfl
    · unfold bindUnrecorded; rw [reportFault_eq]; rfl

/-- Undoing a binding changes the passage table and the faults only (R141). -/
theorem dissolveVehicle_eq (p : Nat) (v : Vehicle) (s : State) :
    dissolveVehicle p v s = (s.setPtb (dissolveVehicle p v s).ptb).setFau (dissolveVehicle p v s).fau := by
  unfold dissolveVehicle
  have h := countTraction_eq (· - 1) v s
  generalize countTraction (· - 1) v s = u at *
  simp only
  rw [h]
  split
  · rfl
  · split
    · rfl
    · rw [evalPermit_eq]; rfl

/-! ### Changes of a vehicle's axles -/

/-- The axles of a vehicle are changed, and no other (R116, R120). -/
theorem getElem?_updVehicleAxles (v : Vehicle) (f : Axle → Axle) (s : State) (i : Nat) :
    (updVehicleAxles v f s).axt.train[i]? =
      (s.axt.train[i]?).map fun a => if v.first ≤ i ∧ i < v.first + v.count then f a else a := by
  show (s.axt.train.take v.first ++ (axlesOf s.axt.train v.first v.count).map f ++ s.axt.train.drop (v.first + v.count))[i]? = _
  generalize s.axt.train = l
  have hlen : (axlesOf l v.first v.count).length = min v.count (l.length - v.first) := by simp [axlesOf]
  by_cases h1 : i < v.first
  · rw [List.append_assoc]
    by_cases h2 : i < l.length
    · rw [List.getElem?_append_left (by rw [List.length_take]; omega), List.getElem?_take_of_lt h1]
      simp [h2, show ¬ v.first ≤ i by omega]
    · rw [List.getElem?_eq_none, List.getElem?_eq_none (by omega)]
      · rfl
      · simp [hlen]; omega
  · by_cases h2 : v.first ≤ l.length
    · rw [List.append_assoc, List.getElem?_append_right (by rw [List.length_take]; omega), List.length_take, Nat.min_eq_left h2]
      by_cases h3 : i < v.first + v.count
      · by_cases h4 : i < l.length
        · rw [List.getElem?_append_left (by rw [List.length_map, hlen]; omega), List.getElem?_map]
          simp only [axlesOf]
          rw [List.getElem?_take_of_lt (by omega), List.getElem?_drop, show v.first + (i - v.first) = i by omega]
          simp [show v.first ≤ i by omega, h3]
        · rw [List.getElem?_eq_none, List.getElem?_eq_none (by omega)]
          · rfl
          · simp [hlen]; omega
      · by_cases h4 : i < l.length
        · rw [List.getElem?_append_right (by rw [List.length_map, hlen]; omega), List.length_map, hlen, List.getElem?_drop,
            show v.first + v.count + (i - v.first - min v.count (l.length - v.first)) = i by omega]
          simp [h4, h3]
        · rw [List.getElem?_eq_none, List.getElem?_eq_none (by omega)]
          · rfl
          · simp [hlen]; omega
    · rw [List.getElem?_eq_none, List.getElem?_eq_none (by omega)]
      · rfl
      · simp [hlen]; omega

theorem updVehicleAxles_length (v : Vehicle) (f : Axle → Axle) (s : State) :
    (updVehicleAxles v f s).axt.train.length = s.axt.train.length := by
  simp [updVehicleAxles, axlesOf]; omega

/-- A vehicle formed leaves the Segmenter and the train as the steps before its binding do (R116). -/
theorem formVehicle_seg (t : Nat) (v : Vehicle) (s : State) :
    (formVehicle t v s).seg = { s.seg with vehicles := s.seg.vehicles ++ [v], cursor := v.first + v.count } := by
  unfold formVehicle; simp only; rw [bindVehicle_eq]; rfl

theorem formVehicle_train_length (t : Nat) (v : Vehicle) (s : State) :
    (formVehicle t v s).axt.train.length = s.axt.train.length := (formVehicle_tracked t v s).length

theorem formVehicle_abandoned (t : Nat) (v : Vehicle) (s : State) : (formVehicle t v s).axt.abandoned = s.axt.abandoned := by
  unfold formVehicle; simp only; rw [bindVehicle_axt]; rfl

/-! ### Bogies (R115) -/

/-- When a bogie has ended, and with how many axles: every entry within it is present and at most the limit, and it holds
all it may, or the next entry is above the limit, or absent at close. -/
theorem growBogie_eq_some (closing : Bool) (limit : Nat) (sp : List (Option Nat)) (start : Nat) : ∀ (fuel m k : Nat), 1 ≤ m →
    (growBogie closing limit sp start fuel m = some k ↔ m ≤ k ∧ k ≤ m + fuel ∧
      (∀ j, m ≤ j + 1 → j + 1 < k → ∃ d, entryAt sp (start + j) = some d ∧ d ≤ limit) ∧
      (k = m + fuel ∨ (∃ d, entryAt sp (start + k - 1) = some d ∧ limit < d) ∨
        (closing = true ∧ entryAt sp (start + k - 1) = none)))
  | 0, m, k, hm => by
    simp only [growBogie, Option.some.injEq]
    constructor
    · rintro rfl; exact ⟨Nat.le_refl _, Nat.le_refl _, fun j h1 h2 => by omega, Or.inl rfl⟩
    · rintro ⟨h1, h2, _⟩; omega
  | fuel + 1, m, k, hm => by
    simp only [growBogie]
    cases he : entryAt sp (start + m - 1) with
    | none =>
      simp only
      by_cases hc : closing = true
      · rw [if_pos hc]
        constructor
        · intro h; cases h
          exact ⟨Nat.le_refl _, by omega, fun j h1 h2 => by omega, Or.inr (Or.inr ⟨hc, he⟩)⟩
        · rintro ⟨h1, h2, h3, h4⟩
          by_cases hk : k = m
          · rw [hk]
          · obtain ⟨d, hd, _⟩ := h3 (m - 1) (by omega) (by omega)
            rw [show start + (m - 1) = start + m - 1 by omega, he] at hd; cases hd
      · rw [if_neg hc]
        constructor
        · intro h; cases h
        · rintro ⟨h1, h2, h3, h4⟩
          exfalso
          by_cases hk : k = m
          · subst hk
            rcases h4 with h4 | ⟨d, hd, _⟩ | h4
            · omega
            · rw [he] at hd; cases hd
            · exact hc h4.1
          · obtain ⟨d, hd, _⟩ := h3 (m - 1) (by omega) (by omega)
            rw [show start + (m - 1) = start + m - 1 by omega, he] at hd; cases hd
    | some d =>
      simp only
      by_cases hd : d ≤ limit
      · rw [if_pos hd, growBogie_eq_some closing limit sp start fuel (m + 1) k (by omega)]
        constructor
        · rintro ⟨h1, h2, h3, h4⟩
          refine ⟨by omega, by omega, fun j j1 j2 => ?_, ?_⟩
          · by_cases hj : j + 1 = m
            · exact ⟨d, by rw [show start + j = start + m - 1 by omega]; exact he, hd⟩
            · exact h3 j (by omega) j2
          · rcases h4 with h4 | h4
            · exact Or.inl (by omega)
            · exact Or.inr h4
        · rintro ⟨h1, h2, h3, h4⟩
          have hk : k ≠ m := by
            rintro rfl
            rcases h4 with h4 | ⟨x, hx, hl⟩ | ⟨_, h4⟩
            · omega
            · rw [he] at hx; cases hx; omega
            · rw [he] at h4; cases h4
          refine ⟨by omega, by omega, fun j j1 j2 => h3 j (by omega) j2, ?_⟩
          rcases h4 with h4 | h4
          · exact Or.inl (by omega)
          · exact Or.inr h4
      · rw [if_neg hd]
        constructor
        · intro h; cases h
          exact ⟨Nat.le_refl _, by omega, fun j h1 h2 => by omega, Or.inr (Or.inl ⟨d, he, by omega⟩)⟩
        · rintro ⟨h1, h2, h3, h4⟩
          by_cases hk : k = m
          · rw [hk]
          · obtain ⟨x, hx, hl⟩ := h3 (m - 1) (by omega) (by omega)
            rw [show start + (m - 1) = start + m - 1 by omega, he] at hx; cases hx; omega

/-! ### Evaluation of the cursor (R110, R121) -/

/-- A vehicle decided begins at the cursor and holds an axle. -/
theorem decideVehicle_form {s : State} {closing : Bool} {v : Vehicle} (h : decideVehicle s closing = .form v)
    (hc : s.seg.cursor < s.axt.train.length) : v.first = s.seg.cursor ∧ 1 ≤ v.count := by
  have hauto : ∀ mm, autoDecide s closing mm = .form v → v.first = s.seg.cursor ∧ 1 ≤ v.count := by
    intro mm h
    unfold autoDecide at h
    simp only at h
    split at h
    · split at h
      · cases h; exact ⟨rfl, by simp [Vehicle.ofClass]⟩
      · cases h
    · split at h
      · next n hn =>
        cases h
        refine ⟨rfl, ?_⟩
        unfold bogiePair at hn
        obtain ⟨x, hx, hn⟩ := Option.bind_eq_some_iff.mp hn
        have hx1 : 1 ≤ x := by
          unfold bogieAt at hx
          rw [if_pos hc] at hx
          exact ((growBogie_eq_some _ _ _ _ 2 1 x (Nat.le_refl _)).mp hx).1
        split at hn
        · cases hn; exact hx1
        · obtain ⟨y, _, hn⟩ := Option.map_eq_some_iff.mp hn
          show 1 ≤ n
          omega
      · cases h
  unfold decideVehicle at h
  split at h
  · exact hauto _ h
  · split at h
    · cases h; exact ⟨rfl, by simp [Vehicle.ofClass]⟩
    · cases h
    · exact hauto _ h

/-- Room for one evaluation more than there are unsegmented axles is room enough. -/
theorem evalCursor_fuel (t : Nat) (closing : Bool) : ∀ (n m : Nat) (s : State),
    s.axt.train.length - s.seg.cursor < n → n ≤ m → evalCursor t closing m s = evalCursor t closing n s
  | 0, _, _, h, _ => absurd h (Nat.not_lt_zero _)
  | n + 1, 0, _, _, h => absurd h (Nat.not_succ_le_zero _)
  | n + 1, m + 1, s, h, hm => by
    simp only [evalCursor]
    split
    · rfl
    · split
      · rfl
      · next hc =>
        split
        · rfl
        · next v hv =>
          split
          · rfl
          · obtain ⟨h1, h2⟩ := decideVehicle_form hv (by omega)
            apply evalCursor_fuel t closing n m
            · rw [formVehicle_train_length, formVehicle_seg]
              show _ - (v.first + v.count) < n
              omega
            · omega

/-- After a vehicle is formed the new cursor is evaluated (R110). -/
theorem evaluate_form {t : Nat} {closing : Bool} {v : Vehicle} {s : State} (ha : s.axt.abandoned = false)
    (hl : s.seg.limit = false) (hc : s.seg.cursor < s.axt.train.length) (hd : decideVehicle s closing = .form v)
    (hv : s.seg.vehicles.length < maxPositions) : evaluate t closing s = evaluate t closing (formVehicle t v s) := by
  obtain ⟨h1, h2⟩ := decideVehicle_form hd hc
  have e : evaluate t closing s = evalCursor t closing s.axt.train.length (formVehicle t v s) := by
    unfold evaluate
    simp only [evalCursor, ha, hl, Bool.or_false, Bool.false_eq_true, if_false, hd]
    rw [if_neg (by omega), if_neg (by omega)]
  rw [e]
  unfold evaluate
  rw [formVehicle_train_length]
  refine (evalCursor_fuel _ _ _ _ _ ?_ (by omega)).symm
  rw [formVehicle_train_length, formVehicle_seg]
  show _ - (v.first + v.count) < _
  omega

/-! ### The spacing list (R109) -/

/-- There is one entry for each neighbouring pair. -/
theorem findSpacings_length (s : State) : ∀ (l : List Axle) (ds : List (Option Nat)), (findSpacings s l ds).length = l.length - 1
  | [], _ => by simp [findSpacings]
  | [_], _ => by simp [findSpacings]
  | a :: b :: l, d :: ds => by simp [findSpacings, findSpacings_length s (b :: l) ds]
  | a :: b :: l, [] => by simp [findSpacings, findSpacings_length s (b :: l) []]

/-- A present entry stands, and an absent one is looked for (R109). -/
theorem entryAt_findSpacings (s : State) : ∀ (l : List Axle) (ds : List (Option Nat)) (k : Nat) (a b : Axle),
    l[k]? = some a → l[k + 1]? = some b →
    entryAt (findSpacings s l ds) k = (entryAt ds k).orElse fun _ => spacingOf s a b
  | [], _, k, a, b, h, _ => by simp at h
  | [_], _, k, a, b, h, h' => by simp at h'
  | x :: y :: l, d :: ds, 0, a, b, h, h' => by
    simp at h h'; subst h; subst h'; simp [findSpacings, entryAt]
  | x :: y :: l, [], 0, a, b, h, h' => by
    simp at h h'; subst h; subst h'; simp [findSpacings, entryAt]
  | x :: y :: l, d :: ds, k + 1, a, b, h, h' => by
    have := entryAt_findSpacings s (y :: l) ds k a b (by simpa using h) (by simpa using h')
    simpa [findSpacings, entryAt] using this
  | x :: y :: l, [], k + 1, a, b, h, h' => by
    have := entryAt_findSpacings s (y :: l) [] k a b (by simpa using h) (by simpa using h')
    simpa [findSpacings, entryAt] using this

/-- An evaluation leaves the spacing list. -/
theorem evalCursor_spacings (t : Nat) (c : Bool) : ∀ (fuel : Nat) (s : State), (evalCursor t c fuel s).seg.spacings = s.seg.spacings
  | 0, s => rfl
  | fuel + 1, s => by
    unfold evalCursor
    split
    · rfl
    · split
      · rfl
      · split
        · rfl
        · split
          · unfold meetLimit; rw [reportFault_eq]; rfl
          · rw [evalCursor_spacings, formVehicle_seg]

theorem segTold_spacings (t : Nat) (s : State) : (segTold t s).seg.spacings = findSpacings s s.axt.train s.seg.spacings := by
  unfold segTold
  simp only
  split
  · exact evalCursor_spacings _ _ _ _
  · rfl

end Sys2Proof.Machine
end

