-- ==== Sys2Proof/Laws/Stations.lean ====
section
/-! SUPPORT. Which blocks the tracker's functions change: the axle train, the MEU, the Segmenter, the passage table and
the faults; and what becomes of the station records (R7, R9, R12). -/

namespace Sys2Proof.Machine

set_option Elab.async false

/-- Every block stands but the tracker, the MEU, the Segmenter, the passage table, the faults and the link. -/
structure Worked (s s' : State) : Prop where
  wsu : s'.wsu = s.wsu := by rfl
  settings : s'.settings = s.settings := by rfl
  condition : s'.condition = s.condition := by rfl
  cal : s'.cal = s.cal := by rfl
  zcl : s'.zcl = s.zcl := by rfl
  lcu : s'.lcu = s.lcu := by rfl
  wrg : s'.wrg = s.wrg := by rfl
  stc : s'.stc = s.stc := by rfl
  calsw : s'.calsw = s.calsw := by rfl
  timebase : s'.timebase = s.timebase := by rfl
  store : s'.store = s.store := by rfl

namespace Worked

variable {s s' s'' : State}

theorem refl (s : State) : Worked s s := {}

theorem trans (h : Worked s s') (k : Worked s' s'') : Worked s s'' where
  wsu := k.wsu.trans h.wsu
  settings := k.settings.trans h.settings
  condition := k.condition.trans h.condition
  cal := k.cal.trans h.cal
  zcl := k.zcl.trans h.zcl
  lcu := k.lcu.trans h.lcu
  wrg := k.wrg.trans h.wrg
  stc := k.stc.trans h.stc
  calsw := k.calsw.trans h.calsw
  timebase := k.timebase.trans h.timebase
  store := k.store.trans h.store

theorem foldl {α : Type} {f : State → α → State} (h : ∀ s a, Worked s (f s a)) (l : List α) :
    ∀ s, Worked s (l.foldl f s) := by
  induction l with
  | nil => exact .refl
  | cons a l ih => exact fun s => (h s a).trans (ih _)

/-- A change of the passage table and the faults. -/
theorem ofPtb {x : Ptb} {z : Fau} (h : s' = (s.setPtb x).setFau z) : Worked s s' := by subst h; exact {}

end Worked

/-! ### Which functions change no other block -/

theorem reportFault_worked (o : FaultOcc) (s : State) : Worked s (reportFault o s) := by rw [reportFault_eq]; exact {}

theorem noticeAxle_worked (t i : Nat) (s : State) : Worked s (noticeAxle t i s) := .ofPtb (noticeAxle_eq t i s)

theorem resolveEntry_worked (p : Platform) (x : Option (Int × Int)) (e : WindowEntry) (s : State) :
    Worked s (resolveEntry p x e s) := by
  unfold resolveEntry
  split <;> exact {}

theorem resolveWhere_worked (p : Platform) (x : Option (Int × Int)) (q : WindowEntry → Bool) (s : State) :
    Worked s (resolveWhere p x q s) := Worked.foldl (fun s e => resolveEntry_worked p x e s) _ _

theorem afterExit_worked (p : Platform) (x : Span) (n : Nat) (m : Option (Int × Int)) (s : State) :
    Worked s (afterExit p x n m s) := Worked.trans (s' := updMeu p _ s) {} (resolveWhere_worked _ _ _ _)

theorem meuClose_worked (p : Platform) (x : Span) (s : State) : Worked s (meuClose p x s) := by
  unfold meuClose
  split
  · exact {}
  · unfold closeSpan
    simp only
    split
    · exact Worked.trans (s' := writeMeas p _ _ (dropEntries p _ s)) {} (afterExit_worked _ _ _ _ _)
    · split
      · exact Worked.trans (s' := updMeu p _ s) {} (afterExit_worked _ _ _ _ _)
      · exact Worked.trans (s' := writeMeas p _ _ (dropEntries p _ s)) {} (afterExit_worked _ _ _ _ _)

theorem meuCancel_worked (p : Platform) (i : Nat) (s : State) : Worked s (meuCancel p i s) :=
  Worked.trans (s' := dropEntries p _ s) {} (resolveWhere_worked _ _ _ _)

theorem combineSettled_worked (i : Nat) (s : State) : Worked s (combineSettled i s) := by
  have h := (resolveWhere_worked (platformOf s.direction .first) none (fun e => decide (e.axle = i)) s)
  unfold combineSettled
  simp only
  generalize resolveWhere (platformOf s.direction .first) none (fun e => decide (e.axle = i)) s = m at h
  exact (h.trans (resolveWhere_worked _ _ _ _)).trans {}

theorem formVehicle_worked (t : Nat) (v : Vehicle) (s : State) : Worked s (formVehicle t v s) := by
  unfold formVehicle
  simp only
  exact Worked.trans (s' := reportV _) {} (.ofPtb (bindVehicle_eq _ _ _ _))

theorem evalCursor_worked (t : Nat) (c : Bool) : ∀ (fuel : Nat) (s : State), Worked s (evalCursor t c fuel s)
  | 0, s => .refl s
  | fuel + 1, s => by
    unfold evalCursor
    split
    · exact {}
    · split
      · exact {}
      · split
        · exact {}
        · split
          · exact Worked.trans (s' := setWait _ _) {} (reportFault_worked _ _)
          · exact (formVehicle_worked _ _ _).trans (evalCursor_worked t c fuel _)

theorem evaluate_worked (t : Nat) (c : Bool) (s : State) : Worked s (evaluate t c s) := evalCursor_worked _ _ _ _

theorem segTold_worked (t : Nat) (s : State) : Worked s (segTold t s) := by
  unfold segTold
  simp only
  split
  · exact Worked.trans (s' := s.setSeg { s.seg with spacings := findSpacings s s.axt.train s.seg.spacings }) {}
      (evaluate_worked _ _ _)
  · exact {}

theorem segRemoved_worked (a : Axle) (s : State) : Worked s (segRemoved a s) := by
  unfold segRemoved
  simp only
  split
  · refine Worked.trans (s' := s.setSeg { s.seg with spacings := s.seg.spacings.take (s.axt.train.length - 1) }) {} ?_
    unfold dissolveLast
    split
    · exact {}
    · simp only
      exact Worked.trans (s' := reportV _) {} (.ofPtb (dissolveVehicle_eq _ _ _))
  · exact {}

theorem cancelWindow_worked (x : Side) (i : Nat) (s : State) : Worked s (cancelWindow x i s) := by
  unfold cancelWindow
  split
  · exact {}
  · exact Worked.trans (s' := markWindow x none i s) {} (meuCancel_worked _ _ _)

theorem cancelWindows_worked (i : Nat) (s : State) : Worked s (cancelWindows i s) :=
  (cancelWindow_worked _ _ _).trans (cancelWindow_worked _ _ _)

theorem closeWindow_worked (x : Side) (y : Span) (s : State) : Worked s (closeWindow x y s) := by
  unfold closeWindow
  split
  · exact Worked.trans (s' := markWindow x none y.axle s) {} (meuClose_worked _ _ _)
  · exact cancelWindow_worked _ _ _

theorem closeBefore_worked (x : Post) (i t : Nat) (s : State) : Worked s (closeBefore x i t s) := by
  unfold closeBefore
  split
  · exact {}
  · split
    · exact {}
    · split
      · exact closeWindow_worked _ _ _
      · exact {}
    · split
      · split
        · exact closeWindow_worked _ _ _
        · exact {}
      · unfold closeInterpolated
        split
        · simp only
          split
          · exact (closeWindow_worked _ _ _).trans (meuClose_worked _ _ _)
          · exact closeWindow_worked _ _ _
        · exact closeWindow_worked _ _ _
        · exact {}

theorem openAfter_worked (x : Post) (i t : Nat) (s : State) : Worked s (openAfter x i t s) := by
  unfold openAfter
  split
  · split <;> exact {}
  · split <;> exact {}
  · exact {}

theorem bound_worked (x : Side) (i : Nat) (s : State) : Worked s (bound x i s) := by
  unfold bound
  split <;> exact {}

theorem settle_worked (i : Nat) (s : State) : Worked s (settle i s) := by
  have h := (bound_worked .first i s).trans (bound_worked .second i (bound .first i s))
  exact (Worked.trans (s' := updAxle i _ _) (h.trans {}) (combineSettled_worked _ _))

theorem reexamine_worked (t : Nat) (s : State) : Worked s (reexamine t s) := by
  have hc : ∀ (x : Side) (i : Nat) (s : State), Worked s (cancelUnmeasurable x i s) := by
    intro x i s
    unfold cancelUnmeasurable
    split
    · exact {}
    · exact cancelWindow_worked _ _ _
  unfold reexamine
  exact ((Worked.foldl (fun s i => (hc .first i s).trans (hc .second i _)) _ _).trans
    (Worked.foldl (fun s i => settle_worked i s) _ _)).trans (Worked.foldl (fun s i => noticeAxle_worked t i s) _ _)

theorem forwardEffects_worked (x : Post) (c : Crossing) (i : Nat) (s : State) : Worked s (forwardEffects x c i s) := by
  unfold forwardEffects
  simp only
  have h := (closeBefore_worked x i c.time s).trans (openAfter_worked x i c.time _)
  generalize openAfter x i c.time (closeBefore x i c.time s) = m at h
  split
  · exact h.trans (((settle_worked _ _).trans (segTold_worked _ _)).trans (noticeAxle_worked _ _ _))
  · exact h.trans (segTold_worked _ _)

theorem appendAxle_worked (x : Post) (c : Crossing) (s : State) : Worked s (appendAxle x c s) :=
  Worked.trans (s' := reportTracker (touch c.time (s.setTrain (s.axt.train ++ [Axle.new x c])))) {}
    (forwardEffects_worked _ _ _ _)

theorem abandon_worked (c : Crossing) (s : State) : Worked s (abandon c s) := by
  unfold abandon
  simp only
  generalize hr : reportTracker _ = r
  have h1 : Worked s r := by subst hr; exact {}
  have h2 := h1.trans (reportFault_worked (r.occNow .axleOverflow c.time (some (.station c.station)) none) r)
  generalize reportFault _ r = m at h2
  have h3 := h2.trans (Worked.foldl (fun s i => cancelWindows_worked i s) (List.range m.axt.train.length) m)
  generalize List.foldl _ m _ = n at h3
  exact h3.trans {}

theorem phantom_worked (c : Crossing) (s : State) : Worked s (phantom c s) := by
  unfold phantom
  simp only
  exact Worked.trans (s' := reportTracker _) {} (reportFault_worked _ _)

theorem tryForward_worked {x : Post} {c : Crossing} {s s' : State} (h : tryForward x c s = some s') : Worked s s' := by
  unfold tryForward at h
  split at h
  · cases h
    exact Worked.trans (s' := touch c.time (updAxle _ (Axle.cross x c) s)) {} (forwardEffects_worked _ _ _ _)
  · split at h
    · cases h
      split
      · exact abandon_worked _ _
      · exact appendAxle_worked _ _ _
    · cases h

theorem moveBack_worked (z : Zone) (i t : Nat) (s : State) : Worked s (moveBack z i t s) := by
  unfold moveBack
  simp only
  have h : Worked s (cancelWindows i (updAxle i (fun a => { a with zone := z }) s)) :=
    Worked.trans (s' := updAxle i (fun a => { a with zone := z }) s) {} (cancelWindows_worked _ _)
  generalize cancelWindows i (updAxle i (fun a => { a with zone := z }) s) = m at h
  split
  all_goals
    try split
  all_goals first
    | exact h
    | exact h.trans (Worked.trans (s' := updAxle i Axle.uncombine m) {} (noticeAxle_worked _ _ _))

theorem removeTail_worked (s : State) : Worked s (removeTail s) := by
  unfold removeTail
  split
  · exact {}
  · simp only
    have h := cancelWindows_worked (s.axt.train.length - 1) s
    generalize cancelWindows (s.axt.train.length - 1) s = m at h
    exact h.trans (Worked.trans (s' := reportTracker (m.setTrain m.axt.train.dropLast)) {} (segRemoved_worked _ _))

/-! ### The station records -/

/-- What the tracker does to the station records beside their states: the latest crossing stands, a pending head and a
return count stand or are cleared. -/
def StationsStand (w w' : Wsu) : Prop :=
  ∀ j, (w'.get j).latest = (w.get j).latest ∧ ((w'.get j).pending = (w.get j).pending ∨ (w'.get j).pending = none) ∧
    ((w'.get j).returns = (w.get j).returns ∨ (w'.get j).returns = 0)

namespace StationsStand

variable {w w' w'' : Wsu}

theorem refl (w : Wsu) : StationsStand w w := fun _ => ⟨rfl, .inl rfl, .inl rfl⟩

theorem of_eq (h : w' = w) : StationsStand w w' := h ▸ refl w

theorem trans (h : StationsStand w w') (k : StationsStand w' w'') : StationsStand w w'' := by
  intro j
  obtain ⟨h1, h2, h3⟩ := h j
  obtain ⟨k1, k2, k3⟩ := k j
  refine ⟨k1.trans h1, ?_, ?_⟩
  · rcases k2 with k2 | k2
    · rw [k2]; exact h2
    · exact .inr k2
  · rcases k3 with k3 | k3
    · rw [k3]; exact h3
    · exact .inr k3

end StationsStand

theorem Worked.stand {s s' : State} (h : Worked s s') : StationsStand s.wsu s'.wsu := .of_eq h.wsu

theorem headIncident_stand (c : IncidentCause) (t : Nat) (k : Station) (s : State) :
    StationsStand s.wsu (headIncident c t k s).wsu := by
  unfold headIncident
  split
  · exact .refl _
  · simp only
    have h : StationsStand s.wsu (updStation k .fault s).wsu := by
      intro j
      cases k <;> cases j <;> first
        | exact ⟨rfl, .inl rfl, .inl rfl⟩
        | exact ⟨rfl, .inr rfl, .inr rfl⟩
    have hr := (reportFault_worked ((updStation k .fault s).occNow .headIncident t (some (.station k)) (some (.incident c)))
      (updStation k .fault s)).stand
    split
    · exact (h.trans hr).trans (reexamine_worked _ _).stand
    · exact h.trans hr

/-- A close releases the stations (R12): no pending head, no returns, the latest crossing standing. -/
theorem closePassage_stand (t : Nat) (c : CloseCause) (s : State) : StationsStand s.wsu (closePassage t c s).wsu := by
  have h1 : ∀ (n : Nat) (s : State), Worked s (discardApproach n s) := by
    intro n
    induction n with
    | zero => exact .refl
    | succ n ih =>
      intro s
      unfold discardApproach
      split
      · split
        · exact (removeTail_worked s).trans (ih _)
        · exact .refl s
      · exact .refl s
  have h2 : ∀ (k : Station) (s : State), StationsStand s.wsu (closePending t s k).wsu := by
    intro k s
    unfold closePending
    split
    · exact headIncident_stand _ _ _ _
    · exact .refl _
  have h3 : ∀ s : State, (finalisePassage t c s).wsu = s.wsu := by
    intro s
    have hf : ∀ (l : List (Nat × Wagon)) (s : State), (l.foldl (fun s r => finalUpdate r.1 s) s).wsu = s.wsu := by
      intro l
      induction l with
      | nil => exact fun _ => rfl
      | cons r l ih =>
        intro s
        refine (ih _).trans ?_
        show (finalUpdate r.1 s).wsu = s.wsu
        unfold finalUpdate
        split
        · rfl
        · split <;> rfl
    unfold finalisePassage
    simp only
    exact hf _ _
  have hc : StationsStand s.wsu (closeFirst t c s).wsu := by
    unfold closeFirst
    simp only [List.foldl_cons, List.foldl_nil]
    refine StationsStand.trans ?_ (.of_eq (h3 _))
    have h4 := ((((h1 s.axt.train.length s).stand).trans (h2 .s1 _)).trans (h2 .s2 _)).trans (h2 .s3 _)
    have h5 : ∀ m : State, StationsStand s.wsu m.wsu →
        StationsStand s.wsu (if m.axt.abandoned = true then m else evaluate t true m).wsu := by
      intro m h
      split
      · exact h
      · exact h.trans (evaluate_worked _ _ _).stand
    exact h5 _ h4
  refine hc.trans ?_
  show StationsStand _ (closeLast _).wsu
  rw [(closeLast_frame _).2.2.2.2.1]
  intro j
  cases j <;> exact ⟨rfl, .inr rfl, .inr rfl⟩

/-- The tracker's processing of a crossing leaves each station its latest crossing, and sets no pending head (R7, R9). -/
theorem takeCrossing_stand (c : Crossing) (s : State) : StationsStand s.wsu (takeCrossing c s).wsu := by
  unfold takeCrossing
  split
  · have h1 : (openPassage c s).wsu = s.wsu := by
      have e := openPassage_eq c s
      generalize (openPassage c s).stc = x, (openCalibration (openRecord c s)).ptb = y, (openRecord c s).axt = z,
        (openTable c.direction c.time s).fau = w at e
      generalize openPassage c s = m at e
      subst e
      simp only [raiseAtt, evalAttn, State.setFau_wsu, State.setStc_wsu, State.setZcl_wsu, State.setAxt_wsu, State.setPtb_wsu]
    have h2 : ∀ (x : Post) (m : State), StationsStand m.wsu (endStationTest x c m).wsu := by
      intro x m
      unfold endStationTest
      simp only
      split
      · exact headIncident_stand _ _ _ _
      · exact .refl _
    unfold openWith
    simp only
    generalize openPassage c s = m at h1
    exact ((StationsStand.of_eq h1).trans (h2 (postOf c.direction c.station) m)).trans (appendAxle_worked _ _ _).stand
  · split
    · exact .of_eq rfl
    · simp only
      split
      · unfold forward
        split
        · next h => exact (tryForward_worked h).stand
        · split
          · exact (phantom_worked _ _).stand
          · next k _ =>
            simp only
            have h := headIncident_stand .upstream c.time k s
            generalize headIncident .upstream c.time k s = m at h
            refine h.trans ?_
            cases h : tryForward (postOf _ c.station) c m with
            | none => exact (phantom_worked _ _).stand
            | some z => exact (tryForward_worked h).stand
      · unfold backward
        split
        · exact (phantom_worked _ _).stand
        · simp only
          split
          · exact (Worked.trans (s' := touch c.time s) {} (moveBack_worked _ _ _ _)).stand
          · have h : Worked s (removeTail (touch c.time s)) := Worked.trans (s' := touch c.time s) {} (removeTail_worked _)
            split
            · exact h.stand.trans (closePassage_stand _ _ _)
            · exact h.stand

end Sys2Proof.Machine
end

