-- ==== Sys2Proof/Laws/Stores.lean ====
section
/-! SUPPORT. What the ends of store writes, of operations and of the load do: each changes the store, the STC and the FAU,
and the load the units it starts. -/

namespace Sys2Proof.Machine

set_option Elab.async false

/-! ### One write and what follows it (R169, R167, R88) -/

theorem storeFault_eq (op : StoreOp) (w : Option WritePhase) (s : State) :
    storeFault op w s = s.setFau (storeFault op w s).fau := reportFault_eq _ _

/-- A verified cell write leaves its value in its cell, which is then in use. -/
theorem endCellWrite_verified {b : Busy} {c : CellId} {v : Cell} (h : b.write = some (c, v)) (s : State) :
    endCellWrite b true s =
      (s.setStore (s.store.setCell c (some v))).setStc { s.stc with cell := c, sequence := v.sequence } := by
  unfold endCellWrite leaveCell
  rw [h]
  rfl

/-- A cell write that fails its verify changes its own cell only, and reports STORE_FAULT for the write. -/
theorem endCellWrite_failed {b : Busy} {c : CellId} {v : Cell} (h : b.write = some (c, v)) (s : State) :
    ∃ held, endCellWrite b false s =
      storeFault b.op (some b.phase) ((s.setStore (s.store.setCell c held)).drawFree) := by
  unfold endCellWrite leaveCell
  rw [h]
  refine ⟨_, if_neg ?_⟩
  simp [h]

/-- The end of a closing write is the write's end and then the operation's, the capture apart; the capture is the one that
the two orders of their occurrences can leave (R179), and with a verified write there is but one order. -/
theorem endClosing_eq (b : Busy) (verified : Bool) (finish : State → State) (s : State) :
    ∃ k, endClosing b verified finish s = (finish (endCellWrite b verified s)).setFau
        { (finish (endCellWrite b verified s)).fau with capture := k } ∧
      (k = (finish (endCellWrite b verified s)).fau.capture ∨
        (verified = false ∧ k = (reportCellWrite b false (finish (leaveCell b false s))).fau.capture)) := by
  refine ⟨_, rfl, ?_⟩
  cases verified
  · cases Config.operationEndFirst s.freeCount
    · exact .inl rfl
    · exact .inr ⟨rfl, rfl⟩
  · exact .inl rfl

/-- A verified closing write brings no occurrence of its own. -/
theorem endClosing_verified (b : Busy) (finish : State → State) (s : State) :
    endClosing b true finish s = finish (endCellWrite b true s) := rfl

/-- The store, its cells apart, is left by a cell write. -/
theorem setCell_frame (x : Store) (c : CellId) (v : Option Cell) : (x.setCell c v).cell c.other = x.cell c.other ∧
    (x.setCell c v).places = x.places ∧ (x.setCell c v).classes = x.classes ∧ (x.setCell c v).image = x.image ∧
    (x.setCell c v).shadow = x.shadow := by
  cases c <;> exact ⟨rfl, rfl, rfl, rfl, rfl⟩

/-- What follows a reservation write or an item is an operation in hand, and nothing else changes. -/
theorem continueOperation_eq (b : Busy) (s : State) :
    continueOperation b s = s.setStc { s.stc with busy := (continueOperation b s).stc.busy } := by
  unfold continueOperation
  split <;> rfl

theorem continueOperation_item {b : Busy} (h : b.op = .registerCommit) (hi : b.items ≠ []) (s : State) :
    (continueOperation b s).stc.busy = some { b with phase := .body, due := b.due + 60, write := none } := by
  obtain ⟨op, phase, due, write, items, failed⟩ := b
  subst h
  cases items with
  | nil => exact absurd rfl hi
  | cons i l => rfl

theorem continueOperation_image {b : Busy} (h : b.op = .calibrationCommit) (s : State) :
    (continueOperation b s).stc.busy = some { b with phase := .body, due := b.due + 800, write := none } := by
  obtain ⟨op, phase, due, write, items, failed⟩ := b
  subst h
  cases items <;> rfl

theorem continueOperation_closing {b : Busy} (h : b.op = .passageNumber ∨ (b.op = .registerCommit ∧ b.items = []))
    (s : State) : (continueOperation b s).stc.busy = some (b.closing b.failed s.stc.cell s.stc.sequence s.ptb.lastNumber) := by
  unfold continueOperation
  rcases h with h | ⟨h, hi⟩
  · rw [h]; rfl
  · rw [h, hi]; rfl

/-! ### The end of an operation (R165) -/

/-- The STC after an operation: the outcome on record, and the waiting passage-number write in hand. -/
def Stc.ended (x : Stc) (op : StoreOp) (ok : Bool) (due lastNumber : Nat) : Stc :=
  { x.record op ok with
      waiting := false
      busy := if x.waiting then some ⟨.passageNumber, .reservation, due + 200,
        some (x.cell.other, ⟨numberAfter lastNumber 1000, (x.sequence + 1) % 65536⟩), [], false⟩ else none }

theorem Stc.record_frame (x : Stc) (op : StoreOp) (ok : Bool) : (x.record op ok).waiting = x.waiting ∧
    (x.record op ok).cell = x.cell ∧ (x.record op ok).sequence = x.sequence := by
  unfold Stc.record
  split <;> exact ⟨rfl, rfl, rfl⟩

/-- The end of an operation changes the STC, as said, and the FAU, with STORE raised. -/
theorem endOperation_eq (op : StoreOp) (ok : Bool) (due : Nat) (s : State) :
    ∃ f : Fau, endOperation op ok due s = (s.setStc (s.stc.ended op ok due s.ptb.lastNumber)).setFau f ∧
      f.attention.getLsbD 5 = true := by
  have hm : ∃ f, (if ok then s.setStc { s.stc.record op ok with busy := none }
      else storeFault op none (s.setStc { s.stc.record op ok with busy := none })) =
        (s.setStc { s.stc.record op ok with busy := none }).setFau f := by
    cases ok
    · exact ⟨_, storeFault_eq ..⟩
    · exact ⟨s.fau, rfl⟩
  obtain ⟨f, hm⟩ := hm
  obtain ⟨h1, h2, h3⟩ := s.stc.record_frame op ok
  unfold endOperation
  simp only
  rw [hm]
  refine ⟨(raiseAtt .store ((s.setStc { s.stc.record op ok with busy := none }).setFau f)).fau, ?_, by
    simp [raiseAtt, evalAttn, attSet, attNum]⟩
  have hr : raiseAtt .store ((s.setStc { s.stc.record op ok with busy := none }).setFau f) =
    (s.setStc { s.stc.record op ok with busy := none }).setFau
      (raiseAtt .store ((s.setStc { s.stc.record op ok with busy := none }).setFau f)).fau := rfl
  generalize (raiseAtt .store ((s.setStc { s.stc.record op ok with busy := none }).setFau f)).fau = g at hr
  rw [hr]
  unfold startWaiting Stc.ended
  cases hw : s.stc.waiting
  · simp [h1, hw, State.setFau, State.setStc]
  · simp [h1, h2, h3, hw, startOperation, setBusy, State.reservedNumber, Stc.nextWrite, cellTicks, State.setFau, State.setStc]

/-! ### The end of the load (R171, R199) -/

theorem get_ofFn {α : Type} (f : Fin 8 → α) (c : Fin 8) : (PerChannel.ofFn f).get c = f c := by
  revert c
  exact fun | 0 | 1 | 2 | 3 | 4 | 5 | 6 | 7 => rfl

/-- The calibration that the load takes is a function of the store, and the working set's pattern is fitted. -/
theorem loadCalibration_cal (s : State) :
    (loadCalibration s).cal = ⟨(examineImage s.store).1, (examineImage s.store).1, (examineImage s.store).2.1,
      (examineImage s.store).2.2.1, .idle, none, none⟩ ∧
    (loadCalibration s).zcl.zeros = (examineImage s.store).1.zero ∧
    ∀ c, ((loadCalibration s).lcu.channels.get c).fitted = inPattern (loadCalibration s).cal.working.fitted c := by
  have h : ∀ m : State, ∀ t v, (applyPattern t v m).cal = m.cal ∧ (applyPattern t v m).zcl = m.zcl ∧
      ∀ c, ((applyPattern t v m).lcu.channels.get c).fitted = inPattern v c := by
    intro m t v
    obtain ⟨x, y, z, n, e, hx, _⟩ := applyPattern_evaluated t v m
    rw [e]
    refine ⟨rfl, rfl, fun c => ?_⟩
    show (x.channels.get c).fitted = _
    rw [hx]
    show ((PerChannel.ofFn fun c => (m.lcu.channels.get c).refit (inPattern v c)).get c).fitted = _
    rw [get_ofFn]
    unfold Channel.refit
    split <;> simp_all
  unfold loadCalibration
  simp only
  generalize examineImage s.store = x
  refine ⟨(h _ _ _).1, congrArg Zcl.zeros (h _ _ _).2.1, fun c => ?_⟩
  rw [(h _ _ _).2.2, (h _ _ _).1]
  rfl

theorem takeAll_eq : ∀ (l : List FaultOcc) (s : State), takeAll l s = s.setFau (takeAll l s).fau
  | [], _ => rfl
  | o :: l, s => by
    have h := takeAll_eq l (takeFault o s)
    have e := takeFault_eq o s
    show takeAll l (takeFault o s) = s.setFau (takeAll l (takeFault o s)).fau
    generalize takeAll l (takeFault o s) = z at h
    rw [e] at h
    exact h

/-- The end of the load is READY with the tables and the calibration read; PERMIT and the faults are taken last. -/
theorem finishLoad_eq (first : Bool) (s : State) : ∃ (y : Ptb) (f : Fau), finishLoad first s =
    (((loadCalibration (loadTables (s.advance loadTicks))).setCondition .ready).setPtb y).setFau f := by
  unfold finishLoad
  simp only
  generalize loadFaults first (s.advance loadTicks).timebase (s.advance loadTicks).store = l
  generalize (loadCalibration (loadTables (s.advance loadTicks))).setCondition .ready = m
  have h : takeHeld l m = m.setFau (takeHeld l m).fau := takeAll_eq _ _
  generalize takeHeld l m = n at h
  have e := evalPermit_eq n
  generalize evalPermit n = r at e
  rw [e, h]
  exact ⟨_, _, rfl⟩

end Sys2Proof.Machine
end

