-- ==== Sys2Proof/Tests/Slice0.lean ====
section
/-! SUPPORT. Small checks of the model: ill-formed commands that the check refuses, single steps against the figures the
manual prints, and for each statement with hypotheses a state and operands that meet them. -/

namespace Sys2Proof.Tests
open Sys2Proof.Machine

set_option Elab.async false

/-! ### States to start from -/

/-- The state after a command; every command answers one. -/
def after (c : Instr) (s : State) : State :=
  match exec c s with
  | .next t => t
  | _ => s

/-- A store as a commissioned part holds it: the factory set with counter 3, and two sound cells. -/
def goodStore : Store := ⟨some (factoryDefaults, 3), some 3, [], [], some ⟨40, 7⟩, some ⟨1040, 6⟩⟩

/-- A part at power-on over that store. -/
def starting : State := { State.reset with store := goodStore }

/-- A part at power-on over a store nothing of which passes its check. -/
def unsound : State := { State.reset with store := ⟨none, none, [(1, .bad)], [(0, .bad)], none, none⟩ }

/-- The part after its start-up. -/
def ready : State := after (.storeLoadEnd true) starting

/-- The part without power. -/
def dark : State := { State.reset with powered := false }

/-- The part with every channel ACTIVE and both platforms IN_SERVICE. -/
def poised : State :=
  { ready with
      lcu := ⟨.all ⟨true, .active, 400, none, 0, none, none⟩, ⟨⟨.present, .inService⟩, ⟨.present, .inService⟩⟩, none⟩
      ptb := { ready.ptb with permit := .asserted } }

/-- The part with passage 41 open in direction UP since tick 6,000, over an empty bridge. -/
def opened : State :=
  { poised with
      axt := ⟨some ⟨41, .up, 6000, 6000⟩, [], 0, false, 0⟩
      ptb := { poised.ptb with lastNumber := 41, directory := [DirEntry.start 41 .up 6000] } }

/-- A pending head at station 1. -/
def pendingAt (h : Head) (t m : Nat) (s : State) : State :=
  { s with wsu := ⟨⟨.ok, some ⟨h, t, m⟩, 0, none⟩, s.wsu.s2, s.wsu.s3⟩ }

/-- The switch at CALIBRATE. -/
def calibrating (s : State) : State := { s with calsw := .calibrate }

/-- An operation in hand. -/
def busyWith (op : StoreOp) (p : WritePhase) (items : List Item) (s : State) : State :=
  { s with stc := { s.stc with busy := some ⟨op, p, 6000, some (.second, ⟨40, 8⟩), items, false⟩ } }

/-- Readings of one raw count on every channel. -/
def reads (v : Int) : Readings := ⟨.all v, ⟨.present, .present⟩⟩

/-- A class record. -/
def someClass : ClassRec := ⟨.wagon, [1800, 6000, 1800], 100, 2000, 4000, 90000, 25000⟩

/-- The same class as CLASS_DEFINE carries it. -/
def someFields : ClassFields := ⟨1, 0, 4, [1800, 6000, 1800], 100, 2000, 4000, 90000, 25000⟩

/-- A record in slot 0. -/
def recordIn (st : RecState) (p : Option Nat) (f : Option Nat) (s : State) : State :=
  { s with ptb := { s.ptb with slots := [(0, { Wagon.blank .table p 1 with state := st, fleet := f })] } }

/-- The open passage 41 with one axle, in FIRST since tick 6,050. -/
def rolling : State := after (.headEvent 6100 .s1 .b) (after (.headEvent 6000 .s1 .a) poised)

/-- A crossing at tick 7,000. -/
def crossingAt (k : Station) (d : Direction) : Crossing := ⟨k, d, 7000, 100, 1800⟩

/-- The same passage with its axle in SECOND. -/
def rolledOn : State := takeCrossing (crossingAt .s2 .up) rolling

/-- The part with eight CLOSED passages in its directory, and PERMIT withdrawn for it. -/
def crammed : State :=
  { poised with ptb := { poised.ptb with
      permit := .withdrawn
      directory := (List.range 8).map fun n => { DirEntry.start (n + 1) .up n with close := some (n + 1, .host) } } }

/-- A register record of fleet number 7 at place 0. -/
def registered (s : State) : State :=
  { s with wrg := ⟨[(7, ⟨⟨7, none, some 20000, none, 0x02, none, none, 0⟩, 0, false, false⟩)], []⟩ }

/-- The reply that stands in service. -/
def replyOf (s : State) : Option (Byte × ReplyCode × List Byte) := s.slk.service.map fun q => (q.target, q.outcome, q.data)

/-! ### Ill-formed commands are refused by the check, one for each of its checks -/

theorem test_wf_time : Instr.wf (.headEvent (2 ^ 48) .s1 .a) = false ∧ Instr.wf (.headEvent (2 ^ 48 - 1) .s1 .a) = true := by decide
theorem test_wf_instant_step : Instr.wf (.samplingInstant 15 (reads 0)) = false ∧ Instr.wf (.samplingInstant 20 (reads 0)) = true := by
  decide
theorem test_wf_reading : Instr.wf (.samplingInstant 20 (reads 8388608)) = false ∧
    Instr.wf (.samplingInstant 20 (reads (-8388608))) = true := by decide
theorem test_wf_one_byte : Instr.wf (.chanRead 0 0 256) = false ∧ Instr.wf (.chanRead 0 0 255) = true := by decide
theorem test_wf_two_bytes : Instr.wf (.expect 0 0 0 65536 none none) = false := by decide
theorem test_wf_four_bytes : Instr.wf (.passClose 0 0 4294967296) = false := by decide
theorem test_wf_six_bytes : Instr.wf (.regRead 0 0 281474976710656) = false := by decide
theorem test_wf_option : Instr.wf (.regAdd 0 0 1 (some 256) none none 0) = false := by decide
theorem test_wf_signed : Instr.wf (.calStage 0 0 1 0 2147483648 []) = false ∧
    Instr.wf (.calStage 0 0 1 0 (-2147483648) []) = true := by decide
theorem test_wf_bands : Instr.wf (.calStage 0 0 14 0 0 (List.replicate 40 ⟨1, 0⟩)) = false := by decide
theorem test_wf_reference : Instr.wf (.assign 0 0 ⟨256, 0, 0⟩ 1) = false := by decide
theorem test_wf_settings : Instr.wf (.settingsWrite 0 0 1 { defaultSettings with triggerCount := 256 }) = false := by decide
theorem test_wf_values : Instr.wf (.regChange 0 0 1 2 ⟨none, none, none, none, none, none, some 65536⟩) = false := by decide
theorem test_wf_class : Instr.wf (.classDefine 0 0 { someFields with tolerance := 65536 }) = false ∧
    Instr.wf (.classDefine 0 0 someFields) = true := by decide

/-! ### Figures that the manual prints -/

/-- The CRC check value, and the TIME request of the example: 5A 03 17 01 04 AA 5A (R191). -/
theorem test_crc : crc [0x31, 0x32, 0x33, 0x34, 0x35, 0x36, 0x37, 0x38, 0x39] = 0x29B1 ∧
    crc [0x03, 0x17, 0x01, 0x04] = 0xAA5A := by decide +kernel

/-- The example's request, byte by byte through the receiver, is served with the tag 0x17 (R192, R195). -/
theorem test_time_frame :
    replyOf ([0x5A, 0x03, 0x17, 0x01, 0x04, 0xAA, 0x5A].foldl (fun s b => after (.byteReceived 6000 b false) s) ready) =
      some (1, .ok, [0, 0, 0, 0, 0x17, 0x70]) := by decide +kernel

/-- A crossing of heads a and b at 250 mm: mean time, interval and speed in tenths of a km/h (R7). -/
theorem test_crossing : crossingOf 250 .s1 ⟨.a, 1000410, 0⟩ 1000590 = ⟨.s1, .up, 1000500, 180, 1000⟩ := by decide

/-- The window of 4,000 ticks whose ends are multiples of 10 holds 401 samples (R54). -/
theorem test_sample_count : sampleCount 1000500 1004500 = 401 ∧ sampleCount 11 19 = 0 ∧ sampleCount 10 10 = 1 := by decide

/-- A value half-way is rounded away from zero (00, section 4.3). -/
theorem test_rounding : roundDiv 5 2 = 3 ∧ roundDiv (-5) 2 = -3 ∧ roundDiv 4 3 = 1 ∧ roundDiv (-4) 3 = -1 := by decide

/-- Passage numbers run from 4,294,967,295 to 1 (R27); the number after a single sound cell is 1,001 on (R170). -/
theorem test_numbers : numberAfter 4294967295 1 = 1 ∧ numberAfter 41 1 = 42 ∧
    (loadCells (some ⟨1206, 3⟩) none).1 = 2207 := by decide

/-- The factory set is valid; a set that fits no channel on one rail fails field 1 (R81, R82). -/
theorem test_validation : validate factoryDefaults = none ∧
    validate { factoryDefaults with fitted := 3 } = some (1, none) ∧
    validate { factoryDefaults with measMax := 100 } = some (16, none) := by decide

/-- The end of the load over a sound store: VALID, READY, the counter of the image, and the cell written later (R91, R170). -/
theorem test_ready : ready.condition = .ready ∧ ready.cal.state = .valid ∧ ready.cal.counter = 3 ∧
    ready.ptb.lastNumber = 40 ∧ ready.timebase = 5000 ∧ ready.ptb.permit = .withdrawn ∧ ready.fau.capture = none := by
  decide +kernel

/-- An unsound store loses its calibration and both cells, and says so (R92, R171). -/
theorem test_unsound_store : (after (.storeLoadEnd true) unsound).cal.state = .invalid ∧
    (after (.storeLoadEnd true) unsound).cal.counter = 65535 ∧
    (after (.storeLoadEnd true) unsound).fau.capture.map (·.kind) = some .calInvalid ∧
    (after (.storeLoadEnd false) unsound).fau.capture.map (·.kind) = some .storeRecordsLost := by decide +kernel

/-! ### Single steps -/

theorem test_powerOn : (after .powerOn dark).powered = true ∧ (after .powerOn dark).condition = .starting := by decide
theorem test_lossOfPower : (after .lossOfPower ready).powered = false ∧ (after .lossOfPower ready).store = goodStore := by
  decide +kernel
theorem test_restart_and_reset :
    (after (.restart 6000 1) ready).condition = .restarting ∧
      (after .reset (after (.replySent 6010) (after (.restart 6000 1) ready))).condition = .starting := by decide +kernel

/-- A crossing at station 1 opens passage 41, appends one axle in FIRST, opens its window, and starts a reservation (R27). -/
theorem test_opening :
    let s := after (.headEvent 6100 .s1 .b) (after (.headEvent 6000 .s1 .a) poised)
    s.openNumber = some 41 ∧ s.axt.train.map (·.zone) = [.first] ∧ s.axt.train.map (·.windows.first) = [some 6050] ∧
      s.zcl.freeze = true ∧ s.stc.busy.map (·.op) = some .passageNumber ∧ s.fau.attention = 0x02 := by decide +kernel

/-- The same axle set back over station 1 leaves the bridge, and the passage closes with cause BACKED_OFF (R45, R50). -/
theorem test_backing_off :
    let s := after (.headEvent 8100 .s1 .a) (after (.headEvent 8000 .s1 .b)
      (after (.headEvent 6100 .s1 .b) (after (.headEvent 6000 .s1 .a) poised)))
    s.openNumber = none ∧ s.ptb.directory.map (·.close) = [some (8050, .backedOff)] ∧ s.axt = Axt.reset := by decide +kernel

theorem test_return : (after (.headEvent 6010 .s1 .a) (pendingAt .a 6000 0 ready)).wsu.s1.returns = 1 := by decide +kernel
theorem test_closeTimeout : (after .closeTimeout opened).ptb.directory.map (·.close) =
    [some (2406000, .idleTimeout)] := by decide +kernel
theorem test_phantom : (phantom ⟨.s3, .down, 7000, 100, 900⟩ opened).axt.phantom = 1 := by decide +kernel
theorem test_sampling : (after (.samplingInstant 6010 (reads 5)) poised).lcu.channels.c3.last = some (5, 6010) ∧
    (after (.samplingInstant 6010 (reads 5)) poised).meu.a.history.length = 1 := by decide +kernel
theorem test_settling : (after (.settlingComplete 6010 2 (reads 5)) { poised with
    lcu := { poised.lcu with channels := .all ⟨true, .settling, 399, none, 0, none, none⟩ } }).lcu.channels.c2.state =
      .active := by decide +kernel
theorem test_overrange : (after (.overrangeFault 6010 2 (reads 8388607)) { poised with
    lcu := { poised.lcu with channels := .all ⟨true, .active, 400, none, 39, none, none⟩ } }).lcu.channels.c2.onset =
      some 5620 := by decide +kernel
/-- Both platforms go OUT at one re-evaluation: the capture holds the one or the other (R179), the LCU is the same. -/
theorem test_bothOut : let s := { poised with cal := { poised.cal with state := .invalid } }
    ((evalPlatforms 6010 s).lcu.platforms.a.service, (evalPlatforms 6010 s).lcu.platforms.b.service) = (.out, .out) ∧ (evalPlatforms 6010 s).ptb.permit = .withdrawn ∧
      ((evalPlatforms 6010 s).fau.capture.map (·.unit) = some (some (.platform .a)) ∨
        (evalPlatforms 6010 s).fau.capture.map (·.unit) = some (some (.platform .b))) := by
  refine ⟨by decide +kernel, by decide +kernel, ?_⟩
  unfold evalPlatforms
  cases Config.platformBFirst _
  · exact .inl (by decide +kernel)
  · exact .inr (by decide +kernel)
/-- Two channels at the fortieth overrange sample tie, with one rank each; the channels of one ABSENT platform do not. -/
theorem test_faultTies : let near := { poised with lcu := { poised.lcu with channels := .all ⟨true, .active, 400, none, 39, none, none⟩ } }
    (channels.filter (fails 6010 (reads 8388607) near)).map (faultSlot (reads 8388607)) = [0, 1, 2, 3, 4, 5, 6, 7] ∧
      channelOrder 6010 ⟨.all 0, ⟨.absent, .present⟩⟩ near = channels ∧
      (channels.filter (fails 6010 ⟨.all 0, ⟨.absent, .absent⟩⟩ near)).map (faultSlot ⟨.all 0, ⟨.absent, .absent⟩⟩) =
        [8, 8, 8, 8, 9, 9, 9, 9] := by decide +kernel
/-- Both blocks full, each with a zero fault to bring, and each without. -/
theorem test_zeroTies : let full := fun (n : Nat) (load : Int) => { poised with zcl := { poised.zcl with
      platforms := poised.zcl.platforms.map fun z => { z with offZero := n, block := ⟨1999, .all 0, load * 2000, some 0, some 0⟩ } } }
    [Platform.a, .b].map (bringsZeroFault (.all 0) (full 29 400000)) = [true, true] ∧
      [Platform.a, .b].map (bringsZeroFault (.all 0) (full 28 0)) = [false, false] := by decide +kernel
theorem test_switch : (after (.calswChange 6010 .calibrate) opened).fau.capture.map (·.kind) = some .calSwitch ∧
    (after (.calswChange 6010 .calibrate) opened).ptb.directory.map (·.unverified) = [true] := by decide +kernel
theorem test_reservation_write : (after (.reservationWriteEnd true) (busyWith .passageNumber .reservation [] ready)).stc.busy.map
    (·.due) = some 6200 := by decide +kernel
theorem test_passage_number_end : (after (.passageNumberEnd true) (busyWith .passageNumber .closing [] ready)).store.cell2 =
    some ⟨40, 8⟩ := by decide +kernel
theorem test_trigger : (after .triggerIdleExpiry { ready with fau := { ready.fau with trigger := 1, lastCompletion := some 6000 } }).fau.attention =
    0x01 := by decide +kernel
theorem test_gap : (after .gapTimeout { ready with slk := { ready.slk with receiver := .length } }).slk.stats.gap = 1 := by
  decide +kernel
theorem test_break : (after (.linkBreak 6000) ready).slk.stats.breaks = 1 := by decide +kernel

theorem test_settingsRead : (replyOf (after (.settingsRead 6000 1) ready)).map (·.2.2.length) = some 20 := by decide +kernel
theorem test_settingsWrite : (after (.settingsWrite 6000 1 0x200 { defaultSettings with attentionMask := 0 }) { ready with
    fau := { ready.fau with attention := 1, attn := true } }).fau.attn = false := by decide +kernel
theorem test_exchangeAttention : (after (.exchangeAttention 6000 1 0xFF) { ready with
    fau := { ready.fau with attention := 5, attn := true } }).fau.attn = false := by decide +kernel
theorem test_exchangeFault : (after (.exchangeFault 6000 1) (after (.storeLoadEnd true) unsound)).fau.capture = none := by
  decide +kernel
theorem test_chanDisable : (after (.chanDisable 6000 1 5) poised).lcu.platforms.b.service = .out ∧
    (after (.chanDisable 6000 1 5) poised).fau.capture.map (·.kind) = some .platformOut := by decide +kernel
theorem test_zero : (after (.zeroAcquire 6000 1 0) poised).zcl.platforms.a.acq.state = .collecting := by decide +kernel
theorem test_calCommit : (after (.calCommit 6000 1) (calibrating ready)).stc.busy.map (·.due) = some 6200 ∧
    replyOf (after (.calCommit 6000 1) ready) = some (3, .locked, []) := by decide +kernel
theorem test_expect : (after (.expect 6000 1 0 1 (some 7) none) (registered ready)).ptb.slots.map (·.2.state) = [.expected] := by
  decide +kernel
theorem test_assign : (after (.assign 6000 1 ⟨0, 41, 1⟩ 7) (registered (recordIn .complete (some 41) none opened))).ptb.slots.map
    (fun r => (r.2.fleet, r.2.own.lateBound)) = [(some 7, true)] := by decide +kernel
theorem test_retire : (after (.retireRecord 6000 1 ⟨1, 0, 0⟩) (recordIn .final (some 40) none ready)).ptb.slots = [] := by
  decide +kernel
theorem test_regAdd : (after (.regAdd 6000 1 9 none none none 0) (registered ready)).wrg.records.map (fun r => (r.1, r.2.place)) =
    [(7, 0), (9, 1)] := by decide +kernel
theorem test_regFlags : replyOf (after (.regFlagsXor 6000 1 7 3) (registered ready)) = some (6, .ok, [2, 1]) := by decide +kernel
theorem test_regCommit : (after (.registerCommitItem true) (after (.reservationWriteEnd true) (after (.regCommit 6000 1)
    (after (.regAdd 6000 1 9 none none none 0) ready)))).store.places.length = 1 := by decide +kernel
theorem test_classDefine : (after (.classDefine 6000 1 someFields) ready).seg.classes = [(1, someClass)] := by decide +kernel

/-! ### Each statement with hypotheses: a state and operands that meet them, clause by clause

A witness is named after its statement; clauses that share a hypothesis share its line. -/

theorem witness_PowerIsAppliedAndLost : dark.powered = false := by decide
theorem witness_EveryCommandLeavesTheQueue : dark.powered = false ∧ Instr.calswChange 0 .calibrate ≠ .powerOn := by decide
theorem witness_StepTakesFrontCommand : ready.pending = [] := by decide +kernel
theorem witness_PowerIsAppliedAndLost_cut :
    let item : Item := .write 4095 ⟨7, none, none, none, 0, none, none, 0⟩
    let hand := fun (op : StoreOp) (p : WritePhase) (l : List Item) => (busyWith op p l ready).stc.busy
    ready.powered = true ∧ ready.stc.busy = none ∧ Table.wf ready.store.classes = true ∧
      hand .load .reading [] = some ⟨.load, .reading, 6000, some (.second, ⟨40, 8⟩), [], false⟩ ∧
      hand .calibrationCommit .reservation [] = some ⟨.calibrationCommit, .reservation, 6000, some (.second, ⟨40, 8⟩), [], false⟩ ∧
      hand .passageNumber .reservation [] = some ⟨.passageNumber, .reservation, 6000, some (.second, ⟨40, 8⟩), [], false⟩ ∧
      hand .passageNumber .closing [] = some ⟨.passageNumber, .closing, 6000, some (.second, ⟨40, 8⟩), [], false⟩ ∧
      hand .calibrationCommit .body [] = some ⟨.calibrationCommit, .body, 6000, some (.second, ⟨40, 8⟩), [], false⟩ ∧
      hand .registerCommit .body [item] = some ⟨.registerCommit, .body, 6000, some (.second, ⟨40, 8⟩), [item], false⟩ ∧
      hand .registerCommit .body [.erase 0] = some ⟨.registerCommit, .body, 6000, some (.second, ⟨40, 8⟩), [.erase 0], false⟩ ∧
      hand .registerCommit .body [.classArea []] =
        some ⟨.registerCommit, .body, 6000, some (.second, ⟨40, 8⟩), [.classArea []], false⟩ := by decide +kernel
theorem witness_LoadEndFinishesStartUp : starting.powered = true ∧
    starting.stc.busy = some ⟨.load, .reading, 5000, none, [], false⟩ ∧
    starting.settings.lowWater < starting.settings.highWater := by decide
/-- The occurrences that the load's end can take: of an image that fails its check or its validation, and of what is lost;
both platforms are OUT before it. -/
theorem witness_LoadEndFinishesStartUp_occurrences :
    (unsound.powered = true ∧ unsound.condition = .starting ∧ starting.condition = .starting ∧
      unsound.stc.busy = some ⟨.load, .reading, 5000, none, [], false⟩) ∧
      (unsound.store.image = none ∧ unsound.store.places.length ≠ (loadRecords unsound.store.places).length ∧
        (unsound.store.cell1.isNone && unsound.store.cell2.isNone) = true) ∧
      (goodStore.image = some (factoryDefaults, 3) ∧ validate factoryDefaults = none ∧
        (validate { factoryDefaults with nMin := 7 }).map (·.1) = some 8) ∧
      (∀ p, (unsound.lcu.platforms.get p).service = .out) ∧
      (after (.storeLoadEnd true) unsound).fau.counts.sum = 2 := by
  refine ⟨by decide, by decide, by decide, fun p => by cases p <;> decide, by decide +kernel⟩
theorem witness_StartUpReadsTheStore :
    (goodStore.image = some (factoryDefaults, 3) ∧ validate factoryDefaults = none) ∧ unsound.store.image = none ∧
      validate { factoryDefaults with nMin := 7 } ≠ none ∧
      (0 = (65535 + 1) % 65536) ∧ (7 ≠ (7 + 1) % 65536) ∧ 4294966294 + 1001 ≤ 4294967295 ∧
      (4294966295 ≤ 4294967295 ∧ 4294967295 < 4294966295 + 1001) := by decide
theorem witness_EveryCommandLeavesTheQueue_startUp : (Instr.regCount 0 1).request? = some (0, 1, .reg) ∧
    (Instr.regCount 0 1).servedAlways = false ∧ starting.powered = true ∧ starting.condition = .starting := by decide
theorem witness_RestartThenReset :
    (opened.powered = true ∧ opened.isOpen = true ∧ opened.condition ≠ .starting) ∧
      (ready.isOpen = false ∧ ready.condition = .ready ∧ ready.slk.restartDue = false ∧ poised.ptb.permit = .asserted) ∧
      (let s := after (.replySent 6010) (after (.restart 6000 1) ready)
       s.powered = true ∧ s.condition = .restarting ∧ s.isOpen = false ∧ s.slk.restartDue = false ∧ s.stc.busy = none ∧
         s.stc.waiting = false) ∧
      (after (.restart 6000 1) ready).slk.restartDue = true := by decide +kernel
theorem witness_serving : ready.powered = true ∧ ready.condition ≠ .starting := by decide +kernel
theorem witness_SettingsAreReadAndWritten :
    ((0 : BitVec 16) = 0 ∧ 2047 < (2048 : BitVec 16).toNat) ∧
      (11 ∈ settingIndices ∧ settingNamed 0x7FF 11 = true ∧
        settingOk { defaultSettings with faultMask := 0x4000 } 11 = false ∧
        ∀ j ∈ settingIndices, j < 11 → settingOk { defaultSettings with faultMask := 0x4000 } j = true) ∧
      (1 ∈ settingIndices ∧ settingNamed 1 1 = true ∧ settingOk { defaultSettings with triggerCount := 0 } 1 = false) ∧
      ((2047 : BitVec 16).toNat ≤ 2047 ∧ (∀ k ∈ settingIndices, settingOk defaultSettings k = true)) ∧
      (Settings.merged 8 { defaultSettings with highWater := 320 } defaultSettings).highWater ≤
        (Settings.merged 8 { defaultSettings with highWater := 320 } defaultSettings).lowWater ∧
      (Settings.merged 0x7FB defaultSettings defaultSettings).lowWater <
        (Settings.merged 0x7FB defaultSettings defaultSettings).highWater ∧ settingNamed 0x7FB 3 = false ∧
      (settingNamed 0x7FB 1 = true ∧ settingNamed 0x7FB 2 = true ∧ settingNamed 0x7FF 3 = true ∧ settingNamed 0x7FB 4 = true ∧
        settingNamed 0x7FB 5 = true ∧ settingNamed 0x7FB 10 = true ∧ settingNamed 0x7E3 4 = false ∧ settingNamed 0x7E3 5 = false ∧
        settingNamed 0x7E3 3 = false) := by decide
theorem witness_SettingsAreReadAndWritten_trigger :
    let s : State := { ready with fau := { ready.fau with trigger := 1, lastCompletion := some 6000 } }
    ready.fau.trigger = 0 ∧
      (1 ≤ s.fau.trigger ∧ ({ defaultSettings with triggerCount := 1 } : Settings).triggerCount ≤ s.fau.trigger) ∧
      ¬ ({ defaultSettings with triggerCount := 2 } : Settings).triggerCount ≤ s.fau.trigger ∧
      6000 + ({ defaultSettings with triggerIdle := 100 } : Settings).triggerIdle * 20 ≤ (s.taking 8000).timebase ∧
      ¬ 6000 + ({ defaultSettings with triggerIdle := 100 } : Settings).triggerIdle * 20 ≤ (s.taking 7999).timebase := by
  decide +kernel
theorem witness_SettingsAreReadAndWritten_closing :
    opened.axt.passage = some ⟨41, .up, 6000, 6000⟩ ∧ opened.occupied = false ∧ rolling.occupied = true ∧
      6000 + ({ defaultSettings with closeTimeout := 10 } : Settings).closeTimeout * 20000 ≤ (opened.taking 206000).timebase ∧
      (opened.taking 205999).timebase < 6000 + ({ defaultSettings with closeTimeout := 10 } : Settings).closeTimeout * 20000 := by
  decide +kernel
theorem witness_OccurrenceIsTakenWhole :
    ready.fau.worst = none ∧ (after (.storeLoadEnd true) unsound).fau.worst = some .severe ∧
      isMasked 0x2000 .linkDropped = true ∧ isMasked 0x1FFF .linkDropped = false ∧ starting.condition = .starting ∧
      ready.condition ≠ .starting ∧ (isMasked ready.settings.faultMask .platformOut = false ∧
        isMasked ready.settings.faultMask .storeFault = false ∧ ready.fau.capture = none) := by decide +kernel
theorem witness_TriggerFiresByCountOrIdleness :
    ready.fau.trigger + 1 ≠ ready.settings.triggerCount ∧
      ({ ready with fau := { ready.fau with trigger := 7, lastCompletion := some 6000 } } : State).fau.trigger + 1 =
        ready.settings.triggerCount ∧
      (7 ≠ 0 ∧ ({ ready.fau with lastCompletion := some 6000 } : Fau).lastCompletion = some 6000) ∧ ready.fau.trigger = 0 := by
  decide +kernel
theorem witness_HeadEventFollowsTheStationRecord :
    (starting.powered = true ∧ starting.condition ≠ .ready) ∧
      (ready.condition = .ready ∧ ready.wsu.s1.state = .ok ∧ ready.wsu.s1.pending = none) ∧
      ((pendingAt .a 6000 0 ready).wsu.s1.pending = some ⟨.a, 6000, 0⟩) ∧ ((2 : Nat) < 3) ∧
      ((pendingAt .b 6000 3 ready).wsu.s1.pending = some ⟨.b, 6000, 3⟩ ∧ ready.isOpen = false) ∧
      ((pendingAt .b 6000 3 opened).wsu.s1.pending = some ⟨.b, 6000, 3⟩ ∧ (pendingAt .b 6000 3 opened).isOpen = true) ∧
      ({ ready with wsu := ready.wsu.map .fault } : State).wsu.s1.state = .faulted := by decide +kernel
theorem witness_PartnerCompletesACrossing : (pendingAt .a 6000 0 ready).powered = true ∧
    (pendingAt .a 6000 0 ready).condition = .ready ∧ (pendingAt .a 6000 0 ready).wsu.s1.state = .ok ∧
    (pendingAt .a 6000 0 ready).wsu.s1.pending = some ⟨.a, 6000, 0⟩ ∧ Head.b ≠ Head.a := by decide +kernel
/-- A partner with a passage open; a head incident at an OK and at a FAULTED station; a head pending at E when M opens. -/
theorem witness_PartnerCompletesACrossing_incident :
    (pendingAt .a 6000 0 opened).isOpen = true ∧ (pendingAt .a 6000 0 opened).wsu.s1.pending = some ⟨.a, 6000, 0⟩ ∧
      opened.condition = .ready ∧ (opened.wsu.get .s2).state = .ok ∧ ready.isOpen = false ∧
      (({ opened with wsu := opened.wsu.map .fault } : State).wsu.get .s2).state = .faulted ∧
      stationOf .up .e = .s1 ∧ ((pendingAt .a 6000 0 ready).wsu.get (stationOf .up .e)).pending ≠ none ∧
      (ready.wsu.get (stationOf .up .e)).pending = none := by decide +kernel
theorem witness_CrossingOpensAPassage : poised.axt = Axt.reset ∧ poised.ptb.lastNumber ≤ 4294967295 ∧
    poised.ptb.directory.length ≤ 8 ∧ (∀ e ∈ poised.ptb.directory, e.close.isSome = true) ∧
    (calibrating poised).calsw = .calibrate ∧
    (tget (recordIn .expected none (some 7) poised).ptb.slots 0).map (·.passage) = some none ∧
    (let s := pendingAt .a 6000 0 poised
     s.powered = true ∧ s.condition = .ready ∧ (s.wsu.get .s1).state = .ok ∧ (s.wsu.get .s1).pending = some ⟨.a, 6000, 0⟩ ∧
       Head.b ≠ Head.a ∧ s.axt = Axt.reset) := by decide +kernel
theorem witness_CrossingOpensAPassage_full : crammed.axt = Axt.reset ∧ crammed.ptb.lastNumber ≤ 4294967295 ∧
    crammed.ptb.directory.length = 8 ∧ (∀ e ∈ crammed.ptb.directory, e.close.isSome = true) ∧
    crammed.ptb.permit = .withdrawn ∧ crammed.condition = .ready ∧ crammed.cal.state = .valid ∧
    crammed.lcu.platforms.a.service = .inService ∧ crammed.ptb.water = .normal ∧
    crammed.usedSlots < crammed.settings.highWater ∧
    (openPassage (crossingAt .s1 .up) crammed).ptb.directory.length = 8 := by decide +kernel
/-- Records of other passages, with room in the directory and with the oldest passage about to leave it. -/
theorem witness_CrossingOpensAPassage_slots :
    (poised.ptb.directory.length < 8 ∧ Table.wf (recordIn .final (some 40) none poised).ptb.slots = true ∧
      (tget (recordIn .final (some 40) none poised).ptb.slots 0).map (·.passage) = some (some 40)) ∧
      (crammed.ptb.directory.map fun e => (e.number, e.openTime)) =
        [(1, 0), (2, 1), (3, 2), (4, 3), (5, 4), (6, 5), (7, 6), (8, 7)] ∧
      (let s := recordIn .final (some 1) none crammed
       Table.wf s.ptb.slots = true ∧ (tget s.ptb.slots 0).map (·.passage) = some (some 1) ∧
         tget (openPassage (crossingAt .s1 .up) s).ptb.slots 0 = none) ∧
      (tget (recordIn .final (some 2) none crammed).ptb.slots 0).map (·.passage) = some (some 2) := by decide +kernel
theorem witness_CrossingMovesAnAxleOrIsPhantom :
    let low := fun (s : State) (x : Post) (z : Zone) => s.lowBefore x ≤ zoneRank z ∧ zoneRank z < zoneRank (zoneAfter x)
    let high := fun (s : State) (x : Post) (z : Zone) => zoneRank (zoneAfter x) ≤ zoneRank z ∧ zoneRank z ≤ s.highAfter x
    rolling.axt.passage.map (fun q => (q.number, q.direction)) = some (41, .up) ∧ rolling.axt.abandoned = false ∧
      rolledOn.axt.passage.map (fun q => (q.number, q.direction)) = some (41, .up) ∧ rolledOn.axt.abandoned = false ∧
      (postOf .up .s1, postOf .up .s2, postOf .up .s3) = (.e, .m, .f) ∧
      rolling.axt.train.map (·.zone) = [.first] ∧ rolledOn.axt.train.map (·.zone) = [.second] ∧
      (low rolling .m .first ∧ low rolledOn .f .second ∧ ¬ low rolledOn .m .second) ∧
      (high rolling .e .first ∧ high rolledOn .m .second ∧ ¬ high rolling .m .first) ∧
      (zoneBefore .m = some .first ∧ zoneBefore .e = none) ∧
      (rolling.axt.train.length = 1 ∧ 1 < (takeCrossing (crossingAt .s1 .up) rolling).axt.train.length) ∧
      (rolling.lowBefore .e = 0 ∧ zoneRank (zoneAfter .e) ≤ zoneRank .first ∧ rolling.axt.train.length < 2048) ∧
      rolling.condition = .ready := by decide +kernel
/-- A forward crossing at M with the one axle in SECOND finds none: with nothing held at station 1, and with a head
pending there. -/
theorem witness_CrossingMovesAnAxleOrIsPhantom_forward :
    rolledOn.lowBefore .m ≠ 0 ∧ rolledOn.deadHead .m = none ∧
      (pendingAt .a 6900 0 rolledOn).lowBefore .m ≠ 0 ∧ (pendingAt .a 6900 0 rolledOn).deadHead .m = some .s1 ∧
      (pendingAt .a 6900 0 rolledOn).axt = rolledOn.axt := by decide +kernel
/-- The same axle with station 2 FAULTED, so that M is not OK. -/
def halved : State := rolling.setWsu (rolling.wsu.set .s2 (rolling.wsu.get .s2).fault)
theorem witness_CrossingBoundsWindowsAndSettles :
    (rolling.axt.train.map fun a => (a.zone, a.windows.first, a.windows.second, a.settled)) = [(.first, some 6050, none, false)] ∧
      (rolledOn.axt.train.map fun a => (a.zone, a.windows.first, a.windows.second, a.settled)) =
        [(.second, none, some 7000, false)] ∧
      (rolling.postOk .e = true ∧ rolling.postOk .m = true ∧ rolling.postOk .f = true ∧ rolling.inLastZone .first = false) ∧
      (halved.postOk .m = false ∧ halved.axt.train[0]?.map (·.windows.first) = some (some 6050)) ∧
      (let t := 6050 + (7050 - 6050) * platformLength halved.cal.working .a /
         (platformLength halved.cal.working .a + platformLength halved.cal.working .b)
       6050 < t ∧ t < 7050) ∧
      ((rolling.setWsu (rolling.wsu.set .s3 (rolling.wsu.get .s3).fault)).postOk .f = false) ∧
      ((halved.setWsu (halved.wsu.set .s3 (halved.wsu.get .s3).fault)).inLastZone .first = true) := by decide +kernel
/-- An axle settled at F, one without a deferral that settles, and the train of 2,048 axles behind E. -/
theorem witness_CrossingBoundsWindowsAndSettles_settled :
    let s := takeCrossing { crossingAt .s3 .up with time := 8000 } rolledOn
    s.axt.train.map (fun a => (a.zone, a.settled, a.windows)) = [(.exit, true, ⟨none, none⟩)] ∧
      (∀ e ∈ rolledOn.meu.a.windows ++ rolledOn.meu.b.windows, e.deferred = none) ∧ s.axt.abandoned = false ∧
      (s.measurable .first = true ∧ halved.measurable .first = true ∧
        (rolling.setWsu (rolling.wsu.set .s1 (rolling.wsu.get .s1).fault)).measurable .first = false) := by decide +kernel
/-- A state with another train. -/
def withTrain (l : List Axle) (s : State) : State := s.setAxt { s.axt with train := l }
theorem withTrain_fields (l : List Axle) (s : State) : (withTrain l s).axt.train = l ∧
    (withTrain l s).axt.passage = s.axt.passage ∧ (withTrain l s).axt.abandoned = s.axt.abandoned ∧
    (withTrain l s).condition = s.condition ∧ (withTrain l s).lowBefore .e = 0 := ⟨rfl, rfl, rfl, rfl, rfl⟩
/-- The open passage with 2,048 axles, all of them in FIRST. -/
theorem witness_CrossingBoundsWindowsAndSettles_full : ∃ s : State, 2048 ≤ s.axt.train.length ∧
    s.axt.passage = rolling.axt.passage ∧ s.axt.abandoned = false ∧ s.condition = .ready ∧ s.lowBefore .e = 0 ∧
    ∀ b ∈ s.axt.train, ¬ (0 ≤ zoneRank b.zone ∧ zoneRank b.zone < zoneRank (zoneAfter .e)) := by
  obtain ⟨train, passage, abandoned, condition, low⟩ :=
    withTrain_fields (List.replicate 2048 (Axle.new .e (crossingAt .s1 .up))) rolling
  have quiet : rolling.axt.abandoned = false := by decide +kernel
  have up : rolling.condition = .ready := by decide +kernel
  refine ⟨_, ?_, passage, abandoned.trans quiet, condition.trans up, low, fun b hb => ?_⟩
  · exact Nat.le_of_eq (by rw [train, List.length_replicate])
  · rw [train] at hb
    rw [List.eq_of_mem_replicate hb]
    decide
theorem witness_PassageClosesOnRequestOrTimeout :
    (ready.openNumber ≠ some 41 ∧ ready.axt.passage = none) ∧
      ((pendingAt .a 6000 0 opened).openNumber = some 41 ∧ (pendingAt .a 6000 0 opened).occupied = true) ∧
      (opened.openNumber = some 41 ∧ opened.occupied = false ∧ opened.axt.passage = some ⟨41, .up, 6000, 6000⟩ ∧
        opened.ptb.directory[0]?.map (·.close) = some none) := by decide +kernel
theorem witness_PassageClosesOnRequestOrTimeout_held :
    let s : State := { opened with
      cal := { opened.cal with phase := .held, snapshot := some factoryDefaults }
      zcl := { opened.zcl with platforms := opened.zcl.platforms.map fun z => { z with acq := { z.acq with state := .suspended } } } }
    s.cal.phase = .held ∧ s.cal.snapshot = some factoryDefaults ∧ opened.cal.phase ≠ .held ∧
      (s.zcl.platforms.get .a).acq.state = .suspended ∧
      (after (.passClose 6000 1 41) s).cal.counter = s.cal.counter + 1 ∧
      ((after (.passClose 6000 1 41) s).zcl.platforms.get .a).acq.state = .idle := by decide +kernel
theorem witness_SamplingInstantIsTaken : poised.powered = true ∧ poised.lcu.lastInstant = none ∧
    instantTime (poised.advance 6001) = 6010 ∧ (∀ v, poised.lcu.lastInstant = some v → v % 10 = 0) ∧
    (let s := after (.samplingInstant 6010 (reads 5)) poised
     s.lcu.lastInstant = some 6010 ∧ instantTime (s.advance 6010) = 6020 ∧ s.lcu.platforms.a.service = .inService) ∧
    (after (.samplingInstant 6010 (reads 5)) ready).lcu.platforms.a.service = .out ∧
    ready.lcu.channels.c0.state = .settling ∧
    ({ ready.lcu.channels.c0 with state := .off } : Channel).state = .off := by decide +kernel
theorem witness_ChannelAdvancesByItsState :
    let c : Channel := ⟨true, .settling, 399, none, 0, none, none⟩
    let s : State := { poised with lcu := { poised.lcu with channels := .all c } }
    (c.state = .settling ∧ (398 : Nat) < 399) ∧ ({ c with state := .off } : Channel).state = .off ∧
      (poised.lcu.channels.c0.state = .active ∧ (38 : Nat) < 39 ∧ (-8388607 : Int) ≠ -8388608) ∧
      ((s.lcu.channels.get 7).state = .settling ∧ (s.lcu.channels.get 7).settle = 399 ∧
        (reads 0).sense.get (platformOfChannel 7) = .present) ∧
      (let u : State := { poised with lcu := { poised.lcu with channels := .all { c with state := .active, overrange := 39 } } }
       (u.lcu.channels.get 0).state = .active ∧ (u.lcu.channels.get 0).overrange = 39 ∧
         (u.lcu.channels.get 0).fitted = true ∧ (reads (-8388608)).raw.get 0 = -8388608) := by decide +kernel
theorem witness_PlatformServiceFollowsItsConditions :
    ((State.reset.lcu.channels.get 0).fitted = false ∧ inPattern 254 0 = false ∧ inPattern 255 0 = true) ∧
      (poised.lcu.channels.get 7).fitted = true ∧ inPattern 128 7 = true ∧ inPattern 127 7 = false := by decide +kernel
/-- A platform that comes into service, and one that leaves it by each of the four conditions. -/
theorem witness_PlatformServiceFollowsItsConditions_changes :
    let cs := fun (s : State) => (channelsOf .a).filter fun c => (s.lcu.channels.get c).fitted
    let put := fun (cal : CalState) (x : Channel) (e : Sense) (v : Service) => { poised with
      cal := { poised.cal with state := cal }, lcu := ⟨.all x, ⟨⟨e, v⟩, ⟨e, v⟩⟩, none⟩ }
    let on : Channel := ⟨true, .active, 400, none, 0, none, none⟩
    let up := put .valid on .present .out
    (cs up ≠ [] ∧ (∀ c ∈ cs up, (up.lcu.channels.get c).state = .active) ∧ up.cal.state = .valid ∧
      (up.lcu.platforms.get .a).sense = .present ∧ ((evalPlatform 6000 .a up).lcu.platforms.get .a).service = .inService) ∧
    (put .invalid on .present .inService).cal.state ≠ .valid ∧
    cs (put .valid { on with fitted := false } .present .inService) = [] ∧
    (∃ c ∈ cs (put .valid { on with state := .faulted } .present .inService),
      ((put .valid { on with state := .faulted } .present .inService).lcu.channels.get c).state ≠ .active) ∧
    ((put .valid on .absent .inService).lcu.platforms.get .a).sense ≠ .present ∧
    ((evalPlatform 6000 .a (put .valid on .absent .inService)).fau.capture.map fun o => (o.kind, o.detail)) =
      some (.platformOut, some (.number 4)) ∧ poised.condition ≠ .starting ∧
    poised.settings.lowWater < poised.settings.highWater := by decide +kernel
theorem witness_PlatformServiceFollowsItsConditions_fault :
    let c : Channel := ⟨true, .active, 400, none, 39, none, none⟩
    c.state ≠ .faulted ∧ (c.step 6010 8388607 .present).state = .faulted ∧ (c.step 6010 0 .present).state = .active ∧
      ready.ptb.permit = .withdrawn ∧ (evalPermit poised).ptb.permit = poised.ptb.permit ∧
      (evalPermit { poised with ptb := { poised.ptb with permit := .withdrawn } }).ptb.permit = .asserted := by decide +kernel
theorem witness_ChannelRequestsAreServed :
    (7 < 8) ∧ opened.isOpen = true ∧
      (ready.isOpen = false ∧ (poised.lcu.channels.get 7).fitted = true ∧ (poised.lcu.channels.get 7).state = .active) ∧
      (let u : State := { ready with lcu := { ready.lcu with channels := .all ⟨true, .off, 0, none, 0, none, none⟩ } }
       (u.lcu.channels.get 0).fitted = true ∧ (u.lcu.channels.get 0).state = .off ∧ u.isOpen = false) ∧
      (let u : State := { ready with lcu := { ready.lcu with channels := .all ⟨true, .faulted, 0, none, 0, none, none⟩ } }
       (u.lcu.channels.get 0).state = .faulted) ∧
      (let u : State := { ready with lcu := { ready.lcu with channels := .all ⟨false, .off, 0, none, 0, none, none⟩ } }
       (u.lcu.channels.get 0).fitted = false) := by decide +kernel
theorem witness_AxlesAreCombinedAndPoisoned :
    let m (x : Int) (n : Nat) : Option Measurement := some ⟨.valid, some (x, x), some n, none, none, none, 0, none, none⟩
    Machine.weighing (m 5000000 100) = some (5000000, 5000000) ∧ weighing (none : Option Measurement) = none ∧
      measCount (m 1 200) = 200 ∧ measCount (m 1 100) ≤ measCount (m 1 100) ∧
      (((10000000 : Int) - 10200000).natAbs : Int) ≤ max (factoryDefaults.tabs * 1000) (20200000 * factoryDefaults.trel / 2000000) ∧
      max (factoryDefaults.tabs * 1000) (21000000 * factoryDefaults.trel / 2000000) < (((10000000 : Int) - 11000000).natAbs : Int) := by
  decide
/-- A VALID measurement whose last sample is at the onset, and one whose last sample is before it; a settled axle. -/
theorem witness_AxlesAreCombinedAndPoisoned_poison :
    let m : Measurement := ⟨.valid, some (5000000, 5000000), some 100, none, none, none, 0, none, some 6100⟩
    let s := rolling.setAxt { rolling.axt with train := rolling.axt.train.map fun a => { a with meas := ⟨some m, none⟩, settled := true } }
    ready.isOpen = false ∧ s.isOpen = true ∧ (s.meu.get .a).poison = none ∧ sideOf s.direction .a = .first ∧
      m.lastSample = some 6100 ∧ (6100 : Nat) ≤ 6100 ∧ ¬ (6101 : Nat) ≤ 6100 ∧
      (meuNotice .a 6100 s).axt.train.map (fun a => (a.meas.first.map (·.status), a.comb)) = [(some .poisoned, some .notWeighed)] ∧
      (meuNotice .a 6101 s).axt.train.map (fun a => (a.meas.first.map (·.status), a.comb)) = [(some .valid, some .single)] ∧
      ({ s with meu := s.meu.set .a { s.meu.get .a with poison := some 6000 } } : State).meu.a.poison = some 6000 := by
  decide +kernel
/-- A history of 401 instants from tick 6,060. -/
def track : List Instant := (List.range 401).map fun i => ⟨6060 + 10 * i, false, some (0, 0)⟩
/-- An axle's span on platform A, and its alone window of 200 samples. -/
def aSpan : Span := ⟨0, 6050, 10050, false, (.e, .m)⟩
theorem witness_MeasurementsAreMadeAndRounded :
    let s := rolling.setMeu (rolling.meu.set .a { rolling.meu.a with history := track })
    s.axt.train[0]?.isSome = true ∧ ((s.meu.get .a).entryOf 0).map (·.crowded) = some false ∧
      (∀ d ∈ (s.meu.get .a).windows, d.deferred = none) ∧
      (s.axt.train[0]?.map fun a => decide (s.cal.working.nMin ≤
        (((s.making .a a aSpan).aloneWindow (aSpan.trim s.cal.working .a) none).n : Int))) = some true ∧
      track.head?.map (·.time) = some 6060 ∧ track.getLast?.map (·.time) = some 10060 ∧
      (windowOf track 6050 10050).clipped = true ∧ (windowOf track 6060 10060).n = 401 := by decide +kernel
/-- One making for each status, each at the edge of the test before it. -/
theorem witness_MeasurementsAreMadeAndRounded_statuses :
    let k : Making := ⟨factoryDefaults, rolling.meu.a, 1300, 100, false, (some 100, some 100), aSpan⟩
    let w : Window := ⟨20, [], some 9000, false⟩
    let p : Making := { k with meu := { k.meu with poison := some 9000 } }
    let o : Making := { k with meu := { k.meu with poison := some 9001, latestOut := some 6050 } }
    let f : Making := { k with span := { aSpan with tOut := 7610 }, meu := { k.meu with latestOut := some 6049 } }
    (p.make w .alone).status = .poisoned ∧ (o.make w .alone).status = .platformOut ∧
      (k.make { w with n := 19 } .alone).status = .short ∧
      (k.make { w with instants := [⟨9000, true, none⟩] } .alone).status = .overrange ∧
      (f.make w .alone).status = .valid ∧ f.speed = 600 ∧
      ({ f with span := { aSpan with tOut := 7607 } } : Making).speed = 601 ∧
      (({ f with span := { aSpan with tOut := 7607 } } : Making).make w .alone).status = .overspeed := by decide +kernel
/-- A window that finds each of its cases: crowded, alone, after a partner, before one, and deferred behind an open one. -/
theorem witness_WindowsAreSharedAndDeferred :
    let e : WindowEntry := ⟨0, 6050, 0, 0, none, false, none⟩
    let k : Making := ⟨factoryDefaults, { rolling.meu.a with history := track, windows := [] }, 1300, 100, false, (none, none), aSpan⟩
    let after (x : Option ExitRec) : Making := { k with span := { aSpan with tOut := 6400 }, meu := { k.meu with lastExit := x } }
    let before (l : List WindowEntry) : Making := { k with span := { aSpan with tOut := 6400 }, meu := { k.meu with windows := l } }
    let trim := fun (m : Making) => m.span.trim factoryDefaults .a
    let short := fun (m : Making) (f : Option (Nat × Nat)) => decide (((m.aloneWindow (trim m) f).n : Int) < factoryDefaults.nMin)
    short k none = false ∧ short (after (some ⟨3, 6300, 10, none⟩)) none = true ∧ aSpan.tIn < 6300 ∧
      short (after (some ⟨3, 6050, 10, none⟩)) none = false ∧ short (after (some ⟨3, 6051, 200, none⟩)) none = false ∧
      short (before []) (some (1, 6200)) = true ∧
      (before [⟨1, 6200, 1, 0, none, false, none⟩]).meu.windows = [⟨1, 6200, 1, 0, none, false, none⟩] ∧
      e.crowded = false ∧ ({ e with crowded := true } : WindowEntry).crowded = true := by decide +kernel
theorem witness_ZeroRequestsAreServed : (1 < 2) ∧ (ready.lcu.platforms.get .a).service = .out ∧
    ((poised.lcu.platforms.get .b).service = .inService ∧ (poised.zcl.platforms.get .b).acq.state = .idle) ∧
    ((after (.zeroAcquire 6000 1 1) poised).zcl.platforms.get .b).acq.state ≠ .idle := by decide +kernel
theorem witness_AcquisitionAndBlockAreDecided :
    finishesAcquisition 6010 .a (reads 0) { poised with zcl := { poised.zcl with
      platforms := poised.zcl.platforms.map fun z => { z with acq := ⟨.collecting, 1999, .all 0, some 0, some 0, none⟩ } } } = true ∧
    finishesBlock 6010 .b (reads 0) { poised with zcl := { poised.zcl with
      platforms := poised.zcl.platforms.map fun z => { z with block := ⟨1999, .all 0, 0, some 0, some 0⟩ } } } = true ∧
    (poised.zcl.platforms.get .b).offZero ≤ 30 := by decide +kernel
theorem witness_CalibrationIsReadAndStaged : (1 < 2) ∧ ready.calsw = .operate ∧ (calibrating ready).calsw = .calibrate ∧
    (0 < 1) ∧ (17 < 18) ∧ (7 < 8) ∧ 8 < (List.replicate 9 (⟨1, 0⟩ : Band)).length ∧
    (List.replicate 8 (⟨1, 0⟩ : Band)).length ≤ 8 := by decide +kernel
theorem witness_CalibrationCommitStartsAndEnds : ready.calsw = .operate ∧ (calibrating opened).isOpen = true ∧
    (busyWith .registerCommit .body [] (calibrating ready)).stc.busy ≠ none ∧
    ({ ready.cal with counter := 65535 } : Cal).counter = 65535 ∧
    ((calibrating ready).isOpen = false ∧ (calibrating ready).stc.busy = none ∧ (calibrating ready).cal.counter < 65535 ∧
      validate (calibrating ready).cal.staging = none) ∧
    validate { ready.cal.staging with nMin := 7 } = some (8, none) := by decide +kernel
theorem witness_CalibrationCommitStartsAndEnds_ends :
    let w (p : WritePhase) (s : State) : State :=
      busyWith .calibrationCommit p [] { s with cal := { s.cal with phase := .writing, snapshot := some factoryDefaults } }
    ((w .body ready).stc.busy.map fun b => (b.phase, b.op)) = some (.body, .calibrationCommit) ∧
      ((w .closing ready).stc.busy.map fun b => (b.phase, b.op, b.failed)) = some (.closing, .calibrationCommit, false) ∧
      (w .closing ready).cal.snapshot = some factoryDefaults ∧ (w .closing ready).isOpen = false ∧
      (w .closing opened).isOpen = true := by decide +kernel
theorem witness_SwitchChangeIsTaken : ready.powered = true ∧ ready.condition ≠ .starting ∧ ready.calsw ≠ .calibrate ∧
    ready.axt.passage = none ∧ opened.axt.passage = some ⟨41, .up, 6000, 6000⟩ ∧ (calibrating opened).calsw ≠ .operate := by
  decide +kernel
theorem witness_SwitchChangeIsTaken_none : starting.powered = true ∧ starting.condition = .starting ∧
    starting.calsw ≠ .calibrate ∧ ready.calsw = .operate := by decide +kernel
theorem witness_ClassesAreReadAndChanged :
    (0 < 1 ∧ 24 < 25 ∧ 1 ≤ someFields.code ∧ ({ someFields with code := 24 } : ClassFields).code ≤ 24) ∧ opened.isOpen = true ∧
      (ready.isOpen = false ∧ classFailing someFields = none ∧
        classFailing { someFields with gapMax := 1999 } = some (7, none) ∧
        classFailing { someFields with spacings := [1800, 499, 1800] } = some (4, some 2)) ∧
      tget ready.seg.classes 1 = none ∧
      tget (after (.classDefine 6000 1 someFields) ready).seg.classes 1 = some someClass := by decide +kernel
theorem witness_VehiclesAreDecidedFromSpacings :
    let s : State := { opened with seg := { opened.seg with
      classes := [(1, someClass)], spacings := [some 1800, some 6000, some 1800, some 3000] } }
    let u : State := { s with seg := { s.seg with spacings := [some 1800] } }
    matchingOrder s.seg.classes = [] ++ (1, someClass) :: [] ∧
      classTest false s.seg.spacings s.seg.cursor (s.axt.train.length - s.seg.cursor) someClass = .passed ∧
      classTest false u.seg.spacings u.seg.cursor (u.axt.train.length - u.seg.cursor) someClass = .undecided := by decide +kernel
/-- The class test at the bounds of the tolerance and the gap; the class that an expectation gives, alone and after the
register's; bogies before the close and at it, with an absent entry in the way of the second. -/
theorem witness_VehiclesAreDecidedFromSpacings_classes :
    let test (closing : Bool) (l : List (Option Nat)) (m : Nat) := classTest closing l 0 m someClass
    test false [some 1900, some 6100, some 1700, some 2000] 5 = .passed ∧
      test false [some 1901] 5 = .failed ∧ test false [some 1800, some 6000, some 1800, some 4001] 5 = .failed ∧
      test true [some 1800, some 6000, some 1800] 4 = .passed ∧ test true [some 1800, some 6000] 3 = .failed ∧
      (let s : State := { recordIn .expected (some 41) (some 7) (registered opened) with
        seg := { opened.seg with classes := [(1, someClass)] } }
       let w : State := s.setPtb { s.ptb with slots := s.ptb.slots.map fun r => (r.1, { r.2 with expectedCls := some 1 }) }
       (s.recordAt s.openNumber 1).map (fun r => (r.2.state, r.2.fleet)) = some (.expected, some 7) ∧
         s.expectedClass 1 = none ∧ (w.expectedClass 1).map (·.1) = some 1 ∧ w.expectedClass 2 = none) := by decide +kernel
theorem witness_VehiclesAreDecidedFromSpacings_bogies :
    let l : List (Option Nat) := [some 2000, some 6000, some 2000, some 5000]
    bogieAt false 3500 l 0 6 = some 2 ∧ bogiePair false 3500 l 0 6 = some 4 ∧
      bogiePair false 3500 [some 2000, some 6000, some 2000] 0 4 = none ∧
      bogiePair true 3500 [some 2000, some 6000, some 2000] 0 4 = some 4 ∧
      bogiePair true 3500 [some 2000, none, some 2000] 0 4 = some 2 ∧ bogieAt true 3500 [none] 0 2 = some 1 := by decide
/-- A train whose cursor stands before an axle: a class formed, a wait, the limit of 640 vehicles, and a removal. -/
theorem witness_VehiclesAreFormedAndDissolved :
    let s := rolledOn.setSeg { rolledOn.seg with classes := [(1, someClass)] }
    let v : Vehicle := ⟨0, 1, none, .wagon, true, false⟩
    let two := takeCrossing { crossingAt .s1 .up with time := 7400 } s
    (s.seg.cursor < s.axt.train.length ∧ s.axt.abandoned = false ∧ s.seg.limit = false ∧ decideVehicle s false = .wait .cls ∧
      decideVehicle s true = .form v) ∧
      (two.axt.train.length = 2 ∧ (entryAt two.seg.spacings 0).isSome = true ∧
        (two.axt.train[0]?.map fun a => a.times.e.isSome) = some true) ∧
      (List.replicate 640 v).length = 640 ∧ s.condition = .ready ∧
      (evaluate 7000 true s).seg.vehicles = [] ++ [v] ∧ (dissolveLast (evaluate 7000 true s)).seg.vehicles = [] ∧
      (evaluate 7000 true s).axt.train.map (·.vehicle) = [some 1] := by decide +kernel
/-- Binding at an EXPECTED record, at a free slot and with none, settled and not; a record of each origin to dissolve. -/
theorem witness_VehiclesAreBoundToRecords :
    let s := recordIn .expected (some 41) (some 7) (registered rolling)
    let v : Vehicle := ⟨0, 1, none, .wagon, true, false⟩
    let full := rolling.setPtb { rolling.ptb with
      slots := (List.range 640).map fun k => (k, { Wagon.blank .table (some 40) (k + 1) with state := .final }) }
    ((s.recordAt s.openNumber 1).map (·.1) = some 0 ∧ ((s.axt.train.drop v.first).take v.count).map (·.settled) = [false]) ∧
      (rolling.recordAt rolling.openNumber 1 = none ∧ rolling.freeSlot = some 0 ∧
        ((rolling.ptb.directory.find? fun e => e.close.isNone).map (·.number)) = some 41) ∧
      (full.recordAt full.openNumber 1 = none ∧ full.freeSlot = none ∧ full.condition = .ready) ∧
      ((recordIn .weighing (some 41) none opened).recordAt (some 41) 1).map (·.2.origin) = some .table ∧
      (([(0, Wagon.blank .expectation (some 41) 1)] : Table Wagon).map (·.2.origin)) = [.expectation] ∧
      rolling.settings.lowWater < rolling.settings.highWater := by decide +kernel
theorem witness_ExpectationIsCreated :
    (expectOk 641 (some 7) none = false ∧ expectOk 1 none none = false) ∧
      (expectOk 640 (some 7) none = true ∧ ready.openNumber ≠ some 41) ∧
      (expectOk 1 (some 7) none = true ∧ ((recordIn .expected none (some 7) ready).recordAt none 1).isSome = true ∧
        (recordIn .expected none (some 7) ready).fleetHeld none 7 none = true) ∧
      (ready.recordAt none 1 = none ∧ ready.fleetHeld none 7 none = false ∧ ready.freeSlot = some 0) := by decide +kernel
theorem witness_ExpectationIsCreated_open :
    (opened.openNumber = some 41 ∧ opened.seg.vehicles.length < 1 ∧ expectOk 1 (some 7) none = true ∧
      opened.recordAt (some 41) 1 = none ∧ opened.fleetHeld (some 41) 7 none = false ∧ opened.freeSlot = some 0 ∧
      ((opened.ptb.directory.find? fun e => e.close.isNone).map (·.number)) = some 41) ∧
      ((recordIn .expected (some 41) (some 7) opened).recordAt (some 41) 1).isSome = true ∧
      (let full := opened.setPtb { opened.ptb with
         slots := (List.range 640).map fun k => (k, { Wagon.blank .table (some 40) (k + 1) with state := .final }) }
       full.freeSlot = none ∧ full.recordAt (some 41) 1 = none ∧ full.fleetHeld (some 41) 7 none = false) := by decide +kernel
theorem witness_IdentityIsAssigned :
    (fleetOk 0 = false ∧ fleetOk 999999999999 = true ∧ refOk ⟨0, 41, 0⟩ = false ∧ refOk ⟨0, 41, 640⟩ = true ∧
        refOk ⟨1, 0, 639⟩ = true) ∧
      (opened.refRecord ⟨0, 41, 1⟩ = none) ∧
      (((recordIn .expected none none opened).refRecord ⟨0, 0, 1⟩).map fun r => r.2.state) = some .expected ∧
      (((recordIn .complete (some 41) none opened).refRecord ⟨0, 41, 1⟩).map fun r => (r.2.state, r.2.fleet, r.2.origin)) =
        some (.complete, none, .table) ∧
      (recordIn .complete (some 41) none opened).fleetHeld (some 41) 7 (some 0) = false ∧
      (recordIn .complete (some 41) (some 7) opened).fleetHeld (some 41) 7 (some 1) = true ∧
      opened.openNumber = some 41 ∧ optionOk codeOk none = true ∧
      (let v : Vehicle := ⟨0, 2, none, .wagon, true, false⟩
       1 ≤ ({ opened with seg := { opened.seg with vehicles := [v] } } : State).seg.vehicles.length) := by decide +kernel
theorem witness_IdentityIsAssigned_final :
    let s := registered (recordIn .final (some 40) none ready)
    let w : Wagon := { Wagon.blank .table (some 40) 1 with state := .final, kind := some .wagon }
    let v : Wagon := { w with values := valuesOf 50 none [⟨some 10000, some 5000, some 5000, some 100, 0⟩] }
    (s.refRecord ⟨1, 0, 0⟩).map (fun r => (r.2.state, r.2.kind, r.2.values.reported, r.2.applied)) = some (.final, none, none, none) ∧
      (tget s.wrg.records 7).isSome = true ∧ tget s.wrg.records 8 = none ∧
      v.values.reported = some 10000 ∧ v.kind = some .wagon ∧ v.applied ≠ some 7 ∧ s.fleetHeld (some 40) 7 (some 0) = false := by
  decide +kernel
theorem witness_RecordsAndPassagesAreRetired :
    refOk ⟨1, 0, 640⟩ = false ∧ ready.refRecord ⟨1, 0, 0⟩ = none ∧
      (((recordIn .weighing (some 41) none opened).refRecord ⟨1, 0, 0⟩).map fun r => r.2.state) = some .weighing ∧
      (((recordIn .missing (some 40) none ready).refRecord ⟨1, 0, 0⟩).map fun r => r.2.state) = some .missing ∧
      (∀ e ∈ ready.ptb.directory, e.number ≠ 41) ∧
      ((opened.ptb.directory.find? fun e => decide (e.number = 41)).map fun e => e.close) = some none ∧
      (((after (.passClose 6000 1 41) opened).ptb.directory.find? fun e => decide (e.number = 41)).map fun e => e.close.isSome) =
        some true := by decide +kernel
theorem witness_PassagesAreRead : (∀ e ∈ ready.ptb.directory, e.number ≠ 0) ∧
    (opened.ptb.directory.find? fun e => decide (e.number = 41)).isSome = true ∧ refOk ⟨0, 0, 0⟩ = false ∧
    refOk ⟨0, 0, 1⟩ = true ∧ ready.refRecord ⟨0, 0, 1⟩ = none ∧
    ((recordIn .final (some 40) none ready).refRecord ⟨0, 40, 1⟩).isSome = true := by decide +kernel
theorem witness_ValuesAndCertificationFollowTheAxleList :
    let a : AxleLine := ⟨some 10025, some 5012, some 5013, some 100, 0⟩
    (0 < 50) ∧ (a.load ≠ none ∧ hasQual a.quals .overcap = false) ∧ hasQual (qualSet .overcap) .overcap = true ∧
      (valuesOf 50 (some 10000) [a]).reported = some 10050 ∧ (valuesOf 50 (some 10000) [a]).net = some 50 := by decide
theorem witness_ValuesAndCertificationFollowTheAxleList_notices :
    let w : Wagon := { Wagon.blank .table (some 41) 1 with state := .weighing, firstAxle := some 0, axles := [⟨none, none, none, none, 0⟩] }
    let done : State := rolling.setAxt { rolling.axt with train := rolling.axt.train.map fun a => { a with settled := true } }
    (w.state = .weighing ∧ (∀ b ∈ done.axlesOfRecord w, b.settled = true) ∧ (∃ b ∈ rolling.axlesOfRecord w, b.settled = false)) ∧
      (({ w with state := .complete } : Wagon).state = .complete ∧ rolling.axt.train.map (·.settled) = [false] ∧
        done.axt.train.map (·.settled) = [true]) ∧
      ({ w with state := .final } : Wagon).state ≠ .weighing ∧ ({ w with state := .final } : Wagon).state ≠ .complete := by
  decide +kernel
theorem witness_RegisterRecordIsAddedAndChanged :
    addFailing 0 none none none 0 = some 1 ∧ addFailing 7 none none none 0x80 = some 5 ∧ addFailing 999999999999 (some 24) (some 0) none 0x7F = none ∧
      tget (registered ready).wrg.records 7 ≠ none ∧
      (tget ready.wrg.records 7 = none ∧ retiredPlace ready.wrg 7 = none ∧ ready.wrg.records.length < 4096 ∧ freePlace ready.wrg = some 0) ∧
      retiredPlace (after (.regRetire 6000 1 7) (registered ready)).wrg 7 = some 0 := by decide +kernel
theorem witness_RegisterRecordIsAddedAndChanged_change : (fleetOk 0 = false ∧ (0 : Byte) = 0 ∧ (1 : Byte).getLsbD 0 = true) ∧
    (fleetOk 7 = true ∧ (0xFE : Byte) ≠ 0 ∧ (0xFE : Byte).getLsbD 0 = false) ∧ tget ready.wrg.records 7 = none ∧
    (tget (registered ready).wrg.records 7).isSome = true ∧
    failingField 2 ⟨some 25, none, none, none, none, none, none⟩ = some 2 ∧
    failingField 0xFE ⟨some 24, some 200000, some 400000, some 0x7F, some 0, some 41, some 65535⟩ = none := by decide +kernel
theorem witness_RegisterFlagsAreChanged : fleetOk 0 = false ∧ (0x80 : Byte).getLsbD 7 = true ∧ (0x7F : Byte).getLsbD 7 = false ∧
    fleetOk 7 = true ∧ tget ready.wrg.records 7 = none ∧ (tget (registered ready).wrg.records 7).isSome = true := by
  decide +kernel
theorem witness_RegisterIsReadAndRetired : Table.wf (registered ready).wrg.records = true ∧ fleetOk 1000000000000 = false ∧
    (999999999999 < 1000000000000) ∧ (∀ q ∈ (registered ready).wrg.records, q.1 ≤ 7) ∧
    ((registered ready).wrg.records.map (·.1)) = [7] ∧ (6 < 7) := by decide +kernel
theorem witness_PassageUpdatesTheRegister : hasFlag 0x02 .learnTare = true ∧ (0 : Int) ≤ 200000 ∧ hasFlag 0 .learnTare = false := by
  decide
theorem witness_PassageUpdatesTheRegister_finalised :
    let w : Wagon := { Wagon.blank .table (some 41) 1 with
      state := .complete, kind := some .wagon, fleet := some 7, values := valuesOf 50 none [⟨some 10000, some 5000, some 5000, some 100, 0⟩] }
    let s := registered { opened with ptb := { opened.ptb with
      slots := [(0, w), (1, { w with state := .weighing, position := 2, fleet := none }), (2, { w with passage := some 40 }),
        (3, { Wagon.blank .expectation (some 41) 3 with fleet := some 8 })] } }
    Table.wf s.ptb.slots = true ∧ s.openNumber = some 41 ∧ w.passage = s.openNumber ∧ (finalise w).state = .final ∧
      (finalise w).values.reported = some 10000 ∧ (tget s.wrg.records 7).isSome = true ∧ tget s.wrg.records 8 = none ∧
      (finalise { w with state := .weighing }).values.reported = none ∧ tget s.ptb.slots 4 = none ∧
      s.ptb.directory.map (·.close) = [none] := by decide +kernel
theorem witness_RegisterCommitStarts : (busyWith .load .reading [] ready).stc.busy ≠ none ∧
    (ready.stc.busy = none ∧ ready.stc.health = .ok) ∧ ({ ready.stc with health := .failed, failures := 3 } : Stc).health = .failed ∧
    (after (.classDefine 6000 1 someFields) ready).seg.dirty = true := by decide +kernel
theorem witness_RegisterCommitStarts_items :
    let s := after (.regRetire 6000 1 7) (after (.regAdd 6000 1 9 none none none 0) (registered ready))
    Table.wf s.wrg.records = true ∧ Table.wf s.wrg.retired = true ∧
      (∀ r ∈ s.wrg.records, r.2.fields.fleet = r.1 ∧ r.2.place < maxRegister ∧ tget s.wrg.retired r.2.place = none) ∧
      (∀ r ∈ s.wrg.records, ∀ q ∈ s.wrg.records, r.2.place = q.2.place → r.1 = q.1) ∧
      commitItems s = [.erase 0, .write 1 ⟨9, none, none, none, 0, none, none, 0⟩] := by decide +kernel
theorem witness_ReservationWriteEnds :
    ((busyWith .registerCommit .reservation [.erase 0] ready).stc.busy.map fun b => (b.phase, b.op, b.items)) =
        some (.reservation, .registerCommit, [.erase 0]) ∧
      ((busyWith .registerCommit .reservation [] ready).stc.busy.map fun b => b.items) = some [] ∧
      ((busyWith .calibrationCommit .reservation [] ready).stc.busy.map fun b => (b.phase, b.op, b.write)) =
        some (.reservation, .calibrationCommit, some (.second, ⟨40, 8⟩)) ∧
      ((busyWith .passageNumber .reservation [] ready).stc.busy.map fun b => b.op) = some .passageNumber := by decide +kernel
theorem witness_RegisterCommitIsWrittenAndEnds :
    ((busyWith .registerCommit .body [.write 0 ⟨7, none, none, none, 0, none, none, 0⟩, .erase 4095] ready).stc.busy.map
        fun b => (b.phase, b.op, b.items.length)) = some (.body, .registerCommit, 2) ∧
      ((busyWith .registerCommit .body [.classArea [(24, someClass)]] ready).stc.busy.map fun b => b.items) =
        some [.classArea [(24, someClass)]] ∧
      ((busyWith .registerCommit .closing [] ready).stc.busy.map fun b => (b.phase, b.op, b.failed)) =
        some (.closing, .registerCommit, false) ∧ Table.wf ready.wrg.retired = true := by decide +kernel
theorem witness_PassageNumberIsWritten :
    ((busyWith .passageNumber .closing [] ready).stc.busy.map fun b => (b.phase, b.op, b.write)) =
        some (.closing, .passageNumber, some (.second, ⟨40, 8⟩)) ∧ ready.stc.waiting = false ∧
      ({ ready.stc with waiting := true, failures := 2 } : Stc).waiting = true ∧ ready.stc.failures < 2 ∧
      ((after (.passageNumberEnd false) (busyWith .passageNumber .closing [] ready)).stc.busy,
        (after (.passageNumberEnd false) (busyWith .passageNumber .closing [] ready)).stc.last) =
          (none, some (.failed, .passageNumber)) ∧ ready.condition ≠ .starting ∧ ready.fau.capture = none ∧
      isMasked ready.settings.faultMask .storeFault = false := by decide +kernel
theorem witness_BytesReachTheReceiver : (ready.advance 0).timebase ≤ ({ ready.slk with lastByte := 5000 } : Slk).lastByte + 80 ∧
    ready.slk.receiver = .hunt ∧ (3 : Byte).toNat = 3 ∧ (243 : Byte).toNat ≤ 243 ∧ (2 : Byte).toNat < 3 ∧ 243 < (244 : Byte).toNat ∧
    ({ ready.slk with receiver := .length } : Slk).receiver ≠ .hunt ∧ (0x5B : Byte) ≠ 0x5A ∧ ([] : List Byte).length + 1 < 3 + 2 ∧
    ({ ready.slk with lastByte := 4919 } : Slk).lastByte + 80 < (ready.advance 0).timebase := by decide +kernel
theorem witness_FrameIsDelivered :
    let s : State := { ready with slk := { ready.slk with
      receiver := .body 3 [0x17, 0x01, 0x04, 0xAA], lastByte := 5000, service := some ⟨1, 1, .ok, [], false⟩ } }
    s.powered = true ∧ s.condition ≠ .starting ∧ (s.advance 0).timebase ≤ s.slk.lastByte + 80 ∧
      s.slk.receiver = .body 3 [0x17, 0x01, 0x04, 0xAA] ∧ [0x17, 0x01, 0x04, (0xAA : Byte)].length + 1 = 3 + 2 ∧
      crcGood 3 ([0x17, 0x01, 0x04, 0xAA] ++ [0x5A]) = true ∧ crcGood 3 ([0x17, 0x01, 0x04, 0xAA] ++ [0x5B]) = false ∧
      s.slk.queue.length < 4 ∧ s.slk.service ≠ none ∧ ready.slk.service = none ∧
      (ready.slk.queue ++ [frameOf 3 ([0x17, 0x01, 0x04, 0xAA] ++ [0x5A])] = [⟨0x17, 1, 4, []⟩]) ∧ 4 ≤ (List.replicate 4 (⟨0, 1, 4, []⟩ : Frame)).length := by decide +kernel
theorem witness_ReplyLeavesAndTheNextIsTaken :
    let s := after (.regCount 6000 1) ready
    ready.slk.service = none ∧ s.slk.service.isSome = true ∧ s.slk.queue = [] ∧
      ({ s.slk with queue := [⟨1, 1, 4, []⟩] } : Slk).queue = [⟨1, 1, 4, []⟩] ∧
      ((⟨1, 0, 4, []⟩ : Frame).target.toNat = 0 ∧ 7 < (⟨1, 8, 4, []⟩ : Frame).target.toNat) ∧
      ((⟨1, 1, 10, []⟩ : Frame).row 0 = none ∧ (⟨1, 7, 0, []⟩ : Frame).row 0 = none ∧ (⟨1, 7, 4, []⟩ : Frame).row 0 = none) ∧
      ((⟨1, 1, 9, []⟩ : Frame).row 0 = some (true, some (.restart 0 1)) ∧ (Instr.restart 0 1).servedAlways = false ∧
        starting.condition = .starting ∧ (Instr.time 0 1).servedAlways = true) ∧
      ((⟨1, 1, 4, [0]⟩ : Frame).row 0 = some (false, some (.time 0 1)) ∧
        (⟨1, 7, 3, [25]⟩ : Frame).row 6 = some (true, some (.classRemove 6 1 25))) ∧
      (⟨1, 6, 4, [0, 0, 0, 0, 0, 7, 3, 0]⟩ : Frame).row 0 = some (true, none) ∧
      (⟨1, 6, 4, [0, 0, 0, 0, 0, 7, 2, 1]⟩ : Frame).row 0 = some (true, some (.regFlagsXor 0 1 7 1)) := by decide +kernel
/-- A state that meets the premises of the statements about every step, with a passage open: the queue holds a command,
and the step answers a next state. -/
theorem witness_invariants :
    let s := opened.setPending [.headEvent 6100 .s1 .a]
    (match step s with | .next _ => true | _ => false) = true ∧ Table.wf s.ptb.slots = true ∧
      Table.wf s.wrg.records = true ∧ Table.wf s.wrg.retired = true ∧ Table.wf s.seg.classes = true ∧
      Table.wf s.store.classes = true ∧ Table.wf s.store.places = true ∧ s.fau.attn = attnLevel s.fau.attention s.settings.attentionMask ∧
      s.axt.train.length ≤ maxAxles ∧ s.ptb.directory.length ≤ maxDirectory ∧ s.slk.queue.length ≤ maxQueue ∧
      s.fau.counts.length = 14 ∧ (∀ n ∈ s.fau.counts, n ≤ 255) ∧ s.stc.failures ≤ 3 ∧
      (∀ k ∈ settingIndices, settingOk s.settings k = true) ∧ s.fau.trigger < s.settings.triggerCount ∧
      s.settings.lowWater < s.settings.highWater ∧ s.isOpen = true ∧ s.condition = .ready ∧ s.timebase < timebaseRange := by
  decide +kernel

end Sys2Proof.Tests
end

