-- ==== Sys2Proof/Proofs/FaultsAndAttention.lean ====
section
/-! PROOFS. The faults and the attention line: what every step keeps of ATTN (R185), and what EXCHANGE_FAULT replies and
clears (R182). -/

namespace Sys2Proof.Machine

/-! ### The ATTN line (R185) -/

/-- The queue has no part in the ATTN line. -/
@[simp] theorem attnOk_setPending {s : State} {l : List Instr} : (s.setPending l).attnOk ↔ s.attnOk := by
  simp [State.attnOk]

/-- Nor has the timebase. -/
@[simp] theorem attnOk_setTimebase {s : State} {t : Nat} : (s.setTimebase t).attnOk ↔ s.attnOk := by
  simp [State.attnOk]

/-- Settles O53: a step either runs a command that keeps the line, apart from the queue and the timebase, or leaves every
volatile block at its reset value, whose line agrees with its empty attention set. -/
theorem attnFollowsSetAndMask : Obligations.AttnFollowsSetAndMask := by
  intro s s' hattn hstep
  rcases step_cases hstep with ⟨m, t, l, rfl, kept⟩ | ⟨fresh, -⟩
  · have queued : (s.setPending l).attnOk := attnOk_setPending.mpr hattn
    exact attnOk_setTimebase.mpr (kept.attn queued)
  · exact fresh.attn

/-! ### The exchange of the fault state (R182) -/

/-- The clearing of the FAU leaves the link as it is: no RESTART becomes owed by it. -/
theorem exchangeFaultDo_restartDue (s : State) : (exchangeFaultDo s).1.slk.restartDue = s.slk.restartDue := rfl

/-- The reply reads the FAU and the fault mask, which the taking of the request leaves as they are. -/
theorem exchangeFaultData_taking (s : State) (t : Nat) : exchangeFaultData (s.taking t) = exchangeFaultData s := by
  simp [exchangeFaultData]

/-- EXCHANGE_FAULT composes its reply from the state it finds, and clears the FAU with it (R182). -/
theorem exec_exchangeFault_served {s : State} (hs : s.serving) (t : Nat) (g : Byte) :
    exec (.exchangeFault t g) s =
      .next (((s.taking t).setFau s.fau.clear).replying g .sys .ok (exchangeFaultData s)) := by
  obtain ⟨powered, ready⟩ := hs
  rw [exec_exchangeFault, request_served powered (Or.inl ready) (exchangeFaultDo_restartDue _)]
  simp only [exchangeFaultDo, Answer.ok, State.taking_fau, exchangeFaultData_taking]

/-- Settles O10: the effect is that of a served EXCHANGE_FAULT, and an occurrence takes 17 bytes whether the capture is
empty or not. -/
theorem faultsAreExchanged : Obligations.FaultsAreExchanged :=
  fun s t g hs => ⟨exec_exchangeFault_served hs t g, length_occData s.fau.capture⟩

end Sys2Proof.Machine
end

