-- ==== Sys2Proof/Proofs/Invariants.lean ====
section
/-! PROOFS. What every step keeps. A step is a command that keeps what the part holds, apart from the queue and the timebase,
or it leaves every volatile block at its reset value (step_cases); every property is read off the one or the other. -/

namespace Sys2Proof.Machine

/-! ### The properties, from those that the relation keeps -/

theorem tablesOk_placesOk_iff (s : State) : s.tablesOk ∧ s.wrg.placesOk ↔
    SlotsOk s.ptb.slots ∧ WrgOk s.wrg ∧ Table.wf s.seg.classes = true ∧ StoreOk s.store := by
  simp only [State.tablesOk, SlotsOk, WrgOk, StoreOk]
  constructor
  · rintro ⟨⟨wf, below, records, retired, places, classes, stored, kept⟩, ok⟩
    exact ⟨⟨wf, below⟩, ⟨records, retired, places, ok⟩, classes, stored, kept⟩
  · rintro ⟨⟨wf, below⟩, ⟨records, retired, places, ok⟩, classes, stored, kept⟩
    exact ⟨⟨wf, below, records, retired, places, classes, stored, kept⟩, ok⟩

theorem countsOk_iff (s : State) : s.countsOk ↔ CountsOk s.fau.counts ∧ s.slk.stats.ok ∧ StcOk s.stc := by
  simp only [State.countsOk, CountsOk, StcOk, and_assoc]

theorem trackerOk_iff (s : State) : s.trackerOk ↔ TrackerReset s ∧ s.axt.train.length ≤ maxAxles := Iff.rfl

theorem triggerOk_iff (s : State) : s.triggerOk ↔ RangesOk s ∧ s.settings.lowWater < s.settings.highWater := by
  simp only [State.triggerOk, Settings.ok, RangesOk]
  exact and_right_comm

/-! ### Neither the queue nor the timebase has a part in them -/

@[simp] theorem permitOk_setTimebase {s : State} {t : Nat} : (s.setTimebase t).permitOk ↔ s.permitOk := by
  simp [permitOk_iff]

@[simp] theorem permitOk_setPending {s : State} {l : List Instr} : (s.setPending l).permitOk ↔ s.permitOk := by
  simp [permitOk_iff]

@[simp] theorem isOpen_setTimebase (s : State) (t : Nat) : (s.setTimebase t).isOpen = s.isOpen := rfl

/-! ### A step that keeps a property, and a reset that has it -/

/-- A property without a part in the timebase or the queue, kept by every command that keeps what the part holds and true of
a fresh part, is kept by every step. -/
theorem step_keeps {r : State → Prop} (time : ∀ s t, r s → r (s.setTimebase t)) (queue : ∀ s l, r s → r (s.setPending l))
    (good : ∀ s m, Good true false s m → r s → r m) (fresh : ∀ s, Fresh s → r s) {s s' : State} (hr : r s)
    (hstep : step s = .next s') : r s' := by
  rcases step_cases hstep with ⟨m, t, l, rfl, kept⟩ | ⟨hfresh, -⟩
  · exact time m t (good _ m kept (queue s l hr))
  · exact fresh s' hfresh

/-- Settles O54: the relation keeps PERMIT over slots in their form; the consequences of PERMIT are its conditions. -/
theorem permitFollowsItsConditions : Obligations.PermitFollowsItsConditions := by
  refine ⟨fun s s' tables permit hstep => ?_, fun s permit asserted => ?_, fun used high low => ?_⟩
  · have slots : SlotsOk s.ptb.slots := ⟨tables.1, tables.2.1⟩
    rcases step_cases hstep with ⟨m, t, l, rfl, kept⟩ | ⟨fresh, -⟩
    · exact permitOk_setTimebase.mpr (kept.permit rfl slots (permitOk_setPending.mpr permit))
    · exact fresh.permit
  · obtain ⟨-, conditions, water⟩ := permit
    obtain ⟨ready, valid, service, entry, normal⟩ := (permitHolds_iff s).mp (conditions.mp asserted)
    refine ⟨ready, valid, service, entry, ?_⟩
    refine Nat.lt_of_not_le fun full => ?_
    simp [normal, waterNext, full] at water
  · refine ⟨fun h => ?_, fun h => ?_, fun h => ?_, fun h => ?_⟩ <;> simp [waterNext, h]

/-- Settles O55: the tables of the part and of the store are kept together, and after a reset the part's are empty. -/
theorem tablesStayCanonical : Obligations.TablesStayCanonical := by
  intro s s' tables places hstep
  rw [tablesOk_placesOk_iff]
  obtain ⟨slots, wrg, classes, store⟩ := (tablesOk_placesOk_iff s).mp ⟨tables, places⟩
  rcases step_cases hstep with ⟨m, t, l, rfl, kept⟩ | ⟨fresh, kept⟩
  · exact ⟨kept.slots slots, kept.wrg store wrg, kept.classes store classes, kept.store store⟩
  · exact ⟨fresh.slots, fresh.wrg, fresh.classes, kept store⟩

/-- Settles O56. -/
theorem certifiedStaysDeserved : Obligations.CertifiedStaysDeserved :=
  fun _ _ => step_keeps (r := State.certifiedOk) (fun _ _ h => h) (fun _ _ h => h) (fun _ _ kept => kept.certified)
    (fun _ fresh => fresh.certified)

/-- Settles O57: of the train, the directory and the queue each by itself. -/
theorem directoryAndTrainStayBounded : Obligations.DirectoryAndTrainStayBounded := by
  refine ⟨fun _ _ => step_keeps (r := State.trackerOk) (fun _ _ h => h) (fun _ _ h => h) ?_ ?_,
    fun _ _ => step_keeps (r := State.directoryOk) (fun _ _ h => h) (fun _ _ h => h) (fun _ _ kept => kept.directory)
      (fun _ fresh => fresh.directory),
    fun _ _ => step_keeps (r := State.queueOk) (fun _ _ h => h) (fun _ _ h => h) (fun _ _ kept => kept.queue)
      (fun _ fresh => fresh.queue)⟩
  · exact fun _ _ kept ⟨tracker, train⟩ => ⟨kept.tracker tracker, kept.train train⟩
  · exact fun _ fresh => ⟨fresh.tracker, fresh.train⟩

/-- Settles O58: of the stations, the counts and the settings each by itself. -/
theorem countsStayInRange : Obligations.CountsStayInRange := by
  refine ⟨fun _ _ => step_keeps (r := State.stationsOk) (fun _ _ h => h) (fun _ _ h => h) (fun _ _ kept => kept.stations)
      (fun _ fresh => fresh.stations),
    fun _ _ => step_keeps (r := State.countsOk) (fun _ _ h => h) (fun _ _ h => h) ?_ ?_,
    fun _ _ => step_keeps (r := State.triggerOk) (fun _ _ h => h) (fun _ _ h => h) ?_ ?_⟩
  · intro s m kept h
    obtain ⟨counts, stats, stc⟩ := (countsOk_iff s).mp h
    exact (countsOk_iff m).mpr ⟨kept.counts counts, kept.stats stats, kept.stc stc⟩
  · exact fun s fresh => (countsOk_iff s).mpr ⟨fresh.counts, fresh.stats, fresh.stc⟩
  · intro s m kept h
    obtain ⟨ranges, waters⟩ := (triggerOk_iff s).mp h
    exact (triggerOk_iff m).mpr ⟨kept.ranges ranges, kept.waters rfl waters⟩
  · exact fun s fresh => (triggerOk_iff s).mpr ⟨fresh.ranges, fresh.permit.1⟩

/-- Settles O59: a reset leaves no passage open, and any other step keeps the zeros of an open one. -/
theorem zerosAreFrozenInAPassage : Obligations.ZerosAreFrozenInAPassage := by
  intro s s' start hstep
  rcases step_cases hstep with ⟨m, t, l, rfl, kept⟩ | ⟨fresh, -⟩
  · exact ⟨kept.start start, kept.zeros start⟩
  · exact ⟨fresh.start, fun _ opened => absurd (fresh.shut.symm.trans opened) (by decide)⟩

/-! ### The change counter and the timebase (R91; 00, section 4.2) -/

/-- Settles O60: of every command but those of power, reset and start-up by the relation; the load keeps the timebase. -/
theorem changeCounterAndTimebaseRunForward : Obligations.ChangeCounterAndTimebaseRunForward := by
  refine ⟨fun c s s' hon hreset hloss hload e => ?_, fun c s s' time e => ?_⟩
  · have runs : runsOn c = true := by
      cases c <;> simp_all [runsOn]
    exact (exec_good runs e).counter rfl
  · rcases exec_cases e with kept | ⟨fresh, -⟩
    · exact ⟨kept.timeOk time, fun _ _ _ => kept.time⟩
    · refine ⟨fresh.timeOk, fun hon hreset hloss => ?_⟩
      by_cases runs : runsOn c = true
      · exact (exec_good runs e).time
      · cases c with
        | powerOn => exact absurd rfl hon
        | reset => exact absurd rfl hreset
        | lossOfPower => exact absurd rfl hloss
        | storeLoadEnd f =>
          cases e
          exact (ifPowered_good (loadEnds_good f) s).time
        | _ => exact absurd rfl runs

/-! ### The state right after power-on -/

/-- The blank store is in its form. -/
theorem blank_ok : StoreOk Store.blank := ⟨rfl, rfl⟩

/-- The part right after power-on is fresh. -/
theorem reset_fresh : Fresh State.reset := volatileReset_fresh _ _ _ _

/-- Settles O52: the state right after power-on is fresh, over a blank store. -/
theorem resetMeetsEveryProperty : Obligations.ResetMeetsEveryProperty := by
  have fresh := reset_fresh
  obtain ⟨tables, places⟩ := (tablesOk_placesOk_iff State.reset).mpr ⟨fresh.slots, fresh.wrg, fresh.classes, blank_ok⟩
  exact ⟨fresh.attn, fresh.permit, tables, places, fresh.certified, ⟨fresh.tracker, fresh.train⟩, fresh.directory, fresh.queue,
    fresh.stations, (countsOk_iff _).mpr ⟨fresh.counts, fresh.stats, fresh.stc⟩,
    (triggerOk_iff _).mpr ⟨fresh.ranges, fresh.permit.1⟩, fresh.start, fresh.timeOk, rfl, rfl, rfl⟩

end Sys2Proof.Machine
end

