-- ==== Sys2Proof/Proofs/PowerAndStartUp.lean ====
section
/-! PROOFS. The queue, power, the end of the store load, RESTART and RESET (R170 to R172, R195, R199, R200). -/

namespace Sys2Proof.Machine

/-! ### The queue, and a part without power -/

/-- Settles O1: a step is the execution of the front command; with none, the tick of a part with power. -/
theorem stepTakesFrontCommand : Obligations.StepTakesFrontCommand := by
  refine ⟨fun c rest s => rfl, fun s h => ?_⟩
  simp [step, h, idle, State.ifPowered, tick, timebaseRange]

/-- A command that is a request is the taking of one (R195). -/
theorem exec_request {c : Instr} {t : Nat} {g : Byte} {k : Target} (h : c.request? = some (t, g, k)) :
    ∃ a, ∀ s, exec c s = request t g k c.servedAlways a s := by
  cases c <;> cases h <;> exact ⟨_, fun _ => rfl⟩

/-- No command stops the part. -/
theorem exec_next (c : Instr) (s : State) : ∃ s', exec c s = .next s' := by
  cases c <;> exact ⟨_, rfl⟩

/-- A command of power, reset or start-up leaves the queue. -/
theorem exec_pending {c : Instr} {s s' : State} (e : exec c s = .next s') : s'.pending = s.pending := by
  by_cases runs : runsOn c = true
  · exact (exec_good runs e).pending
  · cases c with
    | powerOn =>
      cases e
      show (if s.powered then cutPower s else s).pending = s.pending
      split <;> rfl
    | reset =>
      cases e
      by_cases hp : s.powered = true
      · rw [ifPowered_on hp]
        split <;> rfl
      · rw [ifPowered_off (by simpa using hp)]
    | lossOfPower =>
      cases e
      by_cases hp : s.powered = true
      · rw [ifPowered_on hp]; rfl
      · rw [ifPowered_off (by simpa using hp)]
    | storeLoadEnd f =>
      cases e
      exact (ifPowered_good (loadEnds_good f) s).pending
    | _ => exact absurd rfl runs

/-- Settles O2. -/
theorem everyCommandLeavesTheQueue : Obligations.EveryCommandLeavesTheQueue := by
  refine ⟨fun c s => ?_, fun c s off hon => ?_, fun c t g k s hc notAlways powered starting => ?_⟩
  · obtain ⟨s', e⟩ := exec_next c s
    exact ⟨s', e, exec_pending e⟩
  · cases c with
    | powerOn => exact absurd rfl hon
    | calswChange t p =>
      by_cases moved : s.calsw = p
      · subst moved
        simp only [exec, execCalswChange, if_true, ifPowered_off off]
        rfl
      · simp [exec, execCalswChange, moved, off]
    | _ => exact congrArg Host.Outcome.next (ifPowered_off off _)
  · obtain ⟨a, e⟩ := exec_request hc
    rw [e, notAlways]
    exact request_refused powered starting

/-! ### Power is applied and lost (R171, R172, R175, R199) -/

theorem exec_powerOn_off {s : State} (h : s.powered = false) :
    exec .powerOn s = .next (State.volatileReset s.pending s.freeCount s.calsw s.store) := by
  simp [exec, execPowerOn, applyPower, h]

theorem exec_lossOfPower {s : State} (h : s.powered = true) : exec .lossOfPower s = .next (cutPower s) :=
  congrArg Host.Outcome.next (ifPowered_on h _)

/-- Power applied to a part that has it is the loss of it and then power on. -/
theorem exec_powerOn_on {s : State} (h : s.powered = true) : exec .powerOn s = exec .powerOn (cutPower s) := by
  rw [exec_powerOn_off (s := cutPower s) rfl]
  simp [exec, execPowerOn, applyPower, h]

/-- What a table of stored entries holds after one of them is given a content, or none. -/
theorem tget_putStored {α : Type} {t : Table (Stored α)} (h : Table.wf t = true) (k : Nat) (v : Option (Stored α)) (j : Nat) :
    tget (putStored t k v) j = if j = k then v else tget t j := by
  cases v with
  | none => exact tget_tdel h j
  | some x => exact tget_tput h j

/-- What a table of stored entries holds after each key of a list is given a content of its own. -/
theorem tget_foldl_putStored {α : Type} (g : Nat → Option (Stored α)) (k : Nat) : ∀ (l : List Nat) (t : Table (Stored α)),
    Table.wf t = true → tget (l.foldl (fun t c => putStored t c (g c)) t) k = if k ∈ l then g k else tget t k
  | [], t, _ => by simp
  | c :: l, t, h => by
    rw [List.foldl_cons, tget_foldl_putStored g k l _ (wf_putStored h c _), tget_putStored h]
    by_cases hl : k ∈ l <;> by_cases hc : k = c <;> simp [hl, hc]

theorem mem_classCodes {c : Nat} : c ∈ classCodes ↔ 1 ≤ c ∧ c ≤ 24 := by
  simp only [classCodes, List.mem_map, List.mem_range]
  constructor
  · rintro ⟨a, ha, rfl⟩; omega
  · rintro ⟨h1, h2⟩; exact ⟨c - 1, by omega, by omega⟩

/-- Each code of a class area written: new, old or failing its check, as was decided for it (R167). -/
theorem tget_writeClasses {old : Table (Stored ClassRec)} (h : Table.wf old = true) (new : Table ClassRec)
    (f : Nat → Option Bool) (c : Nat) : tget (writeClasses old new f) c =
      if 1 ≤ c ∧ c ≤ 24 then storedAfter (f c) ((tget new c).map .sound) (tget old c) else tget old c := by
  unfold writeClasses
  rw [tget_foldl_putStored (fun c => storedAfter (f c) ((tget new c).map .sound) (tget old c)) c classCodes old h]
  simp only [mem_classCodes]

/-- What a cut class-area write leaves at a code: new below the code being written, failing there, old above it (R172). -/
theorem storedAfter_cutClass {α : Type} (n c : Nat) (new old : Option (Stored α)) :
    storedAfter (cutClass n c) new old = if c < n then new else if c = n then some .bad else old := by
  unfold cutClass
  by_cases below : c < n
  · simp [below, storedAfter]
  · by_cases at_ : c = n <;> simp [below, at_, storedAfter]

theorem cutPower_store (s : State) : (cutPower s).store = cutStore s.stc.busy s.freeCount s.store := rfl

/-- A cut in the writing of the class area (R172). -/
theorem cutStore_classArea {b : Busy} {t : Table ClassRec} {l : List Item} {st : Store} (phase : b.phase = .body)
    (op : b.op = .registerCommit) (items : b.items = .classArea t :: l) (n : Nat) : cutStore (some b) n st =
      { st with classes := writeClasses st.classes t (cutClass (Config.classEntryAtCut n % 24 + 1)) } := by
  simp only [cutStore, phase, cutBody, op, items, Store.writeItem]

/-- Settles O3: the volatile blocks by definition, and the store by the write that was in hand. -/
theorem powerIsAppliedAndLost : Obligations.PowerIsAppliedAndLost := by
  refine ⟨fun s off => ⟨exec_powerOn_off off, rfl, rfl, rfl, rfl⟩, fun s on => ⟨cutPower s, exec_lossOfPower on, rfl,
    exec_powerOn_on on, rfl, rfl, fun k => by cases k <;> rfl, rfl, rfl, fun p => by cases p <;> rfl, rfl, rfl, rfl, rfl, rfl,
    rfl, rfl, rfl, fun idle => ?_, fun b busy phase => ?_, fun b c v busy phase write => ?_, fun b c v busy phase write => ?_,
    fun b busy phase op => ?_, fun b k f l busy phase op items => ?_, fun b k l busy phase op items => ?_,
    fun b t l busy phase op items wf => ?_⟩⟩
  · rw [cutPower_store, idle, cutStore]
  · rw [cutPower_store, busy, cutStore, phase]
  · rw [cutPower_store, busy]
    refine ⟨fun op => ?_, fun op => ?_⟩ <;> simp [cutStore, phase, cutReservation, cutCell, write, op]
  · simp [cutPower_store, busy, cutStore, phase, cutCell, write]
  · simp [cutPower_store, busy, cutStore, phase, cutBody, op]
  · simp [cutPower_store, busy, cutStore, phase, cutBody, op, items, Store.writeItem, storedAfter, putStored]
  · simp [cutPower_store, busy, cutStore, phase, cutBody, op, items, Store.writeItem, storedAfter, putStored]
  · rw [cutPower_store, busy, cutStore_classArea phase op items]
    refine ⟨rfl, Config.classEntryAtCut s.freeCount % 24 + 1, by omega, by omega, fun c h1 h2 => ?_⟩
    rw [tget_writeClasses wf, if_pos ⟨h1, h2⟩, storedAfter_cutClass]

/-! ### What the store gives at start-up (R91 to R93, R170) -/

/-- Settles O5: the calibration from the image, and the last number by the cases of the two cells. -/
theorem startUpReadsTheStore : Obligations.StartUpReadsTheStore := by
  refine ⟨fun s => ?_, fun a b h => ?_, fun a b h h' => ?_, fun a b h h' => ?_, fun a h => ?_, fun a h h' => ?_, rfl⟩
  · obtain ⟨cal, zeros, -⟩ := loadCalibration_cal s
    rw [cal, zeros]
    refine ⟨rfl, rfl, fun c n image valid => ?_, fun lost => ?_⟩
    · simp [examineImage, image, valid]
    · rcases lost with image | ⟨c, n, image, invalid⟩
      · simp only [examineImage, image, shadowCounter]
        cases s.store.shadow <;> simp
      · obtain ⟨f, failing⟩ := Option.ne_none_iff_exists'.mp invalid
        simp only [examineImage, image, failing, shadowCounter]
        cases s.store.shadow <;> simp
  · simp [loadCells, h]
  · simp only [loadCells, if_neg h', if_pos h]
  · simp only [loadCells, h, h', if_false]
    split <;> omega
  · simp only [loadCells, numberAfter, maxPassage]
    omega
  · simp only [loadCells, numberAfter, maxPassage]
    omega

/-! ### RESTART and RESET (R200) -/

/-- The evaluation of PERMIT raises PERMIT when the state changes, and does nothing else to the FAU (R152). -/
theorem evalPermit_fau (s : State) : (evalPermit s).fau =
    if (evalPermit s).ptb.permit = s.ptb.permit then s.fau else
      { s.fau with attention := s.fau.attention ||| attSet .permit
                   attn := attnLevel (s.fau.attention ||| attSet .permit) s.settings.attentionMask } := by
  unfold evalPermit
  generalize waterNext s.ptb.water s.usedSlots s.settings.highWater s.settings.lowWater = w
  simp only
  generalize (if permitHolds (s.setPtb { s.ptb with water := w }) = true then Permit.asserted else Permit.withdrawn) = x
  by_cases same : x = s.ptb.permit <;> simp [same, raiseAtt, evalAttn]

theorem evalPermit_slk (s : State) : (evalPermit s).slk = s.slk := by rw [evalPermit_eq]; rfl
theorem evalPermit_condition (s : State) : (evalPermit s).condition = s.condition := by rw [evalPermit_eq]; rfl

/-- PERMIT withdrawn in a part that is not READY (R152). -/
theorem evalPermit_notReady {s : State} (h : s.condition ≠ .ready) : (evalPermit s).ptb.permit = .withdrawn := by
  rw [evalPermit_ptb]
  simp [permitHolds, h]

theorem resetDue_iff (s : State) : resetDue s = true ↔
    s.condition = .restarting ∧ s.slk.restartDue = false ∧ s.stc.busy = none ∧ s.stc.waiting = false := by
  simp [resetDue, and_assoc]

theorem exec_reset_due {s : State} (on : s.powered = true) (due : resetDue s = true) :
    exec .reset s = .next (applyPower s) := by
  simp [exec, execReset, ifPowered_on on, due]

theorem exec_reset_notDue {s : State} (due : resetDue s = false) : exec .reset s = .next s := by
  simp [exec, execReset, due, State.ifPowered]

/-- An accepted RESTART in a READY part: RESTARTING, its reply owed and marked (R200). -/
theorem exec_restart_ready {s : State} (on : s.powered = true) (shut : s.isOpen = false) (ready : s.condition = .ready)
    (due : s.slk.restartDue = false) (t : Nat) (g : Byte) : exec (.restart t g) s =
      .next ((beginRestart (s.taking t)).setSlk { (beginRestart (s.taking t)).slk with service := some ⟨g, 1, .ok, [], true⟩ }) := by
  have run : restartDo (s.taking t) = (beginRestart (s.taking t), .ok []) := by
    simp [restartDo, shut, ready]
  have owed : (beginRestart (s.taking t)).slk.restartDue = true := by
    rw [beginRestart, evalPermit_slk]; rfl
  have notOwed := State.taking_restartDue due t
  have started : (s.taking t).started = true := by simp [State.started, ready]
  rw [exec_restart, request, ifPowered_on on]
  show Host.Outcome.next (serve g (byteOf (targetNum .sys)) false restartDo (s.taking t)) = _
  simp [serve, actOrRefuse, started, compose, run, owed, notOwed, Answer.ok, targetNum, byteOf]

/-- Settles O6. -/
theorem restartThenReset : Obligations.RestartThenReset := by
  refine ⟨fun s t g on opened started => ?_, fun s t g on shut ready due => ?_, fun s t g on shut restarting => ?_,
    fun s on restarting due busy waiting => exec_reset_due on ((resetDue_iff s).mpr ⟨restarting, due, busy, waiting⟩),
    fun s notDue => exec_reset_notDue ?_⟩
  · exact request_answer on (Or.inl started) (x := .bare .passageOpen) (by simp [restartDo, opened])
  · refine ⟨_, exec_restart_ready on shut ready due t g, ?_, ?_, rfl, ?_, fun asserted => ?_⟩
    · exact evalPermit_condition _
    · exact evalPermit_notReady (by simp)
    · exact congrArg Slk.restartDue (evalPermit_slk _)
    · have withdrawn : (beginRestart (s.taking t)).ptb.permit = .withdrawn := evalPermit_notReady (by simp)
      show (beginRestart (s.taking t)).fau.attention.getLsbD 6 = true
      unfold beginRestart at withdrawn ⊢
      rw [evalPermit_fau, withdrawn]
      simp [asserted, attSet, attNum]
  · exact request_answer on (Or.inl (by simp [restarting])) (x := .ok []) (by simp [restartDo, shut, restarting])
  · refine Bool.eq_false_iff.mpr fun due => ?_
    obtain ⟨restarting, owed, busy, waiting⟩ := (resetDue_iff s).mp due
    simp [restarting, owed, busy, waiting] at notDue

/-! ### The end of the store load (R92, R170, R171, R180, R199) -/

/-- The same of what an occurrence, taken, writes: the capture, the counts, the worst severity and FAULT (R179). -/
def Fau.SameTaken (f g : Fau) : Prop :=
  f.capture = g.capture ∧ f.counts = g.counts ∧ f.worst = g.worst ∧ f.attention.getLsbD 3 = g.attention.getLsbD 3

theorem Fau.SameTaken.trans {f g h : Fau} (a : f.SameTaken g) (b : g.SameTaken h) : f.SameTaken h :=
  ⟨a.1.trans b.1, a.2.1.trans b.2.1, a.2.2.1.trans b.2.2.1, a.2.2.2.trans b.2.2.2⟩

/-- An occurrence taken by two parts that stood the same leaves them the same. -/
theorem takeFault_sameTaken {s u : State} (o : FaultOcc) (settings : s.settings = u.settings) (h : s.fau.SameTaken u.fau) :
    (takeFault o s).fau.SameTaken (takeFault o u).fau := by
  obtain ⟨capture, counts, worst, fault⟩ := h
  rw [takeFault_fau, takeFault_fau, settings]
  split
  · exact ⟨capture, by simp [countFault, counts], by simp [countFault, worst], fault⟩
  · exact ⟨by simp [capture], by simp [countFault, counts], by simp [countFault, worst], by simp only [BitVec.getLsbD_or, fault]⟩

@[simp] theorem takeFault_settings (o : FaultOcc) (s : State) : (takeFault o s).settings = s.settings := by
  rw [takeFault_eq]; rfl

theorem takeAll_sameTaken (l : List FaultOcc) : ∀ {s u : State}, s.settings = u.settings → s.fau.SameTaken u.fau →
    (takeAll l s).fau.SameTaken (takeAll l u).fau := by
  induction l with
  | nil => intro s u _ h; exact h
  | cons o l ih => intro s u settings h; exact ih (by simp [settings]) (takeFault_sameTaken o settings h)

@[simp] theorem takeFault_held (o : FaultOcc) (s : State) : (takeFault o s).fau.held = s.fau.held := by
  rw [takeFault_fau]
  split <;> rfl

theorem takeAll_held (l : List FaultOcc) : ∀ s : State, (takeAll l s).fau.held = s.fau.held := by
  induction l with
  | nil => intro s; rfl
  | cons o l ih => intro s; exact (ih _).trans (takeFault_held o s)

/-- Between two states of the FAU nothing was taken, and a list of occurrences was added to those held. -/
def Fau.HeldOver (l : List FaultOcc) (f g : Fau) : Prop := f.SameTaken g ∧ g.held = f.held ++ l

theorem Fau.HeldOver.trans {l m : List FaultOcc} {f g h : Fau} (a : f.HeldOver l g) (b : g.HeldOver m h) :
    f.HeldOver (l ++ m) h :=
  ⟨a.1.trans b.1, by rw [b.2, a.2, List.append_assoc]⟩

/-- The evaluation of PERMIT takes no occurrence and holds none. -/
theorem evalPermit_heldOver (s : State) : s.fau.HeldOver [] (evalPermit s).fau := by
  rw [evalPermit_fau]
  split
  · exact ⟨⟨rfl, rfl, rfl, rfl⟩, by simp⟩
  · exact ⟨⟨rfl, rfl, rfl, by simp [attSet, attNum]⟩, by simp⟩

/-- Before start-up is finished an occurrence is held (R180). -/
theorem reportFault_heldOver {s : State} (o : FaultOcc) (h : s.condition = .starting) :
    s.fau.HeldOver [o] (reportFault o s).fau := by
  simp [reportFault, State.started, h, Fau.HeldOver, Fau.SameTaken]

/-- Before start-up is finished a platform evaluated holds its occurrence over, and has none when it was OUT (R19, R180). -/
theorem evalPlatform_heldOver (t : Nat) (p : Platform) {s : State} (h : s.condition = .starting) :
    ∃ l, ((s.lcu.platforms.get p).service = .out → l = []) ∧ s.fau.HeldOver l (evalPlatform t p s).fau := by
  unfold evalPlatform
  simp only
  split
  · next inService _ =>
    generalize (setService p .out s).occNow .platformOut t _ _ = o
    have held : s.fau.HeldOver [o] (reportFault o (setService p .out s)).fau :=
      reportFault_heldOver (s := setService p .out s) o h
    exact ⟨_, fun out => absurd (inService.symm.trans out) (by decide), held.trans (evalPermit_heldOver _)⟩
  · exact ⟨[], fun _ => rfl, evalPermit_heldOver (setService p .inService s)⟩
  · exact ⟨[], fun _ => rfl, ⟨rfl, rfl, rfl, rfl⟩, by simp⟩

theorem evalPlatform_condition (t : Nat) (p : Platform) (s : State) : (evalPlatform t p s).condition = s.condition := by
  rw [evalPlatform_frame]

theorem evalPlatform_service_ne (t : Nat) {p q : Platform} (hne : q ≠ p) (s : State) :
    ((evalPlatform t p s).lcu.platforms.get q).service = (s.lcu.platforms.get q).service := by
  rw [evalPlatform_lcu]
  simp only [PerPlatform.get_set, if_neg hne]

/-- The same of two platforms, one after the other. -/
theorem evalTwo_heldOver (t : Nat) {p q : Platform} (hne : q ≠ p) {s : State} (h : s.condition = .starting) :
    ∃ l, ((∀ x, (s.lcu.platforms.get x).service = .out) → l = []) ∧
      s.fau.HeldOver l (evalPlatform t q (evalPlatform t p s)).fau := by
  obtain ⟨l, hl, held⟩ := evalPlatform_heldOver t p h
  obtain ⟨m, hm, held'⟩ := evalPlatform_heldOver t q ((evalPlatform_condition t p s).trans h)
  refine ⟨l ++ m, fun out => ?_, held.trans held'⟩
  simp [hl (out p), hm ((evalPlatform_service_ne t hne s).trans (out q))]

theorem evalPlatforms_heldOver (t : Nat) {s : State} (h : s.condition = .starting) :
    ∃ l, ((∀ x, (s.lcu.platforms.get x).service = .out) → l = []) ∧ s.fau.HeldOver l (evalPlatforms t s).fau := by
  rw [evalPlatforms_eq]
  rcases platformsInOrder_cases s with order | order <;> rw [order]
  · exact evalTwo_heldOver t (by decide) h
  · exact evalTwo_heldOver t (by decide) h

/-- The part when everything is read from the store, before the faults are taken (R171). -/
def State.afterLoad (s : State) : State := (loadCalibration (loadTables (s.advance loadTicks))).setCondition .ready

theorem finishLoad_def (first : Bool) (s : State) : finishLoad first s =
    evalPermit (takeHeld (loadFaults first (s.advance loadTicks).timebase (s.advance loadTicks).store) s.afterLoad) := rfl

/-- What the calibration of the load leaves: the blocks that it does not read into, and the last passage number. -/
theorem loadCalibration_rest (s : State) :
    (loadCalibration s).timebase = s.timebase ∧ (loadCalibration s).seg = s.seg ∧ (loadCalibration s).wrg = s.wrg ∧
      (loadCalibration s).stc = s.stc ∧ (loadCalibration s).store = s.store ∧ (loadCalibration s).settings = s.settings ∧
      (loadCalibration s).ptb.lastNumber = s.ptb.lastNumber := by
  unfold loadCalibration
  simp only
  generalize examineImage s.store = x
  have frame : ∀ (m : State) (t : Nat) (v : Int), (applyPattern t v m).timebase = m.timebase ∧ (applyPattern t v m).seg = m.seg ∧
      (applyPattern t v m).wrg = m.wrg ∧ (applyPattern t v m).stc = m.stc ∧ (applyPattern t v m).store = m.store ∧
      (applyPattern t v m).settings = m.settings ∧ (applyPattern t v m).ptb.lastNumber = m.ptb.lastNumber := by
    intro m t v
    obtain ⟨l, y, z, n, e, -, -, -, -, last⟩ := applyPattern_evaluated t v m
    rw [e]
    exact ⟨rfl, rfl, rfl, rfl, rfl, rfl, last⟩
  exact frame _ _ _

/-- A pattern applied before start-up is finished holds over the occurrences of platforms that were not OUT (R20, R180). -/
theorem applyPattern_heldOver (t : Nat) (v : Int) {s : State} (h : s.condition = .starting) :
    ∃ l, ((∀ x, (s.lcu.platforms.get x).service = .out) → l = []) ∧ s.fau.HeldOver l (applyPattern t v s).fau :=
  evalPlatforms_heldOver t (s := s.setChannels (.ofFn fun c => (s.lcu.channels.get c).refit (inPattern v c))) h

/-- What the load reads is read before anything is taken. -/
theorem afterLoad_heldOver {s : State} (h : s.condition = .starting) :
    ∃ l, ((∀ x, (s.lcu.platforms.get x).service = .out) → l = []) ∧ s.fau.HeldOver l s.afterLoad.fau := by
  unfold State.afterLoad loadCalibration
  simp only
  generalize examineImage (loadTables (s.advance loadTicks)).store = x
  exact applyPattern_heldOver _ _ (s := ((loadTables (s.advance loadTicks)).setCal ⟨x.1, x.1, x.2.1, x.2.2.1, .idle, none,
    none⟩).setZcl { (loadTables (s.advance loadTicks)).zcl with zeros := x.1.zero }) h

/-- CAL_INVALID as the load reports it: the image failed its check, or a field of it its validation (R92). -/
theorem invalidFault_toList (t : Nat) (st : Store) : (invalidFault t st).toList =
    match st.image with
    | none => [⟨.calInvalid, t, none, none, some .calCheck⟩]
    | some (c, _) => match validate c with
      | none => []
      | some f => [⟨.calInvalid, t, none, none, some (.calValidation f.1)⟩] := by
  unfold invalidFault examineImage
  rcases st.image with _ | ⟨c, n⟩
  · rfl
  · cases h : validate c <;> simp [h]

/-- STORE_RECORDS_LOST as the load reports it (R171). -/
theorem lostFault_toList (t : Nat) (st : Store) : (lostFault t st).toList =
    if st.places.length - (loadRecords st.places).length = 0 ∧ st.classes.length - (loadClasses st.classes).length = 0 ∧
      (st.cell1.isNone && st.cell2.isNone) = false then []
    else [⟨.storeRecordsLost, t, none, none, some (.lost (st.places.length - (loadRecords st.places).length)
      (st.classes.length - (loadClasses st.classes).length) (st.cell1.isNone && st.cell2.isNone))⟩] := by
  unfold lostFault
  simp only
  split
  · next h => rw [if_pos (by exact h)]; rfl
  · next h => rw [if_neg (by exact h)]; rfl

/-- Settles O4: the tables and the calibration are read, then the held occurrences and those of the load are taken, and
PERMIT is evaluated last. -/
theorem loadEndFinishesStartUp : Obligations.LoadEndFinishesStartUp := by
  intro s b first on busy op phase waters
  have run : exec (.storeLoadEnd first) s = .next (finishLoad first s) := by
    simp [exec, execStoreLoadEnd, ifPowered_on on, loadEnds, State.inHand, busy, phase, op]
  obtain ⟨time, seg, wrg, stc, store, settings, last⟩ := loadCalibration_rest (loadTables (s.advance loadTicks))
  obtain ⟨cal, zeros, fitted⟩ := loadCalibration_cal (loadTables (s.advance loadTicks))
  obtain ⟨cal', zeros', -⟩ := loadCalibration_cal s
  have taken : ∀ l, takeHeld l s.afterLoad = s.afterLoad.setFau (takeHeld l s.afterLoad).fau := fun l => takeAll_eq _ _
  have frame : ∃ (y : Ptb) (f : Fau), finishLoad first s = (s.afterLoad.setPtb y).setFau f := finishLoad_eq first s
  refine ⟨finishLoad first s, run, ?_⟩
  have lastNumber : (finishLoad first s).ptb.lastNumber = s.afterLoad.ptb.lastNumber := by
    rw [finishLoad_def, evalPermit_lastNumber, taken]; rfl
  have permit : (finishLoad first s).permitOk := by
    rw [finishLoad_def]
    refine evalPermit_permitOk ?_
    rw [taken]
    show (loadCalibration (loadTables (s.advance loadTicks))).settings.lowWater <
      (loadCalibration (loadTables (s.advance loadTicks))).settings.highWater
    rw [settings]
    exact waters
  obtain ⟨same, held⟩ := evalPermit_heldOver
    (takeHeld (loadFaults first (s.advance loadTicks).timebase (s.advance loadTicks).store) s.afterLoad)
  rw [← finishLoad_def] at same held
  have heldNone : (finishLoad first s).fau.held = [] := by
    rw [held, takeHeld, takeAll_held]
    rfl
  obtain ⟨y, f, e⟩ := frame
  refine ⟨by rw [e]; rfl, by rw [e]; exact time, by rw [e]; exact congrArg Seg.classes seg, by rw [e]; exact congrArg Seg.dirty seg,
    by rw [e]; exact wrg, by rw [lastNumber]; exact last, by rw [e]; exact congrArg Stc.busy stc,
    by rw [e]; exact congrArg Stc.waiting stc, by rw [e]; exact congrArg Stc.last stc, by rw [e]; exact congrArg Stc.failures stc,
    by rw [e]; exact congrArg Stc.health stc, heldNone, by rw [e]; exact store, permit,
    by rw [e]; exact cal.trans cal'.symm, by rw [e]; exact congrArg Cal.phase cal, by rw [e]; exact congrArg Cal.snapshot cal,
    by rw [e]; exact congrArg Cal.lastOutcome cal, by rw [e]; exact zeros.trans zeros'.symm, by rw [e]; exact fitted,
    fun starting => ?_⟩
  obtain ⟨l, outs, sameLoad, heldLoad⟩ := afterLoad_heldOver starting
  refine ⟨l, outs, ?_⟩
  have started : (s.afterLoad.setFau { s.afterLoad.fau with held := [] }).fau.SameTaken
      (s.setFau { s.fau with held := [] }).fau :=
    ⟨sameLoad.1.symm, sameLoad.2.1.symm, sameLoad.2.2.1.symm, sameLoad.2.2.2.symm⟩
  have all := takeAll_sameTaken (s.fau.held ++ l ++ loadFaults first (max s.timebase 5000) s.store)
    (s := s.afterLoad.setFau { s.afterLoad.fau with held := [] }) (u := s.setFau { s.fau with held := [] }) settings started
  have order : takeHeld (loadFaults first (s.advance loadTicks).timebase (s.advance loadTicks).store) s.afterLoad =
      takeAll (s.fau.held ++ l ++ loadFaults first (max s.timebase 5000) s.store)
        (s.afterLoad.setFau { s.afterLoad.fau with held := [] }) := by
    rw [takeHeld, heldLoad]; rfl
  rw [order] at same
  obtain ⟨capture, counts, worst, fault⟩ := all
  obtain ⟨capture', counts', worst', fault'⟩ := same
  rw [loadFaults, invalidFault_toList, lostFault_toList] at capture counts worst fault capture' counts' worst' fault'
  exact ⟨capture'.symm.trans capture, counts'.symm.trans counts, worst'.symm.trans worst, fault'.symm.trans fault⟩

end Sys2Proof.Machine
end

