-- ==== Sys2Proof/Proofs/SystemRequests.lean ====
section
/-! PROOFS. The taking of occurrences, the attention set and the wagon trigger (R179 to R189), and the requests of SYS
(R186, R201 to R203). -/

namespace Sys2Proof.Machine

/-! ### The taking of an occurrence (R179, R180) -/

/-- An occurrence counts its kind (R179, step 1). -/
theorem takeFault_counts (o : FaultOcc) (s : State) :
    (takeFault o s).fau.counts = updateAt (satSucc 255) (faultNum o.kind - 1) s.fau.counts := by
  rw [takeFault_fau]
  split <;> rfl

/-- An occurrence raises the worst severity to its own (R179, step 2). -/
theorem takeFault_worst (o : FaultOcc) (s : State) :
    (takeFault o s).fau.worst = some (worse s.fau.worst (faultSeverity o.kind)) := by
  rw [takeFault_fau]
  split <;> rfl

theorem faultNum_pos (k : FaultKind) : 1 ≤ faultNum k := by cases k <;> decide

/-- Two places changed by one function, in either order. -/
theorem updateAt_comm {α : Type} (f : α → α) (i j : Nat) (l : List α) :
    updateAt f i (updateAt f j l) = updateAt f j (updateAt f i l) := by
  rcases Decidable.em (i = j) with rfl | hne
  · rfl
  · refine List.ext_getElem? fun k => ?_
    simp only [getElem?_updateAt]
    by_cases hi : k = i
    · simp [hi, hne]
    · simp [hi]

/-- The greatest of three severities, in either order. -/
theorem worse_comm (w : Option Severity) (u v : Severity) : worse (some (worse w u)) v = worse (some (worse w v)) u := by
  rcases w with _ | w
  · cases u <;> cases v <;> rfl
  · cases w <;> cases u <;> cases v <;> rfl

theorem attSet_fault : attSet .fault = 0x08 := by decide

/-- Settles O11: field by field, from the FAU that an occurrence leaves. -/
theorem occurrenceIsTakenWhole : Obligations.OccurrenceIsTakenWhole := by
  refine ⟨fun o s => ⟨takeFault_eq o s, fun i => ?_, fun none => ?_, fun v some => ?_, fun masked => ?_, fun unmasked => ?_, ?_,
    takeFault_held o s, ?_⟩, fun o s => ⟨fun starting => ?_, fun started => ?_⟩, fun o q s => ⟨?_, fun ho hq empty => ?_⟩⟩
  · have kind := faultNum_pos o.kind
    have place : i = faultNum o.kind - 1 ↔ i + 1 = faultNum o.kind := by omega
    rw [takeFault_counts, getElem?_updateAt]
    simp only [place]
    rfl
  · rw [takeFault_worst, none, worse]
  · rw [takeFault_worst, some, worse]
  · rw [takeFault_fau, if_pos masked]
    exact ⟨rfl, rfl, rfl⟩
  · rw [takeFault_fau, if_neg (by simp [unmasked]), attSet_fault]
    exact ⟨rfl, rfl, rfl⟩
  · rw [takeFault_fau]; split <;> rfl
  · rw [takeFault_fau]; split <;> rfl
  · simp [reportFault, State.started, starting]
  · simp [reportFault, State.started, started]
  · have settings : ∀ p : FaultOcc, (takeFault p s).settings = s.settings := fun p => takeFault_settings p s
    rw [takeFault_eq q, takeFault_eq o (takeFault q s), takeFault_eq o s, takeFault_eq q s]
    show s.setFau _ = s.setFau _
    congr 1
    rw [takeFault_fau q, takeFault_fau o]
    simp only [State.setFau_settings, State.setFau_fau]
    rw [takeFault_fau o, takeFault_fau q]
    by_cases hq : isMasked s.settings.faultMask q.kind = true <;> by_cases ho : isMasked s.settings.faultMask o.kind = true <;>
      simp [hq, ho, countFault, updateAt_comm, worse_comm s.fau.worst (faultSeverity o.kind), BitVec.or_assoc]
  · constructor
    · rw [takeFault_fau q, if_neg (by simp [hq]), takeFault_fau o, if_neg (by simp [ho]), empty]; rfl
    · rw [takeFault_fau o, if_neg (by simp [ho]), takeFault_fau q, if_neg (by simp [hq]), empty]; rfl

/-! ### The trigger (R187, R188) -/

theorem fireTrigger_eq (s : State) : fireTrigger s = raiseAtt .wagons (s.setFau { s.fau with trigger := 0 }) := rfl

/-- Settles O12. -/
theorem triggerFiresByCountOrIdleness : Obligations.TriggerFiresByCountOrIdleness := by
  refine ⟨fun t s => ⟨fun below => ?_, fun reached => ?_⟩, fun s on => ⟨fun c counting last => ?_, fun none => ?_⟩⟩
  · rw [countCompletion_eq, countCompletion_fau, if_neg below]
  · rw [countCompletion_eq, countCompletion_fau, if_pos reached]
    rfl
  · have expiry : s.idleExpiry = some (c + s.settings.triggerIdle * 20) := by
      simp [State.idleExpiry, counting, last]
    simp only [exec, execTriggerIdleExpiry, ifPowered_on on, triggerExpires, expiry]
    rfl
  · simp [exec, execTriggerIdleExpiry, ifPowered_on on, triggerExpires, State.idleExpiry, none]

/-! ### Attention (R184 to R186) -/

/-- Settles O9: a raise by definition, the exchange by the action it serves. -/
theorem attentionIsRaisedAndExchanged : Obligations.AttentionIsRaisedAndExchanged := by
  refine ⟨fun b s => rfl, fun s t g m ⟨on, started⟩ => ?_⟩
  rw [exec_exchangeAttention, request_served on (Or.inl started) rfl]
  simp only [exchangeAttentionDo, clearAttention, evalAttn, Answer.ok, exchangeAttentionData, beSet, mark, State.taking_fau,
    State.taking_settings, State.setFau_fau, State.setFau_settings]
  rfl

/-! ### IDENTIFY, CAPABILITIES, TIME and STATUS (R201, R202) -/

theorem identifyData_eq : identifyData =
    0x3D :: 0x17 :: 0x0A :: 0x30 :: Config.revision :: be 8 Config.serial.toNat := by
  simp [identifyData, be, byteOf, beSet]

theorem capabilitiesData_eq : capabilitiesData =
    [0x08, 0, 0x02, 0x80, 0, 8, 0x10, 0, 0, 24, 0, 8, 0, 4, 0, 240, 0, 8, 0, 3] := by decide

/-- STATUS begins with the condition and the timebase (R201). -/
theorem take_statusData (s : State) : (statusData s).take 7 = byteOf (conditionNum s.condition) :: be 6 s.timebase := by
  have first : be 1 (conditionNum s.condition) ++ be 6 s.timebase = byteOf (conditionNum s.condition) :: be 6 s.timebase := rfl
  have length : (be 1 (conditionNum s.condition) ++ be 6 s.timebase).length = 7 := by simp
  simp only [statusData, List.append_assoc]
  rw [← List.append_assoc, List.take_left' length, first]

/-- Settles O7. -/
theorem identityStatusAndTimeAreRead : Obligations.IdentityStatusAndTimeAreRead := by
  refine ⟨fun s t g on => ⟨?_, ?_, fun started => ?_⟩, fun s t g on => ⟨?_, length_statusData _, ?_⟩⟩
  · rw [← identifyData_eq]
    exact request_answer (a := identifyDo) (x := .ok identifyData) on (Or.inr rfl) rfl
  · exact request_answer (a := timeDo) (x := .ok (be 6 (s.taking t).timebase)) on (Or.inr rfl) rfl
  · rw [← capabilitiesData_eq]
    exact request_answer (a := capabilitiesDo) (x := .ok capabilitiesData) on (Or.inl started) rfl
  · exact request_answer (a := statusDo) (x := .ok (statusData (s.taking t))) on (Or.inr rfl) rfl
  · rw [take_statusData, State.taking_condition]

end Sys2Proof.Machine
end

