-- ==== Sys2Proof/Proofs/SettingsRequests.lean ====
section
/-! PROOFS. SETTINGS_READ and SETTINGS_WRITE (R203, with R48, R152, R153, R185 and R189). -/

namespace Sys2Proof.Machine

/-! ### The link stands through a close (R50) -/

theorem headIncident_slk (c : IncidentCause) (t : Nat) (k : Station) (s : State) : (headIncident c t k s).slk = s.slk := by
  unfold headIncident
  split
  · rfl
  · simp only
    generalize ho : (updStation k StationRec.fault s).occNow _ _ _ _ = o
    have reported : (reportFault o (updStation k StationRec.fault s)).slk = s.slk := by rw [reportFault_eq]; rfl
    split
    · exact (((reexamine_kept (p := true) (o := true) (u := true) t _).inner rfl).slk).trans reported
    · exact reported

theorem closePending_slk (t : Nat) (s : State) (k : Station) : (closePending t s k).slk = s.slk := by
  unfold closePending
  split
  · exact headIncident_slk _ _ _ _
  · rfl

theorem finalUpdate_slk (k : Nat) (s : State) : (finalUpdate k s).slk = s.slk := by
  unfold finalUpdate
  split
  · rfl
  · split <;> rfl

theorem foldl_slk {α : Type} {f : State → α → State} (h : ∀ s a, (f s a).slk = s.slk) (l : List α) :
    ∀ s : State, (l.foldl f s).slk = s.slk := by
  induction l with
  | nil => intro s; rfl
  | cons a l ih => intro s; exact (ih _).trans (h s a)

theorem finalisePassage_slk (t : Nat) (c : CloseCause) (s : State) : (finalisePassage t c s).slk = s.slk :=
  foldl_slk (fun s (r : Nat × Wagon) => finalUpdate_slk r.1 s) _ _

theorem closeFirst_slk (t : Nat) (c : CloseCause) (s : State) : (closeFirst t c s).slk = s.slk := by
  unfold closeFirst
  simp only
  rw [finalisePassage_slk]
  have pending : ([Station.s1, .s2, .s3].foldl (closePending t) (discardApproach s.axt.train.length s)).slk = s.slk :=
    (foldl_slk (closePending_slk t) _ _).trans
      ((discardApproach_kept (p := true) (o := true) (u := true) _ s).inner rfl).slk
  split
  · exact pending
  · exact (((evaluate_kept (p := true) (o := true) (u := true) t true _).inner rfl).slk).trans pending

theorem applyCommit_slk (c : CalSet) (s : State) : (applyCommit c s).slk = s.slk := by
  have zeros : (zclApply (adoptSet c s)).slk = s.slk := by rw [zclApply_eq]; rfl
  unfold applyCommit
  generalize zclApply (adoptSet c s) = z at zeros
  have evaluated := (applyPattern_evaluated s.timebase c.fitted z).trans (Evaluated.permit _)
  generalize evalPermit (applyPattern s.timebase c.fitted z) = y at evaluated
  obtain ⟨x, w, v, n, rfl, -⟩ := evaluated
  exact zeros

theorem applyHeld_slk (s : State) : (applyHeld s).slk = s.slk := by
  unfold applyHeld
  split
  · exact applyCommit_slk _ _
  · rfl

theorem closeLast_slk (s : State) : (closeLast s).slk = s.slk := by
  unfold closeLast
  simp only
  rw [evalPermit_slk]
  exact applyHeld_slk ((clearPassage s).setWsu ((clearPassage s).wsu.map .release))

/-- The close of a passage leaves the link as it is. -/
theorem closePassage_slk (t : Nat) (c : CloseCause) (s : State) : (closePassage t c s).slk = s.slk :=
  (closeLast_slk _).trans (closeFirst_slk t c s)

/-! ### One setting written -/

/-- One setting takes the value of a block. -/
def putSetting (b : Settings) (k : Nat) (x : Settings) : Settings :=
  match k with
  | 1 => { x with triggerCount := b.triggerCount }
  | 2 => { x with triggerIdle := b.triggerIdle }
  | 3 => { x with closeTimeout := b.closeTimeout }
  | 4 => { x with highWater := b.highWater }
  | 5 => { x with lowWater := b.lowWater }
  | 6 => { x with sideLimit := b.sideLimit }
  | 7 => { x with endLimit := b.endLimit }
  | 8 => { x with unevenLimit := b.unevenLimit }
  | 9 => { x with bogieMax := b.bogieMax }
  | 10 => { x with attentionMask := b.attentionMask }
  | 11 => { x with faultMask := b.faultMask }
  | _ => x

theorem writeTriggerCount_eq (v : Nat) (s : State) : writeTriggerCount v s =
    (s.setSettings { s.settings with triggerCount := v }).setFau (writeTriggerCount v s).fau := by
  unfold writeTriggerCount
  simp only
  split <;> rfl

theorem writeTriggerIdle_eq (v : Nat) (s : State) : writeTriggerIdle v s =
    (s.setSettings { s.settings with triggerIdle := v }).setFau (writeTriggerIdle v s).fau := by
  unfold writeTriggerIdle
  simp only
  split <;> rfl

/-- A written setting other than the close timeout changes the settings, as said, and the FAU. -/
theorem writeSetting_eq : ∀ {k : Nat}, k ≠ 3 → ∀ (b : Settings) (s : State), writeSetting b k s =
    (s.setSettings (putSetting b k s.settings)).setFau (writeSetting b k s).fau
  | 0, _, _, _ => rfl
  | 1, _, _, _ => writeTriggerCount_eq _ _
  | 2, _, _, _ => writeTriggerIdle_eq _ _
  | 3, h, _, _ => absurd rfl h
  | 4, _, _, _ | 5, _, _, _ | 6, _, _, _ | 7, _, _, _ | 8, _, _, _ | 9, _, _, _ | 10, _, _, _ | 11, _, _, _ => rfl
  | _ + 12, _, _, _ => rfl

/-- A written setting takes its value. -/
theorem writeSetting_settings (b : Settings) (k : Nat) (s : State) :
    (writeSetting b k s).settings = putSetting b k s.settings := by
  by_cases h : k = 3
  · subst h
    show (writeCloseTimeout b.closeTimeout s).settings = _
    unfold writeCloseTimeout
    simp only
    split
    · exact (closePassage_kept (p := true) _ _ _).settings
    · rfl
  · rw [writeSetting_eq h]
    rfl

theorem writeSetting_slk (b : Settings) (k : Nat) (s : State) : (writeSetting b k s).slk = s.slk := by
  by_cases h : k = 3
  · subst h
    show (writeCloseTimeout b.closeTimeout s).slk = _
    unfold writeCloseTimeout
    simp only
    split
    · exact closePassage_slk _ _ _
    · rfl
  · rw [writeSetting_eq h]
    rfl

/-! ### The named settings written -/

/-- A setting is written when the mask names it. -/
def writeIfNamed (m : BitVec 16) (b : Settings) (s : State) (k : Nat) : State :=
  if settingNamed m k then writeSetting b k s else s

/-- The settings of some indices are written in turn. -/
def writeNamed (m : BitVec 16) (b : Settings) (l : List Nat) (s : State) : State := l.foldl (writeIfNamed m b) s

theorem writeSettings_eq (m : BitVec 16) (b : Settings) (s : State) : writeSettings m b s =
    if settingNamed m 4 || settingNamed m 5 then evalPermit (writeNamed m b settingIndices s)
    else writeNamed m b settingIndices s := rfl

/-- The settings that are named take their values. -/
def putNamed (m : BitVec 16) (b : Settings) (l : List Nat) (x : Settings) : Settings :=
  l.foldl (fun x k => if settingNamed m k then putSetting b k x else x) x

/-- Every index in turn merges the block into the settings (R203). -/
theorem putNamed_all (m : BitVec 16) (b x : Settings) : putNamed m b settingIndices x = Settings.merged m b x := by
  have put : ∀ k x, (if settingNamed m k then putSetting b k x else x) = putNamed m b [k] x := fun _ _ => rfl
  have h1 (x) : putNamed m b [1] x = { x with triggerCount := if settingNamed m 1 then b.triggerCount else x.triggerCount } := by
    rw [← put]; split <;> rfl
  have h2 (x) : putNamed m b [2] x = { x with triggerIdle := if settingNamed m 2 then b.triggerIdle else x.triggerIdle } := by
    rw [← put]; split <;> rfl
  have h3 (x) : putNamed m b [3] x = { x with closeTimeout := if settingNamed m 3 then b.closeTimeout else x.closeTimeout } := by
    rw [← put]; split <;> rfl
  have h4 (x) : putNamed m b [4] x = { x with highWater := if settingNamed m 4 then b.highWater else x.highWater } := by
    rw [← put]; split <;> rfl
  have h5 (x) : putNamed m b [5] x = { x with lowWater := if settingNamed m 5 then b.lowWater else x.lowWater } := by
    rw [← put]; split <;> rfl
  have h6 (x) : putNamed m b [6] x = { x with sideLimit := if settingNamed m 6 then b.sideLimit else x.sideLimit } := by
    rw [← put]; split <;> rfl
  have h7 (x) : putNamed m b [7] x = { x with endLimit := if settingNamed m 7 then b.endLimit else x.endLimit } := by
    rw [← put]; split <;> rfl
  have h8 (x) : putNamed m b [8] x = { x with unevenLimit := if settingNamed m 8 then b.unevenLimit else x.unevenLimit } := by
    rw [← put]; split <;> rfl
  have h9 (x) : putNamed m b [9] x = { x with bogieMax := if settingNamed m 9 then b.bogieMax else x.bogieMax } := by
    rw [← put]; split <;> rfl
  have h10 (x) : putNamed m b [10] x =
      { x with attentionMask := if settingNamed m 10 then b.attentionMask else x.attentionMask } := by
    rw [← put]; split <;> rfl
  have h11 (x) : putNamed m b [11] x = { x with faultMask := if settingNamed m 11 then b.faultMask else x.faultMask } := by
    rw [← put]; split <;> rfl
  have inTurn : putNamed m b settingIndices x = putNamed m b [11] (putNamed m b [10] (putNamed m b [9] (putNamed m b [8]
    (putNamed m b [7] (putNamed m b [6] (putNamed m b [5] (putNamed m b [4] (putNamed m b [3] (putNamed m b [2]
    (putNamed m b [1] x)))))))))) := rfl
  rw [inTurn, h1, h2, h3, h4, h5, h6, h7, h8, h9, h10, h11]
  rfl

theorem writeIfNamed_settings (m : BitVec 16) (b : Settings) (s : State) (k : Nat) :
    (writeIfNamed m b s k).settings = if settingNamed m k then putSetting b k s.settings else s.settings := by
  unfold writeIfNamed
  split
  · exact writeSetting_settings b k s
  · rfl

theorem writeNamed_settings (m : BitVec 16) (b : Settings) (l : List Nat) :
    ∀ s : State, (writeNamed m b l s).settings = putNamed m b l s.settings := by
  induction l with
  | nil => intro s; rfl
  | cons k l ih => intro s; exact (ih _).trans (congrArg (putNamed m b l) (writeIfNamed_settings m b s k))

theorem writeIfNamed_slk (m : BitVec 16) (b : Settings) (s : State) (k : Nat) : (writeIfNamed m b s k).slk = s.slk := by
  unfold writeIfNamed
  split
  · exact writeSetting_slk b k s
  · rfl

theorem writeNamed_slk (m : BitVec 16) (b : Settings) (l : List Nat) (s : State) : (writeNamed m b l s).slk = s.slk :=
  foldl_slk (writeIfNamed_slk m b) l s

/-- With no close timeout among them, named settings change the settings and the FAU only. -/
theorem writeNamed_eq {m : BitVec 16} (b : Settings) : ∀ {l : List Nat}, (3 ∈ l → settingNamed m 3 = false) → ∀ s : State,
    writeNamed m b l s = (s.setSettings (putNamed m b l s.settings)).setFau (writeNamed m b l s).fau
  | [], _, _ => rfl
  | k :: l, h, s => by
    have rest := writeNamed_eq b (l := l) (fun hm => h (List.mem_cons_of_mem _ hm)) (writeIfNamed m b s k)
    have one : writeIfNamed m b s k = (s.setSettings (if settingNamed m k then putSetting b k s.settings else s.settings)).setFau
        (writeIfNamed m b s k).fau := by
      unfold writeIfNamed
      by_cases named : settingNamed m k = true
      · have not3 : k ≠ 3 := by
          rintro rfl
          exact absurd (named.symm.trans (h (by simp))) (by decide)
        simp only [named, if_true]
        exact writeSetting_eq not3 b s
      · simp only [named]
        rfl
    show writeNamed m b l (writeIfNamed m b s k) = ((s.setSettings _).setFau (writeNamed m b l (writeIfNamed m b s k)).fau)
    rw [writeIfNamed_settings] at rest
    generalize (writeNamed m b l (writeIfNamed m b s k)).fau = f at rest
    rw [rest, one]
    rfl

/-! ### The trigger under a write (R189) -/

/-- The same trigger: the counter, the attention set and the last completion time. -/
def Fau.SameTrigger (f g : Fau) : Prop :=
  g.trigger = f.trigger ∧ g.attention = f.attention ∧ g.lastCompletion = f.lastCompletion

/-- The trigger has fired: its counter at 0 and WAGONS raised, the last completion time standing. -/
def Fau.Fired (f g : Fau) : Prop :=
  g.trigger = 0 ∧ g.attention.getLsbD 0 = true ∧ g.lastCompletion = f.lastCompletion

theorem fireTrigger_fired (s : State) : s.fau.Fired (fireTrigger s).fau :=
  ⟨rfl, by simp [fireTrigger, raiseAtt, evalAttn, attSet, attNum], rfl⟩

theorem writeTriggerCount_fires {v : Nat} {s : State} (h : 1 ≤ s.fau.trigger ∧ v ≤ s.fau.trigger) :
    s.fau.Fired (writeTriggerCount v s).fau := by
  unfold writeTriggerCount
  simp only
  rw [if_pos (by exact h)]
  exact fireTrigger_fired _

theorem writeTriggerCount_stands {v : Nat} {s : State} (h : ¬(1 ≤ s.fau.trigger ∧ v ≤ s.fau.trigger)) :
    (writeTriggerCount v s).fau = s.fau := by
  unfold writeTriggerCount
  simp only
  rw [if_neg (by exact h)]
  rfl

/-- Has the idle expiry of a new idle time come. -/
theorem reached_idleExpiry (v : Nat) (s : State) :
    reached (s.setSettings { s.settings with triggerIdle := v }).idleExpiry s.timebase = true ↔
      1 ≤ s.fau.trigger ∧ ∃ c, s.fau.lastCompletion = some c ∧ c + v * 20 ≤ s.timebase := by
  unfold State.idleExpiry
  simp only [State.setSettings_fau, State.setSettings_settings]
  by_cases none : s.fau.trigger = 0
  · simp [none, reached]
  · cases h : s.fau.lastCompletion with
    | none => simp [none, reached]
    | some c => simp [none, reached, Nat.one_le_iff_ne_zero]

theorem writeTriggerIdle_fires {v : Nat} {s : State}
    (h : 1 ≤ s.fau.trigger ∧ ∃ c, s.fau.lastCompletion = some c ∧ c + v * 20 ≤ s.timebase) :
    s.fau.Fired (writeTriggerIdle v s).fau := by
  have come := (reached_idleExpiry v s).mpr h
  unfold writeTriggerIdle
  simp only
  rw [if_pos (by exact come)]
  exact fireTrigger_fired _

theorem writeTriggerIdle_stands {v : Nat} {s : State}
    (h : ¬(1 ≤ s.fau.trigger ∧ ∃ c, s.fau.lastCompletion = some c ∧ c + v * 20 ≤ s.timebase)) :
    (writeTriggerIdle v s).fau = s.fau := by
  have come := mt (reached_idleExpiry v s).mp h
  unfold writeTriggerIdle
  simp only
  rw [if_neg (by exact come)]
  rfl

/-- What makes the trigger fire: a named count at or below the counter, or the come expiry of a named idle time (R189). -/
def writeFires (m : BitVec 16) (b : Settings) (s : State) : Prop :=
  1 ≤ s.fau.trigger ∧ ((settingNamed m 1 = true ∧ b.triggerCount ≤ s.fau.trigger) ∨
    (settingNamed m 2 = true ∧ ∃ c, s.fau.lastCompletion = some c ∧ c + b.triggerIdle * 20 ≤ s.timebase))

/-- The trigger under the first setting. -/
theorem writeFirst_fau (m : BitVec 16) (b : Settings) (s : State) :
    (1 ≤ s.fau.trigger ∧ settingNamed m 1 = true ∧ b.triggerCount ≤ s.fau.trigger →
      s.fau.Fired (writeIfNamed m b s 1).fau) ∧
    (¬(1 ≤ s.fau.trigger ∧ settingNamed m 1 = true ∧ b.triggerCount ≤ s.fau.trigger) →
      (writeIfNamed m b s 1).fau = s.fau) := by
  unfold writeIfNamed writeSetting
  by_cases named : settingNamed m 1 = true
  · simp only [named, if_true, true_and]
    exact ⟨writeTriggerCount_fires, writeTriggerCount_stands⟩
  · simp [named]

/-- The trigger under the second setting. -/
theorem writeSecond_fau (m : BitVec 16) (b : Settings) (s : State) :
    (1 ≤ s.fau.trigger ∧ settingNamed m 2 = true ∧ (∃ c, s.fau.lastCompletion = some c ∧ c + b.triggerIdle * 20 ≤ s.timebase) →
      s.fau.Fired (writeIfNamed m b s 2).fau) ∧
    (¬(1 ≤ s.fau.trigger ∧ settingNamed m 2 = true ∧
        ∃ c, s.fau.lastCompletion = some c ∧ c + b.triggerIdle * 20 ≤ s.timebase) →
      (writeIfNamed m b s 2).fau = s.fau) := by
  unfold writeIfNamed writeSetting
  by_cases named : settingNamed m 2 = true
  · simp only [named, if_true, true_and]
    exact ⟨writeTriggerIdle_fires, writeTriggerIdle_stands⟩
  · simp [named]

theorem writeIfNamed_timebase {k : Nat} (h : k ≠ 3) (m : BitVec 16) (b : Settings) (s : State) :
    (writeIfNamed m b s k).timebase = s.timebase := by
  unfold writeIfNamed
  split
  · rw [writeSetting_eq h]; rfl
  · rfl

/-- The trigger under both: it has fired once, or it stands. -/
theorem writeBoth_fau (m : BitVec 16) (b : Settings) (s : State) :
    (writeFires m b s → s.fau.Fired (writeNamed m b [1, 2] s).fau) ∧
      (¬writeFires m b s → (writeNamed m b [1, 2] s).fau = s.fau) := by
  obtain ⟨fires1, stands1⟩ := writeFirst_fau m b s
  obtain ⟨fires2, stands2⟩ := writeSecond_fau m b (writeIfNamed m b s 1)
  rw [writeIfNamed_timebase (by decide)] at fires2 stands2
  show (_ → s.fau.Fired (writeIfNamed m b (writeIfNamed m b s 1) 2).fau) ∧
    (_ → (writeIfNamed m b (writeIfNamed m b s 1) 2).fau = s.fau)
  by_cases first : 1 ≤ s.fau.trigger ∧ settingNamed m 1 = true ∧ b.triggerCount ≤ s.fau.trigger
  · have fired := fires1 first
    have stood := stands2 (by rw [fired.1]; omega)
    rw [stood]
    exact ⟨fun _ => fired, fun none => absurd ⟨first.1, Or.inl first.2⟩ none⟩
  · have stood := stands1 first
    rw [stood] at fires2 stands2
    refine ⟨fun ⟨counting, why⟩ => ?_, fun none => stands2 fun ⟨counting, second⟩ => none ⟨counting, Or.inr second⟩⟩
    rcases why with why | why
    · exact absurd ⟨counting, why⟩ first
    · exact fires2 ⟨counting, why⟩

/-- The other settings have no part in the trigger. -/
theorem writeSetting_sameTrigger {b : Settings} {k : Nat} (h1 : k ≠ 1) (h2 : k ≠ 2) (h3 : k ≠ 3) (s : State) :
    s.fau.SameTrigger (writeSetting b k s).fau := by
  unfold writeSetting
  split
  · exact absurd rfl h1
  · exact absurd rfl h2
  · exact absurd rfl h3
  all_goals exact ⟨rfl, rfl, rfl⟩

theorem writeNamed_sameTrigger {m : BitVec 16} (b : Settings) : ∀ {l : List Nat},
    (∀ k ∈ l, k ≠ 1 ∧ k ≠ 2 ∧ (k = 3 → settingNamed m 3 = false)) → ∀ s : State, s.fau.SameTrigger (writeNamed m b l s).fau
  | [], _, _ => ⟨rfl, rfl, rfl⟩
  | k :: l, h, s => by
    obtain ⟨trigger, attention, last⟩ := writeNamed_sameTrigger b (l := l) (fun j hj => h j (List.mem_cons_of_mem _ hj))
      (writeIfNamed m b s k)
    obtain ⟨h1, h2, h3⟩ := h k (by simp)
    have one : s.fau.SameTrigger (writeIfNamed m b s k).fau := by
      unfold writeIfNamed
      split
      · next named => exact writeSetting_sameTrigger h1 h2 (fun e => by rw [e, h3 e] at named; exact absurd named (by decide)) s
      · exact ⟨rfl, rfl, rfl⟩
    exact ⟨trigger.trans one.1, attention.trans one.2.1, last.trans one.2.2⟩

/-- The trigger under a write that names no close timeout (R189). -/
theorem writeNamed_trigger {m : BitVec 16} (b : Settings) (h : settingNamed m 3 = false) (s : State) :
    (writeFires m b s → s.fau.Fired (writeNamed m b settingIndices s).fau) ∧
      (¬writeFires m b s → s.fau.SameTrigger (writeNamed m b settingIndices s).fau) := by
  obtain ⟨fires, stands⟩ := writeBoth_fau m b s
  obtain ⟨trigger, attention, last⟩ := writeNamed_sameTrigger b (m := m) (l := [3, 4, 5, 6, 7, 8, 9, 10, 11])
    (by simp [h]) (writeNamed m b [1, 2] s)
  refine ⟨fun hf => ?_, fun hn => ?_⟩
  · obtain ⟨zero, raised, last'⟩ := fires hf
    exact ⟨trigger.trans zero, (congrArg (·.getLsbD 0) attention).trans raised, last.trans last'⟩
  · rw [stands hn] at trigger attention last
    exact ⟨trigger, attention, last⟩

/-! ### The close timeout under a write (R48) -/

/-- The tracker under the writing of a close timeout. -/
theorem writeCloseTimeout_axt (v : Nat) (s : State) :
    (∀ q, s.axt.passage = some q → s.occupied = false → q.lastActivity + v * 20000 ≤ s.timebase →
      (writeCloseTimeout v s).axt = Axt.reset) ∧
    (s.occupied = true ∨ (∀ q, s.axt.passage = some q → s.timebase < q.lastActivity + v * 20000) →
      (writeCloseTimeout v s).axt = s.axt) := by
  have occupied : (s.setSettings { s.settings with closeTimeout := v }).occupied = s.occupied := rfl
  unfold writeCloseTimeout
  simp only [occupied, State.closeExpiry, State.setSettings_axt, State.setSettings_settings, State.setSettings_timebase]
  refine ⟨fun q opened free come => ?_, fun stays => ?_⟩
  · rw [if_pos (by simp [opened, free, reached, come])]
    exact (closePassage_frame _ _ _).1
  · rw [if_neg]
    · rfl
    · rcases stays with held | notCome
      · simp [held]
      · cases opened : s.axt.passage with
        | none => simp [reached]
        | some q => simp [reached, Nat.not_le.mpr (notCome q opened)]

/-- The tracker under a write that names the close timeout. -/
theorem writeNamed_axt {m : BitVec 16} (b : Settings) (h : settingNamed m 3 = true) (s : State) :
    (∀ q, s.axt.passage = some q → s.occupied = false → q.lastActivity + b.closeTimeout * 20000 ≤ s.timebase →
      (writeNamed m b settingIndices s).axt = Axt.reset) ∧
    (s.occupied = true ∨ (∀ q, s.axt.passage = some q → s.timebase < q.lastActivity + b.closeTimeout * 20000) →
      (writeNamed m b settingIndices s).axt = s.axt) := by
  have before : writeNamed m b [1, 2] s = (s.setSettings (putNamed m b [1, 2] s.settings)).setFau (writeNamed m b [1, 2] s).fau :=
    writeNamed_eq b (by simp) s
  have third : ∀ u, writeIfNamed m b u 3 = writeCloseTimeout b.closeTimeout u := fun u => by simp [writeIfNamed, h, writeSetting]
  have after : ∀ u, (writeNamed m b [4, 5, 6, 7, 8, 9, 10, 11] u).axt = u.axt := fun u => by
    rw [writeNamed_eq b (by simp) u]; rfl
  have whole : (writeNamed m b settingIndices s).axt = (writeCloseTimeout b.closeTimeout (writeNamed m b [1, 2] s)).axt := by
    have inTurn : writeNamed m b settingIndices s =
        writeNamed m b [4, 5, 6, 7, 8, 9, 10, 11] (writeIfNamed m b (writeNamed m b [1, 2] s) 3) := rfl
    rw [inTurn, after, third]
  rw [whole, before]
  exact writeCloseTimeout_axt b.closeTimeout ((s.setSettings (putNamed m b [1, 2] s.settings)).setFau _)

/-! ### The line and PERMIT under a write (R152, R153, R185) -/

/-- A write that names the attention mask evaluates the line; nothing after it leaves the line behind. -/
theorem writeNamed_attnOk {m : BitVec 16} (b : Settings) (h : settingNamed m 10 = true) (s : State) :
    (writeNamed m b settingIndices s).attnOk := by
  have whole : writeNamed m b settingIndices s =
      writeIfNamed m b (writeIfNamed m b (writeNamed m b [1, 2, 3, 4, 5, 6, 7, 8, 9] s) 10) 11 := rfl
  rw [whole]
  generalize writeNamed m b [1, 2, 3, 4, 5, 6, 7, 8, 9] s = u
  simp only [writeIfNamed, h, if_true, writeSetting]
  split <;> rfl

theorem merged_waters (m : BitVec 16) (b cur : Settings) :
    watersAfter m b cur = ((Settings.merged m b cur).highWater, (Settings.merged m b cur).lowWater) := rfl

/-! ### The refusals (R203) -/

/-- In a list of ascending keys, the one of least key that meets a test is found. -/
theorem find?_least {α : Type} {key : α → Nat} {p : α → Bool} : ∀ {l : List α} {a : α},
    l.Pairwise (fun x y => key x < key y) → a ∈ l → p a = true → (∀ b ∈ l, key b < key a → p b = false) → l.find? p = some a
  | [], _, _, ha, _, _ => by simp at ha
  | b :: l, a, hl, ha, hp, hn => by
    obtain ⟨hb, hl⟩ := List.pairwise_cons.mp hl
    rcases List.mem_cons.mp ha with rfl | ha
    · simp [hp]
    · rw [List.find?_cons, hn b (by simp) (hb a ha)]
      exact find?_least hl ha hp fun c hc => hn c (List.mem_cons_of_mem _ hc)

theorem settingsFailing_mask {m : BitVec 16} {b cur : Settings} (h : m = 0 ∨ 2047 < m.toNat) :
    settingsFailing m b cur = some 0 := if_pos h

theorem mask_named {m : BitVec 16} (h0 : m ≠ 0) (h1 : m.toNat ≤ 2047) : ¬ (m = 0 ∨ 2047 < m.toNat) := fun outside =>
  outside.elim h0 (Nat.not_lt.mpr h1)

theorem settingsFailing_index {m : BitVec 16} {b cur : Settings} {k : Nat} (h0 : m ≠ 0) (h1 : m.toNat ≤ 2047)
    (hk : k ∈ settingIndices) (named : settingNamed m k = true) (bad : settingOk b k = false)
    (first : ∀ j ∈ settingIndices, j < k → settingNamed m j = true → settingOk b j = true) :
    settingsFailing m b cur = some k := by
  have found : settingIndices.find? (fun k => settingNamed m k && !settingOk b k) = some k := by
    refine find?_least (key := id) (by decide) hk (by simp [named, bad]) fun j hj lt => ?_
    by_cases nj : settingNamed m j = true
    · simp [first j hj lt nj]
    · simp [nj]
  rw [settingsFailing, if_neg (mask_named h0 h1), found]

theorem settingsFailing_waters {m : BitVec 16} {b cur : Settings} (h0 : m ≠ 0) (h1 : m.toNat ≤ 2047)
    (fine : ∀ k ∈ settingIndices, settingNamed m k = true → settingOk b k = true) : settingsFailing m b cur =
      if (Settings.merged m b cur).highWater ≤ (Settings.merged m b cur).lowWater then some 5 else none := by
  have found : settingIndices.find? (fun k => settingNamed m k && !settingOk b k) = none := by
    rw [List.find?_eq_none]
    intro k hk
    by_cases named : settingNamed m k = true
    · simp [fine k hk named]
    · simp [named]
  rw [settingsFailing, if_neg (mask_named h0 h1), found, merged_waters]

/-- A refused SETTINGS_WRITE: the failing index and 0xFF (R203). -/
theorem exec_settingsWrite_refused {s : State} (hs : s.serving) {m : BitVec 16} {b : Settings} {k : Nat}
    (h : settingsFailing m b s.settings = some k) (t : Nat) (g : Byte) :
    exec (.settingsWrite t g m b) s = .next ((s.taking t).replying g .sys .badValue [byteOf k, 0xFF]) :=
  request_answer (a := settingsWriteDo m b) (x := .badValue k none) hs.1 (Or.inl hs.2) (by
    simp [settingsWriteDo, h])

/-- An accepted SETTINGS_WRITE. -/
theorem exec_settingsWrite_accepted {s : State} (hs : s.serving) {m : BitVec 16} {b : Settings}
    (h : settingsFailing m b s.settings = none) (t : Nat) (g : Byte) :
    exec (.settingsWrite t g m b) s = .next ((writeSettings m b (s.taking t)).replying g .sys .ok []) := by
  refine request_done (a := settingsWriteDo m b) (x := .ok []) hs.1 (Or.inl hs.2) (by simp [settingsWriteDo, h]) ?_
  rw [writeSettings_eq]
  split
  · rw [evalPermit_slk, writeNamed_slk]
  · rw [writeNamed_slk]

theorem evalPermit_settings (s : State) : (evalPermit s).settings = s.settings := by rw [evalPermit_eq]; rfl

/-- The evaluation of PERMIT has no part in the trigger. -/
theorem evalPermit_trigger (s : State) : (evalPermit s).fau.trigger = s.fau.trigger ∧
    (evalPermit s).fau.attention.getLsbD 0 = s.fau.attention.getLsbD 0 ∧
    (evalPermit s).fau.lastCompletion = s.fau.lastCompletion := by
  rw [evalPermit_fau]
  split
  · exact ⟨rfl, rfl, rfl⟩
  · exact ⟨rfl, by simp [attSet, attNum], rfl⟩

/-- A change of PERMIT is raised (R153). -/
theorem evalPermit_raised {s : State} (h : (evalPermit s).ptb.permit ≠ s.ptb.permit) :
    (evalPermit s).fau.attention.getLsbD 6 = true := by
  rw [evalPermit_fau, if_neg h]
  simp [attSet, attNum]

/-- Settles O8. The refusals come from the failing index; an accepted write is the writing of the named settings in turn
and, with a water among them, an evaluation of PERMIT, which touches the PTB and the FAU only. -/
theorem settingsAreReadAndWritten : Obligations.SettingsAreReadAndWritten := by
  refine ⟨fun s t g hs => ⟨?_, length_settingsData _⟩, fun s t g m b hs => ⟨fun mask => ?_, fun k h0 h1 hk named bad first => ?_,
    fun h0 h1 fine => ⟨fun waters => ?_, fun waters => ?_⟩⟩⟩
  · have data : settingsData s.settings = settingsData (s.taking t).settings := by rw [State.taking_settings]
    exact request_answer (a := settingsReadDo) (x := .ok (settingsData s.settings)) hs.1 (Or.inl hs.2) (by
      rw [data]; rfl)
  · exact exec_settingsWrite_refused hs (settingsFailing_mask mask) t g
  · exact exec_settingsWrite_refused hs (settingsFailing_index h0 h1 hk named bad first) t g
  · exact exec_settingsWrite_refused hs ((settingsFailing_waters h0 h1 fine).trans (if_pos waters)) t g
  · have none := (settingsFailing_waters (cur := s.settings) h0 h1 fine).trans (if_neg (Nat.not_le.mpr waters))
    refine ⟨_, exec_settingsWrite_accepted hs none t g, ?_⟩
    have settings : (writeNamed m b settingIndices (s.taking t)).settings = Settings.merged m b s.settings := by
      rw [writeNamed_settings, putNamed_all, State.taking_settings]
    have permitOrNot : writeSettings m b (s.taking t) = evalPermit (writeNamed m b settingIndices (s.taking t)) ∨
        writeSettings m b (s.taking t) = writeNamed m b settingIndices (s.taking t) := by
      rw [writeSettings_eq]
      split
      · exact Or.inl rfl
      · exact Or.inr rfl
    have plain : settingNamed m 3 = false → writeNamed m b settingIndices (s.taking t) =
        ((s.taking t).setSettings (putNamed m b settingIndices (s.taking t).settings)).setFau
          (writeNamed m b settingIndices (s.taking t)).fau := fun h3 => writeNamed_eq b (fun _ => h3) _
    refine ⟨?_, rfl, fun h3 => ?_, fun h3 => ?_, fun h3 => ?_, fun h10 => ?_, fun water => ?_, fun h4 h5 h3 => ?_⟩
    · show (writeSettings m b (s.taking t)).settings = _
      rcases permitOrNot with e | e <;> rw [e]
      · rw [evalPermit_settings, settings]
      · exact settings
    · show (writeSettings m b (s.taking t)).axt = _ ∧ (writeSettings m b (s.taking t)).wrg = _ ∧
        (writeSettings m b (s.taking t)).cal = _ ∧ (writeSettings m b (s.taking t)).ptb.slots = _ ∧
        (writeSettings m b (s.taking t)).zcl = _ ∧ (writeSettings m b (s.taking t)).store = _
      rcases permitOrNot with e | e <;> rw [e]
      · rw [evalPermit_slots, evalPermit_eq, plain h3]
        simp
      · rw [plain h3]
        simp
    · obtain ⟨fires, stands⟩ := writeNamed_trigger b h3 (s.taking t)
      have same : (writeSettings m b (s.taking t)).fau.trigger = (writeNamed m b settingIndices (s.taking t)).fau.trigger ∧
          (writeSettings m b (s.taking t)).fau.attention.getLsbD 0 =
            (writeNamed m b settingIndices (s.taking t)).fau.attention.getLsbD 0 ∧
          (writeSettings m b (s.taking t)).fau.lastCompletion =
            (writeNamed m b settingIndices (s.taking t)).fau.lastCompletion := by
        rcases permitOrNot with e | e <;> rw [e]
        · exact evalPermit_trigger _
        · exact ⟨rfl, rfl, rfl⟩
      obtain ⟨trigger, bit, last⟩ := same
      unfold writeFires at fires stands
      rw [State.taking_fau] at fires stands
      refine ⟨fun hf => ⟨trigger.trans (fires hf).1, bit.trans (fires hf).2.1⟩, fun hn => ⟨trigger.trans (stands hn).1,
        bit.trans (congrArg (·.getLsbD 0) (stands hn).2.1)⟩, ?_⟩
      refine last.trans ?_
      by_cases hf : writeFires m b (s.taking t)
      · unfold writeFires at hf
        rw [State.taking_fau] at hf
        exact (fires hf).2.2
      · unfold writeFires at hf
        rw [State.taking_fau] at hf
        exact (stands hf).2.2
    · have axt : (writeSettings m b (s.taking t)).axt = (writeNamed m b settingIndices (s.taking t)).axt := by
        rcases permitOrNot with e | e <;> rw [e]
        exact evalPermit_axt _
      obtain ⟨closes, stays⟩ := writeNamed_axt b h3 (s.taking t)
      have occupied : (s.taking t).occupied = s.occupied := by
        rw [State.taking, endReply_eq]
        rfl
      rw [occupied, State.taking_axt, ← axt] at closes stays
      exact ⟨closes, stays⟩
    · have attn := writeNamed_attnOk b h10 (s.taking t)
      show (writeSettings m b (s.taking t)).attnOk
      rcases permitOrNot with e | e <;> rw [e]
      · exact (evalPermit_kept (p := true) (o := true) (u := true) _).attn attn
      · exact attn
    · have e : writeSettings m b (s.taking t) = evalPermit (writeNamed m b settingIndices (s.taking t)) := by
        rw [writeSettings_eq, if_pos (by simpa using water)]
      refine ⟨?_, fun h3 changed => ?_⟩
      · have ok : (writeSettings m b (s.taking t)).permitOk := by
          rw [e]
          refine evalPermit_permitOk ?_
          rw [settings]
          exact waters
        exact ok
      · have ptb : (writeNamed m b settingIndices (s.taking t)).ptb = s.ptb := by
          rw [plain h3]
          simp
        show (writeSettings m b (s.taking t)).fau.attention.getLsbD 6 = true
        rw [e]
        refine evalPermit_raised ?_
        rw [ptb, ← e]
        exact changed
    · show (writeSettings m b (s.taking t)).ptb = s.ptb
      rw [writeSettings_eq, if_neg (by simp [h4, h5]), plain h3]
      simp

end Sys2Proof.Machine
end

