-- ==== Sys2Proof/Proofs/ZeroCalibrationClassRequests.lean ====
section
/-! PROOFS. The requests of ZERO, CAL and CLASS that touch their own block only (R85, R86, R97, R100, R104, R106, R107), and
the validation of a calibration set (R81, R82). -/

namespace Sys2Proof.Machine

/-! ### A request of a part in service -/

/-- A request that changes nothing is answered. -/
theorem serving_answer {s : State} (hs : s.serving) {t : Nat} {g : Byte} {k : Target} {a : Action} {x : Answer}
    (ha : a (s.taking t) = (s.taking t, x)) :
    request t g k false a s = .next ((s.taking t).replying g k x.outcome x.data) :=
  request_answer hs.1 (Or.inl hs.2) ha

/-- A request is done and answered. -/
theorem serving_done {s s' : State} (hs : s.serving) {t : Nat} {g : Byte} {k : Target} {a : Action} {x : Answer}
    (ha : a (s.taking t) = (s', x)) (hd : s'.slk = (s.taking t).slk) :
    request t g k false a s = .next (s'.replying g k x.outcome x.data) :=
  request_done hs.1 (Or.inl hs.2) ha (by rw [hd])

/-! ### Zero requests -/

theorem platformNamed_platformNum (p : Platform) : platformNamed (platformNum p) = some p := by cases p <;> rfl

theorem platformNamed_eq_none {n : Nat} (h : 1 < n) : platformNamed n = none := by
  rw [platformNamed, if_neg (by omega), if_neg (by omega)]

/-- Settles O26. -/
theorem zeroRequestsAreServed : Obligations.ZeroRequestsAreServed := by
  refine fun s t g hs => ⟨fun n hn => ⟨?_, ?_, ?_⟩, fun p => ⟨fun out => ?_, fun served inHand => ?_, fun served idle => ?_,
    fun idle => ?_, fun inHand => ?_, ?_⟩⟩
  · exact serving_answer hs (a := zeroAcquireDo n) (x := .bad) (by simp [zeroAcquireDo, platformNamed_eq_none hn])
  · exact serving_answer hs (a := zeroCancelDo n) (x := .bad) (by simp [zeroCancelDo, platformNamed_eq_none hn])
  · exact serving_answer hs (a := zeroStateDo n) (x := .bad) (by simp [zeroStateDo, answer, platformNamed_eq_none hn])
  · exact serving_answer hs (a := zeroAcquireDo _) (x := .bare .state) (by
      simp [zeroAcquireDo, platformNamed_platformNum, out])
  · exact serving_answer hs (a := zeroAcquireDo _) (x := .bare .busy) (by
      simp [zeroAcquireDo, platformNamed_platformNum, served, inHand])
  · exact serving_done hs (a := zeroAcquireDo _) (x := .bare .started) (by
      simp [zeroAcquireDo, platformNamed_platformNum, served, idle, beginAcquisition, updZcl, State.setZclAt, Acquisition.begin])
      rfl
  · exact serving_answer hs (a := zeroCancelDo _) (x := .bare .state) (by
      simp [zeroCancelDo, platformNamed_platformNum, idle])
  · exact serving_done hs (a := zeroCancelDo _) (x := .ok []) (by
      simp [zeroCancelDo, platformNamed_platformNum, inHand, endAcquisition, updZcl, State.setZclAt]) rfl
  · refine serving_answer hs (a := zeroStateDo _) (x := .ok (zeroData s p)) ?_
    simp [zeroStateDo, answer, platformNamed_platformNum, zeroData, State.fittedOf]

/-! ### Calibration requests -/

/-- A channel's value after a channel is given one. -/
theorem perChannel_get_set (z : PerChannel Int) (k j : Fin 8) (v : Int) :
    (z.set k v).get j = if j = k then v else z.get j := PerChannel.get_set z k j v

/-- CAL_READ of the working set (R86). -/
theorem calData_working (s : State) :
    calData s 0 = 0 :: byteOf (calStateNum s.cal.state) :: calFields s.cal.working := by
  have head : be 1 0 ++ be 1 (calStateNum s.cal.state) = [0, byteOf (calStateNum s.cal.state)] := rfl
  rw [calData, if_pos rfl, head, List.cons_append, List.cons_append, List.nil_append]

/-- CAL_READ of the staging copy (R86). -/
theorem calData_staging (s : State) : calData s 1 = 1 :: calFields s.cal.staging := by
  have head : be 1 1 = [1] := rfl
  rw [calData, if_neg (by decide), head, List.cons_append, List.nil_append]

theorem stageFailing_field {f c : Nat} {l : List Band} (h : f < 1 ∨ 17 < f) : stageFailing f c l = some (0, none) := if_pos h

theorem stageFailing_channel {f c : Nat} {l : List Band} (h : f = 2 ∨ f = 3) (hc : 7 < c) :
    stageFailing f c l = some (f, some c) := by
  rw [stageFailing, if_neg (by omega), if_pos ⟨h, hc⟩]

theorem stageFailing_table {f c : Nat} {l : List Band} (h : f = 14) (hl : 8 < l.length) :
    stageFailing f c l = some (14, none) := by
  rw [stageFailing, if_neg (by omega), if_neg (by omega), if_pos ⟨h, hl⟩]

theorem stageFailing_none {f c : Nat} {l : List Band} (h1 : 1 ≤ f) (h2 : f ≤ 17) (hc : f = 2 ∨ f = 3 → c ≤ 7)
    (hl : f = 14 → l.length ≤ 8) : stageFailing f c l = none := by
  rw [stageFailing, if_neg (by omega), if_neg (fun h => absurd (hc h.1) (by omega)), if_neg (fun h => absurd (hl h.1) (by omega))]

/-- A CAL_STAGE that fails is refused with what failed (R85). -/
theorem exec_calStage_refused {s : State} (hs : s.serving) (calibrate : s.calsw = .calibrate) {f c : Nat} {l : List Band}
    {x : Nat × Option Nat} (h : stageFailing f c l = some x) (t : Nat) (g : Byte) (v : Int) :
    exec (.calStage t g f c v l) s = .next ((s.taking t).replying g .cal .badValue (be 1 x.1 ++ beOpt 1 x.2)) :=
  serving_answer hs (a := calStageDo f c v l) (x := .badValue x.1 x.2) (by simp [calStageDo, calibrate, h])

/-- Settles O28. -/
theorem calibrationIsReadAndStaged : Obligations.CalibrationIsReadAndStaged := by
  refine ⟨fun s t g hs => ⟨?_, ?_, fun n hn => ?_, ?_, length_counterData s, ?_⟩,
    fun s t g f c v l hs => ⟨fun locked => ?_, fun calibrate hf => ?_, fun calibrate hf hc => ?_, fun calibrate hf hl => ?_,
      fun calibrate h1 h2 hc hl => ?_⟩, fun k v l x => ?_, fun z k j v => PerChannel.get_set z k j v⟩
  · rw [← calData_working]
    exact serving_answer hs (a := calReadDo 0) (x := .ok (calData s 0)) (by simp [calReadDo, answer, calData])
  · rw [← calData_staging]
    exact serving_answer hs (a := calReadDo 1) (x := .ok (calData s 1)) (by simp [calReadDo, answer, calData])
  · exact serving_answer hs (a := calReadDo n) (x := .bad) (by simp [calReadDo, answer, hn])
  · exact serving_answer hs (a := calCounterDo) (x := .ok (counterData s)) (by simp [calCounterDo, answer, counterData])
  · exact serving_done hs (a := calDiscardDo) (x := .ok []) (by simp [calDiscardDo, discardStaging]) rfl
  · exact serving_answer hs (a := calStageDo f c v l) (x := .bare .locked) (by simp [calStageDo, locked])
  · exact exec_calStage_refused hs calibrate (stageFailing_field hf) t g v
  · exact ⟨_, exec_calStage_refused hs calibrate (stageFailing_channel hf hc) t g v⟩
  · exact ⟨_, exec_calStage_refused hs calibrate (stageFailing_table hf hl) t g v⟩
  · exact serving_done hs (a := calStageDo f c v l) (x := .ok [])
      (by simp [calStageDo, calibrate, stageFailing_none h1 h2 hc hl, stage]) rfl
  · exact ⟨rfl, rfl, rfl, rfl, rfl, rfl, rfl, rfl, rfl, rfl, rfl, rfl, rfl, rfl, rfl, rfl, rfl⟩

/-! ### The validation of a set (R81, R82) -/

theorem within_iff {lo hi v : Int} : within lo hi v = true ↔ lo ≤ v ∧ v ≤ hi := by simp [within]

theorem failsAt_eq_none {ok : Bool} {f : Nat} : failsAt ok f = none ↔ ok = true := by
  cases ok <;> simp [failsAt]

theorem failingChannel_eq_none {p : Int → Bool} {x : PerChannel Int} : failingChannel p x = none ↔ ∀ k, p (x.get k) = true := by
  have all : ∀ k : Fin 8, k ∈ channels := by decide
  simp [failingChannel, all]

/-- A table fails at no entry when each is in range and above the one before. -/
theorem failingBand_eq_none : ∀ {l : List Band} {i prev : Nat}, failingBand i prev l = none ↔
    (∀ b ∈ l, 1 ≤ b.upper ∧ b.upper ≤ 999 ∧ -20000 ≤ b.k ∧ b.k ≤ 20000 ∧ prev < b.upper) ∧
      (l.map (·.upper)).Pairwise (· < ·)
  | [], _, _ => by simp [failingBand]
  | b :: l, i, prev => by
    have rest := failingBand_eq_none (l := l) (i := i + 1) (prev := b.upper)
    rw [failingBand]
    split
    · next ok =>
      simp only [Bool.and_eq_true, decide_eq_true_eq, within_iff] at ok
      obtain ⟨⟨low, high, above⟩, klow, khigh⟩ := ok
      rw [rest]
      simp only [List.mem_cons, List.map_cons, List.pairwise_cons, List.mem_map]
      constructor
      · rintro ⟨each, sorted⟩
        refine ⟨?_, ?_, sorted⟩
        · rintro c (rfl | hc)
          · exact ⟨low, high, klow, khigh, above⟩
          · obtain ⟨h1, h2, h3, h4, h5⟩ := each c hc
            exact ⟨h1, h2, h3, h4, by omega⟩
        · rintro u ⟨c, hc, rfl⟩
          exact (each c hc).2.2.2.2
      · rintro ⟨each, first, sorted⟩
        refine ⟨fun c hc => ?_, sorted⟩
        obtain ⟨h1, h2, h3, h4, h5⟩ := each c (Or.inr hc)
        exact ⟨h1, h2, h3, h4, first _ ⟨c, hc, rfl⟩⟩
    · next bad =>
      simp only [Bool.and_eq_true, decide_eq_true_eq, within_iff] at bad
      refine ⟨fun h => absurd h (by simp), fun ⟨each, _⟩ => ?_⟩
      obtain ⟨h1, h2, h3, h4, h5⟩ := each b (by simp)
      exact absurd ⟨⟨h1, h2, h5⟩, h3, h4⟩ bad

theorem bandsFailing_eq_none {l : List Band} : bandsFailing l = none ↔ 1 ≤ l.length ∧ l.length ≤ 8 ∧
    (∀ b ∈ l, 1 ≤ b.upper ∧ b.upper ≤ 999 ∧ -20000 ≤ b.k ∧ b.k ≤ 20000) ∧ (l.map (·.upper)).Pairwise (· < ·) := by
  rw [bandsFailing]
  split
  · next bad => exact ⟨fun h => absurd h (by simp), fun h => absurd bad (by omega)⟩
  · next length =>
    rw [Option.map_eq_none_iff, failingBand_eq_none]
    refine ⟨fun ⟨each, sorted⟩ => ⟨by omega, by omega, fun b hb => ?_, sorted⟩, fun ⟨_, _, each, sorted⟩ => ⟨fun b hb => ?_, sorted⟩⟩
    · obtain ⟨h1, h2, h3, h4, -⟩ := each b hb
      exact ⟨h1, h2, h3, h4⟩
    · obtain ⟨h1, h2, h3, h4⟩ := each b hb
      exact ⟨h1, h2, h3, h4, by omega⟩

theorem patternOk_iff {v : Int} : patternOk v = true ↔
    0 ≤ v ∧ v ≤ 255 ∧ platformPatternOk v .a = true ∧ platformPatternOk v .b = true := by
  simp only [patternOk, Bool.and_eq_true, within_iff, and_assoc]

/-- Settles O29: no field fails exactly when each passes its own test. -/
theorem validationTestsEveryRange : Obligations.ValidationTestsEveryRange := by
  intro c
  simp only [validate, List.findSome?_eq_none_iff, id_eq, List.mem_cons, List.not_mem_nil, or_false, forall_eq_or_imp, forall_eq,
    failsAt_eq_none, Option.map_eq_none_iff, failingChannel_eq_none, bandsFailing_eq_none, patternOk_iff, within_iff,
    Bool.and_eq_true, decide_eq_true_eq]
  constructor
  · rintro ⟨h1, h2, h3, h4, h5, h6, ⟨⟨h7, h7a⟩, -, h7b⟩, h8, h9, h10, h11, h12, h13, h14, h15, h16⟩
    exact ⟨h1, h2, h3, h4, h5, h6, ⟨h7, h7a, h7b⟩, h8, h9, h10, h11, h12, h13, h14, h15, h16⟩
  · rintro ⟨h1, h2, h3, h4, h5, h6, ⟨h7, h7a, h7b⟩, h8, h9, h10, h11, h12, h13, h14, h15, h16⟩
    exact ⟨h1, h2, h3, h4, h5, h6, ⟨⟨h7, h7a⟩, h7, h7b⟩, h8, h9, h10, h11, h12, h13, h14, h15, h16⟩

/-! ### Class requests -/

theorem codeOk_iff {c : Nat} : codeOk c = true ↔ 1 ≤ c ∧ c ≤ 24 := by simp [codeOk]

theorem codeOk_eq_false {c : Nat} (h : c < 1 ∨ 24 < c) : codeOk c = false := by
  simp only [codeOk, decide_eq_false_iff_not]
  omega

theorem classListData_eq (s : State) : classListData s =
    byteOf s.seg.classes.length :: (s.seg.classes.map fun c => byteOf c.1) ++ [byteOf s.seg.dirty.toNat] := by
  have codes : ∀ l : Table ClassRec, l.flatMap (fun c => be 1 c.1) = l.map fun c => byteOf c.1 := fun l => by
    induction l with
    | nil => rfl
    | cons c l ih => rw [List.flatMap_cons, ih]; rfl
  rw [classListData, codes]
  rfl

/-- The fields of a class definition are all in range (R105, R106). -/
theorem classFailing_eq_none {f : ClassFields} : classFailing f = none ↔
    f.kind ≤ 1 ∧ 2 ≤ f.n ∧ f.n ≤ 8 ∧ f.spacings.length + 1 = f.n ∧ (∀ d ∈ f.spacings, 500 ≤ d ∧ d ≤ 20000) ∧
      20 ≤ f.tolerance ∧ f.tolerance ≤ 500 ∧ 1000 ≤ f.gapMin ∧ f.gapMin ≤ 8000 ∧ 1000 ≤ f.gapMax ∧ f.gapMax ≤ 8000 ∧
      f.gapMin ≤ f.gapMax ∧ 1000 ≤ f.maxGross ∧ f.maxGross ≤ 400000 ∧ 1000 ≤ f.maxAxle ∧ f.maxAxle ≤ 50000 := by
  have spacings : firstIdx (fun d => !spacingOk d) f.spacings = none ↔ ∀ d ∈ f.spacings, 500 ≤ d ∧ d ≤ 20000 := by
    simp [firstIdx_eq_none, spacingOk]
  rw [classFailing]
  by_cases kind : 1 < f.kind
  · simp only [kind, if_true, reduceCtorEq, false_iff]
    omega
  by_cases count : f.n < 2 ∨ 8 < f.n
  · simp only [kind, count, if_true, if_false, reduceCtorEq, false_iff]
    omega
  simp only [kind, count, if_false]
  cases found : firstIdx (fun d => !spacingOk d) f.spacings with
  | some i =>
    have bad : ¬ ∀ d ∈ f.spacings, 500 ≤ d ∧ d ≤ 20000 := fun h => by simp [spacings.mpr h] at found
    simp [bad]
  | none =>
    have each := spacings.mp found
    simp only [toleranceOk, gapOk, grossOk, maxAxleOk, Bool.not_eq_true', decide_eq_false_iff_not, Bool.or_eq_true,
      decide_eq_true_eq, eq_true each, true_and]
    iterate 6 (split; · simp only [reduceCtorEq, false_iff]; omega)
    simp only [true_iff]
    omega

/-- A change of the class table (R105, R106). -/
theorem changeClasses_taking (h : Table ClassRec → Table ClassRec) (s : State) (t : Nat) :
    changeClasses h (s.taking t) =
      (s.taking t).setSeg { s.seg with classes := h s.seg.classes, dirty := true, commit := false } := by
  simp [changeClasses]

/-- Settles O32. -/
theorem classesAreReadAndChanged : Obligations.ClassesAreReadAndChanged := by
  refine ⟨fun s t g hs => ⟨fun f hf => ?_, fun n hn => ?_, fun f low high => ⟨fun opened => ⟨?_, ?_⟩, fun closed =>
      ⟨fun x failing => ?_, fun fine => ?_, fun none => ?_, fun held => ?_⟩⟩⟩, fun f => classFailing_eq_none,
    fun s t g n hs => ⟨fun hn => ?_, fun hn => ?_, fun low high => ⟨fun none => ?_, fun c held => ⟨?_, length_classData n c⟩⟩⟩⟩
  · exact serving_answer hs (a := classDefineDo f) (x := .badValue 1 none) (by simp [classDefineDo, codeOk_eq_false hf])
  · exact serving_answer hs (a := classRemoveDo n) (x := .bad) (by simp [classRemoveDo, codeOk_eq_false hn])
  · exact serving_answer hs (a := classDefineDo f) (x := .bare .passageOpen) (by simp [classDefineDo, codeOk_iff.mpr ⟨low, high⟩, opened])
  · exact serving_answer hs (a := classRemoveDo f.code) (x := .bare .passageOpen) (by simp [classRemoveDo, codeOk_iff.mpr ⟨low, high⟩, opened])
  · exact serving_answer hs (a := classDefineDo f) (x := .badValue x.1 x.2) (by simp [classDefineDo, codeOk_iff.mpr ⟨low, high⟩, closed, failing])
  · have reply : ∀ b : Bool, be 1 (if b then 1 else 0) = [if b then 1 else 0] := by decide
    rw [← reply]
    exact serving_done hs (a := classDefineDo f)
      (x := .ok (be 1 (if (tget s.seg.classes f.code).isSome then 1 else 0))) (by
        simp [classDefineDo, codeOk_iff.mpr ⟨low, high⟩, closed, fine, changeClasses_taking]) rfl
  · exact serving_answer hs (a := classRemoveDo f.code) (x := .bare .notFound) (by simp [classRemoveDo, codeOk_iff.mpr ⟨low, high⟩, closed, none])
  · exact serving_done hs (a := classRemoveDo f.code) (x := .ok []) (by
      simp [classRemoveDo, codeOk_iff.mpr ⟨low, high⟩, closed, held, changeClasses_taking]) rfl
  · exact serving_answer hs (a := classReadDo n) (x := .bad) (by
      simp [classReadDo, answer, codeOk_eq_false (Or.inr hn), show n ≠ 0 by omega])
  · rw [← classListData_eq]
    exact serving_answer hs (a := classReadDo n) (x := .ok (classListData s)) (by
      simp [classReadDo, answer, hn, classListData])
  · exact serving_answer hs (a := classReadDo n) (x := .bare .notFound) (by
      simp [classReadDo, answer, codeOk_iff.mpr ⟨low, high⟩, show n ≠ 0 by omega, none])
  · exact serving_answer hs (a := classReadDo n) (x := .ok (classData n c)) (by
      simp [classReadDo, answer, codeOk_iff.mpr ⟨low, high⟩, show n ≠ 0 by omega, held])

end Sys2Proof.Machine
end

