-- ==== Sys2Proof/Proofs/RegisterRequests.lean ====
section
/-! PROOFS. The requests of REG (R155 to R161). -/

namespace Sys2Proof.Machine

/-- A flag byte as a field of a reply. -/
theorem beSet_one (x : Byte) : beSet 1 x = [x] := by simp [beSet, be, byteOf]

/-! ### Places (R154) -/

theorem placeUsed_eq_true {w : Wrg} {k : Nat} :
    placeUsed w k = true ↔ (∃ r ∈ w.records, r.2.place = k) ∨ tget w.retired k ≠ none := by
  simp [placeUsed, Option.isSome_iff_ne_none]

theorem placeUsed_eq_false {w : Wrg} {k : Nat} :
    placeUsed w k = false ↔ (∀ r ∈ w.records, r.2.place ≠ k) ∧ tget w.retired k = none := by
  rw [← Bool.not_eq_true, placeUsed_eq_true]
  simp

/-- The place of a new record is the lowest that nothing holds. -/
theorem freePlace_eq_some {w : Wrg} {k : Nat} : freePlace w = some k ↔
    k < 4096 ∧ (∀ r ∈ w.records, r.2.place ≠ k) ∧ tget w.retired k = none ∧
      ∀ j, j < k → (∃ r ∈ w.records, r.2.place = j) ∨ tget w.retired j ≠ none := by
  rw [freePlace, lowestFree_eq_some, placeUsed_eq_false, maxRegister]
  simp only [placeUsed_eq_true, Nat.zero_le, true_and, forall_const, Nat.zero_add, and_assoc]

/-! ### A refusal of a field -/

theorem exec_regChange_badMask {s : State} (hs : s.serving) {f : Nat} {m : Byte} (h : (fleetOk f && fieldMaskOk m) = false) (t : Nat)
    (g : Byte) (v : RegValues) : exec (.regChange t g f m v) s = .next ((s.taking t).replying g .reg .badValue [0, 0xFF]) :=
  serving_answer hs (a := regChangeDo f m v) (x := .bad) (by simp only [regChangeDo, h]; rfl)

theorem fieldMaskOk_iff {m : Byte} : fieldMaskOk m = true ↔ m ≠ 0 ∧ m.getLsbD 0 = false := by
  simp [fieldMaskOk, maskNames]

/-- Settles O41. -/
theorem registerRecordIsAddedAndChanged : Obligations.RegisterRecordIsAddedAndChanged := by
  refine ⟨fun s t g f c ta w m hs => ⟨fun k failing => ?_, fun fine held => ?_, fun fine absent listed full => ?_,
    fun k fine absent place => ?_⟩, fun w k => freePlace_eq_some, fun s t g f m v hs => ⟨fun bad => ?_, fun fleet some1 some2 =>
      ⟨fun absent => ?_, fun r held => ⟨fun k failing => ?_, fun fine => ?_⟩⟩⟩⟩
  · exact serving_answer hs (a := regAddDo f c ta w m) (x := .badValue k none) (by simp [regAddDo, failing])
  · exact serving_answer hs (a := regAddDo f c ta w m) (x := .bare .alreadyExists) (by
      simp [regAddDo, fine, Option.isSome_iff_ne_none, held])
  · have none : placeFor s.wrg f = none := by
      rw [placeFor, listed]
      rcases full with length | free
      · exact if_pos length
      · simp [free]
    exact serving_answer hs (a := regAddDo f c ta w m) (x := .bare .full) (by simp [regAddDo, fine, absent, none])
  · have found : placeFor s.wrg f = some k := by
      rw [placeFor]
      rcases place with listed | ⟨listed, room, free⟩
      · rw [listed]
      · rw [listed]
        exact (if_neg (Nat.not_le.mpr room)).trans free
    exact serving_done hs (a := regAddDo f c ta w m) (x := .ok (be 2 k)) (by
      simp [regAddDo, fine, absent, found, addRecord, RegRec.new]) rfl
  · refine exec_regChange_badMask hs ?_ t g v
    rw [Bool.and_eq_false_iff]
    refine bad.imp_right fun mask => Bool.eq_false_iff.mpr fun ok => ?_
    obtain ⟨named, first⟩ := fieldMaskOk_iff.mp ok
    rcases mask with e | e
    · exact named e
    · exact absurd (first.symm.trans e) (by decide)
  · exact serving_answer hs (a := regChangeDo f m v) (x := .bare .notFound) (by
      simp [regChangeDo, fleet, fieldMaskOk_iff.mpr ⟨some1, some2⟩, absent])
  · exact serving_answer hs (a := regChangeDo f m v) (x := .badValue k none) (by
      simp [regChangeDo, fleet, fieldMaskOk_iff.mpr ⟨some1, some2⟩, held, failing])
  · exact serving_done hs (a := regChangeDo f m v) (x := .ok []) (by
      simp [regChangeDo, fleet, fieldMaskOk_iff.mpr ⟨some1, some2⟩, held, fine, State.setRecords, RegRec.change, RegFields.write,
        maskNames]) rfl

/-! ### Flags (R159) -/

theorem exec_regFlags_bad {s : State} (hs : s.serving) {op : FlagOp} {f : Nat} {m : Byte} (h : (fleetOk f && op.maskOk m) = false)
    (t : Nat) (g : Byte) :
    request t g .reg false (regFlagsDo op f m) s = .next ((s.taking t).replying g .reg .badValue [0, 0xFF]) :=
  serving_answer hs (a := regFlagsDo op f m) (x := .bad) (by simp only [regFlagsDo, h]; rfl)

theorem exec_regFlags_absent {s : State} (hs : s.serving) {op : FlagOp} {f : Nat} {m : Byte} (fleet : fleetOk f = true)
    (mask : op.maskOk m = true) (absent : tget s.wrg.records f = none) (t : Nat) (g : Byte) :
    request t g .reg false (regFlagsDo op f m) s = .next ((s.taking t).replying g .reg .notFound []) :=
  serving_answer hs (a := regFlagsDo op f m) (x := .bare .notFound) (by simp [regFlagsDo, fleet, mask, absent])

/-- An accepted REG_FLAGS: the record takes the new flags, and the reply carries the old and the new. -/
theorem exec_regFlags_ok {s : State} (hs : s.serving) {op : FlagOp} {f : Nat} {m : Byte} (fleet : fleetOk f = true)
    (mask : op.maskOk m = true) {r : RegRec} (held : tget s.wrg.records f = some r) (t : Nat) (g : Byte) :
    request t g .reg false (regFlagsDo op f m) s = .next (((s.taking t).setWrg { s.wrg with
      records := tput s.wrg.records f (if op.apply r.fields.flags m = r.fields.flags then r else { r with
        fields := { r.fields with flags := op.apply r.fields.flags m }, dirty := true, commit := false }) }).replying
      g .reg .ok [r.fields.flags, op.apply r.fields.flags m]) :=
  serving_done hs (a := regFlagsDo op f m) (x := .ok [r.fields.flags, op.apply r.fields.flags m]) (by
    simp [regFlagsDo, fleet, mask, held, State.setRecords, RegRec.setFlags, RegRec.change, beSet_one]) rfl

/-- Settles O42: the three operations are one action. -/
theorem registerFlagsAreChanged : Obligations.RegisterFlagsAreChanged := by
  intro s t g f m hs
  have maskOr : m.getLsbD 7 = false → FlagOp.or.maskOk m = true := fun h => by rw [FlagOp.maskOk, namesPositionEight, h]; rfl
  have maskXor : m.getLsbD 7 = false → FlagOp.xor.maskOk m = true := fun h => by rw [FlagOp.maskOk, namesPositionEight, h]; rfl
  refine ⟨fun bad => exec_regFlags_bad hs (by simp [bad]) t g, fun bad => ⟨exec_regFlags_bad hs (op := .or) ?_ t g,
    exec_regFlags_bad hs (op := .xor) ?_ t g⟩, fun fleet absent => ⟨exec_regFlags_absent hs (op := .and) fleet rfl absent t g,
      fun mask => ⟨exec_regFlags_absent hs fleet (maskOr mask) absent t g, exec_regFlags_absent hs fleet (maskXor mask) absent t g⟩⟩,
    fun r fleet held => ⟨exec_regFlags_ok hs (op := .and) fleet rfl held t g, fun mask =>
      ⟨exec_regFlags_ok hs fleet (maskOr mask) held t g, exec_regFlags_ok hs fleet (maskXor mask) held t g⟩⟩⟩
  · rcases bad with h | h <;> simp [h, FlagOp.maskOk, namesPositionEight]
  · rcases bad with h | h <;> simp [h, FlagOp.maskOk, namesPositionEight]

/-! ### Retirement, reading and counting (R157, R160, R161) -/

/-- The record of the smallest fleet number above one. -/
theorem nextRecord_eq_some {t : Table RegRec} (wf : Table.wf t = true) {f k : Nat} {r : RegRec} (mem : (k, r) ∈ t) (above : f < k)
    (least : ∀ q ∈ t, f < q.1 → k ≤ q.1) : nextRecord t f = some r := by
  have found : t.find? (fun r => decide (f < r.1)) = some (k, r) :=
    find?_least (key := Prod.fst) (rising_pairwise wf).1 mem (by simpa using above) fun q hq below =>
      decide_eq_false fun h => absurd (least q hq h) (Nat.not_le.mpr below)
  rw [nextRecord, found]
  rfl

theorem nextRecord_eq_none {t : Table RegRec} {f : Nat} (h : ∀ q ∈ t, q.1 ≤ f) : nextRecord t f = none := by
  rw [nextRecord, Option.map_eq_none_iff, List.find?_eq_none]
  exact fun q hq => by simpa using h q hq

/-- Settles O43. -/
theorem registerIsReadAndRetired : Obligations.RegisterIsReadAndRetired := by
  refine ⟨fun s t g f hs => ⟨fun bad => ?_, fun fleet absent => ?_, fun r fleet held => ?_⟩,
    fun s t g f hs wf => ⟨fun bad => ?_, fun fleet absent => ?_, fun r fleet held => ⟨?_, length_regBody r⟩, fun high => ?_,
      fun low none => ?_, fun k r low mem above least => ?_, ?_, length_regCountData s⟩⟩
  · exact serving_answer hs (a := regRetireDo f) (x := .bad) (by simp [regRetireDo, bad])
  · exact serving_answer hs (a := regRetireDo f) (x := .bare .notFound) (by simp [regRetireDo, fleet, absent])
  · exact serving_done hs (a := regRetireDo f) (x := .ok []) (by simp [regRetireDo, fleet, held, retireRegister]) rfl
  · exact serving_answer hs (a := regReadDo f) (x := .bad) (by simp [regReadDo, answer, bad])
  · exact serving_answer hs (a := regReadDo f) (x := .bare .notFound) (by simp [regReadDo, answer, fleet, absent])
  · exact serving_answer hs (a := regReadDo f) (x := .ok (regBody r)) (by simp [regReadDo, answer, fleet, held])
  · exact serving_answer hs (a := regNextDo f) (x := .bad) (by
      simp [regNextDo, answer, show ¬ f ≤ maxFleet by rw [maxFleet]; omega])
  · exact serving_answer hs (a := regNextDo f) (x := .bare .notFound) (by
      simp [regNextDo, answer, show f ≤ maxFleet from low, nextRecord_eq_none none])
  · exact serving_answer hs (a := regNextDo f) (x := .ok (regBody r)) (by
      simp [regNextDo, answer, show f ≤ maxFleet from low, nextRecord_eq_some wf mem above least])
  · exact serving_answer hs (a := regCountDo) (x := .ok (regCountData s)) (by simp [regCountDo, answer, regCountData])

end Sys2Proof.Machine
end

