-- ==== Sys2Proof/Proofs/PassageRequests.lean ====
section
/-! PROOFS. The requests of PASS that read, expect and retire records (R127, R149 to R151). -/

namespace Sys2Proof.Machine

/-! ### What the taking of a request leaves -/

@[simp] theorem State.taking_recordAt (s : State) (t : Nat) (n : Option Nat) (p : Nat) :
    (s.taking t).recordAt n p = s.recordAt n p := by simp [State.recordAt]

@[simp] theorem State.taking_refRecord (s : State) (t : Nat) (r : RecordRef) : (s.taking t).refRecord r = s.refRecord r := by
  simp [State.refRecord]

@[simp] theorem State.taking_fleetHeld (s : State) (t : Nat) (n : Option Nat) (f : Nat) (k : Option Nat) :
    (s.taking t).fleetHeld n f k = s.fleetHeld n f k := by simp [State.fleetHeld]

@[simp] theorem State.taking_freeSlot (s : State) (t : Nat) : (s.taking t).freeSlot = s.freeSlot := by simp [State.freeSlot]

/-! ### Reading (R151) -/

/-- Settles O39. -/
theorem passagesAreRead : Obligations.PassagesAreRead := by
  refine fun s t g hs => ⟨fun n absent => ?_, fun n e found => ⟨?_, length_dirBody e⟩, ?_, length_passageListData s,
    fun r bad => ?_, fun r ok absent => ?_, fun r k w ok found => ⟨?_, length_wagonBody k w⟩⟩
  · have none : s.ptb.directory.find? (fun e => decide (e.number = n)) = none := by
      simpa [List.find?_eq_none] using absent
    exact serving_answer hs (a := passageReadDo n) (x := .bare .notFound) (by simp only [passageReadDo, answer, State.taking_ptb, none])
  · exact serving_answer hs (a := passageReadDo n) (x := .ok (dirBody e)) (by simp only [passageReadDo, answer, State.taking_ptb, found])
  · exact serving_answer hs (a := passageListDo) (x := .ok (passageListData s)) (by
      simp [passageListDo, answer, passageListData, State.recordsOf])
  · exact serving_answer hs (a := recordReadDo r) (x := .bad) (by simp [recordReadDo, answer, bad])
  · exact serving_answer hs (a := recordReadDo r) (x := .bare .notFound) (by simp [recordReadDo, answer, ok, absent])
  · exact serving_answer hs (a := recordReadDo r) (x := .ok (wagonBody k w)) (by simp [recordReadDo, answer, ok, found])

/-! ### Retirement (R149, R150) -/

theorem evalPermit_wrg (s : State) : (evalPermit s).wrg = s.wrg := by rw [evalPermit_eq]; rfl

/-- The slot of a record is freed, and PERMIT evaluated. -/
theorem retireSlot_slots (k : Nat) (s : State) : (retireSlot k s).ptb.slots = tdel s.ptb.slots k := evalPermit_slots _

theorem retireWhole_slots (n : Nat) (s : State) :
    (retireWhole n s).ptb.slots = tkeep (fun _ w => decide (w.passage ≠ some n)) s.ptb.slots := evalPermit_slots _

theorem retireWhole_directory (n : Nat) (s : State) :
    (retireWhole n s).ptb.directory = s.ptb.directory.filter fun e => decide (e.number ≠ n) := evalPermit_directory _

/-- Settles O38. -/
theorem recordsAndPassagesAreRetired : Obligations.RecordsAndPassagesAreRetired := by
  refine ⟨fun s t g r hs => ⟨fun bad => ?_, fun ok absent => ?_, fun k w ok found => ⟨fun bound => ?_, fun free => ?_⟩⟩,
    fun s t g n hs => ⟨fun zero => ?_, fun some0 absent => ?_, fun e some0 found => ⟨fun opened => ?_, fun closed => ?_⟩⟩⟩
  · exact serving_answer hs (a := retireRecordDo r) (x := .bad) (by simp [retireRecordDo, bad])
  · exact serving_answer hs (a := retireRecordDo r) (x := .bare .notFound) (by simp [retireRecordDo, ok, absent])
  · exact serving_answer hs (a := retireRecordDo r) (x := .bare .state) (by simp [retireRecordDo, ok, found, bound])
  · have unbound : ¬(w.state = .weighing ∨ w.state = .complete) := by
      rcases free with e | e | e <;> simp [e]
    refine ⟨_, serving_done hs (a := retireRecordDo r) (s' := retireSlot k (s.taking t)) (x := .ok [])
      (by simp [retireRecordDo, ok, found, unbound]) (evalPermit_slk _), rfl, ?_, ?_, ?_, ?_⟩
    · exact (retireSlot_slots k _).trans (by rw [State.taking_ptb])
    · refine (evalPermit_directory _).trans ?_
      show (s.taking t).ptb.directory = _
      rw [State.taking_ptb]
    · exact (evalPermit_wrg _).trans (State.taking_wrg s t)
    · exact (evalPermit_axt _).trans (State.taking_axt s t)
  · exact serving_answer hs (a := retirePassageDo n) (x := .bad) (by simp [retirePassageDo, zero])
  · have none : s.ptb.directory.find? (fun e => decide (e.number = n)) = none := by
      simpa [List.find?_eq_none] using absent
    exact serving_answer hs (a := retirePassageDo n) (x := .bare .notFound) (by
      simp only [retirePassageDo, if_neg some0, State.taking_ptb, none])
  · exact serving_answer hs (a := retirePassageDo n) (x := .bare .state) (by
      simp [retirePassageDo, some0, State.taking_ptb, found, opened])
  · refine ⟨_, serving_done hs (a := retirePassageDo n) (s' := retireWhole n (s.taking t)) (x := .ok (be 2 (recordCount n s)))
      (by simp [retirePassageDo, some0, found, closed, recordCount]) (evalPermit_slk _), rfl, fun r => ?_, fun d => ?_, ?_, ?_⟩
    · have slots := retireWhole_slots n (s.taking t)
      rw [State.taking_ptb] at slots
      show r ∈ (retireWhole n (s.taking t)).ptb.slots ↔ _
      rw [slots, mem_tkeep, decide_eq_true_eq]
    · have directory := retireWhole_directory n (s.taking t)
      rw [State.taking_ptb] at directory
      show d ∈ (retireWhole n (s.taking t)).ptb.directory ↔ _
      rw [directory, List.mem_filter, decide_eq_true_eq]
    · exact (evalPermit_wrg _).trans (State.taking_wrg s t)
    · exact (evalPermit_axt _).trans (State.taking_axt s t)

/-! ### Slots and the records of a set (R127, R130) -/

theorem freeSlot_eq_some {s : State} {k : Nat} :
    s.freeSlot = some k ↔ k < 640 ∧ tget s.ptb.slots k = none ∧ ∀ j, j < k → tget s.ptb.slots j ≠ none := by
  rw [State.freeSlot, lowestFree_eq_some, maxSlots]
  simp [Option.isSome_iff_ne_none]

theorem freeSlot_eq_none {s : State} : s.freeSlot = none ↔ ∀ j, j < 640 → tget s.ptb.slots j ≠ none := by
  rw [State.freeSlot, lowestFree_eq_none, maxSlots]
  simp [Option.isSome_iff_ne_none]

theorem recordAt_isSome {s : State} {f : Option Nat} {p : Nat} :
    (s.recordAt f p).isSome = true ↔ ∃ r ∈ s.ptb.slots, r.2.passage = f ∧ r.2.position = p := by
  simp [State.recordAt, List.find?_isSome]

theorem fleetHeld_none {s : State} {f : Option Nat} {x : Nat} :
    s.fleetHeld f x none = true ↔ ∃ r ∈ s.ptb.slots, r.2.passage = f ∧ r.2.fleet = some x := by
  simp [State.fleetHeld]

theorem fleetHeld_except {s : State} {f : Option Nat} {x n : Nat} :
    s.fleetHeld f x (some n) = true ↔ ∃ r ∈ s.ptb.slots, r.2.passage = f ∧ r.2.fleet = some x ∧ r.1 ≠ n := by
  simp [State.fleetHeld, and_assoc]

theorem expectHeld_eq_true {s : State} {set f : Option Nat} :
    expectHeld s set f = true ↔ ∃ x, f = some x ∧ s.fleetHeld set x none = true := by
  cases f <;> simp [expectHeld]

theorem expectHeld_eq_false {s : State} {set f : Option Nat} :
    expectHeld s set f = false ↔ ∀ x, f = some x → s.fleetHeld set x none = false := by
  cases f <;> simp [expectHeld]

/-! ### EXPECT (R127) -/

/-- The set of records that an EXPECT names: the pending set, or the open passage. -/
def State.expectSet (s : State) (n : Nat) : Option Nat := if n = 0 then none else s.openNumber

theorem State.expectSet_zero (s : State) : s.expectSet 0 = none := rfl

theorem State.expectSet_open {s : State} {n : Nat} (h : s.openNumber = some n) (hn : n ≠ 0) : s.expectSet n = some n := by
  rw [State.expectSet, if_neg hn, h]

/-- An EXPECT that makes a new record: of the pending set, or of the open passage above its vehicles. -/
def State.expectsNew (s : State) (n p : Nat) : Prop := n = 0 ∨ (s.openNumber = some n ∧ s.seg.vehicles.length < p)

theorem expectDo_new {s : State} {n p : Nat} {f c : Option Nat} (ok : expectOk p f c = true) (h : s.expectsNew n p) (t : Nat) :
    expectDo n p f c (s.taking t) = expectNew n p f c (s.taking t) := by
  rcases h with rfl | ⟨opened, above⟩
  · simp [expectDo, ok]
  · simp [expectDo, ok, opened, Nat.not_le.mpr above]

theorem exec_expect_exists {s : State} (hs : s.serving) {n p : Nat} {f c : Option Nat} (ok : expectOk p f c = true)
    (new : s.expectsNew n p)
    (h : (s.recordAt (s.expectSet n) p).isSome = true ∨ (∃ x, f = some x ∧ s.fleetHeld (s.expectSet n) x none = true)) (t : Nat)
    (g : Byte) : exec (.expect t g n p f c) s = .next ((s.taking t).replying g .pass .alreadyExists []) := by
  refine serving_answer hs (a := expectDo n p f c) (x := .bare .alreadyExists) ?_
  rw [expectDo_new ok new, expectNew]
  unfold State.expectSet at h
  rcases h with h | ⟨x, rfl, h⟩
  · simp [h]
  · simp [expectHeld, h]

theorem exec_expect_full {s : State} (hs : s.serving) {n p : Nat} {f c : Option Nat} (ok : expectOk p f c = true)
    (new : s.expectsNew n p) (absent : s.recordAt (s.expectSet n) p = none)
    (other : ∀ x, f = some x → s.fleetHeld (s.expectSet n) x none = false) (full : s.freeSlot = none) (t : Nat) (g : Byte) :
    exec (.expect t g n p f c) s = .next ((s.taking t).replying g .pass .full []) := by
  refine serving_answer hs (a := expectDo n p f c) (x := .bare .full) ?_
  have held : expectHeld (s.taking t) (s.expectSet n) f = false := expectHeld_eq_false.mpr (by simpa using other)
  rw [expectDo_new ok new, expectNew]
  unfold State.expectSet at absent held
  simp only [State.taking_openNumber, State.taking_recordAt, absent, held, State.taking_freeSlot, full]
  rfl

/-- A new expectation takes the lowest FREE slot, which the reply carries. -/
theorem exec_expect_new {s : State} (hs : s.serving) {n p : Nat} {f c : Option Nat} (ok : expectOk p f c = true)
    (new : s.expectsNew n p) (absent : s.recordAt (s.expectSet n) p = none)
    (other : ∀ x, f = some x → s.fleetHeld (s.expectSet n) x none = false) {k : Nat} (free : s.freeSlot = some k) (t : Nat) (g : Byte) :
    exec (.expect t g n p f c) s =
      .next ((evalPermit (putSlot k (expectation (s.taking t) n p f c) (s.taking t))).replying g .pass .ok (be 2 k)) := by
  refine serving_done hs (a := expectDo n p f c) (x := .ok (be 2 k)) ?_ (evalPermit_slk _)
  have held : expectHeld (s.taking t) (s.expectSet n) f = false := expectHeld_eq_false.mpr (by simpa using other)
  rw [expectDo_new ok new, expectNew]
  unfold State.expectSet at absent held
  simp only [State.taking_openNumber, State.taking_recordAt, absent, held, State.taking_freeSlot, free]
  rfl

/-- What a slot's record leaves of the rest, PERMIT being evaluated. -/
theorem evalPermit_putSlot (k : Nat) (w : Wagon) (s : State) :
    (evalPermit (putSlot k w s)).ptb.slots = tput s.ptb.slots k w ∧
      (evalPermit (putSlot k w s)).ptb.directory = s.ptb.directory ∧ (evalPermit (putSlot k w s)).wrg = s.wrg ∧
      (evalPermit (putSlot k w s)).axt = s.axt ∧ (evalPermit (putSlot k w s)).seg = s.seg :=
  ⟨evalPermit_slots _, evalPermit_directory _, evalPermit_wrg _, evalPermit_axt _, by rw [evalPermit_eq]; rfl⟩

theorem expectedKind_eq (s : State) (c : Option Nat) : s.expectedKind c = (c.bind (tget s.seg.classes)).map (·.kind) := rfl

/-- The record of a new expectation in the open passage takes its number, its counter and its mark. -/
theorem expectation_open {s : State} {n : Nat} (opened : s.openNumber = some n) (hn : n ≠ 0) {e : DirEntry}
    (entry : s.ptb.directory.find? (fun e => e.close.isNone) = some e) (p : Nat) (f c : Option Nat) :
    expectation s n p f c = { Wagon.blank .expectation (some n) p with
      kind := s.expectedKind c, fleet := f, expectedCls := c, calCounter := some e.calCounter
      own := { OwnQuals.none with unverified := e.unverified } } := by
  have found : s.openEntry = some e := entry
  simp only [expectation, if_neg hn, State.newOpenRecord, found, opened]
  rfl

/-- Settles O35. -/
theorem expectationIsCreated : Obligations.ExpectationIsCreated := by
  refine ⟨fun s => ⟨fun k => freeSlot_eq_some, freeSlot_eq_none⟩,
    fun s t g p f c hs => ⟨fun n bad => ?_, fun n ok some0 other => ?_, fun ok => ?_, fun ok => ?_, fun k ok absent other free => ?_⟩,
    fun s t g n p f c hs opened some0 above ok => ⟨?_, ?_, fun k e absent other free entry waters => ?_⟩,
    fun s n p x f => ⟨recordAt_isSome, fleetHeld_none, fleetHeld_except⟩⟩
  · exact serving_answer hs (a := expectDo n p f c) (x := .bad) (by simp [expectDo, bad])
  · exact serving_answer hs (a := expectDo n p f c) (x := .bare .state) (by simp [expectDo, ok, some0, other])
  · exact fun held => exec_expect_exists hs ok (Or.inl rfl) held t g
  · exact fun absent other full => exec_expect_full hs ok (Or.inl rfl) absent other full t g
  · obtain ⟨slots, directory, wrg, axt, -⟩ := evalPermit_putSlot k (expectation (s.taking t) 0 p f c) (s.taking t)
    rw [State.taking_ptb] at slots directory
    refine ⟨_, _, exec_expect_new hs ok (Or.inl rfl) absent other free t g, rfl, slots, rfl, rfl, rfl, rfl, rfl, rfl, ?_, rfl, rfl,
      directory, wrg.trans (State.taking_wrg s t), axt.trans (State.taking_axt s t)⟩
    show (s.taking t).expectedKind c = _
    rw [expectedKind_eq, State.taking_seg]
  · have set := State.expectSet_open opened some0
    exact fun held => exec_expect_exists hs ok (Or.inr ⟨opened, above⟩) (by rwa [set]) t g
  · have set := State.expectSet_open opened some0
    exact fun absent other full => exec_expect_full hs ok (Or.inr ⟨opened, above⟩) (by rwa [set]) (by rwa [set]) full t g
  · have set := State.expectSet_open opened some0
    have done := exec_expect_new hs ok (Or.inr ⟨opened, above⟩) (by rwa [set]) (by rwa [set]) free t g
    have record := expectation_open (s := s.taking t) (opened := by simpa using opened) some0 (by simpa using entry) p f c
    obtain ⟨slots, directory, wrg, axt, seg⟩ := evalPermit_putSlot k (expectation (s.taking t) n p f c) (s.taking t)
    rw [State.taking_ptb] at slots directory
    refine ⟨_, _, done, rfl, slots, ?_⟩
    rw [record]
    refine ⟨rfl, rfl, rfl, rfl, rfl, rfl, ?_, rfl, rfl, rfl, rfl, ?_, ?_, ?_, ?_, ?_⟩
    · show (s.taking t).expectedKind c = _
      rw [expectedKind_eq, State.taking_seg]
    all_goals rw [← record]
    · exact directory
    · exact wrg.trans (State.taking_wrg s t)
    · exact axt.trans (State.taking_axt s t)
    · exact seg.trans (State.taking_seg s t)
    · have permit : (evalPermit (putSlot k (expectation (s.taking t) n p f c) (s.taking t))).permitOk :=
        evalPermit_permitOk (by simpa [putSlot, State.setSlots] using waters)
      exact permit

end Sys2Proof.Machine
end

