-- ==== Sys2Proof/Proofs/LateIdentity.lean ====
section
/-! PROOFS. ASSIGN, and the EXPECT that acts as one (R128, R142, R143, R145, R146). -/

namespace Sys2Proof.Machine

/-! ### The record that an ASSIGN leaves, but for its applied number -/

/-- The record that an ASSIGN leaves, before its register update. -/
def assigned (s : State) (f : Nat) (w : Wagon) : Wagon := assignRecompute s (assignIdentity s f w)

/-- What an ASSIGN leaves of a record. -/
theorem assigned_keeps (s : State) (f : Nat) (w : Wagon) :
    (assigned s f w).axles = w.axles ∧ (assigned s f w).state = w.state ∧ (assigned s f w).position = w.position ∧
    (assigned s f w).passage = w.passage ∧ (assigned s f w).kind = w.kind ∧ (assigned s f w).cls = w.cls ∧
    (assigned s f w).segMismatch = w.segMismatch ∧ (assigned s f w).values.exact = w.values.exact ∧
    (assigned s f w).values.reported = w.values.reported ∧ (assigned s f w).values.p1 = w.values.p1 ∧
    (assigned s f w).values.p2 = w.values.p2 ∧ (assigned s f w).applied = w.applied := by
  simp only [assigned, assignRecompute_eq, assignIdentity_eq]
  split <;> exact ⟨rfl, rfl, rfl, rfl, rfl, rfl, rfl, rfl, rfl, rfl, rfl, rfl⟩

/-- The identity and the snapshot (R131, R132, R143). -/
theorem assigned_identity (s : State) (f : Nat) (w : Wagon) :
    (assigned s f w).fleet = some f ∧
    (assigned s f w).own = { w.own with noIdentity := false, lateBound := true, unknownWagon := (s.lookup f).isNone } ∧
    (assigned s f w).snapshot =
      { cls := (s.lookup f).bind (·.cls), tare := (s.lookup f).bind (·.tare), maxAxle := (s.classOf w.cls).map (·.maxAxle)
        maxGross := ((s.lookup f).bind (·.maxGross)).orElse fun _ => (s.classOf w.cls).map (·.maxGross) } := by
  simp only [assigned, assignRecompute_eq, assignIdentity_eq]
  split <;> exact ⟨rfl, rfl, rfl⟩

/-- The verdicts HOLD and CLASS_MISMATCH (R132, R137). -/
theorem assigned_identityVerdicts (s : State) (f : Nat) (w : Wagon) :
    (assigned s f w).verdicts.hold =
      (decide (w.kind = some .wagon) && ((s.lookup f).map fun x => hasFlag x.flags .hold).getD false) ∧
    (assigned s f w).verdicts.classMismatch = (decide (w.kind = some .wagon) && (w.segMismatch ||
      (((s.lookup f).bind (·.cls)).map fun c => decide (w.cls ≠ some c)).getD false)) := by
  simp only [assigned, assignRecompute_eq, assignIdentity_eq]
  by_cases kind : w.kind = some .wagon
  · split <;> simp [kind]
  · split <;> simp [kind, Verdicts.none]

/-- A record that has no values keeps them, its limit verdicts and CERTIFIED. -/
theorem assigned_unweighed {s : State} {f : Nat} {w : Wagon} (h1 : w.state ≠ .complete) (h2 : w.state ≠ .final) :
    (assigned s f w).values = w.values ∧ (assigned s f w).certified = w.certified ∧
    (assigned s f w).verdicts = { w.verdicts with
      hold := (assigned s f w).verdicts.hold, classMismatch := (assigned s f w).verdicts.classMismatch } := by
  have none : ¬(w.state = .complete ∨ w.state = .final) := by simp [h1, h2]
  have kept : assigned s f w = assignIdentity s f w := by
    rw [assigned, assignRecompute_eq, if_neg (by rw [assignIdentity_eq]; exact none)]
  rw [kept, assignIdentity_eq]
  exact ⟨rfl, rfl, rfl⟩

theorem aboveOpt_iff {x : Option Int} {m : Option Nat} : aboveOpt x m = true ↔ ∃ a b, x = some a ∧ m = some b ∧ (b : Int) < a := by
  cases x <;> cases m <;> simp [aboveOpt]

/-- Is an axle above the maximum axle load. -/
theorem anyAxleAbove_iff {l : List AxleLine} {m : Option Nat} : (l.any fun a => aboveOpt a.load m) = true ↔
    ∃ b, m = some b ∧ ∃ a ∈ l, ∃ x, a.load = some x ∧ (b : Int) < x := by
  simp only [List.any_eq_true, aboveOpt_iff]
  exact ⟨fun ⟨a, ha, x, b, hx, hb, lt⟩ => ⟨b, hb, a, ha, x, hx, lt⟩, fun ⟨b, hb, a, ha, x, hx, lt⟩ => ⟨a, ha, x, b, hx, hb, lt⟩⟩

theorem overLimit_iff {x : Option Nat} {n : Nat} : overLimit x n = true ↔ ∃ a, x = some a ∧ n < a := by
  cases x <;> simp [overLimit]

theorem negative_iff {x : Option Int} : negative x = true ↔ ∃ a, x = some a ∧ a < 0 := by
  cases x <;> simp [negative]

/-- A COMPLETE or FINAL record takes its net, CERTIFIED and its limit verdicts afresh (R136, R137, R143). -/
theorem assigned_weighed {s : State} {f : Nat} {w : Wagon} (h : w.state = .complete ∨ w.state = .final) :
    (assigned s f w).values =
      { w.values with net := w.values.reported.bind fun x => ((s.lookup f).bind (·.tare)).map fun n : Nat => x - (n : Int) } ∧
    (assigned s f w).certified = decide ((assigned s f w).quals &&& disqualifying = 0) ∧
    (w.kind ≠ some .wagon → (assigned s f w).verdicts = Verdicts.none) ∧
    (w.kind = some .wagon →
      (assigned s f w).verdicts.overload = aboveOpt w.values.reported (assigned s f w).snapshot.maxGross ∧
      (assigned s f w).verdicts.axleOverload = (w.axles.any fun a => aboveOpt a.load (assigned s f w).snapshot.maxAxle) ∧
      (assigned s f w).verdicts.imbalanceSide = overLimit w.values.side s.settings.sideLimit ∧
      (assigned s f w).verdicts.imbalanceEnd = overLimit w.values.endwise s.settings.endLimit ∧
      (assigned s f w).verdicts.netNegative = negative (assigned s f w).values.net) := by
  rw [assigned, assignRecompute_eq, if_pos (by rw [assignIdentity_eq]; exact h), assignIdentity_eq]
  exact ⟨rfl, rfl, fun kind => if_neg kind, fun kind => by
    refine ⟨?_, ?_, ?_, ?_, ?_⟩ <;> simp only [if_pos kind]⟩

/-! ### What an ASSIGN leaves of the table and the register -/

/-- Is the register updated by an ASSIGN to a FINAL record (R143, R145). -/
def assignUpdates (s : State) (f : Nat) (w : Wagon) : Bool :=
  w.values.reported.isSome && decide (w.kind = some .wagon) && (s.lookup f).isSome && decide (some f ≠ w.applied)

/-- An ASSIGN to a record that is not FINAL changes its slot only. -/
theorem assignRecord_open {s : State} {f k : Nat} {w : Wagon} (h : w.state ≠ .final) :
    assignRecord f k w s = s.setPtb { s.ptb with slots := tput s.ptb.slots k (assigned s f w) } :=
  (assignRecord_eq f k w s).trans (if_neg h)

/-- The directory after an ASSIGN to a FINAL record (R146). -/
def adjustedDirectory (s : State) (f : Nat) (w : Wagon) : List DirEntry :=
  s.ptb.directory.map fun e => if some e.number = w.passage ∧ e.close.isSome = true then
    { e with totals := e.totals.map fun x => { x with
      net := if w.kind = some .wagon then x.net + (assigned s f w).values.net.getD 0 - w.values.net.getD 0 else x.net
      quals := x.quals ||| (assigned s f w).quals } } else e

theorem adjustedDirectory_eq (s : State) (f : Nat) (w : Wagon) : (s.ptb.directory.map fun e =>
    if some e.number = w.passage ∧ e.close.isSome then { e with totals := e.totals.map (adjustTotals w (assigned s f w)) } else e) =
      adjustedDirectory s f w := by
  have kind : (assigned s f w).kind = w.kind := (assigned_keeps s f w).2.2.2.2.1
  have totals : adjustTotals w (assigned s f w) = fun x : Totals => { x with
      net := if w.kind = some .wagon then x.net + (assigned s f w).values.net.getD 0 - w.values.net.getD 0 else x.net
      quals := x.quals ||| (assigned s f w).quals } := by
    funext x
    rw [adjustTotals, kind]
  rw [totals]
  rfl

theorem assignRecord_final {s : State} {f k : Nat} {w : Wagon} (h : w.state = .final) : assignRecord f k w s =
    if assignUpdates s f w then
      (s.setPtb { s.ptb with
        slots := tput (tput s.ptb.slots k (assigned s f w)) k { assigned s f w with applied := some f }
        directory := adjustedDirectory s f w }).setWrg
        { s.wrg with records := tupd s.wrg.records f (RegRec.change (passageUpdate ((assigned s f w).values.reported.getD 0) w.passage
          (assigned s f w).verdicts (assigned s f w).certified)) }
    else s.setPtb { s.ptb with slots := tput s.ptb.slots k (assigned s f w), directory := adjustedDirectory s f w } := by
  have reported : (assigned s f w).values.reported = w.values.reported := (assigned_keeps s f w).2.2.2.2.2.2.2.2.1
  rw [← adjustedDirectory_eq, assignUpdates, ← reported]
  exact (assignRecord_eq f k w s).trans (if_pos h)

/-- An ASSIGN leaves the record, with some applied number, in its slot and every other slot as it was. -/
theorem assignRecord_slots (s : State) (f k : Nat) (w : Wagon) :
    tget (assignRecord f k w s).ptb.slots k = some { assigned s f w with
      applied := if w.state = .final ∧ assignUpdates s f w = true then some f else w.applied } ∧
    ∀ j, j ≠ k → tget (assignRecord f k w s).ptb.slots j = tget s.ptb.slots j := by
  have applied : (assigned s f w).applied = w.applied := (assigned_keeps s f w).2.2.2.2.2.2.2.2.2.2.2
  have same : { assigned s f w with applied := w.applied } = assigned s f w := by rw [← applied]
  by_cases final : w.state = .final
  · rw [assignRecord_final final]
    by_cases update : assignUpdates s f w = true
    · simp only [update, final, if_true, and_self, State.setWrg_ptb, State.setPtb_ptb, tget_tput_any]
      exact ⟨trivial, fun j hj => by rw [if_neg hj, if_neg hj]⟩
    · rw [if_neg update, if_neg (fun h => update h.2), same]
      simp only [State.setPtb_ptb, tget_tput_any]
      exact ⟨if_pos trivial, fun j hj => if_neg hj⟩
  · rw [assignRecord_open final]
    rw [if_neg (fun h => final h.1), same]
    simp only [State.setPtb_ptb, tget_tput_any]
    exact ⟨if_pos trivial, fun j hj => if_neg hj⟩

/-- An ASSIGN changes the passage table and the register only. -/
theorem assignRecord_rest (s : State) (f k : Nat) (w : Wagon) :
    (assignRecord f k w s).slk = s.slk ∧ (assignRecord f k w s).axt = s.axt := by
  by_cases final : w.state = .final
  · rw [assignRecord_final final]
    split <;> exact ⟨rfl, rfl⟩
  · rw [assignRecord_open final]
    exact ⟨rfl, rfl⟩

/-- The register and the directory after an ASSIGN to a record that is not FINAL. -/
theorem assignRecord_register_open {s : State} {f k : Nat} {w : Wagon} (h : w.state ≠ .final) :
    (assignRecord f k w s).wrg = s.wrg ∧ (assignRecord f k w s).ptb.directory = s.ptb.directory := by
  rw [assignRecord_open h]
  exact ⟨rfl, rfl⟩

theorem assignRecord_directory {s : State} {f k : Nat} {w : Wagon} (h : w.state = .final) :
    (assignRecord f k w s).ptb.directory = adjustedDirectory s f w := by
  rw [assignRecord_final h]
  split <;> rfl

theorem assignRecord_register {s : State} {f k : Nat} {w : Wagon} (h : w.state = .final) :
    (assignRecord f k w s).wrg = if assignUpdates s f w then { s.wrg with
      records := tupd s.wrg.records f (RegRec.change (passageUpdate ((assigned s f w).values.reported.getD 0) w.passage
        (assigned s f w).verdicts (assigned s f w).certified)) } else s.wrg := by
  rw [assignRecord_final h]
  split <;> rfl

theorem assignUpdates_iff {s : State} {f : Nat} {w : Wagon} : assignUpdates s f w = true ↔
    (∃ x, w.values.reported = some x) ∧ w.kind = some .wagon ∧ (s.lookup f) ≠ none ∧ w.applied ≠ some f := by
  simp only [assignUpdates, Bool.and_eq_true, decide_eq_true_eq, Option.isSome_iff_exists, Option.ne_none_iff_exists', and_assoc,
    ne_comm (a := some f)]

/-! ### The request (R142) -/

theorem exec_assign_accepted {s : State} (hs : s.serving) {r : RecordRef} {f k : Nat} {w : Wagon} (fleet : fleetOk f = true)
    (ref : refOk r = true) (found : s.refRecord r = some (k, w)) (h1 : w.state ≠ .expected) (h2 : w.state ≠ .missing)
    (free : s.fleetHeld w.passage f (some k) = false) (t : Nat) (g : Byte) :
    exec (.assign t g r f) s = .next ((assignRecord f k w (s.taking t)).replying g .pass .ok []) :=
  serving_done hs (a := assignDo r f) (x := .ok []) (by simp [assignDo, fleet, ref, found, assignTo, h1, h2, free])
    (assignRecord_rest _ f k w).1

/-- Two actions that do the same with the request's state are one request. -/
theorem request_congr {a b : Action} {s : State} {t : Nat} (h : a (s.taking t) = b (s.taking t)) (g : Byte) (k : Target)
    (always : Bool) : request t g k always a s = request t g k always b s := by
  by_cases on : s.powered = true
  · simp only [request, ifPowered_on on]
    show Host.Outcome.next (serve g _ always a (s.taking t)) = Host.Outcome.next (serve g _ always b (s.taking t))
    rw [serve, serve, actOrRefuse, actOrRefuse, h]
  · simp only [request, ifPowered_off (Bool.eq_false_iff.mpr on)]

/-- An EXPECT at a position that is bound is a late identity (R128). -/
theorem expectDo_late {s : State} {n p x : Nat} {c : Option Nat} (opened : s.openNumber = some n) (hn : n ≠ 0) (h1 : 1 ≤ p)
    (h2 : p ≤ s.seg.vehicles.length) (h3 : p ≤ 640) (fleet : fleetOk x = true) (cls : optionOk codeOk c = true) (t : Nat) :
    expectDo n p (some x) c (s.taking t) = lateIdentity p (some x) (s.taking t) := by
  have ok : expectOk p (some x) c = true := by
    rw [expectOk, cls]
    simp [positionOk, maxPositions, optionOk, fleet, h1, h3]
  simp [expectDo, ok, opened, h2, hn]

/-- A late identity at a record of origin TABLE without a fleet number is an ASSIGN of it. -/
theorem lateIdentity_assigns {s : State} {p x k : Nat} {w : Wagon} (found : s.recordAt s.openNumber p = some (k, w))
    (table : w.origin = .table) (none : w.fleet = none) : lateIdentity p (some x) s = assignTo x k w s := by
  simp only [lateIdentity, found, table, none]

/-- A late identity at any other record is refused. -/
theorem lateIdentity_exists {s : State} {p x k : Nat} {w : Wagon} (found : s.recordAt s.openNumber p = some (k, w))
    (other : w.origin = .expectation ∨ w.fleet ≠ none) : lateIdentity p (some x) s = (s, .bare .alreadyExists) := by
  simp only [lateIdentity, found]
  split
  · next table none _ => rcases other with e | e <;> simp_all
  · rfl

/-- An EXPECT at a bound position that may take an identity is an ASSIGN to the record there (R128). -/
theorem exec_expect_late {s : State} {n p x k : Nat} {c : Option Nat} {w : Wagon} (opened : s.openNumber = some n)
    (hn : n ≠ 0) (h1 : 1 ≤ p) (h2 : p ≤ s.seg.vehicles.length) (h3 : p ≤ 640) (fleet : fleetOk x = true)
    (cls : optionOk codeOk c = true) (found : s.recordAt (some n) p = some (k, w)) (table : w.origin = .table)
    (none : w.fleet = none) (t : Nat) (g : Byte) :
    exec (.expect t g n p (some x) c) s = exec (.assign t g ⟨0, n, p⟩ x) s := by
  have assign : assignDo ⟨0, n, p⟩ x (s.taking t) = assignTo x k w (s.taking t) := by
    simp [assignDo, fleet, refOk, positionOk, maxPositions, h1, h3, State.refRecord, hn, found]
  refine request_congr (a := expectDo n p (some x) c) (b := assignDo ⟨0, n, p⟩ x) ?_ g .pass false
  rw [expectDo_late opened hn h1 h2 h3 fleet cls, assign]
  exact lateIdentity_assigns (by simpa [opened] using found) table none

/-- Settles O37. -/
theorem identityIsAssigned : Obligations.IdentityIsAssigned := by
  refine ⟨fun s t g r f hs => ⟨fun bad => ?_, fun fleet ref absent => ?_, fun k w fleet ref found => ⟨fun early => ?_,
      fun h1 h2 held => ?_, fun h1 h2 free => ?_⟩⟩,
    fun s t g n p x c hs opened hn h1 h2 h3 fleet cls => ⟨fun absent => ?_, fun k w found other => ?_,
      fun k w found table none => exec_expect_late opened hn h1 h2 h3 fleet cls found table none t g⟩⟩
  · exact serving_answer hs (a := assignDo r f) (x := .bad) (by
      rcases bad with h | h <;> simp [assignDo, h])
  · exact serving_answer hs (a := assignDo r f) (x := .bare .notFound) (by simp [assignDo, fleet, ref, absent])
  · exact serving_answer hs (a := assignDo r f) (x := .bare .state) (by simp [assignDo, fleet, ref, found, assignTo, early])
  · exact serving_answer hs (a := assignDo r f) (x := .bare .alreadyExists) (by
      simp [assignDo, fleet, ref, found, assignTo, h1, h2, held])
  · have lookup : (s.taking t).lookup f = (tget s.wrg.records f).map (·.fields) := by rw [State.lookup, State.taking_wrg]
    have cls : (s.taking t).classOf w.cls = w.cls.bind (tget s.seg.classes) := by rw [State.classOf, State.taking_seg]
    have settings := State.taking_settings s t
    obtain ⟨axles, state, position, passage, kind, cls', mismatch, exact, reported, p1, p2, -⟩ := assigned_keeps (s.taking t) f w
    obtain ⟨fleet', own, snapshot⟩ := assigned_identity (s.taking t) f w
    obtain ⟨hold, classMismatch⟩ := assigned_identityVerdicts (s.taking t) f w
    obtain ⟨slot, others⟩ := assignRecord_slots (s.taking t) f k w
    obtain ⟨-, axt⟩ := assignRecord_rest (s.taking t) f k w
    rw [lookup] at own snapshot hold classMismatch
    rw [cls] at snapshot
    refine ⟨_, _, exec_assign_accepted hs fleet ref found h1 h2 free t g, rfl, slot, fun j hj => (others j hj).trans (by
      rw [State.taking_ptb]), fleet', ?_, ?_, ?_, ⟨snapshot, hold, classMismatch, fun hc hf => ?_, fun weighed => ?_, fun hf => ?_,
      fun hf => ?_⟩, axles, state, position, passage, kind, cls', mismatch, exact, reported, p1, p2, axt.trans (State.taking_axt s t)⟩
    · exact congrArg OwnQuals.noIdentity own
    · exact congrArg OwnQuals.lateBound own
    · exact (congrArg OwnQuals.unknownWagon own).trans (by simp)
    · exact assigned_unweighed hc hf
    · obtain ⟨values, certified, traction, wagon⟩ := assigned_weighed (s := s.taking t) (f := f) weighed
      rw [lookup] at values
      refine ⟨values, certified, traction, fun hk => ?_⟩
      obtain ⟨overload, axleOverload, side, endwise, net⟩ := wagon hk
      rw [settings] at side endwise
      have overload' := overload ▸ aboveOpt_iff
      have side' := side ▸ overLimit_iff
      have endwise' := endwise ▸ overLimit_iff
      have net' := net ▸ negative_iff
      have axle' := axleOverload ▸ anyAxleAbove_iff
      exact ⟨overload', axle', side', endwise', net'⟩
    · obtain ⟨wrg, directory⟩ := assignRecord_register_open (s := s.taking t) (f := f) (k := k) hf
      exact ⟨wrg.trans (State.taking_wrg s t), directory.trans (congrArg Ptb.directory (State.taking_ptb s t)),
        if_neg fun h => hf h.1⟩
    · have directory := assignRecord_directory (s := s.taking t) (f := f) (k := k) hf
      have register := assignRecord_register (s := s.taking t) (f := f) (k := k) hf
      have updates := assignUpdates_iff (s := s.taking t) (f := f) (w := w)
      rw [adjustedDirectory, State.taking_ptb] at directory
      rw [State.taking_wrg] at register
      rw [lookup] at updates
      refine ⟨directory, fun x hx hk hr ha => ?_, fun none => ?_⟩
      · have update := updates.mpr ⟨⟨x, hx⟩, hk, hr, ha⟩
        rw [if_pos update, reported, hx] at register
        exact ⟨if_pos ⟨hf, update⟩, register⟩
      · have noUpdate : ¬ assignUpdates (s.taking t) f w = true := fun h => by
          obtain ⟨⟨x, hx⟩, hk, hr, ha⟩ := updates.mp h
          simp [hx, hk, hr, ha] at none
        rw [if_neg noUpdate] at register
        exact ⟨if_neg fun h => noUpdate h.2, register⟩
  · exact serving_answer hs (a := expectDo n p (some x) c) (x := .bare .state) (by
      rw [expectDo_late opened hn h1 h2 h3 fleet cls]
      simp [lateIdentity, opened, absent])
  · exact serving_answer hs (a := expectDo n p (some x) c) (x := .bare .alreadyExists) (by
      rw [expectDo_late opened hn h1 h2 h3 fleet cls]
      exact lateIdentity_exists (by simpa [opened] using found) other)

end Sys2Proof.Machine
end

