-- ==== Sys2Proof/Proofs/Values.lean ====
section
/-! PROOFS. Rounding, the values and the CERTIFIED mark of a record, and the notice of an axle (R53, R134 to R140). -/

namespace Sys2Proof.Machine

/-! ### Rounding (00, section 4.3) -/

/-- The quotient of a rounded division, cleared of the division. -/
theorem roundDiv_bounds {b : Nat} (hb : 0 < b) (a : Int) :
    (0 ≤ a → 2 * (roundDiv a b * b) ≤ 2 * a + b ∧ 2 * a + b < 2 * (roundDiv a b * b) + 2 * b) ∧
    (a < 0 → 2 * a - b ≤ 2 * (roundDiv a b * b) ∧ 2 * (roundDiv a b * b) - 2 * b < 2 * a - b) := by
  have quotient : ∀ x : Int, 2 * (x / (2 * b) * b) ≤ x ∧ x < 2 * (x / (2 * b) * b) + 2 * b := fun x => by
    have pos : (0 : Int) < 2 * b := by omega
    have low := Int.emod_nonneg x (by omega : (2 * b : Int) ≠ 0)
    have high := Int.emod_lt_of_pos x pos
    have whole := Int.mul_ediv_add_emod x (2 * b)
    have form : 2 * (x / (2 * b) * b) = 2 * (b : Int) * (x / (2 * b)) := by
      rw [Int.mul_comm (x / (2 * b)), Int.mul_assoc]
    rw [form]
    omega
  constructor <;> intro sign
  · rw [roundDiv, if_pos sign]
    exact quotient _
  · obtain ⟨low, high⟩ := quotient (2 * -a + b)
    rw [roundDiv, if_neg (by omega), Int.neg_mul]
    omega

/-- A rounded quotient is nearest, and of two nearest the one further from zero. -/
theorem roundDiv_nearest {b : Nat} (hb : 0 < b) (a : Int) :
    2 * (a - roundDiv a b * b).natAbs ≤ b ∧
      (2 * (a - roundDiv a b * b).natAbs = b → a.natAbs < (roundDiv a b * b).natAbs) := by
  obtain ⟨positive, negative⟩ := roundDiv_bounds hb a
  generalize roundDiv a b * b = p at positive negative
  omega

/-- The rounded quotient is the only nearest one that is not nearer to zero at a half. -/
theorem roundDiv_eq_iff {b : Nat} (hb : 0 < b) (a g : Int) : roundDiv a b = g ↔
    2 * (a - g * b).natAbs ≤ b ∧ (2 * (a - g * b).natAbs = b → a.natAbs ≤ g.natAbs * b) := by
  obtain ⟨near, half⟩ := roundDiv_nearest hb a
  have abs : ∀ q : Int, q.natAbs * b = (q * b).natAbs := fun q => by rw [Int.natAbs_mul, Int.natAbs_natCast]
  rw [abs]
  constructor
  · rintro rfl
    exact ⟨near, fun h => Nat.le_of_lt (half h)⟩
  · rintro ⟨near', half'⟩
    refine Decidable.byContradiction fun other => ?_
    have apart : roundDiv a b + 1 ≤ g ∨ g + 1 ≤ roundDiv a b := by omega
    have scaled : roundDiv a b * b + b ≤ g * b ∨ g * b + b ≤ roundDiv a b * b := by
      rcases apart with h | h
      · left
        calc roundDiv a b * b + b = (roundDiv a b + 1) * b := by rw [Int.add_mul, Int.one_mul]
          _ ≤ g * b := Int.mul_le_mul_of_nonneg_right h (by omega)
      · right
        calc g * b + b = (g + 1) * b := by rw [Int.add_mul, Int.one_mul]
          _ ≤ roundDiv a b * b := Int.mul_le_mul_of_nonneg_right h (by omega)
    have multiple : ∀ x : Int, x * b ≤ -b ∨ x * b = 0 ∨ (b : Int) ≤ x * b := fun x => by
      rcases (by omega : x ≤ -1 ∨ x = 0 ∨ 1 ≤ x) with h | rfl | h
      · exact Or.inl (by simpa using Int.mul_le_mul_of_nonneg_right h (by omega : (0 : Int) ≤ b))
      · exact Or.inr (Or.inl (by simp))
      · exact Or.inr (Or.inr (by simpa using Int.mul_le_mul_of_nonneg_right h (by omega : (0 : Int) ≤ b)))
    have mp := multiple (roundDiv a b)
    have mq := multiple g
    generalize roundDiv a b * b = p at near half scaled mp
    generalize g * b = q at near' half' scaled mq
    omega

/-! ### Values (R135) -/

theorem sumOption_eq_some : ∀ {l : List (Option Int)}, (∀ x ∈ l, x ≠ none) → sumOption l = some (sumInt (l.map (·.getD 0)))
  | [], _ => rfl
  | none :: l, h => absurd rfl (h none (by simp))
  | some x :: l, h => by
    have rest := sumOption_eq_some fun y hy => h y (List.mem_cons_of_mem _ hy)
    simp only [sumOption, rest]
    rfl

theorem sumOption_eq_none : ∀ {l : List (Option Int)}, none ∈ l → sumOption l = none
  | none :: l, _ => rfl
  | some x :: l, h => by
    have rest := sumOption_eq_none (List.mem_of_ne_of_mem (by simp) h)
    simp only [sumOption, rest]

theorem exactGross_eq_some {l : List AxleLine} (h : ∀ a ∈ l, a.load ≠ none ∧ hasQual a.quals .overcap = false) :
    exactGross l = some (sumInt (l.map fun a => a.load.getD 0)) := by
  have fine : (l.any fun a => hasQual a.quals .overcap) = false := by
    rw [List.any_eq_false]
    exact fun a ha => by simp [(h a ha).2]
  have loads : ∀ x ∈ l.map (·.load), x ≠ none := by
    simpa using fun a ha => (h a ha).1
  rw [exactGross, fine, if_neg (by decide), sumOption_eq_some loads, List.map_map]
  rfl

theorem exactGross_eq_none {l : List AxleLine} (h : ∃ a ∈ l, a.load = none ∨ hasQual a.quals .overcap = true) :
    exactGross l = none := by
  obtain ⟨a, ha, load | heavy⟩ := h
  · have missing : none ∈ l.map (·.load) := List.mem_map.mpr ⟨a, ha, load⟩
    rw [exactGross]
    split
    · rfl
    · exact sumOption_eq_none missing
  · rw [exactGross, if_pos (List.any_eq_true.mpr ⟨a, ha, heavy⟩)]

/-- Without an exact gross a record has no value. -/
theorem valuesOf_none {l : List AxleLine} (h : exactGross l = none) (e : Nat) (tare : Option Nat) : valuesOf e tare l = Values.none := by
  simp only [valuesOf, h]
  rfl

/-- The exact gross, the reported gross and the net (R135). -/
theorem valuesOf_some {l : List AxleLine} {x : Int} (h : exactGross l = some x) (e : Nat) (tare : Option Nat) :
    (valuesOf e tare l).exact = some x ∧ (valuesOf e tare l).reported = some (roundDiv x e * e) ∧
      (valuesOf e tare l).net = tare.map fun n : Nat => roundDiv x e * e - (n : Int) := by
  simp only [valuesOf, h, reportedGross, Option.map_some, true_and]
  cases tare <;> rfl

/-! ### CERTIFIED (R136) -/

/-- The twelve disqualifying qualifiers. -/
def disqualifyingList : List Qual := [.single, .disagree, .shared, .outOfBand, .uneven, .interpolated, .suspect, .overcap,
  .notWeighed, .unclassified, .incomplete, .unverified]

theorem and_disqualifying_eq_zero {x : QualSet} : x &&& disqualifying = 0 ↔ ∀ q ∈ disqualifyingList, hasQual x q = false := by
  have bits : disqualifyingList.map qualNum = List.range 12 := by decide
  have mask : ∀ i, disqualifying.getLsbD i = decide (i < 12) := fun i => by
    by_cases h : i < 32
    · revert i; decide
    · rw [BitVec.getLsbD_of_ge _ _ (by omega)]
      simp; omega
  have numbers : (∀ q ∈ disqualifyingList, hasQual x q = false) ↔ ∀ i < 12, x.getLsbD i = false := by
    have all := List.forall_mem_map (f := qualNum) (l := disqualifyingList) (P := fun i => x.getLsbD i = false)
    rw [bits] at all
    simpa [hasQual] using all.symm
  rw [numbers]
  constructor
  · intro h i hi
    have bit := congrArg (·.getLsbD i) h
    simpa [mask, hi] using bit
  · intro h
    refine BitVec.eq_of_getLsbD_eq fun i _ => ?_
    rw [BitVec.getLsbD_and, mask]
    by_cases hi : i < 12
    · simp [h i hi]
    · simp [hi]

/-- CERTIFIED, decided (R136). -/
theorem certify_certified {w : Wagon} : w.certify.certified = true ↔
    (w.state = .complete ∨ w.state = .final) ∧ ∀ q ∈ disqualifyingList, hasQual w.quals q = false := by
  simp only [Wagon.certify, Bool.and_eq_true, Bool.or_eq_true, decide_eq_true_eq, and_disqualifying_eq_zero]

/-! ### The notice of an axle (R134, R138 to R140) -/

/-- A record that takes its values afresh, in a state that may be CERTIFIED. -/
theorem recompute_eq {s : State} {w : Wagon} (h : w.state = .complete ∨ w.state = .final) : recompute s w = { w with
    values := valuesOf s.cal.working.interval.toNat w.snapshot.tare w.axles
    certified := decide (w.quals &&& disqualifying = 0)
    verdicts := limitVerdicts s.settings { w with values := valuesOf s.cal.working.interval.toNat w.snapshot.tare w.axles } } := by
  have decided : (decide (w.state = .complete) || decide (w.state = .final)) = true := by simpa using h
  simp only [recompute, Wagon.certify, decided, Bool.true_and]
  rfl

/-- A completion, with the record it leaves (R135, R138). -/
theorem complete_record (t k : Nat) (w : Wagon) (s : State) : complete t k w s =
    (fun x : Wagon => reportCompletion t x.verdicts.hold (putSlot k x s)) { w with
      state := .complete, completion := some t
      values := valuesOf s.cal.working.interval.toNat w.snapshot.tare w.axles
      certified := decide (w.quals &&& disqualifying = 0)
      verdicts := limitVerdicts s.settings { w with values := valuesOf s.cal.working.interval.toNat w.snapshot.tare w.axles } } := by
  simp only [complete]
  rw [recompute_eq (w := { w with state := .complete, completion := some t }) (Or.inl rfl)]
  rfl

/-- A record with the line of one axle of its vehicle filled. -/
def filled (i : Nat) (a : Axle) (w : Wagon) : Wagon :=
  { w with axles := updateAt (fun _ => a.line) (i - w.firstAxle.getD 0) w.axles }

theorem axlesOfRecord_filled (s : State) (i : Nat) (a : Axle) (w : Wagon) :
    s.axlesOfRecord (filled i a w) = s.axlesOfRecord w := by simp [State.axlesOfRecord, filled]

theorem noticeRecord_weighing {w : Wagon} (h : w.state = .weighing) (t i k : Nat) (a : Axle) (s : State) :
    noticeRecord t i a k w s = if (s.axlesOfRecord w).all (·.settled) then complete t k (filled i a w) s
      else putSlot k (filled i a w) s := by
  rw [← axlesOfRecord_filled s i a w]
  simp only [noticeRecord, filled, h]

theorem noticeRecord_complete {w : Wagon} (h : w.state = .complete) (t i k : Nat) (a : Axle) (s : State) :
    noticeRecord t i a k w s = if a.settled then putSlot k (recompute s (filled i a w)) s
      else putSlot k { (filled i a w).clearValues with state := .weighing } s := by
  simp only [noticeRecord, filled, h]

theorem noticeRecord_other {w : Wagon} (h1 : w.state ≠ .weighing) (h2 : w.state ≠ .complete) (t i k : Nat) (a : Axle) (s : State) :
    noticeRecord t i a k w s = s := by
  cases h : w.state with
  | weighing => exact absurd h h1
  | complete => exact absurd h h2
  | final => simp only [noticeRecord, h]
  | expected => simp only [noticeRecord, h]
  | missing => simp only [noticeRecord, h]

/-- Settles O40. -/
theorem valuesAndCertificationFollowTheAxleList : Obligations.ValuesAndCertificationFollowTheAxleList := by
  refine ⟨fun e tare l he => ⟨fun bad => valuesOf_none (exactGross_eq_none bad) e tare, fun fine => ?_⟩,
    fun w => certify_certified, fun s t i k a w => ⟨fun weighing settled => ?_, fun weighing waits => ?_,
      fun complete unsettled => ?_, fun complete settled => ?_, fun weighing complete => noticeRecord_other weighing complete t i k a s⟩⟩
  · obtain ⟨exact, reported, net⟩ := valuesOf_some (exactGross_eq_some fine) e tare
    obtain ⟨near, half⟩ := roundDiv_nearest he (sumInt (l.map fun a => a.load.getD 0))
    exact ⟨_, _, exact, rfl, reported, Int.mul_emod_left _ _, near, half, net⟩
  · rw [noticeRecord_weighing weighing, if_pos (List.all_eq_true.mpr settled), complete_record]
    rfl
  · obtain ⟨b, hb, unsettled⟩ := waits
    rw [noticeRecord_weighing weighing, if_neg fun all => by
      rw [List.all_eq_true.mp all b hb] at unsettled
      exact absurd unsettled (by decide)]
    rfl
  · rw [noticeRecord_complete complete, if_neg (by simp [unsettled])]
    rfl
  · rw [noticeRecord_complete complete, if_pos settled, recompute_eq (w := filled i a w) (Or.inl complete)]
    rfl

end Sys2Proof.Machine
end

