-- ==== Sys2Proof/Proofs/Binding.lean ====
section
/-! PROOFS. The binding and the dissolution of a vehicle (R130 to R133, R141, R147). -/

namespace Sys2Proof.Machine

/-! ### A record that takes a vehicle (R130 to R132) -/

/-- The register record of an optional fleet number (R131). -/
theorem lookupOpt_eq (s : State) (f : Option Nat) : s.lookupOpt f = (f.bind (tget s.wrg.records)).map (·.fields) := by
  cases f <;> rfl

/-- The record that takes a vehicle, field by field. -/
theorem takeVehicle_eq (s : State) (v : Vehicle) (x : Wagon) : takeVehicle s v x = { x with
    kind := some v.kind, cls := v.cls, firstAxle := some v.first, segMismatch := v.mismatch, certified := false
    axles := ((s.axt.train.drop v.first).take v.count).map Axle.line
    snapshot :=
      { cls := (s.lookupOpt x.fleet).bind (·.cls), tare := (s.lookupOpt x.fleet).bind (·.tare)
        maxAxle := (s.classOf v.cls).map (·.maxAxle)
        maxGross := ((s.lookupOpt x.fleet).bind (·.maxGross)).orElse fun _ => (s.classOf v.cls).map (·.maxGross) }
    own := { x.own with unknownWagon := if x.fleet.isSome then (s.lookupOpt x.fleet).isNone else x.own.unknownWagon
                        noIdentity := x.own.noIdentity || x.fleet.isNone }
    verdicts := (takeVehicle s v x).verdicts } := rfl

/-- The verdict HOLD of a bound record (R132). -/
theorem takeVehicle_hold {s : State} {v : Vehicle} {x : Wagon} : (takeVehicle s v x).verdicts.hold = true ↔
    v.kind = .wagon ∧ ∃ r, s.lookupOpt x.fleet = some r ∧ hasFlag r.flags .hold = true := by
  show (decide (some v.kind = some Kind.wagon) && _) = true ↔ _
  rw [Bool.and_eq_true, decide_eq_true_eq, Option.some_inj]
  cases s.lookupOpt x.fleet <;> simp

/-- The verdict CLASS_MISMATCH of a bound record (R132). -/
theorem takeVehicle_classMismatch {s : State} {v : Vehicle} {x : Wagon} : (takeVehicle s v x).verdicts.classMismatch = true ↔
    v.kind = .wagon ∧ (v.mismatch = true ∨ ∃ c, (s.lookupOpt x.fleet).bind (·.cls) = some c ∧ v.cls ≠ some c) := by
  show (decide (some v.kind = some Kind.wagon) && (v.mismatch || classDiffers _)) = true ↔ _
  rw [Bool.and_eq_true, decide_eq_true_eq, Option.some_inj, Bool.or_eq_true, classDiffers]
  show _ ∧ (_ ∨ (match (s.lookupOpt x.fleet).bind (·.cls) with | none => false | some c => decide (v.cls ≠ some c)) = true) ↔ _
  cases (s.lookupOpt x.fleet).bind (·.cls) <;> simp

/-- What a record takes of a vehicle has nothing to do with the passage table. -/
theorem takeVehicle_setPtb (s : State) (x : Ptb) (v : Vehicle) (w : Wagon) : takeVehicle (s.setPtb x) v w = takeVehicle s v w := rfl

/-! ### The counts of the open entry (R147) -/

/-- The open entry with other counts of recorded, unrecorded and TRACTION vehicles. -/
def countedDirectory (recorded unrecorded traction : Nat → Nat) (l : List DirEntry) : List DirEntry :=
  l.map fun e => if e.close = none then
    { e with recorded := recorded e.recorded, unrecorded := unrecorded e.unrecorded, traction := traction e.traction } else e

/-- A count of TRACTION vehicles. -/
def tractionCount (f : Nat → Nat) (v : Vehicle) (n : Nat) : Nat := if v.kind = .traction then f n else n

theorem countTraction_counted (f : Nat → Nat) (v : Vehicle) (s : State) :
    countTraction f v s = s.setDirectory (countedDirectory id id (tractionCount f v) s.ptb.directory) := by
  unfold countTraction countedDirectory tractionCount
  split
  · simp only [updOpenEntry, Option.isNone_iff_eq_none]
    rfl
  · have same : s.ptb.directory.map (fun e => if e.close = none then
        { e with recorded := id e.recorded, unrecorded := id e.unrecorded, traction := e.traction } else e) = s.ptb.directory := by
      simp
    rw [same]
    rfl

theorem updOpenEntry_eq (f : DirEntry → DirEntry) (s : State) :
    updOpenEntry f s = s.setDirectory (s.ptb.directory.map fun e => if e.close = none then f e else e) := by
  simp only [updOpenEntry, Option.isNone_iff_eq_none]

/-- One more or one fewer recorded vehicle. -/
theorem recorded_countTraction (f g : Nat → Nat) (v : Vehicle) (s : State) :
    updOpenEntry (fun e => { e with recorded := f e.recorded }) (countTraction g v s) =
      s.setDirectory (countedDirectory f id (tractionCount g v) s.ptb.directory) := by
  rw [countTraction_counted, updOpenEntry_eq]
  show s.setDirectory ((countedDirectory _ _ _ _).map _) = _
  congr 1
  rw [countedDirectory, List.map_map, countedDirectory]
  refine List.map_congr_left fun e _ => ?_
  by_cases opened : e.close = none <;> simp [opened]

/-- One more or one fewer unrecorded vehicle. -/
theorem unrecorded_countTraction (f g : Nat → Nat) (v : Vehicle) (s : State) :
    updOpenEntry (fun e => { e with unrecorded := f e.unrecorded }) (countTraction g v s) =
      s.setDirectory (countedDirectory id f (tractionCount g v) s.ptb.directory) := by
  rw [countTraction_counted, updOpenEntry_eq]
  show s.setDirectory ((countedDirectory _ _ _ _).map _) = _
  congr 1
  rw [countedDirectory, List.map_map, countedDirectory]
  refine List.map_congr_left fun e _ => ?_
  by_cases opened : e.close = none <;> simp [opened]

/-! ### A record bound to a vehicle (R130, R135) -/

/-- The record that a completion leaves. -/
def completed (s : State) (t : Nat) (w : Wagon) : Wagon := recompute s { w with state := .complete, completion := some t }

theorem completed_eq (s : State) (t : Nat) (w : Wagon) : completed s t w = { w with
    state := .complete, completion := some t
    values := valuesOf s.cal.working.interval.toNat w.snapshot.tare w.axles
    certified := decide (w.quals &&& disqualifying = 0)
    verdicts := limitVerdicts s.settings { w with values := valuesOf s.cal.working.interval.toNat w.snapshot.tare w.axles } } := by
  rw [completed, recompute_eq (w := { w with state := .complete, completion := some t }) (Or.inl rfl)]
  rfl

/-- A completion gives the limit verdicts afresh, and leaves those of the identity, which a TRACTION record has not. -/
theorem completed_identityVerdicts (s : State) (t : Nat) (v : Vehicle) (x : Wagon) :
    (completed s t (takeVehicle s v x)).verdicts.hold = (takeVehicle s v x).verdicts.hold ∧
    (completed s t (takeVehicle s v x)).verdicts.classMismatch = (takeVehicle s v x).verdicts.classMismatch := by
  have kind : (takeVehicle s v x).kind = some v.kind := rfl
  rw [completed_eq]
  simp only [limitVerdicts, kind]
  by_cases wagon : v.kind = .wagon
  · simp [wagon]
  · have hold : (takeVehicle s v x).verdicts.hold = false := Bool.eq_false_iff.mpr fun h => wagon (takeVehicle_hold.mp h).1
    have mismatch : (takeVehicle s v x).verdicts.classMismatch = false :=
      Bool.eq_false_iff.mpr fun h => wagon (takeVehicle_classMismatch.mp h).1
    simp [wagon, hold, mismatch, Verdicts.none]

/-- Is every axle of a vehicle settled. -/
def vehicleSettled (s : State) (v : Vehicle) : Bool := ((s.axt.train.drop v.first).take v.count).all (·.settled)

theorem vehicleSettled_iff {s : State} {v : Vehicle} :
    vehicleSettled s v = true ↔ ∀ a ∈ (s.axt.train.drop v.first).take v.count, a.settled = true := List.all_eq_true

/-- The record that is bound to a vehicle: COMPLETE when every axle is settled, else WEIGHING. -/
def boundRecord (s : State) (t : Nat) (v : Vehicle) (x : Wagon) : Wagon :=
  if vehicleSettled s v then completed s t (takeVehicle s v x) else { takeVehicle s v x with state := .weighing }

/-- The directory with one more bound vehicle. -/
def State.withBound (s : State) (v : Vehicle) : State :=
  s.setDirectory (countedDirectory (· + 1) id (tractionCount (· + 1) v) s.ptb.directory)

theorem bindRecord_bound (t k : Nat) (v : Vehicle) (x : Wagon) (s : State) : bindRecord t k v x (countTraction (· + 1) v s) =
    if vehicleSettled s v then
      reportCompletion t (boundRecord s t v x).verdicts.hold (putSlot k (boundRecord s t v x) (s.withBound v))
    else putSlot k (boundRecord s t v x) (s.withBound v) := by
  have counted := recorded_countTraction (· + 1) (· + 1) v s
  have vehicle : takeVehicle (countTraction (· + 1) v s) v x = takeVehicle s v x := by rw [countTraction_counted]; rfl
  unfold bindRecord boundRecord
  rw [vehicle, counted]
  show (if vehicleSettled s v then _ else _) = _
  by_cases settled : vehicleSettled s v = true
  · simp only [settled, if_true]
    rfl
  · simp only [if_neg settled]
    rfl

/-- A record is bound to a vehicle at a time: it has the vehicle's axles and its own identity, and is COMPLETE with its values
when every axle is settled, else WEIGHING without (R130 to R132, R135). -/
def BoundTo (s : State) (t : Nat) (v : Vehicle) (x w : Wagon) : Prop :=
  w.snapshot = (takeVehicle s v x).snapshot ∧ w.own = (takeVehicle s v x).own ∧
  w.axles = (takeVehicle s v x).axles ∧ w.fleet = x.fleet ∧ w.position = x.position ∧ w.passage = x.passage ∧
  w.origin = x.origin ∧ w.kind = some v.kind ∧ w.cls = v.cls ∧ w.firstAxle = some v.first ∧
  w.verdicts.hold = (takeVehicle s v x).verdicts.hold ∧
  w.verdicts.classMismatch = (takeVehicle s v x).verdicts.classMismatch ∧
  ((∀ a ∈ (s.axt.train.drop v.first).take v.count, a.settled = true) → w.state = .complete ∧ w.completion = some t ∧
    w.values = valuesOf s.cal.working.interval.toNat w.snapshot.tare w.axles ∧
    w.certified = decide (w.quals &&& disqualifying = 0)) ∧
  (¬ (∀ a ∈ (s.axt.train.drop v.first).take v.count, a.settled = true) →
    w.state = .weighing ∧ w.values = x.values ∧ w.completion = x.completion ∧ w.certified = false)

theorem boundRecord_boundTo (s : State) (t : Nat) (v : Vehicle) (x : Wagon) : BoundTo s t v x (boundRecord s t v x) := by
  obtain ⟨hold, mismatch⟩ := completed_identityVerdicts s t v x
  by_cases settled : vehicleSettled s v = true
  · have record : boundRecord s t v x = completed s t (takeVehicle s v x) := if_pos settled
    have kept := completed_eq s t (takeVehicle s v x)
    rw [record]
    generalize completed s t (takeVehicle s v x) = w at kept hold mismatch
    subst kept
    exact ⟨rfl, rfl, rfl, rfl, rfl, rfl, rfl, rfl, rfl, rfl, hold, mismatch, fun _ => ⟨rfl, rfl, rfl, rfl⟩,
      fun h => absurd (vehicleSettled_iff.mp settled) h⟩
  · have record : boundRecord s t v x = { takeVehicle s v x with state := .weighing } := if_neg settled
    rw [record]
    exact ⟨rfl, rfl, rfl, rfl, rfl, rfl, rfl, rfl, rfl, rfl, rfl, rfl, fun h => absurd (vehicleSettled_iff.mpr h) settled,
      fun _ => ⟨rfl, rfl, rfl, rfl⟩⟩

theorem boundRecord_calCounter (s : State) (t : Nat) (v : Vehicle) (x : Wagon) :
    (boundRecord s t v x).calCounter = x.calCounter := by
  unfold boundRecord
  split
  · rw [completed_eq]
    rfl
  · rfl

/-- What a binding leaves of the state. -/
theorem bindRecord_frame (t k : Nat) (v : Vehicle) (x : Wagon) (s : State) :
    bindRecord t k v x (countTraction (· + 1) v s) = (s.setPtb { s.ptb with
      slots := tput s.ptb.slots k (boundRecord s t v x)
      directory := countedDirectory (· + 1) id (tractionCount (· + 1) v) s.ptb.directory }).setFau
        (bindRecord t k v x (countTraction (· + 1) v s)).fau := by
  rw [bindRecord_bound]
  split
  · rw [reportCompletion_eq]
    rfl
  · rfl

theorem bindRecord_fau (t k : Nat) (v : Vehicle) (x : Wagon) (s : State) :
    (vehicleSettled s v = true → (bindRecord t k v x (countTraction (· + 1) v s)).fau =
      (countCompletion t (if (boundRecord s t v x).verdicts.hold then raiseAtt .hold s else s)).fau) ∧
    (¬ vehicleSettled s v = true → (bindRecord t k v x (countTraction (· + 1) v s)).fau = s.fau) := by
  rw [bindRecord_bound]
  refine ⟨fun settled => ?_, fun waits => ?_⟩
  · rw [if_pos settled]
    generalize (boundRecord s t v x).verdicts.hold = hold
    rw [reportCompletion, countCompletion_fau, countCompletion_fau]
    cases hold <;> rfl
  · rw [if_neg waits]
    rfl

/-! ### Binding at a position (R130, R133) -/

/-- In a part that has started an occurrence is taken at once (R179). -/
theorem reportFault_started {s : State} (h : s.condition ≠ .starting) (o : FaultOcc) : reportFault o s = takeFault o s := by
  rw [reportFault, State.started, if_pos (decide_eq_true h)]

/-- What an occurrence does to the FAU depends on the FAU and the fault mask. -/
theorem takeFault_fau_congr {s u : State} (fau : u.fau = s.fau) (settings : u.settings = s.settings) (o : FaultOcc) :
    (takeFault o u).fau = (takeFault o s).fau := by
  rw [takeFault_fau, takeFault_fau, fau, settings]

theorem recordAt_countTraction (f : Nat → Nat) (v : Vehicle) (s : State) (n : Option Nat) (p : Nat) :
    (countTraction f v s).recordAt n p = s.recordAt n p := by rw [countTraction_counted]; rfl

theorem freeSlot_countTraction (f : Nat → Nat) (v : Vehicle) (s : State) : (countTraction f v s).freeSlot = s.freeSlot := by
  rw [countTraction_counted]; rfl

theorem openNumber_countTraction (f : Nat → Nat) (v : Vehicle) (s : State) : (countTraction f v s).openNumber = s.openNumber := by
  rw [countTraction_counted]; rfl

theorem bindVehicle_found {s : State} {p k : Nat} {x : Wagon} (h : s.recordAt s.openNumber p = some (k, x)) (t : Nat) (v : Vehicle) :
    bindVehicle t p v s = bindRecord t k v x (countTraction (· + 1) v s) := by
  simp only [bindVehicle, openNumber_countTraction, recordAt_countTraction, h]

/-- The record that a binding makes where none stands. -/
theorem newOpenRecord_countTraction {s : State} {e : DirEntry} (h : s.ptb.directory.find? (fun e => e.close.isNone) = some e)
    (f : Nat → Nat) (v : Vehicle) (o : Origin) (p : Nat) : (countTraction f v s).newOpenRecord o p =
      { Wagon.blank o s.openNumber p with
        calCounter := some e.calCounter, own := { OwnQuals.none with unverified := e.unverified } } := by
  have same : ((fun e : DirEntry => e.close.isNone) ∘ fun e : DirEntry => if e.close = none then
      { e with recorded := id e.recorded, unrecorded := id e.unrecorded, traction := tractionCount f v e.traction } else e) =
        fun e => e.close.isNone := by
    funext e
    by_cases opened : e.close = none <;> simp [opened]
  have entry : (countTraction f v s).openEntry = some { e with traction := tractionCount f v e.traction } := by
    have opened : e.close = none := by simpa using List.find?_some h
    rw [countTraction_counted]
    show (countedDirectory _ _ _ _).find? _ = _
    rw [countedDirectory, List.find?_map, same, h]
    simp [opened]
  simp only [State.newOpenRecord, entry, openNumber_countTraction]
  rfl

theorem bindVehicle_new {s : State} {p k : Nat} (absent : s.recordAt s.openNumber p = none) (free : s.freeSlot = some k) {e : DirEntry}
    (entry : s.ptb.directory.find? (fun e => e.close.isNone) = some e) (t : Nat) (v : Vehicle) : bindVehicle t p v s =
      evalPermit (bindRecord t k v { Wagon.blank .table s.openNumber p with
        calCounter := some e.calCounter
        own := { OwnQuals.none with unverified := e.unverified, noIdentity := true } } (countTraction (· + 1) v s)) := by
  simp only [bindVehicle, openNumber_countTraction, recordAt_countTraction, absent, freeSlot_countTraction, free,
    newOpenRecord_countTraction entry]

theorem bindVehicle_unrecorded {s : State} {p : Nat} (absent : s.recordAt s.openNumber p = none) (full : s.freeSlot = none) (t : Nat)
    (v : Vehicle) : bindVehicle t p v s = reportFault (s.occNow .tableFull t (some .slots) (some (.number p)))
      (s.setDirectory (countedDirectory id (· + 1) (tractionCount (· + 1) v) s.ptb.directory)) := by
  simp only [bindVehicle, openNumber_countTraction, recordAt_countTraction, absent, freeSlot_countTraction, full, bindUnrecorded]
  rw [unrecorded_countTraction (· + 1), countTraction_counted]
  rfl

/-- A binding changes the passage table and the FAU only. -/
theorem bindVehicle_rest (t p : Nat) (v : Vehicle) (s : State) : (bindVehicle t p v s).axt = s.axt ∧
    (bindVehicle t p v s).seg = s.seg ∧ (bindVehicle t p v s).wrg = s.wrg ∧ (bindVehicle t p v s).meu = s.meu := by
  have bound : ∀ k x, (bindRecord t k v x (countTraction (· + 1) v s)).axt = s.axt ∧
      (bindRecord t k v x (countTraction (· + 1) v s)).seg = s.seg ∧
      (bindRecord t k v x (countTraction (· + 1) v s)).wrg = s.wrg ∧ (bindRecord t k v x (countTraction (· + 1) v s)).meu = s.meu := by
    intro k x
    rw [bindRecord_frame]
    exact ⟨rfl, rfl, rfl, rfl⟩
  cases found : s.recordAt s.openNumber p with
  | some r =>
    rw [bindVehicle_found found]
    exact bound _ _
  | none =>
    cases free : s.freeSlot with
    | some k =>
      simp only [bindVehicle, openNumber_countTraction, recordAt_countTraction, found, freeSlot_countTraction, free]
      rw [evalPermit_eq]
      exact bound _ _
    | none =>
      rw [bindVehicle_unrecorded found free, reportFault_eq]
      exact ⟨rfl, rfl, rfl, rfl⟩

/-! ### Dissolution (R141) -/

theorem dissolveVehicle_none {s : State} {p : Nat} (h : s.recordAt s.openNumber p = none) (v : Vehicle) : dissolveVehicle p v s =
    s.setDirectory (countedDirectory id (· - 1) (tractionCount (· - 1) v) s.ptb.directory) := by
  simp only [dissolveVehicle, openNumber_countTraction, recordAt_countTraction, h]
  exact unrecorded_countTraction (· - 1) (· - 1) v s

theorem dissolveVehicle_expectation {s : State} {p k : Nat} {w : Wagon} (h : s.recordAt s.openNumber p = some (k, w))
    (o : w.origin = .expectation) (v : Vehicle) : dissolveVehicle p v s = putSlot k (toExpected s w)
      (s.setDirectory (countedDirectory (· - 1) id (tractionCount (· - 1) v) s.ptb.directory)) := by
  simp only [dissolveVehicle, openNumber_countTraction, recordAt_countTraction, h, o]
  rw [recorded_countTraction (· - 1)]
  rfl

theorem dissolveVehicle_table {s : State} {p k : Nat} {w : Wagon} (h : s.recordAt s.openNumber p = some (k, w))
    (o : w.origin = .table) (v : Vehicle) : dissolveVehicle p v s = evalPermit (s.setPtb { s.ptb with
      slots := tdel s.ptb.slots k
      directory := countedDirectory (· - 1) id (tractionCount (· - 1) v) s.ptb.directory }) := by
  simp only [dissolveVehicle, openNumber_countTraction, recordAt_countTraction, h, o]
  rw [recorded_countTraction (· - 1)]
  rfl

/-- A dissolution changes the passage table and the FAU only. -/
theorem dissolveVehicle_rest (p : Nat) (v : Vehicle) (s : State) : (dissolveVehicle p v s).axt = s.axt ∧
    (dissolveVehicle p v s).seg = s.seg ∧ (dissolveVehicle p v s).wrg = s.wrg ∧ (dissolveVehicle p v s).meu = s.meu := by
  cases found : s.recordAt s.openNumber p with
  | none =>
    rw [dissolveVehicle_none found]
    exact ⟨rfl, rfl, rfl, rfl⟩
  | some r =>
    cases o : r.2.origin with
    | expectation =>
      rw [dissolveVehicle_expectation found o]
      exact ⟨rfl, rfl, rfl, rfl⟩
    | table =>
      rw [dissolveVehicle_table found o, evalPermit_eq]
      exact ⟨rfl, rfl, rfl, rfl⟩

/-! ### The obligation -/

/-- Settles O36: field by field, from the record a vehicle takes, the bound record and the counted directory. -/
theorem vehiclesAreBoundToRecords : Obligations.VehiclesAreBoundToRecords := by
  refine ⟨fun s v x => ?_, fun s t p v => ?_, fun s p v => ?_, fun o n p => ⟨rfl, rfl, rfl, rfl, rfl, rfl, rfl, rfl, rfl, rfl⟩⟩
  · have hold := takeVehicle_hold (s := s) (v := v) (x := x)
    have mismatch := takeVehicle_classMismatch (s := s) (v := v) (x := x)
    have record := takeVehicle_eq s v x
    rw [lookupOpt_eq] at hold mismatch record
    rw [record]
    refine ⟨rfl, rfl, rfl, rfl, rfl, rfl, rfl, rfl, rfl, rfl, rfl, rfl, ?_, hold, mismatch⟩
    cases x.fleet <;> rfl
  · obtain ⟨axt, seg, wrg, meu⟩ := bindVehicle_rest t p v s
    refine ⟨axt, seg, wrg, meu, fun k x found => ?_, fun k e absent free entry waters => ?_, fun absent full ready => ?_⟩
    · have frame := bindRecord_frame t k v x s
      obtain ⟨settles, waits⟩ := bindRecord_fau t k v x s
      rw [bindVehicle_found found]
      refine ⟨boundRecord s t v x, boundRecord_boundTo s t v x, ?_, ?_, fun settled => settles (vehicleSettled_iff.mpr settled),
        fun unsettled => waits (mt vehicleSettled_iff.mp unsettled)⟩
      · exact congrArg (fun u : State => u.ptb.slots) frame
      · exact congrArg (fun u : State => u.ptb.directory) frame
    · rw [bindVehicle_new absent free entry]
      generalize hx : ({ Wagon.blank .table s.openNumber p with
        calCounter := some e.calCounter
        own := { OwnQuals.none with unverified := e.unverified, noIdentity := true } } : Wagon) = x
      have frame := bindRecord_frame t k v x s
      have counter : x.calCounter = some e.calCounter := by rw [← hx]
      refine ⟨boundRecord s t v x, boundRecord_boundTo s t v x, (boundRecord_calCounter s t v x).trans counter, ?_, ?_,
        evalPermit_permitOk ?_⟩
      · exact (evalPermit_slots _).trans (congrArg (fun u : State => u.ptb.slots) frame)
      · exact (evalPermit_directory _).trans (congrArg (fun u : State => u.ptb.directory) frame)
      · rw [frame]
        exact waters
    · have started : s.condition ≠ .starting := by rw [ready]; decide
      have taken := fun l => reportFault_started (s := s.setDirectory l) started
      rw [bindVehicle_unrecorded absent full, taken]
      refine ⟨?_, ?_, takeFault_fau_congr (by rfl) (by rfl) _⟩
      · rw [takeFault_eq]
        rfl
      · rw [takeFault_eq]
        rfl
  · obtain ⟨axt, seg, wrg, meu⟩ := dissolveVehicle_rest p v s
    refine ⟨axt, seg, wrg, meu, fun absent => ?_, fun k w found => ⟨?_, fun o => ?_, fun o => ?_⟩⟩
    · rw [dissolveVehicle_none absent]
      exact ⟨rfl, rfl⟩
    · cases o : w.origin with
      | expectation =>
        rw [dissolveVehicle_expectation found o]
        rfl
      | table =>
        rw [dissolveVehicle_table found o, evalPermit_directory]
        rfl
    · rw [dissolveVehicle_expectation found o]
      simp only [toExpected, o]
      rfl
    · rw [dissolveVehicle_table found o, evalPermit_slots]
      exact ⟨rfl, fun waters => evalPermit_permitOk waters⟩

end Sys2Proof.Machine
end

