-- ==== Sys2Proof/Proofs/Finalisation.lean ====
section
/-! PROOFS. Passage updates of the register and the finalisation of a passage (R144 to R146, R163, R164). -/

namespace Sys2Proof.Machine

/-! ### A passage update (R163, R164) -/

theorem getLsbD_flagSet (f g : RegFlag) : (flagSet f).getLsbD (flagNum g) = decide (f = g) := by
  cases f <;> cases g <;> decide

theorem hasFlag_or_flagSet (x : Byte) (f g : RegFlag) : hasFlag (x ||| flagSet f) g = (hasFlag x g || decide (f = g)) := by
  rw [hasFlag, BitVec.getLsbD_or, getLsbD_flagSet]
  rfl

theorem hasFlag_and_not_flagSet (x : Byte) (f g : RegFlag) :
    hasFlag (x &&& ~~~ flagSet f) g = (hasFlag x g && !decide (f = g)) := by
  have width : flagNum g < 8 := by cases g <;> decide
  rw [hasFlag, BitVec.getLsbD_and, BitVec.getLsbD_not, getLsbD_flagSet]
  simp [width, hasFlag]

/-- A record before its tare learning: the count, the last gross and passage, and OVERLOAD_SEEN. -/
def weighed (gross : Int) (n : Option Nat) (v : Verdicts) (r : RegFields) : RegFields :=
  { r with weighCount := satSucc 65535 r.weighCount, lastGross := some gross, lastPassage := n
           flags := if v.overload || v.axleOverload then r.flags ||| flagSet .overloadSeen else r.flags }

theorem passageUpdate_eq (gross : Int) (n : Option Nat) (v : Verdicts) (cert : Bool) (r : RegFields) :
    passageUpdate gross n v cert r = learnTare gross cert (weighed gross n v r) := rfl

theorem weighed_flag (gross : Int) (n : Option Nat) (v : Verdicts) (r : RegFields) (f : RegFlag) :
    hasFlag (weighed gross n v r).flags f =
      (hasFlag r.flags f || (decide (f = .overloadSeen) && (v.overload || v.axleOverload))) := by
  rw [weighed]
  cases v.overload || v.axleOverload
  · simp
  · simp [hasFlag_or_flagSet, eq_comm]

/-- Does a passage update learn a tare (R164). -/
def Learns (gross : Int) (cert : Bool) (r : RegFields) : Prop :=
  hasFlag r.flags .learnTare = true ∧ cert = true ∧ 0 ≤ gross ∧ gross ≤ 200000

theorem learnTare_learns {gross : Int} {cert : Bool} {r : RegFields} (h : Learns gross cert r) : learnTare gross cert r =
    { r with tare := some gross.toNat, flags := r.flags &&& ~~~(flagSet .learnTare) } := by
  obtain ⟨flag, certified, low, high⟩ := h
  rw [learnTare, if_pos (by simp [flag, certified, low, high])]

theorem learnTare_stands {gross : Int} {cert : Bool} {r : RegFields} (h : ¬ Learns gross cert r) : learnTare gross cert r = r := by
  rw [learnTare, if_neg]
  simpa [Learns, and_assoc] using h

/-! ### The records of a closing passage (R144) -/

theorem finalise_complete {w : Wagon} (h : w.state = .complete) :
    finalise w = { w with state := .final, certified := decide (w.quals &&& disqualifying = 0) } := by
  simp only [finalise, h, Wagon.certify]
  rfl

/-- An INCOMPLETE record is disqualified. -/
theorem incomplete_disqualifies {w : Wagon} (h : w.own.incomplete = true) : ¬ w.quals &&& disqualifying = 0 := by
  have held : hasQual w.quals .incomplete = true := by
    simp [Wagon.quals, OwnQuals.quals, hasQual_or, hasQual_when, h]
  intro none
  rw [and_disqualifying_eq_zero.mp none .incomplete (by decide)] at held
  exact absurd held (by decide)

theorem finalise_weighing {w : Wagon} (h : w.state = .weighing) : finalise w = { w with
      state := .final, values := Values.none, certified := false, completion := none
      own := { w.own with incomplete := true }
      verdicts := { Verdicts.none with hold := w.verdicts.hold, classMismatch := w.verdicts.classMismatch } } := by
  have disqualified := incomplete_disqualifies (w := { w.clearValues with
    state := .final, own := { w.own with incomplete := true } }) rfl
  simp only [finalise, h, Wagon.certify, decide_eq_false disqualified, Bool.and_false]
  rfl

theorem finalise_expected {w : Wagon} (h : w.state = .expected) : finalise w = { w with state := .missing } := by
  simp only [finalise, h]

theorem finalise_other {w : Wagon} (h : w.state = .final ∨ w.state = .missing) : finalise w = w := by
  rcases h with h | h <;> simp only [finalise, h]

/-! ### The finalisation of a passage (R144 to R146) -/

/-- The records of the open passage in their final state. -/
def State.finalised (s : State) : State :=
  s.setSlots (tmap (fun _ w => if w.passage = s.openNumber then finalise w else w) s.ptb.slots)

/-- The records of a closing passage handed to the register in turn. -/
def State.handedOn (s : State) : State := (s.finalised.recordsOf s.openNumber).foldl (fun u r => finalUpdate r.1 u) s.finalised

theorem finalisePassage_eq (t : Nat) (cause : CloseCause) (s : State) : finalisePassage t cause s =
    updOpenEntry (fun e => { e with close := some (t, cause), totals := some (totalsOf s.handedOn) }) s.handedOn := rfl

theorem tget_finalised (s : State) (k : Nat) : tget s.finalised.ptb.slots k =
    (tget s.ptb.slots k).map fun w => if w.passage = s.openNumber then finalise w else w := tget_tmap _ _ _

theorem wf_finalised {s : State} (h : Table.wf s.ptb.slots = true) : Table.wf s.finalised.ptb.slots = true :=
  (wf_tmap _ _).trans h

/-- A record of the open passage, as finalisation leaves it. -/
theorem mem_recordsOf_finalised {s : State} (wf : Table.wf s.ptb.slots = true) {k : Nat} {x : Wagon} :
    (k, x) ∈ s.finalised.recordsOf s.openNumber ↔ ∃ w, tget s.ptb.slots k = some w ∧ w.passage = s.openNumber ∧ x = finalise w := by
  rw [State.recordsOf, mem_sortBy, List.mem_filter, ← tget_eq_some (wf_finalised wf), tget_finalised, Option.map_eq_some_iff,
    decide_eq_true_eq]
  constructor
  · rintro ⟨⟨w, held, rfl⟩, passage⟩
    by_cases h : w.passage = s.openNumber
    · exact ⟨w, held, h, if_pos h⟩
    · simp [h] at passage
  · rintro ⟨w, held, passage, rfl⟩
    exact ⟨⟨w, held, if_pos passage⟩, (finalise_keeps w).2.2.1.trans passage⟩

/-- Is a record of the closing passage handed to the register (R145). -/
def Handed (s : State) (w : Wagon) : Prop :=
  w.passage = s.openNumber ∧ (finalise w).state = .final ∧ (finalise w).values.reported ≠ none ∧
    w.kind = some .wagon ∧ ∃ f, w.fleet = some f ∧ tget s.wrg.records f ≠ none

theorem isHanded_finalise {s : State} {w : Wagon} (h : w.passage = s.openNumber) :
    isHanded s.wrg.records (finalise w) = true ↔ Handed s w := by
  obtain ⟨fleet, kind, -, -⟩ := finalise_keeps w
  simp only [isHanded, fleet, kind, Bool.and_eq_true, decide_eq_true_eq, Handed, h, true_and, Option.isSome_iff_ne_none]
  cases w.fleet <;> simp [and_assoc]

/-- The slots and the register after the records of a closing passage are handed on. -/
theorem handedOn_spec {s : State} (wf : Table.wf s.ptb.slots = true) :
    (∃ sl rc, s.handedOn = (s.finalised.setSlots sl).setRecords rc) ∧
    (∀ k w, tget s.ptb.slots k = some w →
      (w.passage ≠ s.openNumber → tget s.handedOn.ptb.slots k = some w) ∧
      (Handed s w → tget s.handedOn.ptb.slots k = some { finalise w with applied := w.fleet }) ∧
      (w.passage = s.openNumber → ¬ Handed s w → tget s.handedOn.ptb.slots k = some (finalise w))) ∧
    (∀ k, tget s.ptb.slots k = none → tget s.handedOn.ptb.slots k = none) ∧
    (∀ f, (∀ k w, tget s.ptb.slots k = some w → Handed s w → w.fleet ≠ some f) →
      tget s.handedOn.wrg.records f = tget s.wrg.records f) ∧
    (∀ k w f, tget s.ptb.slots k = some w → Handed s w → w.fleet = some f →
      (∀ j v, tget s.ptb.slots j = some v → Handed s v → v.fleet = some f → j = k) →
      tget s.handedOn.wrg.records f = (tget s.wrg.records f).map (RegRec.change (passageUpdate ((finalise w).values.reported.getD 0)
        w.passage (finalise w).verdicts (finalise w).certified))) ∧
    Table.wf s.handedOn.ptb.slots = true := by
  have distinct : ((s.finalised.recordsOf s.openNumber).map (·.1)).Nodup := by
    have rising : s.finalised.ptb.slots.Pairwise (fun a b => a.1 < b.1) := (rising_pairwise (wf_finalised wf)).1
    have perm := (perm_sortBy (fun r : Nat × Wagon => r.2.position)
      (s.finalised.ptb.slots.filter fun r => decide (r.2.passage = s.openNumber))).map (·.1)
    refine perm.nodup_iff.mpr ?_
    rw [List.nodup_iff_pairwise_ne, List.pairwise_map]
    exact (rising.sublist List.filter_sublist).imp Nat.ne_of_lt
  have held : ∀ r ∈ s.finalised.recordsOf s.openNumber, tget s.finalised.ptb.slots r.1 = some r.2 := fun r hr => by
    rw [State.recordsOf, mem_sortBy, List.mem_filter, ← tget_eq_some (wf_finalised wf)] at hr
    exact hr.1
  obtain ⟨shape, slots, others, updated, wf'⟩ := foldl_finalUpdate s.wrg.records (s.finalised.recordsOf s.openNumber) s.finalised
    distinct (fun _ => rfl) held
  have handed : ∀ {k w}, tget s.ptb.slots k = some w → w.passage = s.openNumber →
      ((∃ r ∈ s.finalised.recordsOf s.openNumber, r.1 = k ∧ isHanded s.wrg.records r.2 = true) ↔ Handed s w) := by
    intro k w hw passage
    rw [← isHanded_finalise passage]
    constructor
    · rintro ⟨⟨j, x⟩, mem, rfl, h⟩
      obtain ⟨w', hw', -, rfl⟩ := (mem_recordsOf_finalised wf).mp mem
      rw [Option.some_inj.mp (hw.symm.trans hw')]
      exact h
    · exact fun h => ⟨_, (mem_recordsOf_finalised wf).mpr ⟨w, hw, passage, rfl⟩, rfl, h⟩
  refine ⟨shape, fun k w hw => ⟨fun other => ?_, fun h => ?_, fun passage h => ?_⟩, fun k hk => ?_, fun f hf => ?_,
    fun k w f hw h fleet unique => ?_, wf' (wf_finalised wf)⟩
  · refine (slots k).trans ?_
    rw [if_neg, tget_finalised, hw, Option.map_some, if_neg other]
    rintro ⟨⟨j, x⟩, mem, rfl, -⟩
    obtain ⟨w', hw', passage, -⟩ := (mem_recordsOf_finalised wf).mp mem
    rw [Option.some_inj.mp (hw.symm.trans hw')] at other
    exact other passage
  · refine (slots k).trans ?_
    rw [if_pos ((handed hw h.1).mpr h), tget_finalised, hw, Option.map_some, if_pos h.1, Option.map_some]
    exact congrArg (fun f => some { finalise w with applied := f }) (finalise_keeps w).1
  · refine (slots k).trans ?_
    rw [if_neg (mt (handed hw passage).mp h), tget_finalised, hw, Option.map_some, if_pos passage]
  · refine (slots k).trans ?_
    rw [tget_finalised, hk]
    split <;> rfl
  · refine others f fun r mem h => ?_
    obtain ⟨w, hw, passage, e⟩ := (mem_recordsOf_finalised (k := r.1) (x := r.2) wf).mp mem
    rw [e] at h ⊢
    rw [(finalise_keeps w).1]
    exact hf _ w hw ((isHanded_finalise passage).mp h)
  · have mem := (mem_recordsOf_finalised wf).mpr ⟨w, hw, h.1, rfl⟩
    have update := updated k (finalise w) f mem ((isHanded_finalise h.1).mpr h) ((finalise_keeps w).1.trans fleet) fun r hr hh hf => by
      obtain ⟨v, hv, passage, e⟩ := (mem_recordsOf_finalised (k := r.1) (x := r.2) wf).mp hr
      rw [e] at hh hf
      exact unique _ v hv ((isHanded_finalise passage).mp hh) ((finalise_keeps v).1.symm.trans hf)
    rw [(finalise_keeps w).2.2.1] at update
    exact update

/-! ### The totals (R146) -/

/-- The FINAL records of kind WAGON of the open passage. -/
def State.finalWagons (s : State) : List Wagon := (s.ptb.slots.map (·.2)).filter fun w =>
  decide (w.passage = s.openNumber ∧ w.state = .final ∧ w.kind = some .wagon)

/-- The totals sum over the FINAL records of kind WAGON in any order. -/
theorem finalWagons_perm (s : State) : ((((s.recordsOf s.openNumber).map (·.2)).filter fun w => decide (w.state = .final)).filter
    fun w => decide (w.kind = some .wagon)).Perm s.finalWagons := by
  have perm := (perm_sortBy (fun r : Nat × Wagon => r.2.position)
    (s.ptb.slots.filter fun r => decide (r.2.passage = s.openNumber))).map (·.2)
  have same : (((s.ptb.slots.filter fun r => decide (r.2.passage = s.openNumber)).map (·.2)).filter fun w =>
      decide (w.state = .final)).filter (fun w => decide (w.kind = some .wagon)) = s.finalWagons := by
    have passage : (s.ptb.slots.filter fun r => decide (r.2.passage = s.openNumber)).map (·.2) =
        (s.ptb.slots.map (·.2)).filter fun w => decide (w.passage = s.openNumber) := by rw [List.filter_map]; rfl
    rw [passage, List.filter_filter, List.filter_filter, State.finalWagons]
    refine List.filter_congr fun w _ => ?_
    simp only [Bool.decide_and]
    cases decide (w.passage = s.openNumber) <;> cases decide (w.state = .final) <;> cases decide (w.kind = some .wagon) <;> rfl
  rw [← same]
  exact (perm.filter _).filter _

theorem totalsOf_spec (s : State) :
    (totalsOf s).gross = (s.finalWagons.map fun w => w.values.reported.getD 0).sum +
      ((unrecordedWagons s).map fun v => (unrecordedGross s v).getD 0).sum ∧
    (totalsOf s).net = (s.finalWagons.map fun w => w.values.net.getD 0).sum ∧
    ∀ q : Qual, hasQual (totalsOf s).quals q = true ↔ ∃ r ∈ s.ptb.slots, r.2.passage = s.openNumber ∧ r.2.state = .final ∧
      hasQual r.2.quals q = true := by
  refine ⟨?_, ?_, fun q => ?_⟩
  · rw [totalsOf]
    simp only [sumInt_eq]
    rw [sum_perm ((finalWagons_perm s).map _)]
  · rw [totalsOf]
    simp only [sumInt_eq]
    rw [sum_perm ((finalWagons_perm s).map _)]
  · rw [totalsOf]
    simp only [hasQual_union, List.mem_map, List.mem_filter, State.recordsOf, mem_sortBy, decide_eq_true_eq]
    constructor
    · rintro ⟨a, ⟨w, ⟨⟨r, ⟨mem, passage⟩, rfl⟩, final⟩, rfl⟩, held⟩
      exact ⟨r, mem, passage, final, held⟩
    · rintro ⟨r, mem, passage, final, held⟩
      exact ⟨_, ⟨r.2, ⟨⟨r, ⟨mem, passage⟩, rfl⟩, final⟩, rfl⟩, held⟩

/-- Settles O44. -/
theorem passageUpdatesTheRegister : Obligations.PassageUpdatesTheRegister := by
  refine ⟨fun gross n v cert r => ?_, fun w => ⟨finalise_complete, finalise_weighing, finalise_expected, finalise_other⟩,
    fun t cause s wf => ?_⟩
  · have flag := weighed_flag gross n v r
    have same : Learns gross cert (weighed gross n v r) ↔ Learns gross cert r := by simp [Learns, flag]
    simp only [passageUpdate_eq]
    by_cases learns : Learns gross cert r
    · rw [learnTare_learns (same.mpr learns)]
      have low : 0 ≤ gross := learns.2.2.1
      refine ⟨rfl, rfl, rfl, rfl, rfl, rfl, ?_, fun _ => ⟨?_, ?_⟩, fun h => absurd learns h, fun x h1 h2 => ?_⟩
      · rw [hasFlag_and_not_flagSet, flag]
        simp [Bool.or_assoc]
      · exact congrArg some (Int.toNat_of_nonneg low)
      · rw [hasFlag_and_not_flagSet]
        simp
      · rw [hasFlag_and_not_flagSet, flag]
        simp [h2, h1.symm]
    · rw [learnTare_stands (mt same.mp learns)]
      refine ⟨rfl, rfl, rfl, rfl, rfl, rfl, ?_, fun h => absurd h learns, fun _ => ⟨rfl, ?_⟩, fun x h1 h2 => ?_⟩
      · rw [flag]
        simp [Bool.or_assoc]
      · rw [flag]
        simp
      · rw [flag]
        simp [h2]
  · obtain ⟨⟨sl, rc, shape⟩, slots, free, others, updated, -⟩ := handedOn_spec wf
    obtain ⟨gross, net, quals⟩ := totalsOf_spec s.handedOn
    have openNumber : s.handedOn.openNumber = s.openNumber := by rw [shape]; rfl
    have directory : s.handedOn.ptb.directory = s.ptb.directory := by rw [shape]; rfl
    have unrecorded : unrecordedGross s.handedOn = unrecordedGross s := by rw [shape]; rfl
    rw [State.finalWagons, openNumber] at gross net
    rw [unrecorded] at gross
    rw [openNumber] at quals
    rw [finalisePassage_eq, updOpenEntry_eq, directory]
    exact ⟨slots, free, others, updated, _, rfl, gross, net, quals⟩

end Sys2Proof.Machine
end

