-- ==== Sys2Proof/Proofs/StoreOperations.lean ====
section
/-! PROOFS. The operations of the store: the start of a register commit, and the ends of its writes (R165 to R169). -/

namespace Sys2Proof.Machine

/-! ### The start of a register commit (R166, R167) -/

theorem startCommit_eq (t : Nat) (s : State) : startCommit t s =
    (((s.setWrg { records := tmap (fun _ r => { r with commit := r.commit || r.dirty }) s.wrg.records
                  retired := tmap (fun _ r => { r with commit := true }) s.wrg.retired }).setSeg
      { s.seg with commit := s.seg.dirty }).setStc { s.stc with
        busy := some ⟨.registerCommit, .reservation, t + 200,
          some (s.stc.cell.other, ⟨numberAfter s.ptb.lastNumber 1000, (s.stc.sequence + 1) % 65536⟩), commitItems s, false⟩ }) := rfl

theorem commitItems_taking (s : State) (t : Nat) : commitItems (s.taking t) = commitItems s := by simp [commitItems]

/-- The writes and the erasures of a commit, each of a place. -/
def placeWrites (w : Wrg) : List (Nat × Item) :=
  (w.records.filter fun r => r.2.dirty).map fun r => (r.2.place, Item.write r.2.place r.2.fields)

def placeErasures (w : Wrg) : List (Nat × Item) := w.retired.map fun r => (r.1, Item.erase r.1)

theorem placeItems_eq (w : Wrg) : placeItems w = tputAll [] (placeWrites w ++ placeErasures w) := rfl

theorem mem_placeWrites {w : Wrg} {k : Nat} {i : Item} : (k, i) ∈ placeWrites w ↔
    ∃ r ∈ w.records, r.2.dirty = true ∧ r.2.place = k ∧ i = .write k r.2.fields := by
  simp only [placeWrites, List.mem_map, List.mem_filter, Prod.mk.injEq]
  constructor
  · rintro ⟨r, ⟨mem, dirty⟩, rfl, rfl⟩
    exact ⟨r, mem, dirty, rfl, rfl⟩
  · rintro ⟨r, mem, dirty, rfl, rfl⟩
    exact ⟨r, ⟨mem, dirty⟩, rfl, rfl⟩

theorem mem_placeErasures {w : Wrg} (wf : Table.wf w.retired = true) {k : Nat} {i : Item} :
    (k, i) ∈ placeErasures w ↔ tget w.retired k ≠ none ∧ i = .erase k := by
  rw [Option.ne_none_iff_exists']
  simp only [placeErasures, List.mem_map, Prod.mk.injEq, tget_eq_some wf]
  constructor
  · rintro ⟨r, mem, rfl, rfl⟩
    exact ⟨⟨r.2, mem⟩, rfl⟩
  · rintro ⟨⟨x, mem⟩, rfl⟩
    exact ⟨_, mem, rfl, rfl⟩

/-- No place has two items. -/
theorem placeItems_distinct {w : Wrg} (records : Table.wf w.records = true) (retired : Table.wf w.retired = true) (ok : w.placesOk) :
    (placeWrites w ++ placeErasures w).Pairwise (fun a b => a.1 ≠ b.1) := by
  obtain ⟨own, apart⟩ := ok
  have rising := (rising_pairwise records).1
  rw [List.pairwise_append]
  refine ⟨?_, ?_, ?_⟩
  · rw [placeWrites, List.pairwise_map]
    refine (rising.sublist List.filter_sublist).imp_of_mem fun ha hb lt same => ?_
    exact absurd (apart _ (List.mem_filter.mp ha).1 _ (List.mem_filter.mp hb).1 same) (Nat.ne_of_lt lt)
  · rw [placeErasures, List.pairwise_map]
    exact (rising_pairwise retired).1.imp Nat.ne_of_lt
  · rintro ⟨k, i⟩ ha ⟨j, x⟩ hb rfl
    obtain ⟨r, mem, -, rfl, -⟩ := mem_placeWrites.mp ha
    exact ((mem_placeErasures retired).mp hb).1 (own r mem).2.2

/-- Settles O45. -/
theorem registerCommitStarts : Obligations.RegisterCommitStarts := by
  refine ⟨fun s t g hs => ⟨fun busy => ?_, fun idle failed => ?_, fun idle ok => ?_⟩, fun s records retired ok =>
    ⟨rfl, wf_tputAll _ (by rfl), fun k i => ?_⟩⟩
  · exact serving_answer hs (a := regCommitDo) (x := .bare .busy) (by
      simp [regCommitDo, Option.isSome_iff_ne_none, busy])
  · exact serving_answer hs (a := regCommitDo) (x := .bare .storeFault) (by simp [regCommitDo, idle, failed])
  · refine ⟨_, serving_done hs (a := regCommitDo) (s' := startCommit (s.taking t).timebase (s.taking t)) (x := .bare .started)
      (by simp [regCommitDo, idle, ok]) rfl, rfl, ?_⟩
    rw [startCommit_eq, commitItems_taking]
    simp [State.replying]
  · rw [placeItems_eq, tget_tputAll (placeItems_distinct records retired ok), List.mem_append, mem_placeWrites,
      mem_placeErasures retired]
    simp [tget]

/-! ### The operation in hand -/

theorem inHand_eq {s : State} {b : Busy} {p : WritePhase} {o : Option StoreOp} (busy : s.stc.busy = some b) (phase : b.phase = p)
    (op : o = none ∨ o = some b.op) : s.inHand p o = some b := by
  simp only [State.inHand, busy]
  exact if_pos ⟨phase, op⟩

/-! ### The reservation write (R169) -/

theorem exec_reservationWriteEnd {s : State} {b : Busy} (on : s.powered = true) (busy : s.stc.busy = some b)
    (phase : b.phase = .reservation) (ok : Bool) :
    exec (.reservationWriteEnd ok) s = .next (continueOperation b (endCellWrite b ok (s.advance b.due))) := by
  refine congrArg Host.Outcome.next ((ifPowered_on on _).trans ?_)
  simp only [reservationEnds, inHand_eq busy phase (Or.inl rfl)]
  rfl

/-- A failed cell write: its own cell holds some value, and STORE_FAULT is taken for the write. -/
theorem endCellWrite_failed_eq {b : Busy} {c : CellId} {v : Cell} (write : b.write = some (c, v)) (s : State) :
    ∃ (n : Nat) (held : Option Cell), endCellWrite b false s =
      ((s.setStore (s.store.setCell c held)).setFreeCount n).setFau (reportFault
        ⟨.storeFault, s.timebase, s.openNumber, none, some (.store b.op (some b.phase))⟩
        ((s.setStore (s.store.setCell c held)).setFreeCount n)).fau := by
  obtain ⟨held, e⟩ := endCellWrite_failed write s
  exact ⟨_, held, e.trans (storeFault_eq _ _ _)⟩

/-- What follows a reservation write, by the operation (R167, R169, R88). -/
theorem continueOperation_spec (b : Busy) (s : State) :
    (b.op = .registerCommit → b.items ≠ [] →
      (continueOperation b s).stc.busy = some { b with phase := .body, due := b.due + 60, write := none }) ∧
    (b.op = .calibrationCommit →
      (continueOperation b s).stc.busy = some { b with phase := .body, due := b.due + 800, write := none }) ∧
    (b.op = .passageNumber ∨ (b.op = .registerCommit ∧ b.items = []) →
      (continueOperation b s).stc.busy = some (b.closing b.failed s.stc.cell s.stc.sequence s.ptb.lastNumber)) :=
  ⟨fun op items => continueOperation_item op items s, fun op => continueOperation_image op s, fun op => continueOperation_closing op s⟩

/-- Settles O46. -/
theorem reservationWriteEnds : Obligations.ReservationWriteEnds := by
  refine ⟨fun s b c v on busy phase write _ => ?_, fun s b c v on started busy phase write _ => ?_⟩
  · refine ⟨_, exec_reservationWriteEnd on busy phase true, ?_⟩
    obtain ⟨item, image, closing⟩ := continueOperation_spec b (endCellWrite b true (s.advance b.due))
    have follows := continueOperation_eq b (endCellWrite b true (s.advance b.due))
    generalize continueOperation b (endCellWrite b true (s.advance b.due)) = s' at item image closing follows
    rw [endCellWrite_verified write] at closing follows
    refine ⟨?_, ?_, ?_, ?_, ?_, ?_, ?_, item, image, fun op => (closing op).trans (by simp)⟩ <;> rw [follows] <;> simp
  · refine ⟨_, exec_reservationWriteEnd on busy phase false, ?_⟩
    obtain ⟨item, image, closing⟩ := continueOperation_spec b (endCellWrite b false (s.advance b.due))
    have follows := continueOperation_eq b (endCellWrite b false (s.advance b.due))
    generalize continueOperation b (endCellWrite b false (s.advance b.due)) = s' at item image closing follows
    obtain ⟨n, held, failed⟩ := endCellWrite_failed_eq write (s.advance b.due)
    obtain ⟨other, places, classes, imageCell, shadow⟩ := setCell_frame s.store c held
    rw [reportFault_started (by exact started)] at failed
    rw [failed] at closing follows
    refine ⟨item, image, fun op => (closing op).trans (by simp), ?_, ?_, ?_, ?_, ?_, ?_, ?_, ?_, ?_, ?_⟩ <;> rw [follows]
    · simp
    · simp
    · simp
    · simp
    · simpa using other
    · simpa using places
    · simpa using classes
    · simpa using imageCell
    · simpa using shadow
    · simp only [State.setStc_fau, State.setFau_fau, phase]
      exact takeFault_fau_congr (by simp) (by simp) _

/-! ### The items of a register commit (R167, R168) -/

theorem exec_registerCommitItem {s : State} {b : Busy} {i : Item} {l : List Item} (on : s.powered = true)
    (busy : s.stc.busy = some b) (phase : b.phase = .body) (op : b.op = .registerCommit) (items : b.items = i :: l) (ok : Bool) :
    exec (.registerCommitItem ok) s = .next (
      if ok then continueOperation { b with items := l } (endItem i true (s.advance b.due))
      else startClosing { b with failed := true } (endItem i false (s.advance b.due))) := by
  refine congrArg Host.Outcome.next ((ifPowered_on on _).trans ?_)
  simp only [itemEnds, inHand_eq busy phase (Or.inr (by rw [op])), items]
  cases ok <;> rfl

/-- An item that fails its verify changes the store only. -/
theorem endItem_failed (i : Item) (s : State) : ∃ x n, endItem i false s = (s.setStore x).setFreeCount n := ⟨_, _, rfl⟩

theorem endItem_verified (i : Item) (s : State) : endItem i true s = s.setStore (s.store.writeItem i fun _ => some true) := rfl

theorem startClosing_eq (b : Busy) (s : State) :
    startClosing b s = s.setStc { s.stc with busy := some (b.closing b.failed s.stc.cell s.stc.sequence s.ptb.lastNumber) } := rfl

/-! ### The end of a register commit (R165, R168) -/

theorem exec_registerCommitEnd {s : State} {b : Busy} (on : s.powered = true) (busy : s.stc.busy = some b)
    (phase : b.phase = .closing) (op : b.op = .registerCommit) (ok : Bool) : exec (.registerCommitEnd ok) s =
      .next (endClosing b ok (fun u => endOperation .registerCommit (!b.failed) b.due
        (if b.failed then commitFailed u else commitSucceeded u)) (s.advance b.due)) := by
  refine congrArg Host.Outcome.next ((ifPowered_on on _).trans ?_)
  simp only [registerCommitEnds, inHand_eq busy phase (Or.inr (by rw [op]))]
  rfl

/-- A cell write changes the store, the STC's cell in use, the free values and the FAU. -/
theorem endCellWrite_frame (b : Busy) (ok : Bool) (s : State) : ∃ (x : Store) (n : Nat) (c : CellId) (q : Nat) (f : Fau),
    endCellWrite b ok s = (((s.setStore x).setFreeCount n).setStc { s.stc with cell := c, sequence := q }).setFau f := by
  cases write : b.write with
  | none =>
    have same : endCellWrite b ok s = s := by
      rw [endCellWrite, reportCellWrite, leaveCell, write]
      cases ok <;> rfl
    exact ⟨s.store, s.freeCount, s.stc.cell, s.stc.sequence, s.fau, same⟩
  | some w =>
    cases ok with
    | true => exact ⟨s.store.setCell w.1 (some w.2), s.freeCount, w.1, w.2.sequence, s.fau, endCellWrite_verified write s⟩
    | false =>
      obtain ⟨n, held, e⟩ := endCellWrite_failed_eq write s
      exact ⟨s.store.setCell w.1 held, n, s.stc.cell, s.stc.sequence, _, e⟩

/-- The STC's record of an operation (R165). -/
theorem stcEnded_spec (x : Stc) (op : StoreOp) (due n : Nat) :
    (x.ended op true due n).last = some (.succeeded, op) ∧ (x.ended op true due n).failures = 0 ∧
    (x.ended op true due n).health = .ok ∧ (x.ended op false due n).last = some (.failed, op) ∧
    (x.ended op false due n).failures = (if x.failures < 3 then x.failures + 1 else x.failures) ∧
    (2 ≤ x.failures → x.failures ≤ 3 → (x.ended op false due n).health = .failed) ∧
    (x.failures < 2 → (x.ended op false due n).health = x.health) := by
  refine ⟨rfl, rfl, rfl, rfl, rfl, fun low high => ?_, fun low => ?_⟩
  · have third : satSucc 3 x.failures = 3 := by
      rw [satSucc]
      split <;> omega
    exact if_pos third
  · have below : satSucc 3 x.failures ≠ 3 := by
      rw [satSucc]
      split <;> omega
    exact if_neg below

theorem commitSucceeded_eq (s : State) : commitSucceeded s =
    (s.setWrg { records := tmap (fun _ r => r.committed) s.wrg.records, retired := tkeep (fun _ r => !r.commit) s.wrg.retired }).setSeg
      { s.seg with dirty := s.seg.dirty && !s.seg.commit, commit := false } := by
  unfold commitSucceeded
  simp only
  split
  · next h =>
    have commit : s.seg.commit = true := h
    simp [commit, State.setSeg, State.setWrg]
  · next h =>
    have commit : s.seg.commit = false := Bool.eq_false_iff.mpr h
    have same : ({ s.seg with dirty := s.seg.dirty && !s.seg.commit, commit := false } : Seg) = s.seg := by
      rw [commit, Bool.not_false, Bool.and_true, ← commit]
    rw [same]
    rfl

theorem committed_eq (r : RegRec) : r.committed = { r with dirty := r.dirty && !r.commit, commit := false } := by
  unfold RegRec.committed
  split
  · next h => simp [h]
  · next h =>
    have commit : r.commit = false := Bool.eq_false_iff.mpr h
    rw [commit, Bool.not_false, Bool.and_true, ← commit]

/-- The end of a register commit, its occurrences apart. -/
theorem registerCommitEnd_eq (b : Busy) (ok : Bool) (s : State) : ∃ (x : Store) (n : Nat) (c : CellId) (q : Nat) (f : Fau),
    endClosing b ok (fun u => endOperation .registerCommit (!b.failed) b.due
      (if b.failed then commitFailed u else commitSucceeded u)) s =
      ((((((if b.failed then commitFailed s else commitSucceeded s).setStore x).setFreeCount n).setStc
        (Stc.ended { s.stc with cell := c, sequence := q } .registerCommit (!b.failed) b.due s.ptb.lastNumber)).setFau f)) ∧
      f.attention.getLsbD 5 = true := by
  obtain ⟨k, closing, -⟩ := endClosing_eq b ok (fun u => endOperation .registerCommit (!b.failed) b.due
    (if b.failed then commitFailed u else commitSucceeded u)) s
  obtain ⟨x, n, c, q, f, write⟩ := endCellWrite_frame b ok s
  simp only [write] at closing
  obtain ⟨g, ended, raised⟩ := endOperation_eq .registerCommit (!b.failed) b.due (if b.failed then
    commitFailed ((((s.setStore x).setFreeCount n).setStc { s.stc with cell := c, sequence := q }).setFau f) else
    commitSucceeded ((((s.setStore x).setFreeCount n).setStc { s.stc with cell := c, sequence := q }).setFau f))
  rw [ended] at closing
  refine ⟨x, n, c, q, { g with capture := k }, closing.trans ?_, raised⟩
  cases b.failed
  · simp only [Bool.false_eq_true, if_false, commitSucceeded_eq]
    rfl
  · rfl

/-- Settles O47. -/
theorem registerCommitIsWrittenAndEnds : Obligations.RegisterCommitIsWrittenAndEnds := by
  refine ⟨fun s b i l on busy phase op items => ⟨⟨_, exec_registerCommitItem on busy phase op items true, ?_⟩,
    ⟨_, exec_registerCommitItem on busy phase op items false, ?_⟩⟩, fun s b ok on busy phase op wf =>
      ⟨_, exec_registerCommitEnd on busy phase op ok, ?_⟩⟩
  · have follows := continueOperation_eq { b with items := l } (endItem i true (s.advance b.due))
    obtain ⟨item, -, closing⟩ := continueOperation_spec { b with items := l } (endItem i true (s.advance b.due))
    simp only [if_true]
    generalize continueOperation { b with items := l } (endItem i true (s.advance b.due)) = s' at item closing follows
    rw [endItem_verified] at closing follows
    have store : s'.store = s.store.writeItem i fun _ => some true := by rw [follows]; simp
    refine ⟨?_, ?_, ?_, fun k f hi => ?_, fun k hi => ?_, fun t hi classes c low high => ?_, fun some => ?_, fun none => ?_⟩
    · rw [follows]; simp
    · rw [follows]; simp
    · rw [follows]; simp
    · rw [store, hi]; rfl
    · rw [store, hi]; rfl
    · rw [store, hi]
      show tget (writeClasses s.store.classes t fun _ => some true) c = _
      rw [tget_writeClasses classes, if_pos ⟨low, high⟩]
      rfl
    · have body := item op some
      rw [← phase] at body
      exact body
    · exact (closing (Or.inr ⟨op, none⟩)).trans (by simp [Busy.closing])
  · obtain ⟨x, n, failed⟩ := endItem_failed i (s.advance b.due)
    rw [failed]
    simp [startClosing_eq, Busy.closing]
  · obtain ⟨x, n, c, q, f, ended, raised⟩ := registerCommitEnd_eq b ok (s.advance b.due)
    rw [ended]
    refine ⟨raised, ?_, fun succeeded => ?_, fun failed => ?_, ?_⟩
    · cases b.failed <;> rfl
    · rw [succeeded]
      simp only [Bool.false_eq_true, if_false, commitSucceeded_eq, committed_eq]
      refine ⟨fun r => by simp, fun k => ?_, by simp, rfl, rfl⟩
      simp only [State.setFau_wrg, State.setStc_wrg, State.setFreeCount_wrg, State.setStore_wrg, State.setSeg_wrg, State.setWrg_wrg,
        State.advance_wrg]
      rw [tget_tkeep _ wf]
      congr 1
      funext r
      cases r.commit <;> rfl
    · rw [failed]
      simp only [if_true, commitFailed]
      exact ⟨fun r => by simp, fun k => by simp, by simp, rfl⟩
    · cases b.failed
      · simp [commitSucceeded_eq]
      · simp [commitFailed]

/-! ### The end of a passage-number operation (R165, R169, R179) -/

theorem exec_passageNumberEnd {s : State} {b : Busy} (on : s.powered = true) (busy : s.stc.busy = some b)
    (phase : b.phase = .closing) (op : b.op = .passageNumber) (ok : Bool) : exec (.passageNumberEnd ok) s =
      .next (endClosing b ok (endOperation .passageNumber ok b.due) (s.advance b.due)) := by
  refine congrArg Host.Outcome.next ((ifPowered_on on _).trans ?_)
  simp only [numberEnds, inHand_eq busy phase (Or.inr (by rw [op]))]
  rfl

/-- An occurrence in an empty capture, its kind unmasked (R179). -/
theorem takeFault_capture {o : FaultOcc} {s : State} (unmasked : isMasked s.settings.faultMask o.kind = false) :
    (takeFault o s).fau.capture = some (s.fau.capture.getD o) := by
  rw [takeFault_fau, if_neg (by simp [unmasked])]

theorem startWaiting_fau (t : Nat) (s : State) : (startWaiting t s).fau = s.fau := by
  unfold startWaiting
  split <;> rfl

/-- What the end of a failed operation leaves in the capture. -/
theorem endOperation_capture (op : StoreOp) (due : Nat) (s : State) : (endOperation op false due s).fau.capture =
    (reportFault ⟨.storeFault, s.timebase, s.openNumber, none, some (.store op none)⟩
      (s.setStc { s.stc.record op false with busy := none })).fau.capture := by
  unfold endOperation
  simp only
  rw [startWaiting_fau]
  rfl

/-- STORE_FAULT of a passage-number operation, for the closing write or for the operation. -/
def numberFault (s : State) (w : Option WritePhase) : FaultOcc :=
  ⟨.storeFault, s.timebase, s.openNumber, none, some (.store .passageNumber w)⟩

/-- The write's occurrence stays in an empty capture when it is taken first. -/
theorem writeFirst_capture {s : State} {b : Busy} {c : CellId} {v : Cell} (started : s.condition ≠ .starting)
    (phase : b.phase = .closing) (op : b.op = .passageNumber) (write : b.write = some (c, v)) (empty : s.fau.capture = none)
    (unmasked : isMasked s.settings.faultMask .storeFault = false) :
    (endOperation .passageNumber false b.due (endCellWrite b false s)).fau.capture = some (numberFault s (some .closing)) := by
  obtain ⟨n, held, failed⟩ := endCellWrite_failed_eq write s
  rw [endOperation_capture, failed]
  rw [reportFault_started (by exact started), reportFault_started (by exact started)]
  rw [takeFault_capture (by exact unmasked)]
  show some (Option.getD (takeFault _ _).fau.capture _) = _
  rw [takeFault_capture (by exact unmasked), op, phase]
  show some ((some ((s.fau.capture).getD _)).getD _) = _
  rw [empty]
  rfl

/-- The operation's occurrence stays in an empty capture when it is taken first. -/
theorem endFirst_capture {s : State} {b : Busy} {c : CellId} {v : Cell} (started : s.condition ≠ .starting)
    (write : b.write = some (c, v)) (empty : s.fau.capture = none)
    (unmasked : isMasked s.settings.faultMask .storeFault = false) :
    (reportCellWrite b false (endOperation .passageNumber false b.due (leaveCell b false s))).fau.capture =
      some (numberFault s none) := by
  have leaves : ∃ x n, leaveCell b false s = (s.setStore x).setFreeCount n := by
    rw [leaveCell, write]
    exact ⟨_, _, rfl⟩
  obtain ⟨x, n, leaves⟩ := leaves
  obtain ⟨f, ended, -⟩ := endOperation_eq .passageNumber false b.due (leaveCell b false s)
  have first : (endOperation .passageNumber false b.due (leaveCell b false s)).fau.capture = some (numberFault s none) := by
    rw [endOperation_capture, leaves, reportFault_started (by exact started), takeFault_capture (by exact unmasked)]
    show some (s.fau.capture.getD _) = _
    rw [empty]
    rfl
  rw [ended, leaves] at first ⊢
  rw [reportCellWrite, if_neg (by simp [write]), storeFault, reportFault_started (by exact started),
    takeFault_capture (by exact unmasked)]
  exact congrArg (fun k => some (Option.getD k _)) first

/-- Settles O48. -/
theorem passageNumberIsWritten : Obligations.PassageNumberIsWritten := by
  refine ⟨fun s b c v on busy phase op write => ⟨⟨_, exec_passageNumberEnd on busy phase op true, ?_⟩,
    ⟨_, exec_passageNumberEnd on busy phase op false, ?_⟩⟩, fun b ok finish s => ?_⟩
  · obtain ⟨f, ended, raised⟩ := endOperation_eq .passageNumber true b.due (endCellWrite b true (s.advance b.due))
    rw [endClosing_verified, ended, endCellWrite_verified write]
    refine ⟨?_, rfl, rfl, rfl, rfl, rfl, rfl, raised, ?_, fun idle => ?_, fun waiting => ?_⟩
    · simp
    · simp
    · simp [Stc.ended, idle]
    · simp [Stc.ended, waiting]
  · obtain ⟨k, closing, capture⟩ := endClosing_eq b false (endOperation .passageNumber false b.due) (s.advance b.due)
    have writeFirst := fun h : s.condition ≠ .starting =>
      writeFirst_capture (s := s.advance b.due) (by simpa using h) phase op write
    have endFirst := fun h : s.condition ≠ .starting =>
      endFirst_capture (s := s.advance b.due) (b := b) (by simpa using h) write
    obtain ⟨f, ended, raised⟩ := endOperation_eq .passageNumber false b.due (endCellWrite b false (s.advance b.due))
    obtain ⟨n, held, failed⟩ := endCellWrite_failed_eq write (s.advance b.due)
    obtain ⟨other, places, classes, image, shadow⟩ := setCell_frame s.store c held
    obtain ⟨-, -, -, -, failures, third, below⟩ := stcEnded_spec s.stc .passageNumber b.due s.ptb.lastNumber
    have stc : (endClosing b false (endOperation .passageNumber false b.due) (s.advance b.due)).stc =
        s.stc.ended .passageNumber false b.due s.ptb.lastNumber := by
      rw [closing, ended, failed]
      simp
    have store : (endClosing b false (endOperation .passageNumber false b.due) (s.advance b.due)).store = s.store.setCell c held := by
      rw [closing, ended, failed]
      simp
    rw [stc, store]
    refine ⟨rfl, rfl, rfl, failures, third, below, rfl, ?_, ?_, fun idle => ?_, fun waiting => ?_, other, places, classes, image,
      shadow, fun started empty unmasked => ?_⟩
    · rw [closing, ended]
      exact raised
    · rw [closing, ended, failed]
      simp
    · simp [Stc.ended, idle]
    · simp [Stc.ended, waiting]
    · rw [closing]
      rcases capture with first | ⟨-, last⟩
      · exact Or.inl (first.trans (writeFirst started (by simpa using empty) (by simpa using unmasked)))
      · exact Or.inr (last.trans (endFirst started (by simpa using empty) (by simpa using unmasked)))
  · obtain ⟨k, closing, capture⟩ := endClosing_eq b ok finish s
    exact ⟨k, closing, capture⟩

end Sys2Proof.Machine
end

