-- ==== Sys2Proof/Proofs/Commits.lean ====
section
/-! PROOFS. Calibration commits and their application, and the calibration switch (R83, R84, R87 to R91). -/

namespace Sys2Proof.Machine

/-! ### The application of a commit (R89) -/

theorem PerPlatform.get_map {α : Type} (f : α → α) (x : PerPlatform α) (p : Platform) : (x.map f).get p = f (x.get p) := by
  cases p <;> rfl

/-- An acquisition in hand is ended; the platform's other state and the other platform stand. -/
theorem endIfInHand_acq (q : Platform) (r : AcqResult) (s : State) (p : Platform) :
    ((endIfInHand q r s).zcl.platforms.get p).acq.state =
      if p = q then .idle else (s.zcl.platforms.get p).acq.state := by
  unfold endIfInHand
  split
  · next idle =>
    split
    · next same => rw [same, idle]
    · rfl
  · show ((s.zcl.platforms.set q _).get p).acq.state = _
    rw [PerPlatform.get_set]
    split <;> rfl

/-- Step 4 of an application: the new zeros, and every platform GOOD, with nothing in hand. -/
theorem zclApply_spec (s : State) : (zclApply s).zcl.zeros = s.cal.working.zero ∧
    ∀ p, ((zclApply s).zcl.platforms.get p).zeroState = .good ∧ ((zclApply s).zcl.platforms.get p).offZero = 0 ∧
      ((zclApply s).zcl.platforms.get p).acq.state = .idle ∧ ((zclApply s).zcl.platforms.get p).block = Block.empty := by
  have first := endIfInHand_eq .a .cancelled s
  have second := endIfInHand_eq .b .cancelled (endIfInHand .a .cancelled s)
  have idle : ∀ p, ((endIfInHand .b .cancelled (endIfInHand .a .cancelled s)).zcl.platforms.get p).acq.state = .idle := fun p => by
    rw [endIfInHand_acq, endIfInHand_acq]
    cases p <;> rfl
  refine ⟨?_, fun p => ?_⟩
  · unfold zclApply
    simp only
    rw [second, first]
    rfl
  · have platform : (zclApply s).zcl.platforms.get p = ((endIfInHand .b .cancelled (endIfInHand .a .cancelled s)).zcl.platforms.get p).applied :=
      PerPlatform.get_map _ _ p
    rw [platform]
    exact ⟨rfl, rfl, idle p, rfl⟩

/-- The calibration that an application leaves (R89, steps 1 to 3). -/
def adopted (c : CalSet) (s : State) : Cal :=
  { s.cal with
    counter := s.cal.counter + 1, working := c, snapshot := none, state := .valid, phase := .idle
    staging := if s.calsw = .operate then c else s.cal.staging }

/-- An application changes the calibration, the ZCL, the channels, the passage table's PERMIT and the FAU. -/
theorem applyCommit_eq (c : CalSet) (s : State) : ∃ (x : Lcu) (y : Ptb) (z : Fau) (n : Nat), applyCommit c s =
    { s with cal := adopted c s, zcl := (zclApply (adoptSet c s)).zcl, lcu := x, ptb := y, fau := z, freeCount := n } ∧
    x.channels = .ofFn (fun k => (s.lcu.channels.get k).refit (inPattern c.fitted k)) ∧ y.slots = s.ptb.slots ∧
    y.directory = s.ptb.directory ∧ y.lastNumber = s.ptb.lastNumber := by
  have zeros := zclApply_eq (adoptSet c s)
  unfold applyCommit
  generalize zclApply (adoptSet c s) = v at zeros
  have evaluated := (applyPattern_evaluated s.timebase c.fitted v).trans (Evaluated.permit _)
  generalize evalPermit (applyPattern s.timebase c.fitted v) = w at evaluated
  generalize v.zcl = zcl at zeros
  generalize v.fau = fau at zeros
  subst zeros
  obtain ⟨x, y, z, n, rfl, channels, -, slots, directory, last⟩ := evaluated
  exact ⟨x, y, z, n, rfl, channels, slots, directory, last⟩

/-- What an application leaves (R89). -/
theorem applyCommit_spec (c : CalSet) (s : State) : (applyCommit c s).cal = adopted c s ∧ (applyCommit c s).zcl.zeros = c.zero ∧
    (∀ k, ((applyCommit c s).lcu.channels.get k).fitted = inPattern c.fitted k) ∧
    ∀ p, ((applyCommit c s).zcl.platforms.get p).zeroState = .good ∧ ((applyCommit c s).zcl.platforms.get p).offZero = 0 ∧
      ((applyCommit c s).zcl.platforms.get p).acq.state = .idle ∧ ((applyCommit c s).zcl.platforms.get p).block = Block.empty := by
  obtain ⟨zeros, platforms⟩ := zclApply_spec (adoptSet c s)
  obtain ⟨x, y, z, n, e, channels, -⟩ := applyCommit_eq c s
  rw [e]
  refine ⟨rfl, zeros, fun k => ?_, platforms⟩
  show (x.channels.get k).fitted = _
  rw [channels, get_ofFn]
  unfold Channel.refit
  split <;> simp_all

/-! ### The start of a calibration commit (R87) -/

theorem beginCalCommit_eq (t : Nat) (s : State) : beginCalCommit t s =
    (s.setCal { s.cal with snapshot := some s.cal.staging, phase := .writing }).setStc { s.stc with
      busy := some ⟨.calibrationCommit, .reservation, t + 200,
        some (s.stc.cell.other, ⟨numberAfter s.ptb.lastNumber 1000, (s.stc.sequence + 1) % 65536⟩), [], false⟩ } := rfl

/-! ### The image and the end of a calibration commit (R88, R90) -/

theorem exec_calibrationImageWriteEnd {s : State} {b : Busy} (on : s.powered = true) (busy : s.stc.busy = some b)
    (phase : b.phase = .body) (op : b.op = .calibrationCommit) (ok : Bool) : exec (.calibrationImageWriteEnd ok) s =
      .next (startClosing { b with failed := !ok } (endImage ok (s.advance b.due))) := by
  refine congrArg Host.Outcome.next ((ifPowered_on on _).trans ?_)
  simp only [imageEnds, inHand_eq busy phase (Or.inr (by rw [op]))]
  rfl

theorem exec_calibrationCommitEnd {s : State} {b : Busy} (on : s.powered = true) (busy : s.stc.busy = some b)
    (phase : b.phase = .closing) (op : b.op = .calibrationCommit) (ok : Bool) : exec (.calibrationCommitEnd ok) s =
      .next (endClosing b ok (fun u => endOperation .calibrationCommit (!b.failed) b.due
        (if b.failed then calFailed u else calSucceeded u)) (s.advance b.due)) := by
  refine congrArg Host.Outcome.next ((ifPowered_on on _).trans ?_)
  simp only [calibrationEnds, inHand_eq busy phase (Or.inr (by rw [op]))]
  rfl

theorem endImage_verified {s : State} {c : CalSet} (h : s.cal.snapshot = some c) : endImage true s =
    s.setStore { s.store with image := some (c, s.cal.counter + 1), shadow := some (s.cal.counter + 1) } := by
  simp [endImage, h]

theorem endImage_failed (s : State) : ∃ i n, (i = none ∨ i = s.store.image) ∧
    endImage false s = (s.setStore { s.store with image := i }).setFreeCount n := by
  refine ⟨_, _, ?_, rfl⟩
  split
  · exact Or.inl rfl
  · exact Or.inr rfl

theorem calSucceeded_applied {s : State} {c : CalSet} (closed : s.isOpen = false) (h : s.cal.snapshot = some c) :
    calSucceeded s = applyCommit c (s.setCal { s.cal with lastOutcome := some .succeeded }) := by
  have closed' : (s.setCal { s.cal with lastOutcome := some .succeeded }).isOpen = false := closed
  have snapshot : (s.setCal { s.cal with lastOutcome := some .succeeded }).cal.snapshot = some c := h
  simp only [calSucceeded]
  rw [closed', snapshot]

theorem calSucceeded_held {s : State} (opened : s.isOpen = true) :
    calSucceeded s = s.setCal { s.cal with lastOutcome := some .succeeded, phase := .held } := by
  have opened' : (s.setCal { s.cal with lastOutcome := some .succeeded }).isOpen = true := opened
  simp only [calSucceeded, opened', State.setCal_cal]
  rfl

/-- The end of a calibration commit: what it does to a state that differs from the one before in the store, the STC, the free
values and the FAU; then the STC's record. -/
theorem calibrationCommitEnd_eq (b : Busy) (ok : Bool) (s : State) :
    ∃ (u : State) (f : Fau), u.cal = s.cal ∧ u.zcl = s.zcl ∧ u.axt = s.axt ∧ u.calsw = s.calsw ∧
      (∃ c q, u.stc = { s.stc with cell := c, sequence := q }) ∧
      endClosing b ok (fun u => endOperation .calibrationCommit (!b.failed) b.due
        (if b.failed then calFailed u else calSucceeded u)) s =
        ((if b.failed then calFailed u else calSucceeded u).setStc ((if b.failed then calFailed u else calSucceeded u).stc.ended
          .calibrationCommit (!b.failed) b.due (if b.failed then calFailed u else calSucceeded u).ptb.lastNumber)).setFau f ∧
      f.attention.getLsbD 5 = true := by
  obtain ⟨k, closing, -⟩ := endClosing_eq b ok (fun u => endOperation .calibrationCommit (!b.failed) b.due
    (if b.failed then calFailed u else calSucceeded u)) s
  obtain ⟨x, n, c, q, f, write⟩ := endCellWrite_frame b ok s
  obtain ⟨g, ended, raised⟩ := endOperation_eq .calibrationCommit (!b.failed) b.due
    (if b.failed then calFailed (endCellWrite b ok s) else calSucceeded (endCellWrite b ok s))
  refine ⟨endCellWrite b ok s, { g with capture := k }, ?_, ?_, ?_, ?_, ⟨c, q, ?_⟩, ?_, raised⟩
  · rw [write]; rfl
  · rw [write]; rfl
  · rw [write]; rfl
  · rw [write]; rfl
  · rw [write]; rfl
  · rw [closing]
    simp only [ended]
    rfl

/-- Settles O30. -/
theorem calibrationCommitStartsAndEnds : Obligations.CalibrationCommitStartsAndEnds := by
  refine ⟨fun s t g hs => ⟨fun locked => ?_, fun calibrate opened => ?_, fun calibrate closed busy => ?_,
      fun calibrate closed idle full => ?_, fun f calibrate closed idle room bad => ?_, fun calibrate closed idle room fine => ?_⟩,
    fun s b c ok on busy phase op snapshot => ⟨_, exec_calibrationImageWriteEnd on busy phase op ok, ?_⟩,
    fun s b c ok on busy phase op snapshot => ⟨_, exec_calibrationCommitEnd on busy phase op ok, ?_⟩⟩
  · exact serving_answer hs (a := calCommitDo) (x := .bare .locked) (by simp [calCommitDo, locked])
  · exact serving_answer hs (a := calCommitDo) (x := .bare .passageOpen) (by simp [calCommitDo, calibrate, opened])
  · exact serving_answer hs (a := calCommitDo) (x := .bare .busy) (by
      simp [calCommitDo, calibrate, closed, Option.isSome_iff_ne_none, busy])
  · exact serving_answer hs (a := calCommitDo) (x := .bare .full) (by simp [calCommitDo, calibrate, closed, idle, full])
  · exact serving_answer hs (a := calCommitDo) (x := .badValue f.1 f.2) (by
      simp [calCommitDo, calibrate, closed, idle, Nat.not_le.mpr room, bad])
  · exact serving_done hs (a := calCommitDo) (x := .bare .started) (by
      simp [calCommitDo, calibrate, closed, idle, Nat.not_le.mpr room, fine, beginCalCommit_eq]) rfl
  · cases ok with
    | true =>
      rw [endImage_verified (by simpa using snapshot), startClosing_eq]
      simp [Busy.closing]
    | false =>
      obtain ⟨i, n, image, failed⟩ := endImage_failed (s.advance b.due)
      rw [failed, startClosing_eq]
      simpa [Busy.closing, Store.cell] using image
  · obtain ⟨u, f, cal, zcl, axt, calsw, ⟨cell, sequence, stc⟩, ended, raised⟩ := calibrationCommitEnd_eq b ok (s.advance b.due)
    rw [ended]
    simp only [State.advance_cal, State.advance_zcl, State.advance_axt, State.advance_calsw, State.advance_stc] at cal zcl axt calsw stc
    have opens : u.isOpen = s.isOpen := by rw [State.isOpen, axt]; rfl
    have snapshot' : u.cal.snapshot = some c := by rw [cal, snapshot]
    refine ⟨raised, fun succeeded closed => ?_, fun succeeded opened => ?_, fun failed => ?_⟩
    · rw [succeeded]
      simp only [Bool.false_eq_true, if_false, Bool.not_false]
      rw [calSucceeded_applied (by rw [opens]; exact closed) snapshot']
      obtain ⟨applied, zeros, -, platforms⟩ := applyCommit_spec c (u.setCal { u.cal with lastOutcome := some .succeeded })
      obtain ⟨-, -, -, kept, -⟩ := applyCommit_frame c (u.setCal { u.cal with lastOutcome := some .succeeded })
      generalize applyCommit c (u.setCal { u.cal with lastOutcome := some .succeeded }) = w at applied zeros platforms kept
      simp only [State.setFau_cal, State.setStc_cal, State.setFau_zcl, State.setStc_zcl, State.setFau_stc, State.setStc_stc, applied,
        adopted, State.setCal_cal, State.setCal_calsw, cal, calsw]
      exact ⟨trivial, trivial, trivial, trivial, trivial, trivial, trivial, zeros, platforms, rfl, rfl, rfl⟩
    · rw [succeeded]
      simp only [Bool.false_eq_true, if_false]
      rw [calSucceeded_held (by rw [opens]; exact opened)]
      simp [cal, zcl]
    · rw [failed]
      simp [calFailed, cal, zcl, stc, Stc.ended, Stc.record, satSucc]

/-! ### The calibration switch (R83, R84) -/

/-- A record marked UNVERIFIED is not CERTIFIED: UNVERIFIED disqualifies (R136). -/
theorem unverify_unverified (w : Wagon) : w.unverify.own.unverified = true ∧ w.unverify.certified = false := by
  refine ⟨rfl, ?_⟩
  have held : hasQual w.unverify.quals .unverified = true := by
    simp [Wagon.quals, Wagon.unverify, Wagon.certify, OwnQuals.quals, hasQual_or, hasQual_when]
  have disqualified : ¬ w.unverify.quals &&& disqualifying = 0 := fun h => by
    simpa [held] using and_disqualifying_eq_zero.mp h .unverified (by decide)
  show (_ && decide (w.unverify.quals &&& disqualifying = 0)) = false
  rw [decide_eq_false disqualified, Bool.and_false]

/-- The marks of the open passage and its records, and nothing else. -/
theorem markUnverified_eq (s : State) : markUnverified s = s.setPtb { s.ptb with
    directory := s.ptb.directory.map fun e => if e.close = none then { e with unverified := true } else e
    slots := tmap (fun _ w => if w.passage = s.openNumber then w.unverify else w) s.ptb.slots } := by
  rw [markUnverified, updOpenEntry_eq]
  rfl

theorem markUnverified_marks (s : State) :
    (∀ e ∈ (markUnverified s).ptb.directory, e.close = none → e.unverified = true) ∧
      ∀ r ∈ (markUnverified s).ptb.slots, r.2.passage = s.openNumber → r.2.own.unverified = true ∧ r.2.certified = false := by
  rw [markUnverified_eq]
  refine ⟨fun e he opened => ?_, fun r hr bound => ?_⟩
  · obtain ⟨d, -, rfl⟩ := List.mem_map.mp he
    by_cases h : d.close = none <;> simp_all
  · obtain ⟨q, -, rfl⟩ := mem_tmap.mp hr
    by_cases h : q.2.passage = s.openNumber
    · simp only [h, if_true]
      exact unverify_unverified q.2
    · rw [if_neg h] at bound
      exact absurd bound h

theorem execCalswChange_same {s : State} {p : SwitchPos} (on : s.powered = true) (same : s.calsw = p) (t : Nat) :
    exec (.calswChange t p) s = .next (s.advance t) := by
  show Host.Outcome.next (if s.calsw = p then _ else _) = _
  rw [if_pos same, ifPowered_on on]

theorem execCalswChange_moved {s : State} {p : SwitchPos} (on : s.powered = true) (moved : s.calsw ≠ p) (t : Nat) :
    exec (.calswChange t p) s = .next (moveSwitch t p s) := by
  show Host.Outcome.next (if s.calsw = p then _ else _) = _
  rw [if_neg moved, if_pos on]

theorem moveSwitch_starting {s : State} (starting : s.condition = .starting) (t : Nat) (p : SwitchPos) :
    moveSwitch t p s = (s.advance t).setCalsw p := by
  simp [moveSwitch, State.started, starting]

theorem moveSwitch_closed {s : State} (started : s.condition ≠ .starting) (closed : s.axt.passage = none) (t : Nat) (p : SwitchPos) :
    moveSwitch t p s = ((s.advance t).setCalsw p).setCal
      (if p = .operate then { s.cal with staging := s.cal.working } else s.cal) := by
  cases p
  · simp [moveSwitch, State.started, started, switchChanged, discardStaging, State.isOpen, closed]
  · simp only [moveSwitch, State.started, State.setCalsw_condition, State.advance_condition, ne_eq, started, not_false_iff,
      decide_true, if_true, switchChanged, reduceCtorEq, if_false, State.isOpen, State.setCalsw_axt, State.advance_axt, closed,
      Option.isSome_none, Bool.false_eq_true]
    rfl

/-- A change with a passage open: the staging copy or the marks, then the occurrence. -/
theorem moveSwitch_open {s : State} {q : Passage} (started : s.condition ≠ .starting) (opened : s.axt.passage = some q)
    (t : Nat) (p : SwitchPos) : moveSwitch t p s = takeFault ⟨.calSwitch, (s.advance t).timebase, some q.number, none, some (.switch p)⟩
      (markIfCalibrate p (((s.advance t).setCalsw p).setCal
        (if p = .operate then { s.cal with staging := s.cal.working } else s.cal))) := by
  have condition : ∀ u : State, u.condition = s.condition → (markIfCalibrate p u).condition ≠ .starting := fun u same => by
    unfold markIfCalibrate
    split
    · rw [markUnverified_eq]
      exact same ▸ started
    · exact same ▸ started
  rw [← reportFault_started (condition _ (by rfl))]
  cases p <;> simp [moveSwitch, State.started, started, switchChanged, discardStaging, State.isOpen, opened, State.occNow, State.openNumber]
  rfl

/-- Settles O31. -/
theorem switchChangeIsTaken : Obligations.SwitchChangeIsTaken := by
  refine ⟨fun s t p on => ⟨fun starting moved => ?_, fun same => execCalswChange_same on same t⟩, fun s t p on started moved =>
    ⟨fun closed => ?_, fun q opened => ⟨_, execCalswChange_moved on moved t, ?_⟩⟩⟩
  · rw [execCalswChange_moved on moved, moveSwitch_starting starting]
  · rw [execCalswChange_moved on moved, moveSwitch_closed started closed]
  · rw [moveSwitch_open started opened]
    generalize calibration : (if p = .operate then { s.cal with staging := s.cal.working } else s.cal) = c
    obtain ⟨entries, records⟩ := markUnverified_marks (((s.advance t).setCalsw p).setCal c)
    have number : (((s.advance t).setCalsw p).setCal c).openNumber = some q.number := congrArg (Option.map Passage.number) opened
    rw [number] at records
    rw [takeFault_eq]
    cases p with
    | operate => exact ⟨rfl, rfl, takeFault_fau_congr (by rfl) (by rfl) _, fun _ => rfl, nofun⟩
    | calibrate =>
      refine ⟨?_, ?_, takeFault_fau_congr ?_ ?_ _, nofun, fun _ => ⟨entries, records⟩⟩ <;>
        simp [markIfCalibrate, markUnverified_eq]

end Sys2Proof.Machine
end

