-- ==== Sys2Proof/Proofs/Link.lean ====
section
/-! PROOFS. The service link: the receiver, the delivery of a frame and the checks of a request (R191 to R195). -/

namespace Sys2Proof.Machine

/-! ### A byte, after any gap (R192) -/

theorem exec_byteReceived {s : State} (on : s.powered = true) (t : Nat) (b : Byte) (e : Bool) :
    exec (.byteReceived t b e) s = .next (receive b e (s.advance t)) :=
  congrArg Host.Outcome.next (ifPowered_on on _)

/-- The link at the arrival of a byte. -/
def Slk.arriving (l : Slk) (t : Nat) : Slk := { l with lastByte := t }

/-- The link after a partial frame was dropped for a gap. -/
def Slk.gapped (l : Slk) : Slk := { l with receiver := .hunt, stats := { l.stats with gap := satSucc 65535 l.stats.gap } }

/-- The gap is not timed in HUNT, and within the limit nothing is dropped. -/
theorem settleGap_within {s : State} (h : s.slk.receiver = .hunt ∨ s.timebase ≤ s.slk.lastByte + 80) : settleGap s = s := by
  unfold settleGap
  split
  · next late =>
    rcases h with hunt | near
    · simp [dropForGap, hunt]
    · exact absurd late (Nat.not_lt.mpr near)
  · rfl

theorem dropForGap_partial {s : State} (h : s.slk.receiver ≠ .hunt) : dropForGap s = s.setSlk s.slk.gapped := by
  unfold dropForGap
  split
  · next hunt => exact absurd hunt h
  · rfl

theorem settleGap_late {s : State} (h : s.slk.receiver ≠ .hunt) (late : s.slk.lastByte + 80 < s.timebase) :
    settleGap s = s.setSlk s.slk.gapped := by
  rw [settleGap, gapTicks, if_pos late, dropForGap_partial h]

/-- A byte that no gap precedes. -/
theorem receive_within {s : State} (h : s.slk.receiver = .hunt ∨ s.timebase ≤ s.slk.lastByte + 80) (b : Byte) (e : Bool) :
    receive b e s =
      if e then takeBadByte (s.setSlk (s.slk.arriving s.timebase)) else takeGoodByte b (s.setSlk (s.slk.arriving s.timebase)) := by
  unfold receive
  rw [settleGap_within h]
  rfl

/-- A byte after a gap that dropped a partial frame. -/
theorem receive_late {s : State} (h : s.slk.receiver ≠ .hunt) (late : s.slk.lastByte + 80 < s.timebase) (b : Byte) (e : Bool) :
    receive b e s = if e then takeBadByte (s.setSlk (s.slk.gapped.arriving s.timebase))
      else takeGoodByte b (s.setSlk (s.slk.gapped.arriving s.timebase)) := by
  unfold receive
  rw [settleGap_late h late]
  rfl

/-! ### What the receiver does with a byte (R192) -/

/-- A byte that is not the start of a frame is discarded and counted. -/
theorem takeGoodByte_hunt {s : State} (h : s.slk.receiver = .hunt) (b : Byte) : takeGoodByte b s =
    if b = 0x5A then s.setSlk { s.slk with receiver := .length }
    else s.setSlk { s.slk with stats := { s.slk.stats with hunt := satSucc 65535 s.slk.stats.hunt } } := by
  unfold takeGoodByte
  split
  · rfl
  · next other => exact absurd (h.symm.trans other) (by simp)
  · next other => exact absurd (h.symm.trans other) (by simp)

theorem takeGoodByte_length {s : State} (h : s.slk.receiver = .length) (b : Byte) : takeGoodByte b s =
    if 3 ≤ b.toNat ∧ b.toNat ≤ 243 then s.setSlk { s.slk with receiver := .body b.toNat [] }
    else s.setSlk { s.slk with receiver := .hunt, stats := { s.slk.stats with length := satSucc 65535 s.slk.stats.length } } := by
  simp only [takeGoodByte, h]
  rfl

theorem takeGoodByte_body {s : State} {n : Nat} {l : List Byte} (h : s.slk.receiver = .body n l) (b : Byte) : takeGoodByte b s =
    if l.length + 1 < n + 2 then s.setSlk { s.slk with receiver := .body n (l ++ [b]) } else completeFrame n (l ++ [b]) s := by
  simp only [takeGoodByte, h, List.length_append, List.length_singleton]
  rfl

theorem takeBadByte_hunt {s : State} (h : s.slk.receiver = .hunt) : takeBadByte s =
    s.setSlk { s.slk with stats := { s.slk.stats with hunt := satSucc 65535 s.slk.stats.hunt } } := by
  unfold takeBadByte
  split
  · rfl
  · next other => exact absurd h other

theorem takeBadByte_partial {s : State} (h : s.slk.receiver ≠ .hunt) : takeBadByte s =
    s.setSlk { s.slk with receiver := .hunt, stats := { s.slk.stats with framing := satSucc 65535 s.slk.stats.framing } } := by
  unfold takeBadByte
  split
  · next hunt => exact absurd hunt h
  · rfl

/-- A gap that runs out. -/
theorem exec_gapTimeout {s : State} (on : s.powered = true) : exec .gapTimeout s =
    .next (if s.slk.receiver = .hunt then s else (s.advance (s.slk.lastByte + 80)).setSlk s.slk.gapped) := by
  refine congrArg Host.Outcome.next ((ifPowered_on on _).trans ?_)
  unfold gapRunsOut
  split
  · next hunt => rw [if_pos hunt]
  · next waiting =>
    rw [if_neg waiting]
    exact dropForGap_partial (by exact waiting)

/-- Settles O49. -/
theorem bytesReachTheReceiver : Obligations.BytesReachTheReceiver := by
  refine ⟨fun s t b on => ⟨fun hunt => ?_, fun hunt => ?_, fun hunt other => ?_,
      fun near => ⟨fun waiting low high => ?_, fun waiting outside => ?_, fun waiting => ?_, fun n l waiting more => ?_⟩,
      fun late waiting => ⟨?_, fun e other => ?_⟩⟩,
    fun s on => ⟨fun hunt => ?_, fun waiting => ?_⟩, fun s t on => congrArg Host.Outcome.next (ifPowered_on on _)⟩
  · rw [exec_byteReceived on, receive_within (by exact Or.inl hunt), if_neg (by decide), takeGoodByte_hunt (by exact hunt), if_pos rfl]
    rfl
  · rw [exec_byteReceived on, receive_within (by exact Or.inl hunt), if_pos rfl, takeBadByte_hunt (by exact hunt)]
    rfl
  · rw [exec_byteReceived on, receive_within (by exact Or.inl hunt), if_neg (by decide), takeGoodByte_hunt (by exact hunt), if_neg other]
    rfl
  · rw [exec_byteReceived on, receive_within (by exact Or.inr near), if_neg (by decide), takeGoodByte_length (by exact waiting),
      if_pos ⟨low, high⟩]
    rfl
  · rw [exec_byteReceived on, receive_within (by exact Or.inr near), if_neg (by decide), takeGoodByte_length (by exact waiting),
      if_neg (by omega)]
    rfl
  · rw [exec_byteReceived on, receive_within (by exact Or.inr near), if_pos rfl, takeBadByte_partial (by exact waiting)]
    rfl
  · rw [exec_byteReceived on, receive_within (by exact Or.inr near), if_neg (by decide), takeGoodByte_body (by exact waiting), if_pos more]
    rfl
  · rw [exec_byteReceived on, receive_late (by exact waiting) (by exact late), if_neg (by decide), takeGoodByte_hunt (by rfl), if_pos rfl]
    rfl
  · rw [exec_byteReceived on, receive_late (by exact waiting) (by exact late)]
    cases e with
    | true =>
      rw [if_pos rfl, takeBadByte_hunt (by rfl)]
      rfl
    | false =>
      rw [if_neg (by decide), takeGoodByte_hunt (by rfl), if_neg (by simpa using other)]
      rfl
  · rw [exec_gapTimeout on, if_pos hunt]
  · rw [exec_gapTimeout on, if_neg waiting]
    rfl

/-! ### The delivery of a frame (R193, R195) -/

theorem takeNext_serving {s : State} (h : s.slk.service ≠ none) : takeNext s = s := by
  unfold takeNext
  split
  · next idle _ => exact absurd idle h
  · rfl

theorem takeNext_empty {s : State} (h : s.slk.queue = []) : takeNext s = s := by
  unfold takeNext
  split
  · next waiting => exact absurd (h.symm.trans waiting) (by simp)
  · rfl

theorem takeNext_cons {s : State} {f : Frame} {l : List Frame} (idle : s.slk.service = none) (queue : s.slk.queue = f :: l) :
    takeNext s = takeFrame f (s.setSlk { s.slk with queue := l }) := by
  simp only [takeNext, idle, queue]

/-- The last byte of a frame, within the gap. -/
theorem exec_lastByte {s : State} {t n : Nat} {b : Byte} {l : List Byte} (on : s.powered = true)
    (near : (s.advance t).timebase ≤ s.slk.lastByte + 80) (body : s.slk.receiver = .body n l) (last : l.length + 1 = n + 2) :
    exec (.byteReceived t b false) s =
      .next (completeFrame n (l ++ [b]) ((s.advance t).setSlk { s.slk with lastByte := (s.advance t).timebase })) := by
  rw [exec_byteReceived on, receive_within (by exact Or.inr near), if_neg (by decide), takeGoodByte_body (by exact body), if_neg (by omega)]
  rfl

/-- Settles O50. -/
theorem frameIsDelivered : Obligations.FrameIsDelivered := by
  intro s t b n l on started near body last x
  refine ⟨fun bad => ?_, fun good full => ?_, fun good room serving => ?_, fun f q good room idle queue => ?_⟩
  · rw [exec_lastByte on near body last, completeFrame, if_neg (by simp [bad])]
    rfl
  · rw [exec_lastByte on near body last, completeFrame, if_pos good, deliver, if_pos (by exact full),
      reportFault_started (by exact started)]
    rfl
  · rw [exec_lastByte on near body last, completeFrame, if_pos good, deliver, if_neg (Nat.not_le.mpr (by exact room)),
      takeNext_serving (by exact serving)]
    rfl
  · rw [exec_lastByte on near body last, completeFrame, if_pos good, deliver, if_neg (Nat.not_le.mpr (by exact room)),
      takeNext_cons (by exact idle) (by exact queue)]
    rfl

/-! ### The checks of a request (R195) -/

theorem endReply_some {s : State} {q : InService} (h : s.slk.service = some q) : endReply s = s.setSlk { s.slk with
    service := none, restartDue := s.slk.restartDue && !q.restart
    stats := { s.slk.stats with replies := satSucc 65535 s.slk.stats.replies } } := by
  simp only [endReply, h]
  rfl

theorem exec_replySent {s : State} (on : s.powered = true) (t : Nat) :
    exec (.replySent t) s = .next (takeNext (endReply (s.advance t))) :=
  congrArg Host.Outcome.next (ifPowered_on on _)

/-- A request that is only answered changes nothing but the reply in service. -/
theorem serve_answer {tag target : Byte} {always : Bool} {a : Action} {s : State} {x : Answer} (h : a s = (s, x))
    (served : s.started = true ∨ always = true) : serve tag target always a s =
      s.setSlk { s.slk with service := some ⟨tag, target, x.outcome, x.data, false⟩ } := by
  have ready : (s.started || always) = true := by simpa using served
  simp only [serve, actOrRefuse, ready, if_true, h, compose, Bool.not_and_self]

theorem serve_notReady {s : State} (starting : s.condition = .starting) (tag target : Byte) (a : Action) :
    serve tag target false a s = s.setSlk { s.slk with service := some ⟨tag, target, .notReady, [], false⟩ } := by
  have unready : (s.started || false) = false := by simp [State.started, starting]
  simp only [serve, actOrRefuse, unready, Bool.false_eq_true, if_false, compose, Bool.not_and_self, Answer.bare]

/-- A target that R198 does not list. -/
theorem frameAction_unlisted {f : Frame} (h : f.target.toNat = 0 ∨ 7 < f.target.toNat) :
    frameAction f = (true, bare .badTarget) := by
  have unlisted : ∀ n : Nat, n = 0 ∨ 7 < n → catalogue n = none := fun n h => by
    match n, h with
    | 0, _ | n + 8, _ => rfl
    | 1, h | 2, h | 3, h | 4, h | 5, h | 6, h | 7, h => omega
  simp only [frameAction, unlisted _ h]

/-- Such a target spells no row. -/
theorem row_unlisted {f : Frame} (h : f.target.toNat = 0 ∨ 7 < f.target.toNat) (t : Nat) : f.row t = none := by
  unfold Frame.row
  generalize f.target.toNat = n at h
  match n, h with
  | 0, _ | n + 8, _ => rfl
  | 1, h | 2, h | 3, h | 4, h | 5, h | 6, h | 7, h => omega

/-- A frame that spells a row belongs to a handler that agrees with it. -/
theorem frameAction_row {t : Nat} {f : Frame} {ok : Bool} {r : Option Instr} (h : f.row t = some (ok, r)) :
    ∃ (k : Target) (d : Handler), byteOf (targetNum k) = f.target ∧ d.lengthOk f.data = ok ∧
      (∀ i, r = some i → i.servedAlways = d.always ∧ ∀ s : State, exec i s = request t f.tag k d.always (d.run f.data) s) ∧
      (r = none → d.always = false ∧ d.run f.data = answer fun _ => .bad) ∧
      frameAction f = (d.always, checkedAction d f.data) := by
  have listed : 1 ≤ f.target.toNat ∧ f.target.toNat ≤ 7 := by
    refine Decidable.byContradiction fun outside => ?_
    exact absurd ((row_unlisted (by omega) t).symm.trans h) (by simp)
  obtain ⟨k, o, target, agrees, -, action⟩ := frame_served t f listed.1 listed.2
  cases o with
  | none => exact absurd (h ▸ agrees) (by simp [Agrees])
  | some d =>
    obtain ⟨length, row, bad⟩ := show Agrees k t f.tag f.data (some d) (some (ok, r)) from h ▸ agrees
    exact ⟨k, d, target, length, row, bad, action⟩

/-- Settles O51. -/
theorem replyLeavesAndTheNextIsTaken : Obligations.ReplyLeavesAndTheNextIsTaken := by
  refine ⟨fun s t on empty => ⟨fun idle => ?_, fun q serving => ?_⟩, fun s t q f l on serving queue => ⟨?_, fun i row => ?_⟩,
    fun s t f => ⟨fun outside => ?_, fun low high => ⟨?_, fun unlisted => ?_⟩, fun ok r row starting always => ?_,
      fun r row served => ?_, fun row started => ?_⟩, by decide +kernel, by decide +kernel⟩
  · rw [exec_replySent on, endReply_none (by exact idle), takeNext_empty (by exact empty)]
  · rw [exec_replySent on, endReply_some (by exact serving), takeNext_empty (by exact empty)]
    rfl
  · rw [exec_replySent on, endReply_some (by exact serving), takeNext_cons (by rfl) (by exact queue)]
    rfl
  · obtain ⟨k, d, target, length, same, -, action⟩ := frameAction_row row
    obtain ⟨-, same⟩ := same i rfl
    rw [exec_replySent on, endReply_some (by exact serving), takeNext_cons (by rfl) (by exact queue), same, request,
      ifPowered_on (by exact on), endReply_some (by exact serving), takeFrame, action, target, checkedAction, if_pos length]
    rfl
  · rw [takeFrame, frameAction_unlisted outside, serve_answer rfl (Or.inr rfl)]
    rfl
  · obtain ⟨k, o, -, agrees, absent, -⟩ := frame_served t f low high
    rw [← absent]
    cases o <;> cases row : f.row t <;> simp_all [Agrees]
  · obtain ⟨k, o, -, agrees, absent, action⟩ := frame_served t f low high
    cases o with
    | none =>
      rw [takeFrame, action, serve_answer rfl (Or.inr rfl)]
      rfl
    | some d => exact absurd (unlisted ▸ agrees) (by simp [Agrees])
  · obtain ⟨k, d, -, -, same, bad, action⟩ := frameAction_row row
    have untimely : d.always = false := by
      cases r with
      | none => exact (bad rfl).1
      | some i => exact (same i rfl).1 ▸ always i rfl
    rw [takeFrame, action, untimely, serve_notReady starting]
  · obtain ⟨k, d, -, length, same, -, action⟩ := frameAction_row row
    have ready : s.started = true ∨ d.always = true := by
      rcases served with started | ⟨i, rfl, always⟩
      · exact Or.inl (decide_eq_true started)
      · exact Or.inr ((same i rfl).1 ▸ always)
    rw [takeFrame, action, serve_answer (x := .bare .badLength) (by simp [checkedAction, length, bare, answer]) ready]
    rfl
  · obtain ⟨k, d, -, length, -, bad, action⟩ := frameAction_row row
    obtain ⟨-, run⟩ := bad rfl
    rw [takeFrame, action, serve_answer (x := .bad) (by simp [checkedAction, length, run, answer]) (Or.inl (decide_eq_true started))]
    rfl

end Sys2Proof.Machine
end

