-- ==== Sys2Proof/Proofs/Sampling.lean ====
section
/-! PROOFS. The sampling instant: its timestamp, the advance of a channel, and the instants it brings about (R14 to R18, R53). -/

namespace Sys2Proof.Machine

/-! ### The timestamp of an instant (R14) -/

/-- The first multiple of 10 from the timebase on that follows the last instant. -/
theorem instantTime_spec (s : State) : s.lcu.lastInstant ≠ some (instantTime s) ∧ s.timebase ≤ instantTime s ∧
    ((∀ v, s.lcu.lastInstant = some v → v % 10 = 0) → instantTime s % 10 = 0 ∧
      ∀ u, u % 10 = 0 → s.timebase ≤ u → (∀ v, s.lcu.lastInstant = some v → v < u) → instantTime s ≤ u) := by
  have rounded : (s.timebase + 9) / 10 * 10 % 10 = 0 ∧ s.timebase ≤ (s.timebase + 9) / 10 * 10 := by omega
  have first : ∀ u, u % 10 = 0 → s.timebase ≤ u → (s.timebase + 9) / 10 * 10 ≤ u := by omega
  unfold instantTime
  simp only
  generalize (s.timebase + 9) / 10 * 10 = n at rounded first ⊢
  cases last : s.lcu.lastInstant with
  | none => exact ⟨nofun, rounded.2, fun _ => ⟨rounded.1, fun u tenth late _ => first u tenth late⟩⟩
  | some v =>
    simp only [Option.some.injEq, forall_eq']
    by_cases had : n ≤ v
    · rw [if_pos had]
      exact ⟨by simp, by omega, fun tenth => ⟨by omega, fun u _ _ _ => by omega⟩⟩
    · rw [if_neg had]
      exact ⟨by simp only [ne_eq, Option.some.injEq]; omega, rounded.2, fun _ => ⟨rounded.1, fun u tenth late _ => first u tenth late⟩⟩

/-! ### The advance of a channel (R14 to R17) -/

theorem isOverrange_iff (raw : Int) : isOverrange raw = true ↔ raw = -8388608 ∨ raw = 8388607 := by
  simp [isOverrange]

/-- What no advance changes, and the reading that each takes. -/
theorem Channel.step_frame (ch : Channel) (t : Nat) (raw : Int) (e : Sense) :
    (ch.step t raw e).last = some (raw, t) ∧ (ch.step t raw e).fitted = ch.fitted := by
  unfold Channel.step
  simp only
  split
  · unfold Channel.settleStep
    split
    · split <;> exact ⟨rfl, rfl⟩
    · exact ⟨rfl, rfl⟩
  · unfold Channel.activeStep
    simp only
    split
    · exact ⟨rfl, rfl⟩
    · split
      · split <;> exact ⟨rfl, rfl⟩
      · exact ⟨rfl, rfl⟩
  · exact ⟨rfl, rfl⟩

/-- An OFF or FAULTED channel takes its reading only. -/
theorem Channel.step_resting {ch : Channel} (h : ch.state = .off ∨ ch.state = .faulted) (t : Nat) (raw : Int) (e : Sense) :
    ch.step t raw e = { ch with last := some (raw, t) } := by
  rcases h with h | h <;> simp only [Channel.step, h]

theorem Channel.step_settling {ch : Channel} (h : ch.state = .settling) (t : Nat) (raw : Int) (e : Sense) :
    ch.step t raw e = { ch with last := some (raw, t) }.settleStep e := by
  simp only [Channel.step, h]

theorem Channel.step_active {ch : Channel} (h : ch.state = .active) (t : Nat) (raw : Int) (e : Sense) :
    ch.step t raw e = { ch with last := some (raw, t) }.activeStep t raw e := by
  simp only [Channel.step, h]

theorem Channel.step_counts {ch : Channel} (h : ch.state = .settling) (few : ch.settle < 399) (t : Nat) (raw : Int) :
    ch.step t raw .present = { ch with last := some (raw, t), settle := ch.settle + 1 } := by
  rw [step_settling h, settleStep, if_pos rfl, if_neg (by simp only; omega)]

theorem Channel.step_settled {ch : Channel} (h : ch.state = .settling) (enough : ch.settle = 399) (t : Nat) (raw : Int) :
    ch.step t raw .present = { ch with last := some (raw, t), state := .active, settle := 400, overrange := 0 } := by
  rw [step_settling h, settleStep, if_pos rfl, if_pos (by simp only; omega)]

theorem Channel.step_recounts {ch : Channel} (h : ch.state = .settling) (t : Nat) (raw : Int) :
    ch.step t raw .absent = { ch with last := some (raw, t), settle := 0 } := by
  rw [step_settling h, settleStep, if_neg (by decide)]

theorem Channel.step_unexcited {ch : Channel} (h : ch.state = .active) (t : Nat) (raw : Int) :
    ch.step t raw .absent = { ch with last := some (raw, t), state := .faulted, cause := some .excitation, onset := some t } := by
  rw [step_active h, activeStep, if_pos rfl, fail]

theorem Channel.step_inRange {ch : Channel} (h : ch.state = .active) {raw : Int} (good : isOverrange raw = false) (t : Nat) :
    ch.step t raw .present = { ch with last := some (raw, t), overrange := 0 } := by
  rw [step_active h, activeStep, if_neg (by decide), if_neg (by simp [good])]

theorem Channel.step_overrange {ch : Channel} (h : ch.state = .active) {raw : Int} (extreme : isOverrange raw = true)
    (few : ch.overrange < 39) (t : Nat) :
    ch.step t raw .present = { ch with last := some (raw, t), overrange := ch.overrange + 1 } := by
  rw [step_active h, activeStep, if_neg (by decide), if_pos extreme, if_neg (by simp only; omega)]

theorem Channel.step_fortieth {ch : Channel} (h : ch.state = .active) {raw : Int} (extreme : isOverrange raw = true)
    (enough : 39 ≤ ch.overrange) (t : Nat) : ch.step t raw .present = { ch with
      last := some (raw, t), overrange := ch.overrange + 1, state := .faulted, cause := some .overrange, onset := some (t - 390) } := by
  rw [step_active h, activeStep, if_neg (by decide), if_pos extreme, if_pos (by simp only; omega), fail]

theorem becameFaulted_iff {old new : Channel} : becameFaulted old new = true ↔ old.state ≠ .faulted ∧ new.state = .faulted :=
  decide_eq_true_iff

/-- With excitation present a channel faults by its fortieth overrange sample only (R17). -/
theorem Channel.step_present_onset {ch : Channel} {t : Nat} {raw : Int} (h : becameFaulted ch (ch.step t raw .present) = true) :
    (ch.step t raw .present).onset = some (t - 390) := by
  obtain ⟨sound, faulted⟩ := becameFaulted_iff.mp h
  cases state : ch.state with
  | off =>
    rw [step_resting (Or.inl state)] at faulted
    exact absurd (state.symm.trans faulted) (by decide)
  | faulted => exact absurd state sound
  | settling =>
    by_cases few : ch.settle < 399
    · rw [step_counts state few] at faulted
      exact absurd (state.symm.trans faulted) (by decide)
    · rw [step_settling state, settleStep, if_pos rfl, if_pos (by simp only; omega)] at faulted
      exact absurd faulted nofun
  | active =>
    by_cases extreme : isOverrange raw = true
    · by_cases few : ch.overrange < 39
      · rw [step_overrange state extreme few] at faulted
        exact absurd (state.symm.trans faulted) (by decide)
      · rw [step_fortieth state extreme (by omega)]
    · rw [step_inRange state (Bool.eq_false_iff.mpr extreme)] at faulted
      exact absurd (state.symm.trans faulted) (by decide)

/-! ### The notice of a channel fault (R18, R78) -/

theorem recombine_meu (i : Nat) (s : State) : (recombine i s).meu = s.meu := by
  unfold recombine
  split
  · rfl
  · split
    · simp only
      split
      · rfl
      · rw [noticeAxle_eq]
        rfl
    · rfl

theorem poisonTrain_meu (p : Platform) (t : Nat) (s : State) : (poisonTrain p t s).meu = s.meu := by
  have each : ∀ (l : List Nat) (u : State), (l.foldl (fun u i => recombine i u) u).meu = u.meu := fun l => by
    induction l with
    | nil => exact fun _ => rfl
    | cons i l ih => exact fun u => (ih _).trans (recombine_meu i u)
  exact each _ _

/-- A notice leaves its platform's poison onset, or the earlier one that stands. -/
theorem meuNotice_poison {s : State} (opened : s.isOpen = true) (q p : Platform) (t : Nat) :
    ((meuNotice q t s).meu.get p).poison =
      if p = q then some (earlierOnset (s.meu.get p).poison t) else (s.meu.get p).poison := by
  rw [meuNotice, if_pos opened]
  simp only [poisonTrain_meu]
  show ((s.meu.set q _).get p).poison = _
  rw [PerPlatform.get_set]
  by_cases same : p = q
  · rw [if_pos same, if_pos same, same]
  · rw [if_neg same, if_neg same]

/-- The notice of one channel that an instant may have faulted. -/
def noticeFault (old : PerChannel Channel) (s : State) (c : Fin 8) : State :=
  if becameFaulted (old.get c) (s.lcu.channels.get c) then
    meuNotice (platformOfChannel c) ((s.lcu.channels.get c).onset.getD 0) s else s

theorem noticeFaults_foldl (old : PerChannel Channel) (s : State) : noticeFaults old s = channels.foldl (noticeFault old) s := rfl

theorem earlierOnset_again (o : Option Nat) (t : Nat) : earlierOnset (some (earlierOnset o t)) t = earlierOnset o t := by
  cases o <;> simp [earlierOnset]

/-- Notices of one onset leave it, or the earlier one that stands. -/
theorem noticeFault_foldl_poison {old x : PerChannel Channel} {p : Platform} {t : Nat} (l : List (Fin 8))
    (onset : ∀ c ∈ l, platformOfChannel c = p → becameFaulted (old.get c) (x.get c) = true → (x.get c).onset = some t) :
    ∀ s : State, s.lcu.channels = x → s.isOpen = true → ((l.foldl (noticeFault old) s).meu.get p).poison =
      if ∃ c ∈ l, platformOfChannel c = p ∧ becameFaulted (old.get c) (x.get c) = true then
        some (earlierOnset (s.meu.get p).poison t) else (s.meu.get p).poison := by
  induction l with
  | nil => intro s _ _; simp
  | cons c l ih =>
    intro s lcu opened
    have rest := ih fun d hd => onset d (List.mem_cons_of_mem c hd)
    by_cases faulted : becameFaulted (old.get c) (x.get c) = true
    · have notice : noticeFault old s c = meuNotice (platformOfChannel c) ((x.get c).onset.getD 0) s := by
        rw [noticeFault, lcu, if_pos faulted]
      have kept := meuNotice_noticed (platformOfChannel c) ((x.get c).onset.getD 0) s
      rw [List.foldl_cons, notice, rest _ (by rw [kept.lcu, lcu]) (by rw [State.isOpen, kept.passage]; exact opened),
        meuNotice_poison opened]
      by_cases same : p = platformOfChannel c
      · rw [onset c List.mem_cons_self same.symm faulted]
        simp [same.symm, faulted, earlierOnset_again]
      · simp [same, Ne.symm same, faulted]
    · have silent : noticeFault old s c = s := by rw [noticeFault, lcu, if_neg faulted]
      rw [List.foldl_cons, silent, rest s lcu opened]
      simp [faulted]

/-! ### The whole instant -/

/-- The LCU after an instant (R14 to R19). -/
theorem afterLcu_lcu (t : Nat) (r : Readings) (s : State) :
    (∀ c, (afterLcu t r s).lcu.channels.get c =
      (s.lcu.channels.get c).step (instantTime (s.advance t)) (r.raw.get c) (r.sense.get (platformOfChannel c))) ∧
    (afterLcu t r s).lcu.lastInstant = some (instantTime (s.advance t)) ∧
    (∀ p, ((afterLcu t r s).lcu.platforms.get p).sense = r.sense.get p) ∧
    (∀ p, ((afterLcu t r s).lcu.platforms.get p).service =
      (if (serviceConditions (afterLcu t r s) p).all id then .inService else .out)) :=
  lcuInstant_lcu _ _ _

theorem fittedOf_step {s s' : State} (h : ∀ c, (s'.lcu.channels.get c).fitted = (s.lcu.channels.get c).fitted) (cs : List (Fin 8)) :
    s'.fittedOf cs = s.fittedOf cs := by
  simp only [State.fittedOf, h]

/-- A platform with a fitted channel that is not ACTIVE is not served (R19). -/
theorem serviceConditions_inactive {s : State} {c : Fin 8} (fitted : (s.lcu.channels.get c).fitted = true)
    (inactive : (s.lcu.channels.get c).state ≠ .active) : (serviceConditions s (platformOfChannel c)).all id = false := by
  have mem : c ∈ s.fittedOf (channelsOf (platformOfChannel c)) := List.mem_filter.mpr ⟨mem_channelsOf.mpr rfl, fitted⟩
  have third : ((s.fittedOf (channelsOf (platformOfChannel c))).all fun d => decide ((s.lcu.channels.get d).state = .active)) = false :=
    List.all_eq_false.mpr ⟨c, mem, by simp [inactive]⟩
  simp [serviceConditions, third]

theorem instantOf_out {s : State} {p : Platform} (out : (s.lcu.platforms.get p).service = .out) (t : Nat) (r : Readings) :
    instantOf t r s p = ⟨t, false, none⟩ :=
  if_neg (by simp [out])

theorem instantOf_inService {s : State} {p : Platform} (served : (s.lcu.platforms.get p).service = .inService) (t : Nat) (r : Readings) :
    instantOf t r s p = ⟨t, (channelsOf p).any fun c => decide ((s.lcu.channels.get c).state = .active) && isOverrange (r.raw.get c),
      some (railSample r.raw s.zcl.zeros s.cal.working.gain (s.fittedOf (railChannels p).1),
        railSample r.raw s.zcl.zeros s.cal.working.gain (s.fittedOf (railChannels p).2))⟩ :=
  if_pos served

theorem exec_samplingInstant {s : State} (on : s.powered = true) (t : Nat) (r : Readings) :
    exec (.samplingInstant t r) s = .next (sample t r s) :=
  congrArg Host.Outcome.next (ifPowered_on on _)

/-- Settles O19. -/
theorem samplingInstantIsTaken : Obligations.SamplingInstantIsTaken := by
  intro s t r on T
  obtain ⟨fresh, late, first⟩ := instantTime_spec (s.advance t)
  obtain ⟨channels, instant, senses, -⟩ := afterLcu_lcu t r s
  obtain ⟨-, zcl, cal, -⟩ := (lcuInstant_took T r ((s.advance t).advance T)).blocks
  have zeros : (afterLcu t r s).zcl.zeros = s.zcl.zeros := congrArg Zcl.zeros zcl
  have gain : (afterLcu t r s).cal = s.cal := cal
  have fitted : ∀ c, ((afterLcu t r s).lcu.channels.get c).fitted = (s.lcu.channels.get c).fitted := fun c => by
    rw [channels c]
    exact (Channel.step_frame _ _ _ _).2
  refine ⟨_, exec_samplingInstant on t r, fresh, late, first, ?_⟩
  simp only [sample_lcu]
  refine ⟨instant, fun c => ?_, senses, fitted, fun c resting => ?_, fun p => ⟨instantOf T r (afterLcu t r s) p, ?_,
    (sample_meu t r s p).1, fun out => ?_, fun served => ?_⟩⟩
  · rw [channels c]
    exact (Channel.step_frame _ _ _ _).1
  · rw [channels c, Channel.step_resting resting]
  · unfold instantOf
    split <;> rfl
  · rw [(sample_meu t r s p).2, instantOf_out out]
    exact ⟨rfl, rfl, rfl⟩
  · rw [(sample_meu t r s p).2, instantOf_inService served, zeros, gain, fittedOf_step fitted, fittedOf_step fitted]
    refine ⟨rfl, rfl, ?_⟩
    simp only [List.any_eq_true, Bool.and_eq_true, decide_eq_true_eq, isOverrange_iff]

/-! ### The instants that a channel's change names (R15, R17) -/

theorem exec_settlingComplete {s : State} {c : Fin 8} {r : Readings} (on : s.powered = true) (named : settles c r s = true) (t : Nat) :
    exec (.settlingComplete t c r) s = .next (sample t r s) := by
  refine congrArg Host.Outcome.next ((ifPowered_on on _).trans ?_)
  rw [named, sampleIf, if_pos rfl]

theorem exec_overrangeFault {s : State} {c : Fin 8} {r : Readings} (on : s.powered = true) (named : overranges c r s = true) (t : Nat) :
    exec (.overrangeFault t c r) s = .next (sample t r s) := by
  refine congrArg Host.Outcome.next ((ifPowered_on on _).trans ?_)
  rw [named, sampleIf, if_pos rfl]

/-- The poison onsets after an instant are those after the notices of its channel faults. -/
theorem sample_poison (t : Nat) (r : Readings) (s : State) (p : Platform) : ((sample t r s).meu.get p).poison =
    ((noticeFaults s.lcu.channels (afterLcu t r s)).meu.get p).poison := by
  show ((zclPlatforms _ _).meu.get p).poison = _
  rw [(zclPlatforms_blocks _ _).2]
  cases p <;> rfl

/-- Settles O20. -/
theorem channelAdvancesByItsState : Obligations.ChannelAdvancesByItsState := by
  refine ⟨fun ch t raw => ⟨fun resting e => Channel.step_resting resting t raw e, fun settling few => Channel.step_counts settling few t raw,
      fun settling => Channel.step_recounts settling t raw, fun active => Channel.step_unexcited active t raw,
      fun active low high => Channel.step_inRange active (by simp [isOverrange, low, high]) t,
      fun active extreme few => Channel.step_overrange active ((isOverrange_iff raw).mpr extreme) few t⟩,
    fun s t c r on settling count present => ?_, fun s t c r on active count present extreme => ?_⟩
  · refine ⟨_, exec_settlingComplete on (by simp [settles, settling, count, present]) t, ?_⟩
    rw [sample_lcu, (afterLcu_lcu t r s).1, present, Channel.step_settled settling count]
    exact ⟨rfl, rfl, rfl⟩
  · have extreme' := (isOverrange_iff _).mpr extreme
    obtain ⟨advanced, instant, -, service⟩ := afterLcu_lcu t r s
    have record := advanced c
    rw [present, Channel.step_fortieth active extreme' (by omega)] at record
    refine ⟨_, instantTime (s.advance t), exec_overrangeFault on (by simp [overranges, active, count, present, extreme']) t, ?_⟩
    rw [sample_poison, sample_lcu, record]
    refine ⟨instant, rfl, by rw [count], rfl, rfl, fun fitted => ?_, fun opened => ?_⟩
    · rw [service, serviceConditions_inactive (c := c) (by rw [record]; exact fitted) (by rw [record]; exact nofun)]
      rfl
    · obtain ⟨meu, -, -, axt, -⟩ :=
        (lcuInstant_took (instantTime (s.advance t)) r ((s.advance t).advance (instantTime (s.advance t)))).blocks
      have opened' : (afterLcu t r s).isOpen = true := (congrArg (·.passage.isSome) axt).trans opened
      have stands : (afterLcu t r s).meu = s.meu := meu
      have onset : ∀ d ∈ channels, platformOfChannel d = platformOfChannel c →
          becameFaulted (s.lcu.channels.get d) ((afterLcu t r s).lcu.channels.get d) = true →
          ((afterLcu t r s).lcu.channels.get d).onset = some (instantTime (s.advance t) - 390) := fun d _ same => by
        rw [advanced d, same, present]
        exact Channel.step_present_onset
      have named : ∃ d ∈ channels, platformOfChannel d = platformOfChannel c ∧
          becameFaulted (s.lcu.channels.get d) ((afterLcu t r s).lcu.channels.get d) = true :=
        ⟨c, mem_channels c, rfl, becameFaulted_iff.mpr ⟨by rw [active]; decide, by rw [record]⟩⟩
      rw [noticeFaults_foldl, noticeFault_foldl_poison _ onset _ rfl opened', if_pos named, stands]
      rfl

end Sys2Proof.Machine
end

