-- ==== Sys2Proof/Proofs/PlatformService.lean ====
section
/-! PROOFS. Platform service, the fitted-channel pattern and the channel requests (R19 to R23). -/

namespace Sys2Proof.Machine

/-! ### The fitted-channel pattern (R20) -/

theorem applyPattern_channels (t : Nat) (pattern : Int) (s : State) (c : Fin 8) :
    (applyPattern t pattern s).lcu.channels.get c = (s.lcu.channels.get c).refit (inPattern pattern c) := by
  obtain ⟨x, y, z, n, evaluated, channels, -⟩ := applyPattern_evaluated t pattern s
  rw [evaluated]
  show x.channels.get c = _
  rw [channels]
  exact get_ofFn _ c

theorem Channel.refit_fitted (ch : Channel) (fitted : Bool) : (ch.refit fitted).fitted = fitted := by
  unfold refit
  split <;> simp_all

/-! ### One platform (R19) -/

/-- The four conditions hold. -/
theorem serviceConditions_all {s : State} {p : Platform} : (serviceConditions s p).all id = true ↔
    s.cal.state = .valid ∧ s.fittedOf (channelsOf p) ≠ [] ∧ (∀ c ∈ s.fittedOf (channelsOf p), (s.lcu.channels.get c).state = .active) ∧
      (s.lcu.platforms.get p).sense = .present := by
  simp [serviceConditions, List.all_eq_true]

theorem evalPlatform_unchanged {s : State} {p : Platform}
    (h : (s.lcu.platforms.get p).service = (if (serviceConditions s p).all id then .inService else .out)) (t : Nat) :
    evalPlatform t p s = s := by
  unfold evalPlatform
  simp only
  cases holds : (serviceConditions s p).all id <;> simp [h, holds]

theorem evalPlatform_restored {s : State} {p : Platform} (out : (s.lcu.platforms.get p).service = .out)
    (holds : (serviceConditions s p).all id = true) (t : Nat) :
    evalPlatform t p s = evalPermit (setService p .inService s) := by
  simp only [evalPlatform, out, holds]

theorem evalPlatform_lost {s : State} {p : Platform} (started : s.condition ≠ .starting)
    (served : (s.lcu.platforms.get p).service = .inService) (fails : (serviceConditions s p).all id = false) {n : Nat}
    (first : firstFailed (serviceConditions s p) = n) (t : Nat) : evalPlatform t p s =
      evalPermit (takeFault ⟨.platformOut, t, s.openNumber, some (.platform p), some (.number n)⟩ (setService p .out s)) := by
  simp only [evalPlatform, served, fails, first]
  rw [reportFault_started (by exact started)]
  rfl

/-! ### The channels of an instant (R14, R25) -/

theorem advanceChannel_started {s : State} (started : s.condition ≠ .starting) (t : Nat) (r : Readings) (c : Fin 8) :
    advanceChannel t r c s =
      if becameFaulted (s.lcu.channels.get c) ((s.lcu.channels.get c).step t (r.raw.get c) (r.sense.get (platformOfChannel c))) then
        takeFault ⟨.channelFault, t, s.openNumber, some (.channel c),
            channelDetail ((s.lcu.channels.get c).step t (r.raw.get c) (r.sense.get (platformOfChannel c)))⟩
          (s.setChannels (s.lcu.channels.set c ((s.lcu.channels.get c).step t (r.raw.get c) (r.sense.get (platformOfChannel c)))))
      else s.setChannels (s.lcu.channels.set c ((s.lcu.channels.get c).step t (r.raw.get c) (r.sense.get (platformOfChannel c)))) := by
  unfold advanceChannel
  simp only
  rw [reportFault_started (by exact started)]
  rfl

/-- A platform whose sense is ABSENT has one place among the faults of an instant (R16). -/
theorem faultSlot_absent {r : Readings} {c d : Fin 8} (same : platformOfChannel c = platformOfChannel d)
    (absent : r.sense.get (platformOfChannel c) = .absent) : faultSlot r c = faultSlot r d := by
  rw [faultSlot, faultSlot, if_pos absent, if_pos (same ▸ absent), same]

/-- The first of the four conditions that failed. -/
theorem firstFailed_four (a b c d : Bool) : firstFailed [a, b, c, d] =
    if a then if b then if c then if d then 1 else 4 else 3 else 2 else 1 := by
  cases a <;> cases b <;> cases c <;> cases d <;> rfl

theorem serviceConditions_fail {s : State} {p : Platform} (h : ¬ (s.cal.state = .valid ∧ s.fittedOf (channelsOf p) ≠ [] ∧
    (∀ c ∈ s.fittedOf (channelsOf p), (s.lcu.channels.get c).state = .active) ∧ (s.lcu.platforms.get p).sense = .present)) :
    (serviceConditions s p).all id = false :=
  Bool.eq_false_iff.mpr fun all => h (serviceConditions_all.mp all)

/-- Settles O21. -/
theorem platformServiceFollowsItsConditions : Obligations.PlatformServiceFollowsItsConditions := by
  refine ⟨fun s t pattern c => ?_, fun s t pattern => ?_, fun s t => ⟨(platformsInOrder s).1, (platformsInOrder s).2, ?_, evalPlatforms_eq t s⟩,
    fun s t p => ⟨fun out => ⟨fun holds => ?_, fun fails => ?_⟩, fun served => ⟨fun holds => ?_, fun started => ?_⟩⟩,
    fun s t r => ⟨takeSenses t r.sense s, channelOrder t r (takeSenses t r.sense s), rfl, rfl, fun p => ?_,
      channelOrder_perm _ _ _, ?_, ?_⟩,
    fun s t r c started => ?_, fun s low => ⟨evalPermit_permitOk low, ?_, fun changed => ?_, fun same => ?_⟩⟩
  · rw [applyPattern_channels]
    refine ⟨Channel.refit_fitted _ _, fun was is => ?_, fun was is => ?_, fun was is => ?_, fun was is => ?_⟩ <;>
      simp [Channel.refit, was, is]
  · have channels : (applyPattern t pattern s).lcu.channels = .ofFn fun c => (s.lcu.channels.get c).refit (inPattern pattern c) :=
      PerChannel.ext_get fun c => (applyPattern_channels t pattern s c).trans (by rw [get_ofFn])
    rw [channels]
    rfl
  · rcases platformsInOrder_cases s with order | order <;> rw [order] <;> decide
  · exact evalPlatform_restored out (serviceConditions_all.mpr holds) t
  · exact evalPlatform_unchanged (by rw [out, if_neg (fun h => fails (serviceConditions_all.mp h))]) t
  · exact evalPlatform_unchanged (by rw [served, if_pos (serviceConditions_all.mpr holds)]) t
  · refine ⟨fun invalid => evalPlatform_lost started served (serviceConditions_fail fun h => invalid h.1) ?_ t,
      fun valid unfitted => evalPlatform_lost started served (serviceConditions_fail fun h => h.2.1 unfitted) ?_ t,
      fun valid fitted inactive => evalPlatform_lost started served (serviceConditions_fail fun h => inactive h.2.2.1) ?_ t,
      fun valid fitted active unsensed => evalPlatform_lost started served (serviceConditions_fail fun h => unsensed h.2.2.2) ?_ t⟩ <;>
      rw [serviceConditions, firstFailed_four]
    · rw [if_neg (by simpa using invalid)]
    · rw [if_pos (by simpa using valid), if_neg (by simpa [State.fittedOf] using unfitted)]
    · rw [if_pos (by simpa using valid), if_pos (by simpa [State.fittedOf] using fitted), if_neg (by simpa [State.fittedOf] using inactive)]
    · have all : ((s.fittedOf (channelsOf p)).all fun c => decide ((s.lcu.channels.get c).state = .active)) = true :=
        List.all_eq_true.mpr fun c hc => decide_eq_true (active c hc)
      rw [if_pos (by simpa using valid), if_pos (by simpa [State.fittedOf] using fitted), if_pos all, if_neg (by simpa using unsensed)]
  · cases p <;> exact ⟨rfl, rfl⟩
  · exact (channelOrder_ascending _ _ _).imp fun ascending same absent => ascending (faultSlot_absent same absent)
  · rw [lcuInstant, advanceChannels_eq]
    rfl
  · rw [advanceChannel_started started]
    simp only [becameFaulted_iff]
    rfl
  · rw [evalPermit_ptb]
  · rw [evalPermit_fau, if_neg changed]
    rfl
  · rw [evalPermit_fau, if_pos same]

/-! ### The channel requests (R21 to R23) -/

theorem channelNamed_val (c : Fin 8) : channelNamed c.val = some c := dif_pos c.isLt

theorem channelNamed_beyond {n : Nat} (h : 7 < n) : channelNamed n = none := dif_neg (by omega)

theorem State.taking_channelData (s : State) (t : Nat) (c : Fin 8) : channelData (s.taking t) c = channelData s c := by
  simp [channelData, channelLoad]

theorem enableNamed_off {s : State} {c : Fin 8} (closed : s.isOpen = false) (fitted : (s.lcu.channels.get c).fitted = true)
    (off : (s.lcu.channels.get c).state = .off) :
    enableNamed c s = (evalPlatforms s.timebase (updChannel c .enable s), .ok []) := by
  simp [enableNamed, closed, fitted, off]

/-- A channel taken out of service: its working zero returns to its reference zero, and the platform's block is discarded. -/
theorem returnZero_eq (c : Fin 8) (s : State) : returnZero c s = s.setZcl { s.zcl with
    zeros := s.zcl.zeros.set c (s.cal.working.zero.get c)
    platforms := s.zcl.platforms.set (platformOfChannel c) { s.zcl.platforms.get (platformOfChannel c) with block := Block.empty } } := rfl

theorem updChannel_taking (c : Fin 8) (f : Channel → Channel) (s : State) (t : Nat) : updChannel c f (s.taking t) =
    (s.taking t).setLcu { s.lcu with channels := s.lcu.channels.set c (f (s.lcu.channels.get c)) } := by
  rw [updChannel, State.setChannels, State.taking_lcu]

theorem disableNamed_fitted {s : State} {c : Fin 8} (closed : s.isOpen = false) (fitted : (s.lcu.channels.get c).fitted = true) :
    disableNamed c s = (evalPlatforms s.timebase (returnZero c (updChannel c .disable s)), .ok []) := by
  simp [disableNamed, closed, fitted]

/-- What a re-evaluation of the platforms leaves of the other blocks. -/
theorem evalPlatforms_frame (t : Nat) (s : State) : (evalPlatforms t s).slk = s.slk ∧ (evalPlatforms t s).zcl = s.zcl ∧
    (evalPlatforms t s).cal = s.cal ∧ (evalPlatforms t s).axt = s.axt ∧ (evalPlatforms t s).wrg = s.wrg ∧
    (evalPlatforms t s).lcu.channels = s.lcu.channels ∧ (evalPlatforms t s).ptb.slots = s.ptb.slots := by
  obtain ⟨x, y, z, n, evaluated, channels, -, slots, -⟩ := evalPlatforms_evaluated t s
  rw [evaluated]
  exact ⟨rfl, rfl, rfl, rfl, rfl, channels, slots⟩

/-- Settles O22. -/
theorem channelRequestsAreServed : Obligations.ChannelRequestsAreServed := by
  refine ⟨fun s t g hs => ⟨fun n beyond => ?_, fun c => ⟨?_, length_channelData s c, rfl⟩⟩,
    fun s t g hs => ⟨fun n beyond => ?_, fun c => ⟨fun opened => ?_, fun closed unfitted => ?_, fun closed fitted faulted => ?_,
      fun closed fitted running => ?_, fun closed fitted off => ?_⟩⟩,
    fun s t g hs => ⟨fun n beyond => ?_, fun c => ⟨fun opened => ?_, fun closed unfitted => ?_, fun closed fitted => ?_⟩⟩⟩
  · exact serving_answer hs (a := chanReadDo n) (x := .bad) (by simp [chanReadDo, answer, channelNamed_beyond beyond])
  · exact serving_answer hs (a := chanReadDo c.val) (x := .ok (channelData s c)) (by
      simp [chanReadDo, answer, channelNamed_val, State.taking_channelData])
  · exact serving_answer hs (a := chanEnableDo n) (x := .bad) (by simp [chanEnableDo, answer, channelNamed_beyond beyond])
  · exact serving_answer hs (a := chanEnableDo c.val) (x := .bare .passageOpen) (by
      simp [chanEnableDo, channelNamed_val, enableNamed, opened])
  · exact serving_answer hs (a := chanEnableDo c.val) (x := .bad) (by
      simp [chanEnableDo, channelNamed_val, enableNamed, closed, unfitted])
  · exact serving_answer hs (a := chanEnableDo c.val) (x := .bare .state) (by
      simp [chanEnableDo, channelNamed_val, enableNamed, closed, fitted, faulted])
  · exact serving_answer hs (a := chanEnableDo c.val) (x := .ok []) (by
      rcases running with state | state <;> simp [chanEnableDo, channelNamed_val, enableNamed, closed, fitted, state])
  · obtain ⟨slk, zcl, cal, axt, wrg, channels, slots⟩ := evalPlatforms_frame (s.taking t).timebase (updChannel c .enable (s.taking t))
    refine ⟨_, serving_done hs (a := chanEnableDo c.val) (x := .ok []) (by
      rw [chanEnableDo, channelNamed_val]
      exact enableNamed_off (by simpa using closed) (by simpa using fitted) (by simpa using off)) slk, rfl, ?_⟩
    rw [updChannel_taking] at zcl cal axt wrg channels slots ⊢
    exact ⟨channels, zcl.trans (State.taking_zcl s t), cal.trans (State.taking_cal s t), axt.trans (State.taking_axt s t),
      wrg.trans (State.taking_wrg s t), slots.trans (congrArg Ptb.slots (State.taking_ptb s t)), rfl⟩
  · exact serving_answer hs (a := chanDisableDo n) (x := .bad) (by simp [chanDisableDo, answer, channelNamed_beyond beyond])
  · exact serving_answer hs (a := chanDisableDo c.val) (x := .bare .passageOpen) (by
      simp [chanDisableDo, channelNamed_val, disableNamed, opened])
  · exact serving_answer hs (a := chanDisableDo c.val) (x := .bad) (by
      simp [chanDisableDo, channelNamed_val, disableNamed, closed, unfitted])
  · obtain ⟨slk, zcl, cal, axt, wrg, channels, slots⟩ :=
      evalPlatforms_frame (s.taking t).timebase (returnZero c (updChannel c .disable (s.taking t)))
    refine ⟨_, serving_done hs (a := chanDisableDo c.val) (x := .ok []) (by
      rw [chanDisableDo, channelNamed_val]
      exact disableNamed_fitted (by simpa using closed) (by simpa using fitted)) slk, rfl, ?_⟩
    rw [updChannel_taking, returnZero_eq] at zcl cal axt wrg channels slots ⊢
    simp only [State.setLcu_zcl, State.setLcu_cal, State.taking_zcl, State.taking_cal] at zcl cal axt wrg channels slots ⊢
    refine ⟨channels, congrArg Zcl.zeros zcl, ?_, cal.trans (State.taking_cal s t), axt.trans (State.taking_axt s t),
      wrg.trans (State.taking_wrg s t), slots.trans (congrArg Ptb.slots (State.taking_ptb s t)), rfl⟩
    refine (evalPlatforms_service _ (platformOfChannel c) _).1.trans ?_
    rw [serviceConditions_inactive (c := c)]
    · rfl
    · simpa [PerChannel.get_set, Channel.disable] using fitted
    · simp [PerChannel.get_set, Channel.disable]

end Sys2Proof.Machine
end

