-- ==== Sys2Proof/Proofs/ZeroInstants.lean ====
section
/-! PROOFS. A full acquisition and a full tracking block at a sampling instant (R98 to R103). -/

namespace Sys2Proof.Machine

/-! ### What the FAU keeps: the attention raised and the faults counted -/

/-- No attention bit is cleared and no count falls. -/
structure FauGrew (s s' : State) : Prop where
  raised : ∀ i, s.fau.attention.getLsbD i = true → s'.fau.attention.getLsbD i = true
  counted : ∀ i n : Nat, s.fau.counts[i]? = some n → ∃ m, n ≤ m ∧ s'.fau.counts[i]? = some m

theorem FauGrew.of_eq {s s' : State} (h : s'.fau = s.fau) : FauGrew s s' :=
  ⟨fun _ hi => h ▸ hi, fun _ n hn => ⟨n, Nat.le_refl n, h ▸ hn⟩⟩

theorem FauGrew.refl (s : State) : FauGrew s s := .of_eq rfl

theorem FauGrew.trans {s m s' : State} (h : FauGrew s m) (k : FauGrew m s') : FauGrew s s' := by
  refine ⟨fun i hi => k.raised i (h.raised i hi), fun i n hn => ?_⟩
  obtain ⟨x, hx, mid⟩ := h.counted i n hn
  obtain ⟨y, hy, last⟩ := k.counted i x mid
  exact ⟨y, Nat.le_trans hx hy, last⟩

/-- What leaves the FAU as it stands may come first. -/
theorem FauGrew.after {s m s' : State} (k : FauGrew m s') (h : m.fau = s.fau) : FauGrew s s' := (FauGrew.of_eq h).trans k

theorem FauGrew.foldl {α : Type} {f : State → α → State} (h : ∀ s a, FauGrew s (f s a)) (l : List α) :
    ∀ s, FauGrew s (l.foldl f s) := by
  induction l with
  | nil => exact FauGrew.refl
  | cons a l ih => exact fun s => (h s a).trans (ih _)

theorem FauGrew.raise (b : AttBit) (s : State) : FauGrew s (raiseAtt b s) :=
  ⟨fun i hi => by simp [raiseAtt, evalAttn, hi], fun i n hn => ⟨n, Nat.le_refl n, hn⟩⟩

theorem FauGrew.fault (o : FaultOcc) (s : State) : FauGrew s (reportFault o s) := by
  unfold reportFault
  split
  · refine ⟨fun i hi => ?_, fun i n hn => ?_⟩
    · rw [takeFault_fau]
      split
      · exact hi
      · simp [hi]
    · rw [takeFault_counts, getElem?_updateAt, hn]
      split
      · refine ⟨_, ?_, rfl⟩
        unfold satSucc
        split <;> omega
      · exact ⟨n, Nat.le_refl n, rfl⟩
  · exact ⟨fun _ hi => hi, fun _ n hn => ⟨n, Nat.le_refl n, hn⟩⟩

theorem FauGrew.permit (s : State) : FauGrew s (evalPermit s) := by
  refine ⟨fun i hi => ?_, fun i n hn => ⟨n, Nat.le_refl n, ?_⟩⟩ <;> rw [evalPermit_fau] <;> split
  · exact hi
  · simp [hi]
  · exact hn
  · exact hn

theorem FauGrew.completion (t : Nat) (hold : Bool) (s : State) : FauGrew s (reportCompletion t hold s) := by
  have counts : ∀ u : State, FauGrew u (countCompletion t u) := fun u => by
    unfold countCompletion
    simp only
    split
    · unfold fireTrigger
      refine (show FauGrew u (u.setFau _) from ?_).trans (FauGrew.raise _ _)
      exact ⟨fun i hi => hi, fun i n hn => ⟨n, Nat.le_refl n, hn⟩⟩
    · exact ⟨fun i hi => hi, fun i n hn => ⟨n, Nat.le_refl n, hn⟩⟩
  refine FauGrew.trans ?_ (counts _)
  split
  · exact .raise _ _
  · exact .refl s

theorem noticeAxle_grew (t i : Nat) (s : State) : FauGrew s (noticeAxle t i s) := by
  unfold noticeAxle
  split
  · exact .refl s
  · split
    · exact .refl s
    · unfold noticeRecord
      simp only
      split
      · split
        · exact (FauGrew.completion _ _ _).after (by rfl)
        · exact .of_eq rfl
      · split <;> exact .of_eq rfl
      · exact .refl s

theorem meuNotice_grew (p : Platform) (t : Nat) (s : State) : FauGrew s (meuNotice p t s) := by
  have each : ∀ u i, FauGrew u (recombine i u) := fun u i => by
    unfold recombine
    split
    · exact .refl u
    · split
      · simp only
        split
        · exact .refl u
        · exact (noticeAxle_grew _ _ _).after (by rfl)
      · exact .refl u
  unfold meuNotice
  split
  · simp only
    unfold poisonTrain
    exact (FauGrew.foldl each _ _).after (by rfl)
  · exact .refl s

theorem noticeFaults_grew (old : PerChannel Channel) (s : State) : FauGrew s (noticeFaults old s) := by
  refine FauGrew.foldl (fun u c => ?_) _ _
  simp only
  split
  · exact meuNotice_grew _ _ _
  · exact .refl u

theorem evalPlatform_grew (t : Nat) (p : Platform) (s : State) : FauGrew s (evalPlatform t p s) := by
  unfold evalPlatform
  simp only
  split
  · exact ((FauGrew.fault _ _).trans (.permit _)).after (by rfl)
  · exact (FauGrew.permit _).after (by rfl)
  · exact .refl s

theorem lcuInstant_grew (t : Nat) (r : Readings) (s : State) : FauGrew s (lcuInstant t r s) := by
  have each : ∀ u c, FauGrew u (advanceChannel t r c u) := fun u c => by
    unfold advanceChannel
    simp only
    split
    · exact (FauGrew.fault _ _).after (by rfl)
    · exact .of_eq rfl
  unfold lcuInstant
  rw [advanceChannels_eq, evalPlatforms_eq]
  have advanced : ∀ l, FauGrew s (advanceAll t r l (takeSenses t r.sense s)) := fun l =>
    (FauGrew.foldl each l (takeSenses t r.sense s)).after (by rfl)
  exact (((advanced _).trans (evalPlatform_grew _ _ _)).trans (evalPlatform_grew _ _ _)).trans (.of_eq (by rfl))

theorem endAcquisition_grew (p : Platform) (r : AcqResult) (s : State) : FauGrew s (endAcquisition p r s) :=
  (FauGrew.raise _ _).after (by rfl)

theorem finishAcquisition_grew (p : Platform) (s : State) : FauGrew s (finishAcquisition p s) := by
  unfold finishAcquisition
  simp only
  split
  · exact (endAcquisition_grew _ _ _).after (by rfl)
  · exact endAcquisition_grew _ _ _

theorem judgeBlock_grew (p : Platform) (s : State) : FauGrew s (judgeBlock p s) := by
  have near : ∀ b u, FauGrew u (nearZero p b u) := fun b u => by
    unfold nearZero
    simp only
    split
    · exact (FauGrew.fault _ _).after (by rfl)
    · exact .of_eq rfl
  have off : ∀ x u, FauGrew u (offZero p x u) := fun x u => by
    unfold offZero
    simp only
    split
    · exact (FauGrew.fault _ _).after (by rfl)
    · exact .of_eq rfl
  unfold judgeBlock
  simp only
  split
  · exact .of_eq rfl
  · split
    · exact (near _ _).after (by rfl)
    · exact (off _ _).after (by rfl)

theorem zclInstant_grew (p : Platform) (raw : PerChannel Int) (s : State) : FauGrew s (zclInstant p raw s) := by
  unfold zclInstant
  simp only
  split
  · unfold endIfInHand
    split
    · exact .of_eq rfl
    · exact (endAcquisition_grew _ _ _).after (by rfl)
  · split
    · split
      · unfold collectInstant
        simp only
        split
        · exact (finishAcquisition_grew _ _).after (by rfl)
        · exact .of_eq rfl
      · exact .of_eq rfl
    · exact .of_eq rfl
    · split
      · exact .of_eq rfl
      · split
        · unfold trackInstant
          simp only
          split
          · exact (judgeBlock_grew _ _).after (by rfl)
          · exact .of_eq rfl
        · exact .refl s

end Sys2Proof.Machine
end

