-- ==== Sys2Proof/Proofs/ZeroDecisions.lean ====
section
/-! PROOFS. What a full acquisition and a full tracking block decide (R99, R102, R103). -/

namespace Sys2Proof.Machine

/-! ### The state in which the ZCL takes an instant for a platform -/

/-- What a state gives the ZCL for one platform: all as at the start of the instant, with the LCU's decision whether it is
quiet. -/
structure InstantFor (p : Platform) (quietNow : Bool) (s u : State) : Prop where
  platform : u.zcl.platforms.get p = s.zcl.platforms.get p
  zeros : ∀ c ∈ channelsOf p, u.zcl.zeros.get c = s.zcl.zeros.get c
  fitted : ∀ cs, u.fittedOf cs = s.fittedOf cs
  cal : u.cal = s.cal
  condition : u.condition = s.condition
  quiet : quiet u p = quietNow
  fau : FauGrew s u

/-- The other platform's taking of the instant is nothing to this one's. -/
theorem InstantFor.other {p q : Platform} {b : Bool} {s u : State} (h : InstantFor p b s u) (ne : q ≠ p) (raw : PerChannel Int) :
    InstantFor p b s (zclInstant q raw u) := by
  have took := zclInstant_took q raw u
  obtain ⟨lcu, -, cal, axt, wsu, -, -, condition, -⟩ := took.blocks
  refine ⟨(took.other p ne.symm).trans h.platform, fun c hc => ?_, fun cs => (took.fitted cs).trans (h.fitted cs), cal.trans h.cal,
    condition.trans h.condition, ?_, h.fau.trans (zclInstant_grew _ _ _)⟩
  · exact (took.zeros c (by rw [mem_channelsOf.mp hc]; exact ne.symm)).trans (h.zeros c hc)
  · rw [← h.quiet]
    simp only [Machine.quiet, State.isOpen, State.holdsPending, lcu, axt, wsu]

/-- An instant, as the ZCL takes it for one platform. -/
theorem sample_zcl (t : Nat) (p : Platform) (r : Readings) (s : State) : ∃ u, InstantFor p (quiet (afterLcu t r s) p) s u ∧
    (sample t r s).zcl.platforms.get p = (zclInstant p r.raw u).zcl.platforms.get p ∧
    (∀ c ∈ channelsOf p, (sample t r s).zcl.zeros.get c = (zclInstant p r.raw u).zcl.zeros.get c) ∧
    FauGrew (zclInstant p r.raw u) (sample t r s) := by
  obtain ⟨w, before, whole⟩ : ∃ w, InstantFor p (quiet (afterLcu t r s) p) s w ∧ sample t r s = zclPlatforms r.raw w := by
    have frame := (lcuInstant_took (instantTime (s.advance t)) r ((s.advance t).advance (instantTime (s.advance t)))).blocks
    have led : FauGrew s (afterLcu t r s) :=
      (lcuInstant_grew (instantTime (s.advance t)) r ((s.advance t).advance (instantTime (s.advance t)))).after rfl
    obtain ⟨-, zcl, cal, axt, wsu, -, condition, -⟩ : _ ∧ (afterLcu t r s).zcl = s.zcl ∧ (afterLcu t r s).cal = s.cal ∧ _ ∧ _ ∧ _ ∧
      (afterLcu t r s).condition = s.condition ∧ _ := frame
    have noticed := noticeFaults_noticed s.lcu.channels (afterLcu t r s)
    have standing := (noticeFaults_kept (p := false) (o := false) s.lcu.channels (afterLcu t r s)).condition
    refine ⟨meuInstant (instantTime (s.advance t)) r (noticeFaults s.lcu.channels (afterLcu t r s)), ?_, rfl⟩
    refine ⟨?_, fun c _ => ?_, fun cs => ?_, noticed.cal.trans cal, standing.trans condition, ?_,
      (led.trans (noticeFaults_grew _ _)).trans (.of_eq (by rfl))⟩
    · exact congrArg (·.platforms.get p) (noticed.zcl.trans zcl)
    · exact congrArg (·.zeros.get c) (noticed.zcl.trans zcl)
    · refine (congrArg (fun x : Lcu => cs.filter fun c => (x.channels.get c).fitted) noticed.lcu).trans ?_
      exact fittedOf_step (fun c => by rw [(afterLcu_lcu t r s).1 c]; exact (Channel.step_frame _ _ _ _).2) cs
    · show quiet (noticeFaults s.lcu.channels (afterLcu t r s)) p = _
      simp only [quiet, State.isOpen, State.holdsPending, noticed.lcu, noticed.passage, noticed.wsu]
  obtain ⟨f, g, ne, order⟩ := zclPlatforms_order r.raw w
  rw [whole, order]
  by_cases first : f = p
  · have took := zclInstant_took g r.raw (zclInstant f r.raw w)
    subst first
    refine ⟨w, before, took.other f ne.symm, fun c hc => took.zeros c ?_, zclInstant_grew _ _ _⟩
    rw [mem_channelsOf.mp hc]
    exact ne.symm
  · have second : g = p := by cases f <;> cases g <;> cases p <;> simp_all
    subst second
    exact ⟨_, before.other first r.raw, rfl, fun _ _ => rfl, .refl _⟩

theorem updZcl_get (p : Platform) (f : ZclPlatform → ZclPlatform) (s : State) :
    (updZcl p f s).zcl.platforms.get p = f (s.zcl.platforms.get p) := by
  show (s.zcl.platforms.set p _).get p = _
  rw [PerPlatform.get_set, if_pos rfl]

theorem quiet_inService {s : State} {p : Platform} (h : quiet s p = true) : (s.lcu.platforms.get p).service = .inService := by
  simp only [quiet, Bool.and_eq_true, decide_eq_true_eq] at h
  exact h.1.1.2

/-- The platform load takes the zeros of the channels it sums. -/
theorem platformLoad_congr {raw gain x y : PerChannel Int} {cs : List (Fin 8)} (h : ∀ c ∈ cs, x.get c = y.get c) :
    platformLoad raw x gain cs = platformLoad raw y gain cs := by
  unfold platformLoad
  rw [List.map_congr_left fun c hc => by rw [h c hc]]

theorem setChans_congr {f g : Fin 8 → Int} {cs : List (Fin 8)} (h : ∀ c ∈ cs, f c = g c) (x : PerChannel Int) :
    setChans f cs x = setChans g cs x := by
  unfold setChans
  induction cs generalizing x with
  | nil => rfl
  | cons c cs ih =>
    rw [List.foldl_cons, List.foldl_cons, h c List.mem_cons_self]
    exact ih (fun d hd => h d (List.mem_cons_of_mem c hd)) _

theorem mem_fittedOf {s : State} {cs : List (Fin 8)} {c : Fin 8} :
    c ∈ s.fittedOf cs ↔ c ∈ cs ∧ (s.lcu.channels.get c).fitted = true := List.mem_filter

/-! ### A full acquisition (R98, R99) -/

/-- The quiet instant that is collected last ends the acquisition. -/
theorem zclInstant_collected {u : State} {p : Platform} {raw : PerChannel Int} {cs : List (Fin 8)} {load : Int}
    (quietly : quiet u p = true) (collecting : (u.zcl.platforms.get p).acq.state = .collecting)
    (last : 1999 ≤ (u.zcl.platforms.get p).acq.count) (fitted : u.fittedOf (channelsOf p) = cs)
    (loaded : platformLoad raw u.zcl.zeros u.cal.working.gain cs = load) : zclInstant p raw u =
      finishAcquisition p (updZcl p (fun z => { z with acq := z.acq.collect raw cs load }) (discardBlock p u)) := by
  have still : quiet (discardBlock p u) p = true := quietly
  have full : ∀ v : State, 1999 ≤ (v.zcl.platforms.get p).acq.count → v.fittedOf (channelsOf p) = cs → collectInstant p raw load v =
      finishAcquisition p (updZcl p (fun z => { z with acq := z.acq.collect raw cs load }) v) := fun v count same => by
    unfold collectInstant
    simp only [same]
    rw [if_pos]
    rw [updZcl_get]
    exact Nat.succ_le_succ count
  unfold zclInstant
  simp only [quiet_inService quietly, collecting, fitted, loaded]
  rw [if_neg (by decide), if_pos still]
  exact full _ (by rw [discardBlock, updZcl_get]; exact last) fitted

/-- What the end of an acquisition leaves (R99). -/
theorem finishAcquisition_spec (p : Platform) (w : State) {r : AcqResult}
    (result : (w.zcl.platforms.get p).acq.decide w.cal.working (w.fittedOf (channelsOf p)) = r) :
    ((finishAcquisition p w).zcl.platforms.get p).acq.state = .idle ∧
    ((finishAcquisition p w).zcl.platforms.get p).acq.last = some r ∧
    (finishAcquisition p w).fau.attention.getLsbD 4 = true ∧
    (r = .accepted → ((finishAcquisition p w).zcl.platforms.get p).zeroState = .good ∧
      ((finishAcquisition p w).zcl.platforms.get p).offZero = 0 ∧
      (finishAcquisition p w).zcl.zeros = setChans (w.zcl.platforms.get p).acq.zeroOf (w.fittedOf (channelsOf p)) w.zcl.zeros) ∧
    (r ≠ .accepted → ((finishAcquisition p w).zcl.platforms.get p).zeroState = (w.zcl.platforms.get p).zeroState ∧
      (finishAcquisition p w).zcl.zeros = w.zcl.zeros) := by
  have ended : ∀ v : State, (endAcquisition p r v).zcl.platforms.get p =
      { v.zcl.platforms.get p with acq := { (v.zcl.platforms.get p).acq with state := .idle, last := some r } } ∧
      (endAcquisition p r v).zcl.zeros = v.zcl.zeros ∧ (endAcquisition p r v).fau.attention.getLsbD 4 = true := fun v => by
    refine ⟨?_, rfl, by simp [endAcquisition, raiseAtt, evalAttn, attSet, attNum]⟩
    show (updZcl p (fun z => { z with acq := { z.acq with state := .idle, last := some r } }) v).zcl.platforms.get p = _
    rw [updZcl_get]
  unfold finishAcquisition
  simp only [result]
  by_cases accepted : r = .accepted
  · rw [if_pos accepted]
    obtain ⟨platform, zeros, raised⟩ := ended (updZcl p (fun z => { z with zeroState := .good, offZero := 0 })
      (setZeros (w.fittedOf (channelsOf p)) (w.zcl.platforms.get p).acq.zeroOf w))
    rw [platform, zeros, updZcl_get]
    exact ⟨rfl, rfl, raised, fun _ => ⟨rfl, rfl, rfl⟩, fun rejected => absurd accepted rejected⟩
  · rw [if_neg accepted]
    obtain ⟨platform, zeros, raised⟩ := ended w
    rw [platform, zeros]
    exact ⟨rfl, rfl, raised, fun h => absurd h accepted, fun _ => ⟨rfl, rfl⟩⟩

/-! ### A full tracking block (R101 to R103) -/

theorem Block.add_congr {raw x y : PerChannel Int} {cs : List (Fin 8)} (h : ∀ c ∈ cs, x.get c = y.get c) (b : Block) (load : Int) :
    b.add raw x cs load = b.add raw y cs load := by
  unfold Block.add
  rw [setChans_congr fun c hc => by rw [h c hc]]

theorem deviation_congr {f g : Fin 8 → Int} {cs : List (Fin 8)} (h : ∀ c ∈ cs, f c = g c) (x : CalSet) :
    deviation x cs f = deviation x cs g := by
  unfold deviation
  rw [List.map_congr_left fun c hc => by rw [h c hc]]

/-- The quiet instant that fills a block has it judged. -/
theorem zclInstant_filled {u : State} {p : Platform} {raw : PerChannel Int} {cs : List (Fin 8)} {load : Int}
    (quietly : quiet u p = true) (idle : (u.zcl.platforms.get p).acq.state = .idle)
    (last : 1999 ≤ (u.zcl.platforms.get p).block.count) (fitted : u.fittedOf (channelsOf p) = cs)
    (loaded : platformLoad raw u.zcl.zeros u.cal.working.gain cs = load) : zclInstant p raw u =
      judgeBlock p (updZcl p (fun z => { z with block := z.block.add raw u.zcl.zeros cs load }) u) := by
  unfold zclInstant
  simp only [quiet_inService quietly, idle, fitted, loaded]
  rw [if_neg (by decide), if_neg (by simp [quiet_closed quietly]), if_pos quietly]
  unfold trackInstant
  simp only [fitted]
  rw [if_pos]
  rw [updZcl_get]
  exact Nat.succ_le_succ last

theorem exceedsRange_iff {c : CalSet} {dev : Int} : exceedsRange c dev = true ↔ c.zeroRange * 16777216 < (dev.natAbs : Int) :=
  decide_eq_true_iff

/-- A near-zero block whose zeros would exceed the zero range (R102). -/
theorem nearZero_drift {p : Platform} {b : Block} {s : State} {z : Fin 8 → Int} {dev : Int}
    (zero : z = fun c => s.zcl.zeros.get c + roundDiv (b.sums.get c) 2000)
    (deviates : deviation s.cal.working (s.fittedOf (channelsOf p)) z = dev)
    (exceeds : s.cal.working.zeroRange * 16777216 < (dev.natAbs : Int)) : nearZero p b s =
      reportFault ⟨.zeroDrift, s.timebase, none, some (.platform p), some (.number (roundDiv dev 16777216))⟩
        (updZcl p (fun x => { x with offZero := 0 }) s) := by
  unfold nearZero
  simp only [← zero, deviates]
  exact if_pos (exceedsRange_iff.mpr exceeds)

/-- A near-zero block whose zeros stand within the zero range (R102). -/
theorem nearZero_moves {p : Platform} {b : Block} {s : State} {z : Fin 8 → Int} {dev : Int}
    (zero : z = fun c => s.zcl.zeros.get c + roundDiv (b.sums.get c) 2000)
    (deviates : deviation s.cal.working (s.fittedOf (channelsOf p)) z = dev)
    (within : (dev.natAbs : Int) ≤ s.cal.working.zeroRange * 16777216) : nearZero p b s =
      setZeros (s.fittedOf (channelsOf p)) z (updZcl p (fun x => { x with offZero := 0 }) s) := by
  unfold nearZero
  simp only [← zero, deviates]
  exact if_neg fun h => Int.not_lt.mpr within (exceedsRange_iff.mp h)

theorem nearZero_platform (p : Platform) (b : Block) (s : State) :
    (nearZero p b s).zcl.platforms.get p = { s.zcl.platforms.get p with offZero := 0 } := by
  unfold nearZero
  simp only
  split
  · rw [reportFault_eq, State.setFau_zcl, updZcl_get]
  · show (updZcl p (fun x => { x with offZero := 0 }) s).zcl.platforms.get p = _
    rw [updZcl_get]

/-- An off-zero block adds one to the count; the thirtieth makes the zero DOUBTFUL (R103). -/
theorem offZero_spec (p : Platform) (mean : Int) (s : State) : (offZero p mean s).zcl.zeros = s.zcl.zeros ∧
    ((offZero p mean s).zcl.platforms.get p).block = (s.zcl.platforms.get p).block ∧
    ((offZero p mean s).zcl.platforms.get p).offZero = satSucc 30 (s.zcl.platforms.get p).offZero ∧
    ((s.zcl.platforms.get p).offZero + 1 = 30 → ((offZero p mean s).zcl.platforms.get p).zeroState = .doubtful) := by
  unfold offZero
  simp only
  split
  · rw [reportFault_eq]
    refine ⟨rfl, ?_⟩
    rw [State.setFau_zcl, updZcl_get, updZcl_get]
    exact ⟨rfl, rfl, fun _ => rfl⟩
  · next other =>
    refine ⟨rfl, ?_⟩
    rw [updZcl_get]
    refine ⟨rfl, rfl, fun thirtieth => ?_⟩
    have reached : satSucc 30 (s.zcl.platforms.get p).offZero = 30 := by
      rw [satSucc, if_pos (by omega), thirtieth]
    cases state : (s.zcl.platforms.get p).zeroState with
    | good => exact absurd ⟨reached, state⟩ other
    | doubtful => rfl

/-- What judges a full block (R102). -/
theorem judgeBlock_cases {p : Platform} {w : State} {b : Block} (block : (w.zcl.platforms.get p).block = b) :
    (w.cal.working.interval * 1000 < spanOf b.least b.greatest → judgeBlock p w = discardBlock p w) ∧
    (spanOf b.least b.greatest ≤ w.cal.working.interval * 1000 →
      ((roundDiv b.loadSum 2000).natAbs : Int) ≤ w.cal.working.interval * 500 → judgeBlock p w = nearZero p b (discardBlock p w)) ∧
    (spanOf b.least b.greatest ≤ w.cal.working.interval * 1000 →
      w.cal.working.interval * 500 < ((roundDiv b.loadSum 2000).natAbs : Int) →
        judgeBlock p w = offZero p (roundDiv b.loadSum 2000) (discardBlock p w)) := by
  unfold judgeBlock
  simp only [block]
  refine ⟨fun unstable => if_pos unstable, fun stable near => ?_, fun stable off => ?_⟩
  · rw [if_neg (Int.not_lt.mpr stable), if_pos near]
    rfl
  · rw [if_neg (Int.not_lt.mpr stable), if_neg (Int.not_le.mpr off)]
    rfl

/-- A new block begins (R102). -/
theorem judgeBlock_block (p : Platform) (w : State) : ((judgeBlock p w).zcl.platforms.get p).block = .empty := by
  have discarded : ((discardBlock p w).zcl.platforms.get p).block = .empty := by rw [discardBlock, updZcl_get]
  unfold judgeBlock
  simp only
  split
  · exact discarded
  · split
    · rw [nearZero_platform]
      exact discarded
    · exact (offZero_spec _ _ _).2.1.trans discarded

theorem exec_acquisitionEnd {s : State} {t : Nat} {p : Platform} {r : Readings} (on : s.powered = true)
    (named : finishesAcquisition t p r s = true) : exec (.acquisitionEnd t p r) s = .next (sample t r s) := by
  refine congrArg Host.Outcome.next ((ifPowered_on on _).trans ?_)
  rw [named, sampleIf, if_pos rfl]

theorem exec_trackingBlock {s : State} {t : Nat} {p : Platform} {r : Readings} (on : s.powered = true)
    (named : finishesBlock t p r s = true) : exec (.trackingBlock t p r) s = .next (sample t r s) := by
  refine congrArg Host.Outcome.next ((ifPowered_on on _).trans ?_)
  rw [named, sampleIf, if_pos rfl]

theorem finishesAcquisition_iff {s : State} {t : Nat} {p : Platform} {r : Readings} : finishesAcquisition t p r s = true ↔
    ((s.zcl.platforms.get p).acq.state = .collecting ∧ 1999 ≤ (s.zcl.platforms.get p).acq.count) ∧
      quiet (afterLcu t r s) p = true := by
  simp only [finishesAcquisition, Bool.and_eq_true, decide_eq_true_eq]

theorem finishesBlock_iff {s : State} {t : Nat} {p : Platform} {r : Readings} : finishesBlock t p r s = true ↔
    ((s.zcl.platforms.get p).acq.state = .idle ∧ 1999 ≤ (s.zcl.platforms.get p).block.count) ∧
      quiet (afterLcu t r s) p = true := by
  simp only [finishesBlock, Bool.and_eq_true, decide_eq_true_eq]

theorem InstantFor.load {p : Platform} {b : Bool} {s u : State} (h : InstantFor p b s u) (raw : PerChannel Int) :
    platformLoad raw u.zcl.zeros u.cal.working.gain (s.fittedOf (channelsOf p)) =
      platformLoad raw s.zcl.zeros s.cal.working.gain (s.fittedOf (channelsOf p)) := by
  rw [h.cal]
  exact platformLoad_congr fun c hc => h.zeros c (mem_fittedOf.mp hc).1

/-- The instant that ends an acquisition: the end of it, in a state that has collected the instant. -/
theorem sample_collected {s : State} {t : Nat} {p : Platform} {r : Readings} (named : finishesAcquisition t p r s = true) :
    ∃ w : State, (w.zcl.platforms.get p).acq = (s.zcl.platforms.get p).acq.collect r.raw (s.fittedOf (channelsOf p))
        (platformLoad r.raw s.zcl.zeros s.cal.working.gain (s.fittedOf (channelsOf p))) ∧
      (w.zcl.platforms.get p).zeroState = (s.zcl.platforms.get p).zeroState ∧ w.cal = s.cal ∧
      w.fittedOf (channelsOf p) = s.fittedOf (channelsOf p) ∧ (∀ c ∈ channelsOf p, w.zcl.zeros.get c = s.zcl.zeros.get c) ∧
      (sample t r s).zcl.platforms.get p = (finishAcquisition p w).zcl.platforms.get p ∧
      (∀ c ∈ channelsOf p, (sample t r s).zcl.zeros.get c = (finishAcquisition p w).zcl.zeros.get c) ∧
      FauGrew (finishAcquisition p w) (sample t r s) := by
  obtain ⟨⟨collecting, count⟩, quietly⟩ := finishesAcquisition_iff.mp named
  obtain ⟨u, before, platform, zeros, grew⟩ := sample_zcl t p r s
  have collected := zclInstant_collected (before.quiet.trans quietly) (by rw [before.platform]; exact collecting)
    (by rw [before.platform]; exact count) (before.fitted (channelsOf p)) (before.load r.raw)
  rw [collected] at platform zeros grew
  refine ⟨_, ?_, ?_, by exact before.cal, by exact before.fitted _, by exact before.zeros, platform, zeros, grew⟩ <;>
    rw [updZcl_get, discardBlock, updZcl_get, before.platform]

/-- The instant that fills a tracking block: its judgement, in a state whose block holds the instant. -/
theorem sample_filled {s : State} {t : Nat} {p : Platform} {r : Readings} (named : finishesBlock t p r s = true) :
    ∃ w : State, w.zcl.platforms.get p = { s.zcl.platforms.get p with
        block := (s.zcl.platforms.get p).block.add r.raw s.zcl.zeros (s.fittedOf (channelsOf p))
          (platformLoad r.raw s.zcl.zeros s.cal.working.gain (s.fittedOf (channelsOf p))) } ∧ w.cal = s.cal ∧
      w.fittedOf (channelsOf p) = s.fittedOf (channelsOf p) ∧ (∀ c ∈ channelsOf p, w.zcl.zeros.get c = s.zcl.zeros.get c) ∧
      w.condition = s.condition ∧ FauGrew s w ∧ (sample t r s).zcl.platforms.get p = (judgeBlock p w).zcl.platforms.get p ∧
      (∀ c ∈ channelsOf p, (sample t r s).zcl.zeros.get c = (judgeBlock p w).zcl.zeros.get c) ∧
      FauGrew (judgeBlock p w) (sample t r s) := by
  obtain ⟨⟨idle, count⟩, quietly⟩ := finishesBlock_iff.mp named
  obtain ⟨u, before, platform, zeros, grew⟩ := sample_zcl t p r s
  have filled := zclInstant_filled (before.quiet.trans quietly) (by rw [before.platform]; exact idle)
    (by rw [before.platform]; exact count) (before.fitted (channelsOf p)) (before.load r.raw)
  rw [filled] at platform zeros grew
  refine ⟨_, ?_, by exact before.cal, by exact before.fitted _, by exact before.zeros, by exact before.condition,
    before.fau.trans (.of_eq (by rfl)), platform, zeros, grew⟩
  rw [updZcl_get, before.platform, Block.add_congr fun c hc => before.zeros c (mem_fittedOf.mp hc).1]

/-- An occurrence is counted, and stays so. -/
theorem FauGrew.counted_fault {o : FaultOcc} {s s' : State} {i n : Nat} (h : FauGrew (reportFault o s) s')
    (started : s.condition ≠ .starting) (kind : faultNum o.kind - 1 = i) (count : s.fau.counts[i]? = some n) :
    ∃ m, s'.fau.counts[i]? = some (m + 1) := by
  have counted : (reportFault o s).fau.counts[i]? = some (satSucc 255 n) := by
    rw [reportFault_started started, takeFault_counts, getElem?_updateAt, if_pos kind.symm, count]
    rfl
  have positive : 1 ≤ satSucc 255 n := by
    unfold satSucc
    split <;> omega
  obtain ⟨k, more, last⟩ := h.counted i _ counted
  exact ⟨k - 1, by rw [last, Nat.sub_add_cancel (Nat.le_trans positive more)]⟩

/-- Settles O27. -/
theorem acquisitionAndBlockAreDecided : Obligations.AcquisitionAndBlockAreDecided := by
  refine ⟨fun s t p r on named => ?_, fun s t p r on named => ?_, fun p b s started => ?_, fun raw s => ?_⟩
  · obtain ⟨w, acq, zeroState, cal, fitted, standing, platform, zeros, grew⟩ := sample_collected named
    obtain ⟨idle, last, raised, accepted, rejected⟩ := finishAcquisition_spec p w (by rw [acq, cal, fitted])
    refine ⟨_, _, exec_acquisitionEnd on named, by rw [platform]; exact idle, by rw [platform]; exact last, grew.raised 4 raised, rfl,
      fun h => ?_, fun h => ?_⟩ <;> rw [platform]
    · obtain ⟨good, none, moved⟩ := accepted h
      refine ⟨good, none, fun c hc => ?_⟩
      rw [zeros c (mem_fittedOf.mp hc).1, moved, acq, fitted, get_setChans _ _ (nodup_fittedOf s p), if_pos hc]
      simp only [Acquisition.zeroOf, Acquisition.collect]
      rw [get_setChans _ _ (nodup_fittedOf s p), if_pos hc]
    · obtain ⟨same, unmoved⟩ := rejected h
      exact ⟨same.trans zeroState, fun c hc => by rw [zeros c hc, unmoved, standing c hc]⟩
  · obtain ⟨w, filled, cal, fitted, standing, condition, counted, platform, zeros, grew⟩ := sample_filled named
    generalize summed : (s.zcl.platforms.get p).block.add r.raw s.zcl.zeros (s.fittedOf (channelsOf p))
      (platformLoad r.raw s.zcl.zeros s.cal.working.gain (s.fittedOf (channelsOf p))) = b at filled
    obtain ⟨unstable, near, off⟩ := judgeBlock_cases (b := b) (by rw [filled])
    refine ⟨_, b, exec_trackingBlock on named, rfl, ?_⟩
    have discarded : (discardBlock p w).zcl.platforms.get p = { s.zcl.platforms.get p with block := .empty } := by
      rw [discardBlock, updZcl_get, filled]
    have unmoved : ∀ c ∈ channelsOf p, (discardBlock p w).zcl.zeros.get c = s.zcl.zeros.get c := standing
    have deviates : deviation (discardBlock p w).cal.working ((discardBlock p w).fittedOf (channelsOf p))
          (fun c => (discardBlock p w).zcl.zeros.get c + roundDiv (b.sums.get c) 2000) =
        deviation s.cal.working (s.fittedOf (channelsOf p)) fun c => s.zcl.zeros.get c + roundDiv (b.sums.get c) 2000 := by
      show deviation w.cal.working (w.fittedOf (channelsOf p)) _ = _
      rw [cal, fitted]
      exact deviation_congr (fun c hc => by rw [unmoved c (mem_fittedOf.mp hc).1]) _
    have range : (discardBlock p w).cal.working.zeroRange = s.cal.working.zeroRange := congrArg (·.working.zeroRange) cal
    rw [cal] at unstable near off
    refine ⟨by rw [platform, judgeBlock_block], fun h => ?_, fun stable small => ?_, fun stable large few => ?_⟩
    · rw [unstable h] at platform zeros
      rw [platform, discarded]
      exact ⟨rfl, rfl, fun c hc => by rw [zeros c hc, unmoved c hc]⟩
    · rw [near stable small] at platform zeros grew
      rw [platform, nearZero_platform, discarded]
      refine ⟨rfl, rfl, fun within c hc => ?_, fun exceeds => ⟨fun c hc => ?_, fun started length => ?_⟩⟩
      · rw [zeros c hc, nearZero_moves rfl deviates (range.symm ▸ within)]
        show (setChans _ (w.fittedOf (channelsOf p)) w.zcl.zeros).get c = _
        rw [get_setChans _ _ (nodup_fittedOf w p), fitted]
        by_cases isFitted : (s.lcu.channels.get c).fitted = true
        · rw [if_pos (mem_fittedOf.mpr ⟨hc, isFitted⟩), if_pos isFitted, unmoved c hc]
        · rw [if_neg (fun h => isFitted (mem_fittedOf.mp h).2), if_neg isFitted, standing c hc]
      · rw [zeros c hc, nearZero_drift rfl deviates (range.symm ▸ exceeds), reportFault_eq]
        exact unmoved c hc
      · rw [nearZero_drift rfl deviates (range.symm ▸ exceeds)] at grew
        obtain ⟨n, -, standing⟩ := counted.counted 4 _ (List.getElem?_eq_getElem (by rw [length]; decide))
        exact grew.counted_fault (by exact condition ▸ started) rfl standing
    · obtain ⟨same, -, count, doubtful⟩ := offZero_spec p (roundDiv b.loadSum 2000) (discardBlock p w)
      rw [off stable large] at platform zeros
      rw [platform, count, discarded]
      rw [discarded] at doubtful
      refine ⟨?_, doubtful, fun c hc => by rw [zeros c hc, same, unmoved c hc]⟩
      simp only [satSucc]
      split <;> omega
  · intro dev exceeds
    rw [nearZero_drift rfl rfl exceeds, reportFault_started (by exact started)]
    rfl
  · obtain ⟨f, g, ne, order⟩ := zclPlatforms_order raw s
    exact ⟨f, g, ne, order⟩

end Sys2Proof.Machine
end

