-- ==== Sys2Proof/Proofs/Measurements.lean ====
section
/-! PROOFS. The making of a measurement: windows, status, qualifiers, corrections and shares (R53, R54, R58, R63 to R70). -/

namespace Sys2Proof.Machine

/-! ### Windows (R54) -/

theorem windowOf_eq {h : List Instant} {first final : Instant} (head : h.head? = some first) (last : h.getLast? = some final)
    (a b : Int) : windowOf h a b = ⟨sampleCount (max a first.time) (min b final.time),
      h.filter fun x => decide (max a first.time ≤ x.time ∧ (x.time : Int) ≤ min b final.time),
      if sampleCount (max a first.time) (min b final.time) = 0 then none else some (10 * (min b final.time / 10)).toNat,
      decide (a < first.time)⟩ := by
  simp only [windowOf, head, last]

/-- The first instant of an ascending history is the least, and the last the greatest. -/
theorem time_between {h : List Instant} {first final x : Instant} (head : h.head? = some first) (last : h.getLast? = some final)
    (ascending : h.Pairwise fun y z => y.time < z.time) (mem : x ∈ h) : first.time ≤ x.time ∧ x.time ≤ final.time := by
  constructor
  · obtain ⟨t, rfl⟩ := List.head?_eq_some_iff.mp head
    rcases List.mem_cons.mp mem with rfl | mem
    · exact Nat.le_refl _
    · exact Nat.le_of_lt (List.rel_of_pairwise_cons ascending mem)
  · obtain ⟨t, rfl⟩ := List.getLast?_eq_some_iff.mp last
    rcases List.mem_append.mp mem with mem | mem
    · exact Nat.le_of_lt ((List.pairwise_append.mp ascending).2.2 x mem final (List.mem_singleton_self _))
    · exact Nat.le_of_eq (congrArg Instant.time (List.mem_singleton.mp mem))

theorem sampleCount_succ (a b : Nat) :
    sampleCount a ((b + 1 : Nat) : Int) = sampleCount a b + if a ≤ b + 1 ∧ (b + 1) % 10 = 0 then 1 else 0 := by
  unfold sampleCount ceilDiv
  split <;> omega

/-- The count of the multiples of 10 from a start to an end (R54). -/
theorem sampleCount_eq_length (a b : Nat) :
    sampleCount a b = ((List.range (b + 1)).filter fun x => decide (a ≤ x) && decide (x % 10 = 0)).length := by
  induction b with
  | zero =>
    by_cases zero : a = 0
    · subst zero
      rfl
    · have none : sampleCount a 0 = 0 := by
        unfold sampleCount ceilDiv
        omega
      simp [none, zero]
  | succ b ih =>
    rw [sampleCount_succ, ih, List.range_succ (n := b + 1), List.filter_append, List.length_append]
    by_cases counted : a ≤ b + 1 ∧ (b + 1) % 10 = 0
    · simp [counted]
    · rw [if_neg counted]
      simpa using counted

/-! ### The making of a measurement (R63 to R70) -/

/-- What a status brings of the qualifiers (R68, R70). -/
theorem hasQual_statusQuals (x : MeasStatus) (q : Qual) : hasQual (statusQuals x) q = true ↔
    (x = .overrange ∧ .overcap = q) ∨ (x = .poisoned ∧ .suspect = q) := by
  have empty : hasQual 0#32 q = false := hasQual_none q
  cases x <;> simp [statusQuals, hasQual_set, empty]

theorem hasQual_makingQuals (k : Making) (q : Qual) : hasQual k.quals q = true ↔
    (q = .interpolated ∧ k.span.interpolated = true) ∨ (q = .outOfBand ∧ k.cal.certMax < (k.speed : Int)) ∨
      (q = .suspect ∧ k.doubtful = true) := by
  cases q <;> simp [Making.quals, hasQual_or, hasQual_when]

theorem hasQual_validQuals (k : Making) (load : Int) (q : Qual) : hasQual (k.validQuals load) q = true ↔
    (q = .overcap ∧ (k.cal.maxAxle + 9 * k.cal.interval) * 1000 < load) ∨ (q = .suspect ∧ load < -20 * k.cal.interval * 1000) ∨
      (q = .uneven ∧ isUneven k.uneven k.speeds = true) := by
  cases q <;> simp [Making.validQuals, hasQual_or, hasQual_when]

/-- The status of a measurement (R63). -/
theorem Making.make_status (k : Making) (w : Window) (h : Share) :
    (k.make w h).status = statusOf k.cal k.meu k.span w k.speed := by
  unfold make
  simp only
  split
  · next valid => exact valid.symm
  · rfl

/-- What a measurement holds whatever its status. -/
theorem Making.make_frame (k : Making) (w : Window) (h : Share) : (k.make w h).n = some w.n ∧ (k.make w h).speed = some k.speed ∧
    (k.make w h).speedIn = k.speeds.1 ∧ (k.make w h).speedOut = k.speeds.2 := by
  unfold make
  simp only
  split <;> exact ⟨rfl, rfl, rfl, rfl⟩

/-- The rail means and the corrected rail values: of a VALID measurement only (R64, R67). -/
theorem Making.make_rails (k : Making) (w : Window) (h : Share) :
    ((k.make w h).status ≠ .valid → (k.make w h).rails = none ∧ (k.make w h).means = none) ∧
    ((k.make w h).status = .valid → (k.make w h).means = some (h.means w.means) ∧
      (k.make w h).rails = some (correct (bandFor k.speed k.cal.bands) (h.means w.means).1,
        correct (bandFor k.speed k.cal.bands) (h.means w.means).2)) := by
  unfold make
  simp only
  split
  · exact ⟨fun invalid => absurd rfl invalid, fun _ => ⟨rfl, rfl⟩⟩
  · next invalid => exact ⟨fun _ => ⟨rfl, rfl⟩, fun valid => absurd valid invalid⟩

/-- The qualifiers of a measurement (R70). -/
theorem Making.make_quals (k : Making) (w : Window) (h : Share) (q : Qual) : hasQual (k.make w h).quals q = true ↔
    hasQual k.quals q = true ∨ (w.clipped = true ∧ .longDwell = q) ∨ (h ≠ .alone ∧ .shared = q) ∨
      hasQual (statusQuals (k.make w h).status) q = true ∨
      ((k.make w h).status = .valid ∧ hasQual (k.validQuals (correct (bandFor k.speed k.cal.bands) (h.means w.means).1 +
        correct (bandFor k.speed k.cal.bands) (h.means w.means).2)) q = true) := by
  rw [make_status]
  unfold make
  simp only
  split
  · next valid =>
    simp [hasQual_or, hasQual_when, valid, or_assoc]
  · next invalid =>
    simp [hasQual_or, hasQual_when, invalid, or_assoc]

/-- The status is the first that applies (R63). -/
theorem statusOf_cases (c : CalSet) (m : MeuPlatform) (x : Span) (w : Window) (v : Nat) :
    (m.poisons w = true → statusOf c m x w v = .poisoned) ∧
    (m.poisons w = false → m.outFrom x.tIn = true → statusOf c m x w v = .platformOut) ∧
    (m.poisons w = false → m.outFrom x.tIn = false → (w.n : Int) < c.nMin → statusOf c m x w v = .short) ∧
    (m.poisons w = false → m.outFrom x.tIn = false → c.nMin ≤ (w.n : Int) → w.instants.any (·.overrange) = true →
      statusOf c m x w v = .overrange) ∧
    (m.poisons w = false → m.outFrom x.tIn = false → c.nMin ≤ (w.n : Int) → w.instants.any (·.overrange) = false →
      c.measMax < (v : Int) → statusOf c m x w v = .overspeed) ∧
    (m.poisons w = false → m.outFrom x.tIn = false → c.nMin ≤ (w.n : Int) → w.instants.any (·.overrange) = false →
      (v : Int) ≤ c.measMax → statusOf c m x w v = .valid) := by
  unfold statusOf
  refine ⟨fun poisoned => ?_, fun clean out => ?_, fun clean served few => ?_, fun clean served enough extreme => ?_,
    fun clean served enough sound fast => ?_, fun clean served enough sound slow => ?_⟩
  · simp [poisoned]
  · simp [clean, out]
  · simp [clean, served, few]
  · simp [clean, served, Int.not_lt.mpr enough, extreme]
  · simp [clean, served, Int.not_lt.mpr enough, sound, fast]
  · simp [clean, served, Int.not_lt.mpr enough, sound, Int.not_lt.mpr slow]

/-! ### Corrections and unevenness (R66, R67) -/

/-- The first band whose bound reaches the speed, else the last (R67). -/
theorem bandFor_append {v : Nat} {b : Band} : ∀ {pre post : List Band}, (∀ x ∈ pre, x.upper < v) → v ≤ b.upper ∨ post = [] →
    bandFor v (pre ++ b :: post) = b.k
  | [], [], _, _ => rfl
  | [], c :: post, _, reached => by
    have bound : v ≤ b.upper := reached.resolve_right (by simp)
    exact if_pos bound
  | c :: pre, post, below, reached => by
    have beyond : ¬ v ≤ c.upper := Nat.not_le.mpr (below c List.mem_cons_self)
    have rest := bandFor_append (fun x hx => below x (List.mem_cons_of_mem c hx)) reached
    cases pre with
    | nil => exact (if_neg beyond).trans rest
    | cons d pre => exact (if_neg beyond).trans rest

theorem isUneven_iff (limit : Nat) (v : Option Nat × Option Nat) : isUneven limit v = true ↔
    ∃ a b, v = (some a, some b) ∧ limit < ((a : Int) - b).natAbs * 1000 / max a b := by
  obtain ⟨x, y⟩ := v
  cases x with
  | none => simp [isUneven]
  | some u =>
    cases y with
    | none => simp [isUneven]
    | some v =>
      refine decide_eq_true_iff.trans ⟨fun limited => ⟨u, v, rfl, limited⟩, ?_⟩
      rintro ⟨a, b, same, limited⟩
      cases same
      exact limited

/-- Settles O23. -/
theorem measurementsAreMadeAndRounded : Obligations.MeasurementsAreMadeAndRounded := by
  refine ⟨fun first final x h a b head last ascending => ?_, fun k w h => ?_, fun v pre post b below reached => bandFor_append below reached,
    fun raw zero gain x y g => ?_, sampleCount_eq_length, fun s p a x f => ⟨rfl, rfl, rfl, decide_eq_true_iff, rfl, rfl, rfl⟩, isUneven_iff⟩
  · rw [windowOf_eq head last]
    refine ⟨rfl, ?_, decide_eq_true_iff⟩
    simp only [List.mem_filter, decide_eq_true_eq]
    constructor
    · rintro ⟨mem, low, high⟩
      exact ⟨mem, by omega, by omega⟩
    · rintro ⟨mem, low, high⟩
      have between := time_between head last ascending mem
      exact ⟨mem, by omega, by omega⟩
  · have poison := (poisons_iff k.meu w).symm
    have out := (outFrom_iff k.meu k.span.tIn).symm
    obtain ⟨count, speed, speedIn, speedOut⟩ := k.make_frame w h
    obtain ⟨silent, valued⟩ := k.make_rails w h
    obtain ⟨poisoned, isOut, short, overrange, overspeed, valid⟩ := statusOf_cases k.cal k.meu k.span w k.speed
    have quals := fun q => k.make_quals w h q
    rw [← k.make_status w h] at poisoned isOut short overrange overspeed valid
    simp only [hasQual_makingQuals, hasQual_statusQuals, hasQual_validQuals] at quals
    have dwell : k.length * 720 / (k.span.tOut - k.span.tIn) = k.speed := rfl
    simp only [dwell, poison, out, Bool.not_eq_true, ← List.any_eq_true]
    refine ⟨poisoned, isOut, short, overrange, overspeed, valid, count, speed, speedIn, speedOut, silent, valued, ?_, ?_, ?_, ?_, ?_, ?_, ?_⟩ <;>
      rw [quals] <;> simp
    exact or_left_comm
  · show roundDiv (sumInt _) gainUnit = g ↔ _
    rw [roundDiv_eq_iff (by decide)]
    simp [sumInt, gainUnit]

end Sys2Proof.Machine
end

