-- ==== Sys2Proof/Proofs/Windows.lean ====
section
/-! PROOFS. The windows of the Measurement Engine: opening, closing, cancelling, sharing and deferral (R55 to R62, R64, R71). -/

namespace Sys2Proof.Machine

theorem WindowEntry.isOpen_eq (e : WindowEntry) : e.isOpen = decide (e.deferred = none) := by
  unfold isOpen
  cases e.deferred <;> rfl

theorem PerPlatform.set_set {α : Type} (x : PerPlatform α) (p : Platform) (a b : α) : (x.set p a).set p b = x.set p b := by
  cases p <;> rfl

theorem PerPlatform.get_set_same {α : Type} (x : PerPlatform α) (p : Platform) (a : α) : (x.set p a).get p = a := by
  cases p <;> rfl

theorem updateAt_eq_set {α : Type} {f : α → α} {i : Nat} {l : List α} {a : α} (h : l[i]? = some a) :
    updateAt f i l = l.set i (f a) := by
  simpa using map_updateAt_set (g := id) (f := f) h

/-! ### Opening, cancelling and resolving (R55, R57, R61) -/

theorem meuOpen_eq (p : Platform) (i t : Nat) (s : State) : meuOpen p i t s = s.setMeu (s.meu.set p { s.meu.get p with
    windows := openEntryIn i t (s.meu.get p).windows }) := rfl

theorem WindowEntry.notice_eq (i t : Nat) (crowd : Bool) (e : WindowEntry) : e.notice i t crowd = if e.deferred = none then
    { e with succ := e.succ + 1, firstSucc := some (e.firstSucc.getD (i, t)), crowded := e.crowded || crowd } else e := by
  simp only [notice, isOpen_eq, decide_eq_true_eq]

theorem filter_isOpen (l : List WindowEntry) : l.filter (·.isOpen) = l.filter fun e => decide (e.deferred = none) := by
  simp only [WindowEntry.isOpen_eq]

theorem openEntryIn_eq {i t n : Nat} {l : List WindowEntry} (h : (l.filter fun e => decide (e.deferred = none)).length = n) :
    openEntryIn i t l = l.map (WindowEntry.notice i t (decide (2 ≤ n))) ++ [⟨i, t, n, 0, none, decide (2 ≤ n), none⟩] := by
  simp only [openEntryIn, filter_isOpen, h, Nat.reduceLeDiff]

theorem dropEntries_eq (p : Platform) (q : WindowEntry → Bool) (s : State) : dropEntries p q s =
    s.setMeu (s.meu.set p { s.meu.get p with windows := (s.meu.get p).windows.filter fun e => !q e }) := rfl

theorem resolveWhere_eq (p : Platform) (partner : Option (Int × Int)) (q : WindowEntry → Bool) (s : State) :
    resolveWhere p partner q s =
      (sortBy (·.axle) ((s.meu.get p).windows.filter fun e => decide (e.deferred ≠ none) && q e)).foldl
        (fun v e => resolveEntry p partner e v) s := by
  simp only [resolveWhere, WindowEntry.isOpen_eq, decide_not]

theorem resolveWhere_direction (p : Platform) (partner : Option (Int × Int)) (q : WindowEntry → Bool) (s : State) :
    (resolveWhere p partner q s).direction = s.direction := by
  have entry : ∀ (v : State) e, (resolveEntry p partner e v).direction = v.direction := fun v e => by
    unfold resolveEntry
    split <;> rfl
  have each : ∀ (l : List WindowEntry) (v : State), (l.foldl (fun v e => resolveEntry p partner e v) v).direction = v.direction :=
    fun l => by
      induction l with
      | nil => exact fun _ => rfl
      | cons e l ih => exact fun v => (ih _).trans (entry v e)
  exact each _ _

theorem WindowEntry.follows_iff (e : WindowEntry) (i : Nat) : e.follows i = true ↔ ∃ t, e.firstSucc = some (i, t) := by
  unfold follows
  split
  · next f first =>
    rw [first]
    obtain ⟨j, u⟩ := f
    simp [eq_comm]
  · next absent => simp [absent]

/-- The measurement of an axle that the train holds. -/
theorem writeMeas_eq {s : State} {i : Nat} {a : Axle} (h : s.axt.train[i]? = some a) (p : Platform) (m : Measurement) :
    writeMeas p i m s = s.setAxt { s.axt with train := s.axt.train.set i (a.write (sideOf s.direction p) m) } := by
  rw [writeMeas, updAxle, updateAt_eq_set h]

/-- A DEFERRED entry resolved: the measurement over the both-on window from its first successor's start (R61). -/
theorem resolveEntry_eq {s : State} {p : Platform} {partner : Option (Int × Int)} {e : WindowEntry} {a : Axle} {f : Nat × Nat}
    {tOut trim : Nat} (deferred : e.deferred = some (tOut, trim)) (first : e.firstSucc = some f) (held : s.axt.train[e.axle]? = some a) :
    resolveEntry p partner e s = writeMeas p e.axle
      ((s.making p a ⟨e.axle, e.tIn, tOut, false, endsOf (sideOf s.direction p)⟩).make
        (bothOn (s.meu.get p).history f.2 tOut trim) (partner.elim .earlierHalf .lessPartner))
      (dropEntries p (fun d => decide (d = e)) s) := by
  cases partner <;> simp only [resolveEntry, deferred, first, held] <;> rfl

/-- The close of a window leaves its last exit record, and what waits for the axle is resolved (R56). -/
theorem afterExit_eq (p : Platform) (x : Span) (trim : Nat) (means : Option (Int × Int)) (s : State) : afterExit p x trim means s =
    (sortBy (·.axle) ((s.meu.get p).windows.filter fun d => decide (d.deferred ≠ none) && d.follows x.axle)).foldl
      (fun v d => resolveEntry p means d v)
      (s.setMeu (s.meu.set p { s.meu.get p with lastExit := some ⟨x.axle, x.tOut, trim, means⟩ })) := by
  rw [afterExit, resolveWhere_eq]
  show List.foldl _ _ (sortBy _ (((s.meu.set p _).get p).windows.filter _)) = _
  rw [PerPlatform.get_set_same]
  rfl

/-- The state that an exit leaves, from one that differs in the train and the window list. -/
theorem afterExit_leave {s v : State} {p : Platform} {l : List WindowEntry}
    (meu : v.meu = s.meu.set p { s.meu.get p with windows := l }) (x : Span) (trim : Nat) (means : Option (Int × Int)) :
    afterExit p x trim means v = (sortBy (·.axle) (l.filter fun d => decide (d.deferred ≠ none) && d.follows x.axle)).foldl
      (fun v d => resolveEntry p means d v)
      (v.setMeu (s.meu.set p { s.meu.get p with windows := l, lastExit := some ⟨x.axle, x.tOut, trim, means⟩ })) := by
  rw [afterExit_eq, meu, PerPlatform.get_set_same, PerPlatform.set_set]

/-- The entry of a closing window is taken from the list. -/
theorem dropEntries_mine (s : State) (p : Platform) (i : Nat) : dropEntries p (fun d => d.isOpen && decide (d.axle = i)) s =
    s.setMeu (s.meu.set p { s.meu.get p with
      windows := (s.meu.get p).windows.filter fun d => !decide (d.deferred = none ∧ d.axle = i) }) := by
  simp only [dropEntries_eq, WindowEntry.isOpen_eq, Bool.decide_and]

theorem meuClose_held {s : State} {p : Platform} {x : Span} {a : Axle} (held : s.axt.train[x.axle]? = some a) : meuClose p x s =
    closeSpan p a (((s.meu.get p).entryOf x.axle).getD ⟨x.axle, x.tIn, 0, 0, none, false, none⟩) x s := by
  simp only [meuClose, held]
  rfl

theorem closeSpan_crowded {s : State} {p : Platform} {a : Axle} {e : WindowEntry} {x : Span} (crowded : e.crowded = true) :
    closeSpan p a e x s = afterExit p x (x.trim s.cal.working p) none (writeMeas p x.axle (s.making p a x).crowded
      (dropEntries p (fun d => d.isOpen && decide (d.axle = x.axle)) s)) := by
  simp only [closeSpan, crowded, if_true]

theorem closeSpan_window {s : State} {p : Platform} {a : Axle} {e : WindowEntry} {x : Span} {w : Window} {h : Share}
    (loose : e.crowded = false) (found : (s.making p a x).find (x.trim s.cal.working p) e = .window w h) :
    closeSpan p a e x s = afterExit p x (x.trim s.cal.working p) (aloneMeans ((s.making p a x).make w h) h)
      (writeMeas p x.axle ((s.making p a x).make w h) (dropEntries p (fun d => d.isOpen && decide (d.axle = x.axle)) s)) := by
  simp only [closeSpan, loose, Bool.false_eq_true, if_false, found]

theorem closeSpan_deferral {s : State} {p : Platform} {a : Axle} {e : WindowEntry} {x : Span}
    (loose : e.crowded = false) (found : (s.making p a x).find (x.trim s.cal.working p) e = .deferral) :
    closeSpan p a e x s = afterExit p x (x.trim s.cal.working p) none (updMeu p (fun m => { m with
      windows := m.windows.map fun d =>
        if d.isOpen && decide (d.axle = x.axle) then { d with deferred := some (x.tOut, x.trim s.cal.working p) } else d }) s) := by
  simp only [closeSpan, loose, Bool.false_eq_true, if_false, found]

/-! ### The measuring window (R58 to R60, R64) -/

theorem hasQual_crowded (k : Making) (q : Qual) : hasQual k.crowded.quals q = true ↔
    (q = .interpolated ∧ k.span.interpolated = true) ∨ (q = .outOfBand ∧ k.cal.certMax < (k.speed : Int)) ∨
      (q = .suspect ∧ k.doubtful = true) := hasQual_makingQuals k q

theorem write_reweighed (a : Axle) (side : Side) (m : Measurement) : (a.write side m).reweighed = true ↔
    a.reweighed = true ∨ ∃ old, a.meas.get side = some old ∧ old.status ≠ .unbounded := by
  simp only [Axle.write, Bool.or_eq_true]
  cases a.meas.get side <;> simp [madeByMeu]

theorem openFor_iff (m : MeuPlatform) (f : Nat × Nat) : m.openFor f = true ↔
    ∃ d ∈ m.windows, d.deferred = none ∧ d.axle = f.1 ∧ d.tIn = f.2 := by
  simp [MeuPlatform.openFor, WindowEntry.isOpen_eq]

/-- Long enough, or interpolated: the alone window. -/
theorem find_alone {k : Making} {trim : Nat} {e : WindowEntry}
    (h : k.span.interpolated = true ∨ ¬ ((k.aloneWindow trim e.firstSucc).n : Int) < k.cal.nMin) :
    k.find trim e = .window (k.aloneWindow trim e.firstSucc) .alone := by
  have first : (k.span.interpolated || decide (k.cal.nMin ≤ ((k.aloneWindow trim e.firstSucc).n : Int))) = true := by
    simpa [Int.not_lt] using h
  exact if_pos first

/-- One partner ahead, whose exit came after the start. -/
theorem find_ahead {k : Making} {trim : Nat} {e : WindowEntry} {x : ExitRec} (made : k.span.interpolated = false)
    (short : ((k.aloneWindow trim e.firstSucc).n : Int) < k.cal.nMin) (pred : e.pred = 1) (succ : e.succ = 0)
    (exit : k.meu.lastExit = some x) : k.find trim e = if k.span.tIn < x.time then
      .window (bothOn k.meu.history k.span.tIn x.time x.trim) (x.means.elim .laterHalf .lessPartner)
      else .window (k.aloneWindow trim e.firstSucc) .alone := by
  cases means : x.means <;> simp [Making.find, made, Int.not_le.mpr short, pred, succ, exit, means]

/-- One partner behind. -/
theorem find_behind {k : Making} {trim : Nat} {e : WindowEntry} {f : Nat × Nat} (made : k.span.interpolated = false)
    (short : ((k.aloneWindow trim e.firstSucc).n : Int) < k.cal.nMin) (pred : e.pred = 0) (succ : e.succ = 1)
    (first : e.firstSucc = some f) : k.find trim e = if k.meu.openFor f then .deferral
      else .window (bothOn k.meu.history f.2 k.span.tOut trim) .earlierHalf := by
  rw [first] at short
  simp [Making.find, made, Int.not_le.mpr short, pred, succ, first]

/-- No partner, or more than one. -/
theorem find_other {k : Making} {trim : Nat} {e : WindowEntry} (made : k.span.interpolated = false)
    (short : ((k.aloneWindow trim e.firstSucc).n : Int) < k.cal.nMin) (partners : e.pred + e.succ ≠ 1) :
    k.find trim e = .window (k.aloneWindow trim e.firstSucc) .alone := by
  have ahead : ¬ (e.pred = 1 ∧ e.succ = 0) := by omega
  have behind : ¬ (e.pred = 0 ∧ e.succ = 1) := by omega
  simp [Making.find, made, Int.not_le.mpr short, ahead, behind]

/-- Settles O24. -/
theorem windowsAreSharedAndDeferred : Obligations.WindowsAreSharedAndDeferred := by
  refine ⟨fun s p i t => ?_, fun s p i => ?_, WindowEntry.follows_iff, fun s p a x held => ?_,
    fun k => ⟨rfl, hasQual_crowded k⟩, fun a side m => ⟨rfl, write_reweighed a side m⟩,
    fun k trim e => ⟨find_alone, fun made short => ⟨fun x pred succ exit later => ?_, fun f pred succ first => ⟨fun waits => ?_, fun left => ?_⟩,
      fun pred succ early => ?_, find_other made short⟩⟩,
    fun m x => ⟨rfl, rfl, rfl, rfl⟩, fun s p partner e a f tOut trim deferred first held => ?_, fun s i => ?_⟩
  · rw [meuOpen_eq, openEntryIn_eq rfl]
    rw [funext (WindowEntry.notice_eq i t _)]
  · rw [meuCancel, resolveWhere_eq, dropEntries_mine]
  · refine ⟨fun crowded => ?_, fun w h loose found => ?_, fun loose found => ?_⟩
    · rw [meuClose_held held, closeSpan_crowded crowded, dropEntries_mine, writeMeas_eq (by exact held), afterExit_leave (by rfl)]
      rfl
    · rw [meuClose_held held, closeSpan_window loose found, dropEntries_mine, writeMeas_eq (by exact held), afterExit_leave (by rfl)]
      rfl
    · rw [meuClose_held held, closeSpan_deferral loose found, afterExit_leave (by rfl)]
      simp only [WindowEntry.isOpen_eq, Bool.decide_and]
      rfl
  · rw [find_ahead made short pred succ exit, if_pos later]
    cases x.means <;> rfl
  · rw [find_behind made short pred succ first, if_pos ((openFor_iff _ _).mpr waits)]
  · rw [find_behind made short pred succ first, if_neg]
    · rfl
    · rintro opened
      obtain ⟨d, mem, isOpen, axle, tIn⟩ := (openFor_iff _ _).mp opened
      rcases left d mem with h | h | h <;> contradiction
  · cases exit : k.meu.lastExit with
    | none => simp [Making.find, made, Int.not_le.mpr short, pred, succ, exit]
    | some x => rw [find_ahead made short pred succ exit, if_neg (Nat.not_lt.mpr (early x exit))]
  · rw [resolveEntry_eq deferred first held, writeMeas_eq (by exact held), dropEntries_eq]
    cases partner <;> rfl
  · rw [combineSettled]
    simp only [resolveWhere_direction]
    simp only [resolveWhere_eq]
    rfl

end Sys2Proof.Machine
end

