-- ==== Sys2Proof/Proofs/Combinations.lean ====
section
/-! PROOFS. The combination of an axle's two measurements, and the poisoning of a passage's measurements (R72 to R79). -/

namespace Sys2Proof.Machine

/-! ### The combination (R72 to R76) -/

theorem weighing_eq_some {m : Option Measurement} {r : Int × Int} : weighing m = some r ↔
    ∃ x, m = some x ∧ x.status = .valid ∧ x.rails = some r := by
  cases m with
  | none => simp [weighing]
  | some x => by_cases valid : x.status = .valid <;> simp [weighing, valid]

theorem meanSpeed_some (x y : Nat) : meanSpeed (some x) (some y) = some ((x + y + 1) / 2) := by
  have rounded : (roundDiv ((x : Int) + y) 2).toNat = (x + y + 1) / 2 := by
    unfold roundDiv
    rw [if_pos (by omega)]
    omega
  rw [meanSpeed, rounded]

/-- Two weighings that agree. -/
theorem combine_agree {c : CalSet} {a : Axle} {f s : Int × Int} (first : weighing a.meas.first = some f)
    (second : weighing a.meas.second = some s)
    (agree : ((f.1 + f.2 - (s.1 + s.2)).natAbs : Int) ≤ tolerance c (f.1 + f.2) (s.1 + s.2)) : a.combine c = { a with
      load := some (roundDiv (f.1 + f.2 + (s.1 + s.2)) 2000), rail1 := some (roundDiv (f.1 + s.1) 2000)
      rail2 := some (roundDiv (f.2 + s.2) 2000), speed := meanSpeed (measSpeed a.meas.first) (measSpeed a.meas.second), comb := none } := by
  simp only [Axle.combine, first, second]
  rw [if_pos agree]

/-- Two weighings that disagree. -/
theorem combine_disagree {c : CalSet} {a : Axle} {f s : Int × Int} (first : weighing a.meas.first = some f)
    (second : weighing a.meas.second = some s)
    (apart : tolerance c (f.1 + f.2) (s.1 + s.2) < ((f.1 + f.2 - (s.1 + s.2)).natAbs : Int)) : a.combine c =
      if measCount a.meas.first < measCount a.meas.second then a.takeAlone s (measSpeed a.meas.second) .disagree
      else a.takeAlone f (measSpeed a.meas.first) .disagree := by
  simp only [Axle.combine, first, second]
  rw [if_neg (Int.not_le.mpr apart)]

theorem combine_first {c : CalSet} {a : Axle} {f : Int × Int} (first : weighing a.meas.first = some f)
    (second : weighing a.meas.second = none) : a.combine c = a.takeAlone f (measSpeed a.meas.first) .single := by
  simp only [Axle.combine, first, second]

theorem combine_second {c : CalSet} {a : Axle} {s : Int × Int} (first : weighing a.meas.first = none)
    (second : weighing a.meas.second = some s) : a.combine c = a.takeAlone s (measSpeed a.meas.second) .single := by
  simp only [Axle.combine, first, second]

theorem combine_neither {c : CalSet} {a : Axle} (first : weighing a.meas.first = none) (second : weighing a.meas.second = none) :
    a.combine c = { a with load := none, rail1 := none, rail2 := none, comb := some .notWeighed
                           speed := (measSpeed a.meas.first).orElse fun _ => measSpeed a.meas.second } := by
  simp only [Axle.combine, first, second]

/-- A combination changes the loads, the speed and the combination qualifier. -/
theorem combine_fields (c : CalSet) (a : Axle) : a.combine c = { a with
    load := (a.combine c).load, rail1 := (a.combine c).rail1, rail2 := (a.combine c).rail2
    speed := (a.combine c).speed, comb := (a.combine c).comb } := by
  unfold Axle.combine
  split
  · simp only
    split
    · rfl
    · split <;> rfl
  all_goals rfl

theorem hasQual_measQuals (m : Option Measurement) (q : Qual) : hasQual (measQuals m) q = true ↔
    ∃ x, m = some x ∧ hasQual x.quals q = true := by
  cases m with
  | none => simpa [measQuals] using hasQual_none q
  | some x => simp [measQuals]

theorem hasQual_combQuals (o : Option Qual) (q : Qual) : hasQual (combQuals o) q = true ↔ o = some q := by
  cases o with
  | none => simpa [combQuals] using hasQual_none q
  | some x => simp [combQuals, hasQual_set]

/-- The qualifiers of an axle (R72). -/
theorem hasQual_axle (a : Axle) (q : Qual) : hasQual a.quals q = true ↔
    (∃ m, (a.meas.first = some m ∨ a.meas.second = some m) ∧ hasQual m.quals q = true) ∨
      (q = .reweighed ∧ a.reweighed = true) ∨ (a.settled = true ∧ a.comb = some q) ∨
      (q = .unclassified ∧ a.unclassified = true) := by
  have comb : hasQual (if a.settled then combQuals a.comb else 0) q = true ↔ a.settled = true ∧ a.comb = some q := by
    cases a.settled
    · simpa using hasQual_none q
    · simpa using hasQual_combQuals a.comb q
  have meas : (∃ m, (a.meas.first = some m ∨ a.meas.second = some m) ∧ hasQual m.quals q = true) ↔
      hasQual (measQuals a.meas.first) q = true ∨ hasQual (measQuals a.meas.second) q = true := by
    simp only [hasQual_measQuals, or_and_right, exists_or]
  rw [meas, Axle.quals]
  simp only [hasQual_or, hasQual_when, Bool.or_eq_true, Bool.and_eq_true, decide_eq_true_eq, comb, or_assoc, eq_comm (b := q), and_comm]

/-! ### Poisoning (R78, R79) -/

theorem reaches_iff (onset : Nat) (m : Measurement) : reaches onset m = true ↔
    m.status ∈ [MeasStatus.valid, .short, .overrange, .overspeed] ∧ ∃ t, m.lastSample = some t ∧ onset ≤ t := by
  unfold reaches
  cases m.lastSample <;> simp [or_assoc]

theorem sameCombination_iff (a b : Axle) : sameCombination a b = true ↔
    a.load = b.load ∧ a.rail1 = b.rail1 ∧ a.rail2 = b.rail2 ∧ a.speed = b.speed ∧ a.comb = b.comb := decide_eq_true_iff

/-- An axle as a recombination leaves it. -/
def Axle.recombined (c : CalSet) (a : Axle) : Axle := if a.settled then a.combine c else a

theorem combine_of_same {c : CalSet} {a : Axle} (same : sameCombination a (a.combine c) = true) : a.combine c = a := by
  obtain ⟨load, rail1, rail2, speed, comb⟩ := (sameCombination_iff _ _).mp same
  rw [combine_fields, ← load, ← rail1, ← rail2, ← speed, ← comb]

theorem recombine_axle (i j : Nat) (s : State) : (recombine i s).axt.train[j]? =
    if j = i then (s.axt.train[j]?).map (Axle.recombined s.cal.working) else s.axt.train[j]? := by
  have kept : ∀ a : Axle, s.axt.train[i]? = some a → a.recombined s.cal.working = a →
      s.axt.train[j]? = if j = i then (s.axt.train[j]?).map (Axle.recombined s.cal.working) else s.axt.train[j]? := fun a held same => by
    split
    · next here => rw [here, held, Option.map_some, same]
    · rfl
  unfold recombine
  split
  · next beyond =>
    split
    · next here => rw [here, beyond, Option.map_none]
    · rfl
  · next a held =>
    split
    · next settled =>
      simp only
      split
      · next same => exact kept a held (by rw [Axle.recombined, if_pos settled, combine_of_same same])
      · rw [noticeAxle_axt]
        show (updateAt _ i s.axt.train)[j]? = _
        rw [getElem?_updateAt]
        split
        · next here => rw [here, held, Option.map_some, Option.map_some, Axle.recombined, if_pos settled]
        · rfl
    · next unsettled => exact kept a held (by rw [Axle.recombined, if_neg unsettled])

theorem recombine_cal (i : Nat) (s : State) : (recombine i s).cal = s.cal := (recombine_noticed i s).cal

/-- The train as a poisoning recombines it: the axles below a place, one after another. -/
theorem recombine_range (s : State) (j : Nat) : ∀ n : Nat,
    ((List.range n).foldl (fun u i => recombine i u) s).cal = s.cal ∧
    ((List.range n).foldl (fun u i => recombine i u) s).axt.train[j]? =
      if j < n then (s.axt.train[j]?).map (Axle.recombined s.cal.working) else s.axt.train[j]?
  | 0 => ⟨rfl, by simp⟩
  | n + 1 => by
    obtain ⟨cal, axle⟩ := recombine_range s j n
    rw [List.range_succ, List.foldl_append]
    show (recombine n _).cal = s.cal ∧ (recombine n _).axt.train[j]? = _
    rw [recombine_cal, recombine_axle, cal, axle]
    refine ⟨rfl, ?_⟩
    by_cases here : j = n
    · rw [if_pos here, if_neg (by omega), if_pos (by omega)]
    · rw [if_neg here]
      have bounds : j < n + 1 ↔ j < n := by omega
      simp only [bounds]

/-- An axle whose measurement on a side an onset may reach. -/
def Axle.touched (side : Side) (onset : Nat) (a : Axle) : Axle :=
  { a with meas := a.meas.set side ((a.meas.get side).map (Measurement.poison onset)) }

theorem poisonTrain_eq (p : Platform) (onset : Nat) (s : State) : poisonTrain p onset s =
    (List.range s.axt.train.length).foldl (fun u i => recombine i u)
      (s.setAxt { s.axt with train := s.axt.train.map (Axle.touched (sideOf s.direction p) onset) }) := by
  unfold poisonTrain
  simp only [State.setAxt_axt, List.length_map]
  rfl

/-- The train after a poisoning: each axle poisoned, and recombined when it is settled (R79). -/
theorem poisonTrain_axle (p : Platform) (onset : Nat) (s : State) (i : Nat) : (poisonTrain p onset s).axt.train[i]? =
    (s.axt.train[i]?).map fun a => (a.touched (sideOf s.direction p) onset).recombined s.cal.working := by
  rw [poisonTrain_eq, (recombine_range _ i _).2]
  simp only [State.setAxt_axt, State.setAxt_cal, List.getElem?_map, Option.map_map]
  split
  · rfl
  · next beyond => rw [List.getElem?_eq_none (Nat.not_lt.mp beyond)]; rfl

/-- A poisoning that changes no combination tells no record (R79). -/
theorem poisonTrain_quiet {p : Platform} {onset : Nat} {s : State}
    (same : ∀ (i : Nat) (a : Axle), s.axt.train[i]? = some a → a.settled = true →
      sameCombination (a.touched (sideOf s.direction p) onset) ((a.touched (sideOf s.direction p) onset).combine s.cal.working) = true) :
    poisonTrain p onset s = s.setAxt { s.axt with train := s.axt.train.map (Axle.touched (sideOf s.direction p) onset) } := by
  rw [poisonTrain_eq]
  generalize he : s.setAxt { s.axt with train := s.axt.train.map (Axle.touched (sideOf s.direction p) onset) } = u
  have still : ∀ i, recombine i u = u := fun i => by
    unfold recombine
    split
    · rfl
    · next b held =>
      obtain ⟨a, found, rfl⟩ : ∃ a, s.axt.train[i]? = some a ∧ a.touched (sideOf s.direction p) onset = b := by
        rw [← he] at held
        simpa using held
      split
      · next settled =>
        have cal : u.cal = s.cal := by rw [← he]; rfl
        simp only [cal, same i a found settled, if_true]
      · rfl
  have each : ∀ l : List Nat, l.foldl (fun u i => recombine i u) u = u := fun l => by
    induction l with
    | nil => rfl
    | cons i l ih => rw [List.foldl_cons, still, ih]
  exact each _

theorem meuNotice_open {s : State} (opened : s.isOpen = true) (p : Platform) (onset : Nat) : meuNotice p onset s =
    poisonTrain p (earlierOnset (s.meu.get p).poison onset)
      (s.setMeu (s.meu.set p { s.meu.get p with poison := some (earlierOnset (s.meu.get p).poison onset) })) := by
  rw [meuNotice, if_pos opened]
  rfl

/-- Settles O25. -/
theorem axlesAreCombinedAndPoisoned : Obligations.AxlesAreCombinedAndPoisoned := by
  refine ⟨fun c a => ⟨fun f s first second => ⟨fun agree => ?_, fun apart => ⟨fun more => ?_, fun fewer => ?_⟩⟩,
      fun f first second => combine_first first second, fun s first second => combine_second first second,
      fun first second => ?_⟩,
    fun m r => weighing_eq_some, hasQual_axle, fun s p onset closed => ?_, fun s p onset opened => ?_⟩
  · refine ⟨_, combine_agree first second agree, fun x y one two => ?_⟩
    rw [show measSpeed a.meas.first = some x from one, show measSpeed a.meas.second = some y from two, meanSpeed_some]
  · rw [combine_disagree first second apart, if_neg (Nat.not_lt.mpr more)]
    rfl
  · rw [combine_disagree first second apart, if_pos fewer]
    rfl
  · rw [combine_neither first second]
    unfold measSpeed
    cases speed : a.meas.first.bind (·.speed) <;> simp [speed]
  · rw [meuNotice, if_neg (by simp [closed])]
  · intro o side hit s'
    have onset' : earlierOnset (s.meu.get p).poison onset = o := by
      cases h : (s.meu.get p).poison <;> simp [earlierOnset, o, h]
    have poisoned : s' = poisonTrain p o (s.setMeu (s.meu.set p { s.meu.get p with poison := some o })) := by
      rw [← onset']
      exact meuNotice_open opened p onset
    have axle : ∀ i : Nat, s'.axt.train[i]? =
        (s.axt.train[i]?).map fun a => (a.touched side o).recombined s.cal.working := fun i => by
      rw [poisoned]
      exact poisonTrain_axle p o _ i
    refine ⟨by rw [poisoned, poisonTrain_meu]; rfl, ?_, fun i a held => ⟨(a.meas.get side).map (Measurement.poison o),
      fun x has reached => ?_, fun x has spared => ?_, fun absent => by rw [absent]; rfl, fun settled => ?_, fun unsettled => ?_⟩, fun same => ?_⟩
    · have train : s'.axt.train = s.axt.train.map fun a => (a.touched side o).recombined s.cal.working :=
        List.ext_getElem? fun i => by rw [axle, List.getElem?_map]
      rw [train, List.length_map]
    · rw [has, Option.map_some, Measurement.poison, if_pos ((reaches_iff o x).mpr reached)]
    · rw [has, Option.map_some, Measurement.poison, if_neg fun h => spared ((reaches_iff o x).mp h)]
    · rw [axle, held, Option.map_some, Axle.recombined, if_pos (by exact settled)]
      rfl
    · rw [axle, held, Option.map_some, Axle.recombined, if_neg (by exact Bool.eq_false_iff.mp unsettled)]
      rfl
    · rw [poisoned, poisonTrain_quiet]
      · exact ⟨rfl, rfl⟩
      · intro i a held settled
        have recombined := axle i
        rw [show s.axt.train[i]? = some a from held, Option.map_some, Axle.recombined, if_pos (by exact settled)] at recombined
        have fields := same i a _ held recombined settled
        simp only [Prod.mk.injEq] at fields
        obtain ⟨load, rail1, rail2, speed, comb⟩ := fields
        exact (sameCombination_iff _ _).mpr ⟨load.symm, rail1.symm, rail2.symm, speed.symm, comb.symm⟩

end Sys2Proof.Machine
end

