-- ==== Sys2Proof/Proofs/VehicleDecisions.lean ====
section
/-! PROOFS. What the Segmenter decides from the spacings: class tests, matching, bogies (R111 to R115). -/

namespace Sys2Proof.Machine

/-! ### The class test (R112) -/

theorem getElem?_internalTests (tol : Nat) (sp : List (Option Nat)) : ∀ (l : List Nat) (c i : Nat),
    (internalTests tol sp c l)[i]? = (l[i]?).map fun w => withinTolerance tol w (entryAt sp (c + i))
  | [], c, i => by simp [internalTests]
  | w :: l, c, 0 => by simp [internalTests]
  | w :: l, c, i + 1 => by
    rw [internalTests, List.getElem?_cons_succ, List.getElem?_cons_succ, getElem?_internalTests tol sp l (c + 1) i,
      show c + 1 + i = c + (i + 1) by omega]

theorem withinTolerance_false {tol w : Nat} {o : Option Nat} : withinTolerance tol w o = some false ↔
    ∃ d : Nat, o = some d ∧ tol < ((d : Int) - (w : Int)).natAbs := by
  cases o <;> simp [withinTolerance]

theorem withinTolerance_true {tol w : Nat} {o : Option Nat} : withinTolerance tol w o = some true ↔
    ∃ d : Nat, o = some d ∧ ((d : Int) - (w : Int)).natAbs ≤ tol := by
  cases o <;> simp [withinTolerance]

/-- A present entry is out of a class's bounds. -/
theorem internalTests_any (tol : Nat) (sp : List (Option Nat)) (l : List Nat) (c : Nat) :
    (internalTests tol sp c l).any (fun x => decide (x = some false)) = true ↔
      ∃ i w d : Nat, l[i]? = some w ∧ entryAt sp (c + i) = some d ∧ tol < ((d : Int) - (w : Int)).natAbs := by
  have mem : (internalTests tol sp c l).any (fun x => decide (x = some false)) = true ↔ some false ∈ internalTests tol sp c l := by simp
  simp only [mem, List.mem_iff_getElem?, getElem?_internalTests, Option.map_eq_some_iff, withinTolerance_false, exists_and_left]

/-- Every entry is present and within a class's bounds. -/
theorem internalTests_all (tol : Nat) (sp : List (Option Nat)) (l : List Nat) (c : Nat) :
    (internalTests tol sp c l).all (fun x => decide (x = some true)) = true ↔
      ∀ i w : Nat, l[i]? = some w → ∃ d : Nat, entryAt sp (c + i) = some d ∧ ((d : Int) - (w : Int)).natAbs ≤ tol := by
  simp only [List.all_eq_true, decide_eq_true_eq, List.mem_iff_getElem?, getElem?_internalTests, Option.map_eq_some_iff,
    ← withinTolerance_true]
  constructor
  · exact fun h i w hw => h _ ⟨i, w, hw, rfl⟩
  · rintro h x ⟨i, w, hw, rfl⟩
    exact h i w hw

theorem openOutcome_failed (l : List (Option Bool)) : openOutcome l = .failed ↔ l.any (fun x => decide (x = some false)) = true := by
  unfold openOutcome
  split
  · next failed => simp [failed]
  · next sound => split <;> simp [sound]

theorem openOutcome_passed (l : List (Option Bool)) : openOutcome l = .passed ↔ l.all (fun x => decide (x = some true)) = true := by
  have apart : l.all (fun x => decide (x = some true)) = true → l.any (fun x => decide (x = some false)) = false := fun all =>
    List.any_eq_false.mpr fun x hx => by
      have := List.all_eq_true.mp all x hx
      simp_all
  unfold openOutcome
  split
  · next failed =>
    constructor
    · exact nofun
    · exact fun all => absurd (apart all) (by simp [failed])
  · split
    · next all => simp [all]
    · next some => simp [some]

theorem gapTest_false {r : ClassRec} {o : Option Nat} : gapTest r o = some false ↔ ∃ d, o = some d ∧ (d < r.gapMin ∨ r.gapMax < d) := by
  simp only [gapTest, Option.map_eq_some_iff, decide_eq_false_iff_not]
  refine exists_congr fun d => and_congr_right fun _ => by omega

theorem gapTest_true {r : ClassRec} {o : Option Nat} : gapTest r o = some true ↔ ∃ d, o = some d ∧ r.gapMin ≤ d ∧ d ≤ r.gapMax := by
  simp [gapTest]

theorem classTest_open (sp : List (Option Nat)) (c m : Nat) (r : ClassRec) : classTest false sp c m r =
    openOutcome (internalTests r.tolerance sp c r.spacings ++ [gapTest r (entryAt sp (c + r.spacings.length))]) := rfl

theorem classTest_closing (sp : List (Option Nat)) (c m : Nat) (r : ClassRec) : classTest true sp c m r =
    if r.spacings.length + 1 ≤ m ∧ (internalTests r.tolerance sp c r.spacings).all (fun x => decide (x = some true)) = true then .passed
    else .failed := rfl

/-- At close a test is never open. -/
theorem classTest_closing_iff (sp : List (Option Nat)) (c m : Nat) (r : ClassRec) :
    (classTest true sp c m r = .passed ↔
      r.spacings.length + 1 ≤ m ∧ (internalTests r.tolerance sp c r.spacings).all (fun x => decide (x = some true)) = true) ∧
    (classTest true sp c m r = .failed ↔
      ¬ (r.spacings.length + 1 ≤ m ∧ (internalTests r.tolerance sp c r.spacings).all (fun x => decide (x = some true)) = true)) := by
  rw [classTest_closing]
  split
  · next holds => exact ⟨⟨fun _ => holds, fun _ => rfl⟩, ⟨nofun, fun fails => absurd holds fails⟩⟩
  · next fails => exact ⟨⟨nofun, fun holds => absurd holds fails⟩, ⟨fun _ => fails, fun _ => rfl⟩⟩

/-! ### The expected class (R111) -/

theorem codeInTable_iff {s : State} {code : Option Nat} {c : Nat} {r : ClassRec} : s.codeInTable code = some (c, r) ↔
    code = some c ∧ tget s.seg.classes c = some r := by
  cases code with
  | none => simp [State.codeInTable]
  | some x =>
    simp only [State.codeInTable, Option.bind_some, Option.map_eq_some_iff, Prod.mk.injEq, Option.some.injEq]
    constructor
    · rintro ⟨y, found, rfl, rfl⟩
      exact ⟨rfl, found⟩
    · rintro ⟨rfl, found⟩
      exact ⟨r, found, rfl, rfl⟩

theorem codeInTable_none {s : State} {code : Option Nat} (h : ∀ c r, code = some c → tget s.seg.classes c ≠ some r) :
    s.codeInTable code = none := by
  cases found : s.codeInTable code with
  | none => rfl
  | some x =>
    obtain ⟨c, r⟩ := x
    obtain ⟨named, held⟩ := codeInTable_iff.mp found
    exact absurd held (h c r named)

/-- The expected class of an EXPECTED record: by its fleet number, else by its expectation. -/
theorem expectedClass_expected {s : State} {p k : Nat} {w : Wagon} (held : s.recordAt s.openNumber p = some (k, w))
    (expected : w.state = .expected) : s.expectedClass p =
      (s.codeInTable ((s.lookupOpt w.fleet).bind (·.cls))).orElse fun _ => s.codeInTable w.expectedCls := by
  simp only [State.expectedClass, held, expected, if_true]

/-- The class that the register holds for a fleet number. -/
theorem lookupOpt_cls {s : State} {f : Option Nat} {c : Nat} : (s.lookupOpt f).bind (·.cls) = some c ↔
    ∃ n g, f = some n ∧ tget s.wrg.records n = some g ∧ g.fields.cls = some c := by
  simp only [lookupOpt_eq, Option.bind_eq_some_iff, Option.map_eq_some_iff]
  constructor
  · rintro ⟨_, ⟨g, ⟨n, rfl, found⟩, rfl⟩, cls⟩
    exact ⟨n, g, rfl, found, cls⟩
  · rintro ⟨n, g, rfl, found, cls⟩
    exact ⟨_, ⟨g, ⟨n, rfl, found⟩, rfl⟩, cls⟩

theorem lookupOpt_cls_unnamed {s : State} {w : Wagon} (unnamed : ∀ (c : Nat) (r : ClassRec), ¬ (tget s.seg.classes c = some r ∧
    ∃ f g, w.fleet = some f ∧ tget s.wrg.records f = some g ∧ g.fields.cls = some c)) (c : Nat) (r : ClassRec)
    (code : (s.lookupOpt w.fleet).bind (·.cls) = some c) : tget s.seg.classes c ≠ some r :=
  fun found => unnamed c r ⟨found, lookupOpt_cls.mp code⟩

/-! ### Matching (R113, R114) -/

/-- The first class that has not FAILED. -/
theorem find?_matching {α : Type} {q : α → Bool} {pre post : List α} {a : α} (failed : ∀ b ∈ pre, q b = false) (holds : q a = true) :
    (pre ++ a :: post).find? q = some a := by
  rw [List.find?_append, List.find?_eq_none.mpr (fun b hb => by simp [failed b hb])]
  simp [holds]

theorem autoDecide_found {s : State} {closing mm : Bool} {c : Nat × ClassRec}
    (found : (matchingOrder s.seg.classes).find? (fun r => decide (classTest closing s.seg.spacings s.seg.cursor
      (s.axt.train.length - s.seg.cursor) r.2 ≠ .failed)) = some c) : autoDecide s closing mm =
      if classTest closing s.seg.spacings s.seg.cursor (s.axt.train.length - s.seg.cursor) c.2 = .passed then
        .form (.ofClass s.seg.cursor c mm) else .wait .cls := by
  simp only [autoDecide, found]

theorem autoDecide_bogies {s : State} {closing mm : Bool}
    (failed : (matchingOrder s.seg.classes).find? (fun r => decide (classTest closing s.seg.spacings s.seg.cursor
      (s.axt.train.length - s.seg.cursor) r.2 ≠ .failed)) = none) : autoDecide s closing mm =
      (bogiePair closing s.settings.bogieMax s.seg.spacings s.seg.cursor s.axt.train.length).elim (.wait .bogie)
        fun n => .form ⟨s.seg.cursor, n, none, .wagon, true, mm⟩ := by
  simp only [autoDecide, failed]
  cases bogiePair closing s.settings.bogieMax s.seg.spacings s.seg.cursor s.axt.train.length <;> rfl

/-! ### Bogies (R115) -/

theorem bogieAt_eq_some {closing : Bool} {limit : Nat} {sp : List (Option Nat)} {start total k : Nat} (room : start < total) :
    bogieAt closing limit sp start total = some k ↔ 1 ≤ k ∧ k ≤ 3 ∧
      (∀ j, j + 1 < k → ∃ d, entryAt sp (start + j) = some d ∧ d ≤ limit) ∧
      (k = 3 ∨ (∃ d, entryAt sp (start + k - 1) = some d ∧ limit < d) ∨ (closing = true ∧ entryAt sp (start + k - 1) = none)) := by
  rw [bogieAt, if_pos room, growBogie_eq_some closing limit sp start 2 1 k (Nat.le_refl 1)]
  simp

theorem bogieAt_beyond {closing : Bool} {limit : Nat} {sp : List (Option Nat)} {start total : Nat} (beyond : total ≤ start) :
    bogieAt closing limit sp start total = if closing then some 0 else none := by
  rw [bogieAt, if_neg (Nat.not_lt.mpr beyond)]

/-- In the normal mode both bogies must have ended. -/
theorem bogiePair_open {limit : Nat} {sp : List (Option Nat)} {start total n : Nat} : bogiePair false limit sp start total = some n ↔
    ∃ x y, bogieAt false limit sp start total = some x ∧ start + x < total ∧ bogieAt false limit sp (start + x) total = some y ∧
      n = x + y := by
  simp only [bogiePair, Bool.false_and, Bool.false_eq_true, if_false, Option.bind_eq_some_iff, Option.map_eq_some_iff]
  constructor
  · rintro ⟨x, first, y, second, rfl⟩
    refine ⟨x, y, first, Nat.not_le.mp fun beyond => ?_, second, rfl⟩
    rw [bogieAt_beyond beyond] at second
    exact absurd second (by simp)
  · rintro ⟨x, y, first, -, second, rfl⟩
    exact ⟨x, first, y, second, rfl⟩

/-- At close the second bogie wants a present entry behind the first, and may hold no axle. -/
theorem bogiePair_closing {limit : Nat} {sp : List (Option Nat)} {start total n : Nat} :
    bogiePair true limit sp start total = some n ↔ ∃ x, bogieAt true limit sp start total = some x ∧
      ((entryAt sp (start + x - 1) = none ∨ total ≤ start + x) ∧ n = x ∨
        entryAt sp (start + x - 1) ≠ none ∧ start + x < total ∧ ∃ y, bogieAt true limit sp (start + x) total = some y ∧ n = x + y) := by
  simp only [bogiePair, Bool.true_and, Option.bind_eq_some_iff, Option.isNone_iff_eq_none]
  refine exists_congr fun x => and_congr_right fun _ => ?_
  by_cases apart : entryAt sp (start + x - 1) = none
  · simp [apart, eq_comm]
  · rw [if_neg apart]
    by_cases beyond : total ≤ start + x
    · simp [bogieAt_beyond beyond, apart, beyond, Nat.not_lt.mpr beyond, eq_comm]
    · simp only [apart, beyond, Nat.not_le.mp beyond, Option.map_eq_some_iff, false_or, false_and, not_false_eq_true, ne_eq,
        true_and]
      exact exists_congr fun y => and_congr_right fun _ => eq_comm

/-- Settles O33. -/
theorem vehiclesAreDecidedFromSpacings : Obligations.VehiclesAreDecidedFromSpacings := by
  refine ⟨fun sp c m r => ⟨?_, ?_, ?_, ?_⟩, fun s p => ⟨fun other => ?_, fun k w held expected => ⟨fun c r named => ?_,
      fun unnamed => ⟨fun c r code found => ?_, fun absent => ?_⟩⟩⟩,
    fun s closing mm => ⟨fun unexpected => ?_, fun c r expected => ⟨fun passed => ?_, fun undecided => ?_, fun failed => ?_⟩,
      fun pre post c r order failed => ⟨fun passed => ?_, fun undecided => ?_⟩, fun failed => ?_⟩,
    fun t wf => ⟨fun c => mem_sortBy _ _ _, ?_⟩, fun limit sp start total k room => ⟨?_, ?_⟩,
    fun limit sp start total n room => ⟨?_, ?_⟩⟩
  · rw [classTest_open, openOutcome_failed, List.any_append, Bool.or_eq_true, internalTests_any]
    simp [gapTest_false]
  · rw [classTest_open, openOutcome_passed, List.all_append, Bool.and_eq_true, internalTests_all]
    simp [gapTest_true]
  · rw [(classTest_closing_iff sp c m r).1, internalTests_all]
  · rw [(classTest_closing_iff sp c m r).2, internalTests_all]
  · unfold State.expectedClass
    split
    · next k w held => rw [if_neg (other k w held)]
    · rfl
  · obtain ⟨found, f, g, fleet, record, cls⟩ := named
    rw [expectedClass_expected held expected, codeInTable_iff.mpr ⟨lookupOpt_cls.mpr ⟨f, g, fleet, record, cls⟩, found⟩]
    rfl
  · rw [expectedClass_expected held expected, codeInTable_none (lookupOpt_cls_unnamed unnamed), codeInTable_iff.mpr ⟨code, found⟩]
    rfl
  · rw [expectedClass_expected held expected, codeInTable_none (lookupOpt_cls_unnamed unnamed), codeInTable_none absent]
    rfl
  · simp only [decideVehicle, unexpected]
  · simp only [decideVehicle, expected, passed]
    rfl
  · simp only [decideVehicle, expected, undecided]
  · simp only [decideVehicle, expected, failed]
  · rw [autoDecide_found (c := (c, r)) (order ▸ find?_matching (fun q hq => by simp [failed q hq]) (by simp [passed])), if_pos passed]
    rfl
  · rw [autoDecide_found (c := (c, r)) (order ▸ find?_matching (fun q hq => by simp [failed q hq]) (by simp [undecided])),
      if_neg (by simp [undecided])]
  · rw [autoDecide_bogies (List.find?_eq_none.mpr fun q hq => by simp [failed q ((mem_sortBy _ _ _).mp hq)])]
    cases bogiePair closing s.settings.bogieMax s.seg.spacings s.seg.cursor s.axt.train.length <;> rfl
  · exact (pairwise_sortBy _ (rising_pairwise wf).1).imp fun {a b} order => by
      show min 7 b.2.spacings.length < min 7 a.2.spacings.length ∨ _
      omega
  · rw [bogieAt_eq_some room]
    simp
  · rw [bogieAt_eq_some room]
    simp
  · exact bogiePair_open
  · exact bogiePair_closing

end Sys2Proof.Machine
end

