-- ==== Sys2Proof/Proofs/VehicleForming.lean ====
section
/-! PROOFS. Spacings, the evaluation of the cursor, and the forming and dissolution of vehicles (R109, R110, R115 to R121). -/

namespace Sys2Proof.Machine

/-! ### Spacings (R109) -/

theorem entryAt_cons_zero (x : Option Nat) (l : List (Option Nat)) : entryAt (x :: l) 0 = x := rfl

theorem entryAt_cons_succ (x : Option Nat) (l : List (Option Nat)) (k : Nat) : entryAt (x :: l) (k + 1) = entryAt l k := by
  simp [entryAt]

theorem entryAt_beyond {l : List (Option Nat)} {k : Nat} (h : l.length ≤ k) : entryAt l k = none := by
  rw [entryAt, List.getElem?_eq_none h]
  rfl

theorem presentCount_cons (x : Option Nat) (l : List (Option Nat)) : presentCount (x :: l) = presentCount l + if x.isSome then 1 else 0 := by
  cases x <;> simp [presentCount]

/-- A list whose present entries are present in another has no more of them. -/
theorem presentCount_le : ∀ {l m : List (Option Nat)}, (∀ k, entryAt m k = none → entryAt l k = none) → presentCount l ≤ presentCount m
  | [], m, _ => Nat.zero_le _
  | x :: l, [], h => by
    have absent : x = none := h 0 rfl
    have rest := presentCount_le (l := l) (m := []) fun k _ => (entryAt_cons_succ x l k) ▸ h (k + 1) rfl
    simpa [presentCount_cons, absent] using rest
  | x :: l, y :: m, h => by
    have rest := presentCount_le (l := l) (m := m) fun k hk => (entryAt_cons_succ x l k) ▸ h (k + 1) ((entryAt_cons_succ y m k).trans hk)
    have first : y = none → x = none := h 0
    rw [presentCount_cons, presentCount_cons]
    cases y with
    | none => simpa [first rfl] using rest
    | some d => cases x <;> simp <;> omega

theorem presentCount_set_none : ∀ {m : List (Option Nat)} {k : Nat}, entryAt m k ≠ none →
    presentCount (m.set k none) + 1 = presentCount m
  | [], _, h => absurd rfl h
  | y :: m, 0, h => by
    have present : y.isSome = true := Option.isSome_iff_ne_none.mpr h
    simp [presentCount_cons, present]
  | y :: m, k + 1, h => by
    rw [List.set_cons_succ, presentCount_cons, presentCount_cons, ← presentCount_set_none (m := m) (entryAt_cons_succ y m k ▸ h)]
    omega

/-- A list with an entry more has more of them. -/
theorem presentCount_lt {l m : List (Option Nat)} {k : Nat} (h : ∀ j, entryAt m j = none → entryAt l j = none)
    (absent : entryAt l k = none) (present : entryAt m k ≠ none) : presentCount l < presentCount m := by
  have fewer : presentCount l ≤ presentCount (m.set k none) := presentCount_le fun j hj => by
    by_cases same : j = k
    · rw [same, absent]
    · refine h j ?_
      rwa [entryAt, List.getElem?_set_ne (Ne.symm same)] at hj
  have one := presentCount_set_none present
  omega

/-- A spacing list with one entry for each neighbouring pair at most, and what becomes of each entry. -/
theorem findSpacings_kept (s : State) {ds : List (Option Nat)} {l : List Axle} (short : ds.length < l.length) (k : Nat)
    (absent : entryAt (findSpacings s l ds) k = none) : entryAt ds k = none := by
  by_cases inside : k + 1 < l.length
  · have found := entryAt_findSpacings s l ds k _ _ (List.getElem?_eq_getElem (by omega)) (List.getElem?_eq_getElem inside)
    rw [absent] at found
    cases entry : entryAt ds k with
    | none => rfl
    | some d =>
      rw [entry] at found
      exact absurd found (by simp)
  · exact entryAt_beyond (by omega)

theorem segTold_eq (t : Nat) (s : State) : segTold t s =
    if presentCount s.seg.spacings < presentCount (findSpacings s s.axt.train s.seg.spacings) then
      evaluate t false (s.setSeg { s.seg with spacings := findSpacings s s.axt.train s.seg.spacings })
    else s.setSeg { s.seg with spacings := findSpacings s s.axt.train s.seg.spacings } := by
  simp only [segTold, decide_eq_true_eq]

theorem spacingAt_iff {s : State} {a b : Axle} {p : Post} {d : Nat} : spacingAt s a b p = some d ↔ s.postOk p = true ∧
    ∃ x y, a.times.get p = some x ∧ b.times.get p = some y ∧ d = spacing s.cal.working.headSpacing x y := by
  unfold spacingAt
  rw [State.postOk, decide_eq_true_iff]
  split
  · next ok =>
    cases first : a.times.get p <;> cases second : b.times.get p <;> simp [ok, eq_comm]
  · next bad => exact ⟨nofun, fun h => absurd h.1 bad⟩

/-! ### The evaluation of the cursor (R110, R117, R121) -/

theorem evaluate_stopped {s : State} (h : s.axt.abandoned = true ∨ s.seg.limit = true) (t : Nat) (closing : Bool) :
    evaluate t closing s = s.setSeg { s.seg with wait := .stopped } := by
  rw [evaluate, evalCursor, if_pos (by simpa using h)]
  rfl

theorem evaluate_ended {s : State} (whole : s.axt.abandoned = false) (room : s.seg.limit = false)
    (ended : s.axt.train.length ≤ s.seg.cursor) (t : Nat) (closing : Bool) :
    evaluate t closing s = s.setSeg { s.seg with wait := .none } := by
  rw [evaluate, evalCursor, if_neg (by simp [whole, room]), if_pos ended]
  rfl

theorem evaluate_waits {s : State} {closing : Bool} {r : WaitReason} (whole : s.axt.abandoned = false) (room : s.seg.limit = false)
    (more : s.seg.cursor < s.axt.train.length) (waits : decideVehicle s closing = .wait r) (t : Nat) :
    evaluate t closing s = s.setSeg { s.seg with wait := r } := by
  rw [evaluate, evalCursor, if_neg (by simp [whole, room]), if_neg (Nat.not_le.mpr more), waits]
  rfl

theorem evaluate_limit {s : State} {closing : Bool} {v : Vehicle} (whole : s.axt.abandoned = false) (room : s.seg.limit = false)
    (more : s.seg.cursor < s.axt.train.length) (forms : decideVehicle s closing = .form v) (full : 640 ≤ s.seg.vehicles.length)
    (t : Nat) : evaluate t closing s = meetLimit t s := by
  rw [evaluate, evalCursor, if_neg (by simp [whole, room]), if_neg (Nat.not_le.mpr more), forms]
  exact if_pos full

/-- At close a bogie always ends. -/
theorem growBogie_closing (limit : Nat) (sp : List (Option Nat)) (start : Nat) : ∀ fuel k : Nat,
    ∃ n, growBogie true limit sp start fuel k = some n
  | 0, k => ⟨k, rfl⟩
  | fuel + 1, k => by
    unfold growBogie
    split
    · split
      · exact growBogie_closing limit sp start fuel (k + 1)
      · exact ⟨k, rfl⟩
    · exact ⟨k, rfl⟩

theorem bogiePair_some (limit : Nat) (sp : List (Option Nat)) (start total : Nat) : ∃ n, bogiePair true limit sp start total = some n := by
  have one : ∀ from', ∃ n, bogieAt true limit sp from' total = some n := fun from' => by
    unfold bogieAt
    split
    · exact growBogie_closing _ _ _ _ _
    · exact ⟨0, rfl⟩
  obtain ⟨x, first⟩ := one start
  obtain ⟨y, second⟩ := one (start + x)
  rw [bogiePair, first, Option.bind_some, second]
  split
  · exact ⟨x, rfl⟩
  · exact ⟨x + y, rfl⟩

/-- At close every evaluation forms a vehicle (R121). -/
theorem decideVehicle_closing (s : State) : ∃ v, decideVehicle s true = .form v := by
  have decided : ∀ sp c m r, classTest true sp c m r ≠ .undecided := fun sp c m r => by
    rw [classTest_closing]
    split <;> simp
  have auto : ∀ mm, ∃ v, autoDecide s true mm = .form v := fun mm => by
    cases found : (matchingOrder s.seg.classes).find? (fun r => decide (classTest true s.seg.spacings s.seg.cursor
      (s.axt.train.length - s.seg.cursor) r.2 ≠ .failed)) with
    | none =>
      obtain ⟨n, bogies⟩ := bogiePair_some s.settings.bogieMax s.seg.spacings s.seg.cursor s.axt.train.length
      rw [autoDecide_bogies found, bogies]
      exact ⟨_, rfl⟩
    | some c =>
      have sound : classTest true s.seg.spacings s.seg.cursor (s.axt.train.length - s.seg.cursor) c.2 ≠ .failed := by
        simpa using List.find?_some found
      rw [autoDecide_found found, if_pos]
      · exact ⟨_, rfl⟩
      · cases test : classTest true s.seg.spacings s.seg.cursor (s.axt.train.length - s.seg.cursor) c.2 with
        | passed => rfl
        | failed => exact absurd test sound
        | undecided => exact absurd test (decided _ _ _ _)
  unfold decideVehicle
  split
  · exact auto false
  · split
    · exact ⟨_, rfl⟩
    · next undecided => exact absurd undecided (decided _ _ _ _)
    · exact auto true

theorem meetLimit_limit (t : Nat) (s : State) : (meetLimit t s).seg.limit = true := by
  rw [meetLimit, reportFault_eq]
  rfl

/-- The segmentation at close ends with every axle in a vehicle, or at the limit (R121). -/
theorem evalCursor_closing (t : Nat) : ∀ (fuel : Nat) (s : State), s.axt.train.length - s.seg.cursor < fuel → s.axt.abandoned = false →
    (evalCursor t true fuel s).seg.limit = true ∨
      s.axt.train.length ≤ (evalCursor t true fuel s).seg.cursor ∧ (evalCursor t true fuel s).seg.wait = .none
  | 0, _, room, _ => absurd room (Nat.not_lt_zero _)
  | fuel + 1, s, room, whole => by
    unfold evalCursor
    split
    · next stopped => exact Or.inl (show s.seg.limit = true by simpa [whole] using stopped)
    · split
      · next ended => exact Or.inr ⟨ended, rfl⟩
      · next more =>
        obtain ⟨v, formed⟩ := decideVehicle_closing s
        rw [formed]
        simp only
        split
        · exact Or.inl (meetLimit_limit t s)
        · obtain ⟨first, count⟩ := decideVehicle_form formed (Nat.not_le.mp more)
          have rest := evalCursor_closing t fuel (formVehicle t v s) (by
            rw [formVehicle_train_length, formVehicle_seg]
            show _ - (v.first + v.count) < fuel
            omega) ((formVehicle_abandoned t v s).trans whole)
          rwa [formVehicle_train_length] at rest

/-! ### The forming and the dissolution of a vehicle (R116, R119, R120) -/

theorem reportV_eq (s : State) : reportV s = s.setDirectory (s.ptb.directory.map fun e =>
    if e.close = none then { e with vehicles := s.seg.vehicles.length } else e) := updOpenEntry_eq _ s

theorem reportV_ptb {s : State} {n : Nat} (count : s.seg.vehicles.length = n) : (reportV s).ptb = { s.ptb with
    directory := s.ptb.directory.map fun e => if e.close = none then { e with vehicles := n } else e } := by
  rw [reportV_eq, count]
  rfl

/-- The state that the PTB finds when the last vehicle is dissolved. -/
theorem dissolveLast_append {s : State} {v : Vehicle} {l : List Vehicle} (h : s.seg.vehicles = l ++ [v]) : dissolveLast s =
    dissolveVehicle (l.length + 1) v (reportV (updVehicleAxles v (fun a => { a with vehicle := none, unclassified := false })
      (s.setSeg { s.seg with vehicles := l, cursor := v.first, limit := false }))) := by
  simp [dissolveLast, h]

/-- Settles O34. -/
theorem vehiclesAreFormedAndDissolved : Obligations.VehiclesAreFormedAndDissolved := by
  refine ⟨fun s t k a b first second => ⟨?_, ?_, ?_, fun p d => spacingAt_iff⟩, fun s t => ⟨fun grew short => ?_, fun same => ?_⟩,
    fun s t closing => ⟨fun stopped => evaluate_stopped stopped t closing, fun whole room => ⟨fun ended => evaluate_ended whole room ended t closing,
      fun more => ⟨fun r waits => evaluate_waits whole room more waits t, fun v forms => ⟨fun free => evaluate_form whole room more forms free,
        fun full ready => ?_⟩⟩, ?_⟩⟩,
    fun s t v => ?_, fun s a => ⟨fun loose => ?_, fun held => ?_⟩, fun s v l last => ?_, fun s t cause => ?_⟩
  · rw [segTold_spacings, findSpacings_length]
    obtain ⟨inside, -⟩ := List.getElem?_eq_some_iff.mp first
    omega
  · rw [segTold_spacings, entryAt_findSpacings s _ _ k a b first second]
    cases entryAt s.seg.spacings k <;> rfl
  · unfold spacingOf
    cases spacingAt s a b .e <;> cases spacingAt s a b .m <;> rfl
  · obtain ⟨k, d, inside, absent, present⟩ := grew
    rw [State.setSeg_seg, segTold_spacings] at present
    rw [segTold_spacings, segTold_eq, if_pos (presentCount_lt (findSpacings_kept s short) absent (by rw [present]; simp))]
  · rw [segTold_spacings, segTold_eq, if_neg]
    refine Nat.not_lt.mpr (presentCount_le fun k absent => ?_)
    by_cases inside : k + 1 < s.axt.train.length
    · have still := same k inside absent
      rwa [State.setSeg_seg, segTold_spacings] at still
    · exact entryAt_beyond (by rw [findSpacings_length]; omega)
  · rw [evaluate_limit whole room more forms full, meetLimit, reportFault_started (by exact fun starting => absurd (ready.symm.trans starting) (by decide))]
    rfl
  · exact evalCursor_closing t _ s (by omega) whole
  · refine ⟨reportV (updVehicleAxles v (fun a => { a with vehicle := some (s.seg.vehicles.length + 1), unclassified := a.unclassified || v.unclassified })
      (s.setSeg { s.seg with vehicles := s.seg.vehicles ++ [v], cursor := v.first + v.count })), rfl, ?_, ?_, rfl,
      fun i => getElem?_updVehicleAxles _ _ _ i, rfl, ?_⟩
    · rw [formVehicle_seg]
      rfl
    · exact bindVehicle_axt _ _ _ _
    · exact reportV_ptb (List.length_append.trans rfl)
  · rw [segRemoved, if_neg (by simp [loose])]
  · rw [segRemoved, if_pos (Option.isSome_iff_ne_none.mpr held)]
  · refine ⟨_, dissolveLast_append last, ?_, ?_, rfl, fun i => getElem?_updVehicleAxles _ _ _ i, rfl, ?_⟩
    · rw [dissolveLast_append last, dissolveVehicle_eq]
      rfl
    · rw [dissolveLast_append last, dissolveVehicle_axt]
    · exact reportV_ptb rfl
  · unfold closeFirst closePending
    simp only [State.holdsPending, Option.isSome_iff_ne_none]

end Sys2Proof.Machine
end

