-- ==== Sys2Proof/Proofs/HeadEvents.lean ====
section
/-! PROOFS. The station records: head events, crossings formed, returns and head incidents (R5 to R11, R28). -/

namespace Sys2Proof.Machine

/-! ### The station record's rules -/

theorem exec_headEvent {s : State} (on : s.powered = true) (t : Nat) (k : Station) (h : Head) :
    exec (.headEvent t k h) s = .next (takeHead (s.advance t).timebase k h (s.advance t)) :=
  congrArg Host.Outcome.next (ifPowered_on on _)

theorem takeHead_ready {s : State} {k : Station} (ready : s.condition = .ready) (ok : (s.wsu.get k).state = .ok) (t : Nat) (h : Head) :
    takeHead t k h s = pairHead t k h (touch t s) := if_pos ⟨ready, ok⟩

theorem takeHead_ignored {s : State} {k : Station} (unready : s.condition ≠ .ready ∨ (s.wsu.get k).state = .faulted) (t : Nat) (h : Head) :
    takeHead t k h s = s := by
  refine if_neg fun ⟨ready, ok⟩ => ?_
  rcases unready with starting | faulted
  · exact starting ready
  · rw [ok] at faulted
    exact nomatch faulted

/-- A head event at an OK station of a READY part is activity, and goes to the pairing. -/
theorem exec_headEvent_ready {s : State} {k : Station} (on : s.powered = true) (ready : s.condition = .ready)
    (ok : (s.wsu.get k).state = .ok) (t : Nat) (h : Head) :
    exec (.headEvent t k h) s = .next (pairHead (s.advance t).timebase k h (touch (s.advance t).timebase (s.advance t))) :=
  (exec_headEvent on t k h).trans (congrArg Host.Outcome.next (takeHead_ready (s := s.advance t) ready ok _ h))

theorem pairHead_first {s : State} {k : Station} (free : (s.wsu.get k).pending = none) (t : Nat) (h : Head) :
    pairHead t k h s = s.setWsu (s.wsu.set k { s.wsu.get k with pending := some ⟨h, t, 0⟩ }) := by
  unfold pairHead
  rw [free]
  rfl

theorem pairHead_partner {s : State} {k : Station} {p : Pending} {h : Head} (held : (s.wsu.get k).pending = some p) (other : h ≠ p.head)
    (t : Nat) : pairHead t k h s = completeCrossing k p t s := by
  unfold pairHead
  rw [held]
  exact if_pos (Ne.symm other)

theorem pairHead_return {s : State} {k : Station} {p : Pending} (held : (s.wsu.get k).pending = some p) (few : p.motion < 3) (t : Nat) :
    pairHead t k p.head s = updStation k .return s := by
  unfold pairHead
  rw [held]
  exact (if_neg fun differs => differs rfl).trans (if_pos few)

theorem pairHead_repeated {s : State} {k : Station} {p : Pending} (held : (s.wsu.get k).pending = some p) (many : p.motion = 3) (t : Nat) :
    pairHead t k p.head s = headIncident .repeatedHead t k s := by
  unfold pairHead
  rw [held]
  exact (if_neg fun differs => differs rfl).trans (if_neg (by omega))

theorem touch_openNumber (t : Nat) (s : State) : (touch t s).openNumber = s.openNumber := by
  unfold State.openNumber touch
  cases s.axt.passage <;> rfl

theorem touch_isOpen (t : Nat) (s : State) : (touch t s).isOpen = s.isOpen := by
  unfold State.isOpen touch
  cases s.axt.passage <;> rfl

theorem takeFault_isOpen (o : FaultOcc) (s : State) : (takeFault o s).isOpen = s.isOpen := by
  rw [takeFault_eq]
  rfl

/-! ### Head incidents (R9) -/

theorem headIncident_faulted {s : State} {k : Station} (faulted : (s.wsu.get k).state = .faulted) (c : IncidentCause) (t : Nat) :
    headIncident c t k s = s := if_pos faulted

/-- The station faulted and the occurrence taken, before the re-examination. -/
def incidentTaken (c : IncidentCause) (t : Nat) (k : Station) (s : State) : State :=
  takeFault ⟨.headIncident, t, s.openNumber, some (.station k), some (.incident c)⟩
    (s.setWsu (s.wsu.set k { s.wsu.get k with state := .faulted, pending := none, returns := 0 }))

theorem headIncident_ok {s : State} {k : Station} (started : s.condition ≠ .starting) (ok : (s.wsu.get k).state = .ok)
    (c : IncidentCause) (t : Nat) :
    headIncident c t k s = if s.isOpen then reexamine t (incidentTaken c t k s) else incidentTaken c t k s := by
  have intact : ¬ (s.wsu.get k).state = .faulted := by
    rw [ok]
    exact nofun
  have taken : reportFault ((updStation k .fault s).occNow .headIncident t (some (.station k)) (some (.incident c)))
      (updStation k .fault s) = incidentTaken c t k s :=
    reportFault_started (s := updStation k .fault s) started _
  have isOpen : (incidentTaken c t k s).isOpen = s.isOpen := takeFault_isOpen _ _
  unfold headIncident
  rw [if_neg intact]
  simp only [taken, isOpen]

/-- Settles O13, by the cases of the station's pairing. -/
theorem headEventFollowsTheStationRecord : Obligations.HeadEventFollowsTheStationRecord := by
  unfold Obligations.HeadEventFollowsTheStationRecord
  refine ⟨fun s t k h on unready => ?_, fun s t k h on ready ok free => ?_, fun s t k p on ready ok held => ⟨fun few => ?_, fun many => ?_⟩⟩
  · exact (exec_headEvent on t k h).trans (congrArg Host.Outcome.next (takeHead_ignored (s := s.advance t) unready _ h))
  · exact (exec_headEvent_ready on ready ok t h).trans (congrArg Host.Outcome.next (pairHead_first (by exact free) _ h))
  · exact (exec_headEvent_ready on ready ok t p.head).trans (congrArg Host.Outcome.next (pairHead_return (by exact held) few _))
  · have incident := headIncident_ok (s := touch (s.advance t).timebase (s.advance t)) (k := k)
      (show s.condition ≠ .starting by rw [ready]; exact nofun) ok .repeatedHead (s.advance t).timebase
    rw [exec_headEvent_ready on ready ok, pairHead_repeated (by exact held) many, incident, touch_isOpen]
    unfold incidentTaken
    rw [touch_openNumber]
    rfl

/-! ### Crossings formed (R7) -/

theorem PerStation.get_set {α : Type} (w : PerStation α) (j k : Station) (r : α) :
    (w.set k r).get j = if j = k then r else w.get j := by
  cases j <;> cases k <;> rfl

theorem PerStation.get_map {α : Type} (f : α → α) (w : PerStation α) (j : Station) : (w.map f).get j = f (w.get j) := by
  cases j <;> rfl

/-- The station records once a crossing is formed. -/
def stationsAfter (k : Station) (c : Crossing) (w : Wsu) : Wsu :=
  moveOthers k (w.set k { w.get k with pending := none, returns := 0, latest := some c })

theorem completeCrossing_eq (k : Station) (p : Pending) (t : Nat) (s : State) :
    completeCrossing k p t s = takeCrossing (crossingOf s.cal.working.headSpacing k p t)
      (s.setWsu (stationsAfter k (crossingOf s.cal.working.headSpacing k p t) s.wsu)) := rfl

theorem stationsAfter_same (k : Station) (c : Crossing) (w : Wsu) :
    (stationsAfter k c w).get k = { w.get k with pending := none, returns := 0, latest := some c } := by
  unfold stationsAfter moveOthers
  rw [PerStation.get_set, if_pos rfl, PerStation.get_set, if_pos rfl]

theorem stationsAfter_other {j k : Station} (ne : j ≠ k) (c : Crossing) (w : Wsu) : (stationsAfter k c w).get j = (w.get j).moved := by
  unfold stationsAfter moveOthers
  rw [PerStation.get_set, if_neg ne, PerStation.get_map, PerStation.get_set, if_neg ne]

/-- The crossing is its station's latest, and stays so, whatever the tracker does with it. -/
theorem takeCrossing_keepsRecord {s : State} {k : Station} {r : StationRec} {c : Crossing} (x : Crossing)
    (formed : s.wsu.get k = { r with pending := none, returns := 0, latest := some c }) :
    ((takeCrossing x s).wsu.get k).pending = none ∧ ((takeCrossing x s).wsu.get k).returns = 0 ∧
      ((takeCrossing x s).wsu.get k).latest = some c := by
  obtain ⟨latest, pending, returns⟩ := takeCrossing_stand x s k
  rw [formed] at latest pending returns
  exact ⟨pending.elim id id, returns.elim id id, latest⟩

/-- The partner's head event forms the crossing and hands it to the tracker. -/
theorem exec_headEvent_partner {s : State} {k : Station} {p : Pending} {h : Head} (on : s.powered = true) (ready : s.condition = .ready)
    (ok : (s.wsu.get k).state = .ok) (held : (s.wsu.get k).pending = some p) (other : h ≠ p.head) (t : Nat) :
    exec (.headEvent t k h) s = .next (completeCrossing k p (s.advance t).timebase (touch (s.advance t).timebase (s.advance t))) := by
  rw [exec_headEvent_ready on ready ok, pairHead_partner (by exact held) other]

/-! ### The end-station test (R28) -/

theorem endStationTest_held {x : Post} {c : Crossing} {s : State} (atM : x = .m) (held : (s.wsu.get (stationOf c.direction .e)).pending ≠ none) :
    endStationTest x c s = headIncident .opening c.time (stationOf c.direction .e) s :=
  if_pos ⟨atM, Option.isSome_iff_ne_none.mpr held⟩

theorem endStationTest_none {x : Post} {c : Crossing} {s : State} (h : ¬ (x = .m ∧ (s.wsu.get (stationOf c.direction .e)).pending ≠ none)) :
    endStationTest x c s = s :=
  if_neg fun ⟨atM, held⟩ => h ⟨atM, Option.isSome_iff_ne_none.mp held⟩

/-- Settles O14: the crossing formed, the records of the stations, and what a head incident does. -/
theorem partnerCompletesACrossing : Obligations.PartnerCompletesACrossing := by
  unfold Obligations.PartnerCompletesACrossing
  refine ⟨fun s t k p h on ready ok held other => ?_, fun cause t k s ready => ⟨fun faulted => headIncident_faulted faulted _ _, fun ok => ?_⟩,
    fun x c s => ?_⟩
  · have formed := stationsAfter_same k (crossingOf s.cal.working.headSpacing k p (s.advance t).timebase) s.wsu
    exact ⟨_, _, exec_headEvent_partner on ready ok held other t, completeCrossing_eq k p _ _, formed,
      fun j ne => stationsAfter_other ne _ _, takeCrossing_keepsRecord _ formed⟩
  · exact headIncident_ok (by rw [ready]; exact nofun) ok cause t
  · split
    · next h => exact endStationTest_held h.1 h.2
    · next h => exact endStationTest_none h

end Sys2Proof.Machine
end

