-- ==== Sys2Proof/Proofs/PassageCloses.lean ====
section
/-! PROOFS. The close of a passage, on request and on time (R48 to R50, R89, R90, R95). -/

namespace Sys2Proof.Machine

/-! ### Up to the finalisation: what stands, and which entries are OPEN -/

/-- The calibration, the zeros, the channels and the switch stand, and the directory's entries are OPEN or CLOSED as they were. -/
structure Attended (s s' : State) : Prop where
  cal : s'.cal = s.cal := by rfl
  zcl : s'.zcl = s.zcl := by rfl
  lcu : s'.lcu = s.lcu := by rfl
  calsw : s'.calsw = s.calsw := by rfl
  keys : s'.ptb.directory.map DirEntry.key = s.ptb.directory.map DirEntry.key := by rfl

namespace Attended

variable {s s' s'' : State}

theorem trans (h : Attended s s') (k : Attended s' s'') : Attended s s'' where
  cal := k.cal.trans h.cal
  zcl := k.zcl.trans h.zcl
  lcu := k.lcu.trans h.lcu
  calsw := k.calsw.trans h.calsw
  keys := k.keys.trans h.keys

theorem of_kept (h : Kept true true true s s') : Attended s s' where
  cal := (h.inner rfl).cal
  zcl := (h.inner rfl).zcl
  lcu := (h.inner rfl).lcu
  calsw := (h.inner rfl).calsw
  keys := (h.inner rfl).keys

theorem foldl {α : Type} {f : State → α → State} (h : ∀ s a, Attended s (f s a)) (l : List α) : ∀ s, Attended s (l.foldl f s) := by
  induction l with
  | nil => exact fun _ => {}
  | cons a l ih => exact fun s => (h s a).trans (ih _)

end Attended

theorem headIncident_attended (c : IncidentCause) (t : Nat) (k : Station) (s : State) : Attended s (headIncident c t k s) := by
  unfold headIncident
  split
  · exact {}
  · simp only
    have faulted : Attended s (updStation k .fault s) := {}
    generalize (updStation k .fault s).occNow _ _ _ _ = o
    have reported : Attended s (reportFault o (updStation k .fault s)) := by
      rw [reportFault_eq]
      exact {}
    split
    · exact reported.trans (.of_kept (reexamine_kept _ _))
    · exact reported

theorem closePending_attended (t : Nat) (s : State) (k : Station) : Attended s (closePending t s k) := by
  unfold closePending
  split
  · exact headIncident_attended _ _ _ _
  · exact {}

/-- Steps 1 to 3 of a close, before the passage table finalises. -/
def closeUpToFinal (t : Nat) (s : State) : State :=
  let m := [Station.s1, .s2, .s3].foldl (closePending t) (discardApproach s.axt.train.length s)
  if m.axt.abandoned then m else evaluate t true m

theorem closeFirst_eq (t : Nat) (c : CloseCause) (s : State) : closeFirst t c s = finalisePassage t c (closeUpToFinal t s) := rfl

theorem closeUpToFinal_attended (t : Nat) (s : State) : Attended s (closeUpToFinal t s) := by
  have pending : Attended s ([Station.s1, .s2, .s3].foldl (closePending t) (discardApproach s.axt.train.length s)) :=
    (Attended.of_kept (discardApproach_kept _ s)).trans (.foldl (closePending_attended t) _ _)
  unfold closeUpToFinal
  simp only
  split
  · exact pending
  · exact pending.trans (.of_kept (evaluate_kept _ _ _))

theorem handedOn_attended (s : State) : Attended s s.handedOn :=
  Attended.trans (s' := s.finalised) {} (.foldl (fun u (r : Nat × Wagon) => .of_kept (finalUpdate_kept r.1 u)) _ _)

/-- The state whose OPEN entry a close's finalisation closes. -/
def closeHanded (t : Nat) (s : State) : State := (closeUpToFinal t s).handedOn

theorem closeHanded_attended (t : Nat) (s : State) : Attended s (closeHanded t s) :=
  (closeUpToFinal_attended t s).trans (handedOn_attended _)

/-- An OPEN entry takes the close and the totals; a CLOSED one stands. -/
def DirEntry.closedWith (t : Nat) (c : CloseCause) (x : Totals) (e : DirEntry) : DirEntry :=
  if e.close = none then { e with close := some (t, c), totals := some x } else e

theorem DirEntry.closedWith_open {e : DirEntry} (h : e.close = none) (t : Nat) (c : CloseCause) (x : Totals) :
    e.closedWith t c x = { e with close := some (t, c), totals := some x } := if_pos h

theorem DirEntry.closedWith_number (e : DirEntry) (t : Nat) (c : CloseCause) (x : Totals) : (e.closedWith t c x).number = e.number := by
  unfold closedWith
  split <;> rfl

theorem closeFirst_closes (t : Nat) (c : CloseCause) (s : State) : closeFirst t c s = (closeHanded t s).setDirectory
    ((closeHanded t s).ptb.directory.map (DirEntry.closedWith t c (totalsOf (closeHanded t s)))) := by
  rw [closeFirst_eq, finalisePassage_eq, updOpenEntry_eq]
  rfl

/-! ### The directory after a close -/

theorem closePassage_directory (t : Nat) (c : CloseCause) (s : State) : (closePassage t c s).ptb.directory =
    (closeHanded t s).ptb.directory.map (DirEntry.closedWith t c (totalsOf (closeHanded t s))) := by
  obtain ⟨-, directory, -⟩ := closeLast_frame (closeFirst t c s)
  refine directory.trans ?_
  rw [closeFirst_closes]
  rfl

theorem closePassage_numbers (t : Nat) (c : CloseCause) (s : State) :
    (closePassage t c s).ptb.directory.map (·.number) = s.ptb.directory.map (·.number) := by
  have keys := congrArg (List.map Prod.fst) (closeHanded_attended t s).keys
  rw [List.map_map, List.map_map] at keys
  rw [closePassage_directory, List.map_map]
  exact (List.map_congr_left fun e _ => e.closedWith_number t c _).trans keys

/-- The OPEN entry is closed in its place, with its totals. -/
theorem closePassage_entry (t : Nat) (c : CloseCause) {s : State} {i : Nat} {e : DirEntry} (here : s.ptb.directory[i]? = some e)
    (opened : e.close = none) :
    ∃ e' : DirEntry, (closePassage t c s).ptb.directory[i]? = some e' ∧ e'.close = some (t, c) ∧ e'.totals ≠ none := by
  have keys : ((closeHanded t s).ptb.directory.map DirEntry.key)[i]? = some e.key := by
    rw [(closeHanded_attended t s).keys, List.getElem?_map, here]
    rfl
  rw [List.getElem?_map, Option.map_eq_some_iff] at keys
  obtain ⟨d, there, key⟩ := keys
  have stillOpen : d.close = none := (congrArg Prod.snd key).trans opened
  refine ⟨_, by rw [closePassage_directory, List.getElem?_map, there]; rfl, ?_⟩
  rw [DirEntry.closedWith_open stillOpen]
  exact ⟨rfl, nofun⟩

/-! ### A held commit (R89, R90, R95) -/

/-- The state to which a close applies a held commit. -/
def closeCleared (t : Nat) (c : CloseCause) (s : State) : State :=
  (clearPassage (closeFirst t c s)).setWsu ((clearPassage (closeFirst t c s)).wsu.map .release)

theorem closePassage_eq (t : Nat) (c : CloseCause) (s : State) :
    closePassage t c s = evalPermit (raiseAtt .closed (zclUnfreeze (applyHeld (closeCleared t c s)))) := rfl

theorem closeCleared_attended (t : Nat) (c : CloseCause) (s : State) : (closeCleared t c s).cal = s.cal ∧
    (closeCleared t c s).zcl = s.zcl ∧ (closeCleared t c s).calsw = s.calsw := by
  obtain ⟨cal, zcl, lcu, calsw, keys⟩ := closeHanded_attended t s
  unfold closeCleared
  have finalised : (closeFirst t c s).cal = s.cal ∧ (closeFirst t c s).zcl = s.zcl ∧ (closeFirst t c s).calsw = s.calsw := by
    rw [closeFirst_closes]
    generalize List.map _ _ = l
    generalize closeHanded t s = m at cal zcl calsw
    exact ⟨cal, zcl, calsw⟩
  generalize closeFirst t c s = m at finalised
  exact finalised

theorem closePassage_units (t : Nat) (c : CloseCause) (s : State) :
    (closePassage t c s).cal = (applyHeld (closeCleared t c s)).cal ∧
    (closePassage t c s).lcu = (applyHeld (closeCleared t c s)).lcu ∧
    (closePassage t c s).zcl.zeros = (applyHeld (closeCleared t c s)).zcl.zeros ∧
    ∀ p, (closePassage t c s).zcl.platforms.get p = ((applyHeld (closeCleared t c s)).zcl.platforms.get p).unfreeze := by
  rw [closePassage_eq]
  generalize applyHeld (closeCleared t c s) = m
  have thawed : (raiseAtt .closed (zclUnfreeze m)).lcu = m.lcu ∧ (raiseAtt .closed (zclUnfreeze m)).cal = m.cal ∧
    (raiseAtt .closed (zclUnfreeze m)).zcl = { m.zcl with freeze := false, platforms := m.zcl.platforms.map .unfreeze } := ⟨rfl, rfl, rfl⟩
  generalize raiseAtt .closed (zclUnfreeze m) = r at thawed
  obtain ⟨lcu, cal, zcl⟩ := thawed
  rw [evalPermit_eq]
  refine ⟨cal, lcu, (congrArg Zcl.zeros zcl).trans rfl, fun p => ?_⟩
  exact (congrArg (fun z : Zcl => z.platforms.get p) zcl).trans (PerPlatform.get_map _ _ p)

theorem applyHeld_none {s : State} (h : s.cal.phase ≠ .held) : applyHeld s = s := by
  unfold applyHeld
  split
  · next held _ => exact absurd held h
  · rfl

theorem applyHeld_some {s : State} {d : CalSet} (held : s.cal.phase = .held) (h : s.cal.snapshot = some d) :
    applyHeld s = applyCommit d s := by
  unfold applyHeld
  rw [held, h]

/-- Without a held commit the calibration and the zeros stand, and a suspended acquisition collects again. -/
theorem closePassage_without {t : Nat} {c : CloseCause} {s : State} (h : s.cal.phase ≠ .held) :
    (closePassage t c s).cal = s.cal ∧ (closePassage t c s).zcl.zeros = s.zcl.zeros ∧
    ∀ p, ((closePassage t c s).zcl.platforms.get p).acq = if (s.zcl.platforms.get p).acq.state = .suspended then
      { (s.zcl.platforms.get p).acq with state := .collecting } else (s.zcl.platforms.get p).acq := by
  obtain ⟨cal, zcl, -⟩ := closeCleared_attended t c s
  obtain ⟨cal', -, zeros, platforms⟩ := closePassage_units t c s
  rw [applyHeld_none (cal ▸ h)] at cal' zeros platforms
  refine ⟨cal'.trans cal, zeros.trans (congrArg Zcl.zeros zcl), fun p => ?_⟩
  rw [platforms, zcl]
  rfl

/-- A held commit is applied before the zeros thaw. -/
theorem closePassage_applies {t : Nat} {c : CloseCause} {s : State} {d : CalSet} (held : s.cal.phase = .held)
    (snapshot : s.cal.snapshot = some d) :
    (closePassage t c s).cal = adopted d s ∧ (closePassage t c s).zcl.zeros = d.zero ∧
    (∀ k, ((closePassage t c s).lcu.channels.get k).fitted = inPattern d.fitted k) ∧
    ∀ p, ((closePassage t c s).zcl.platforms.get p).zeroState = .good ∧ ((closePassage t c s).zcl.platforms.get p).offZero = 0 ∧
      ((closePassage t c s).zcl.platforms.get p).acq.state = .idle ∧
      ((closePassage t c s).zcl.platforms.get p).block = Block.empty := by
  obtain ⟨cal, -, calsw⟩ := closeCleared_attended t c s
  obtain ⟨cal', lcu, zeros, platforms⟩ := closePassage_units t c s
  obtain ⟨applied, zeros', fitted, states⟩ := applyCommit_spec d (closeCleared t c s)
  rw [applyHeld_some (cal ▸ held) (cal ▸ snapshot)] at cal' lcu zeros platforms
  refine ⟨?_, zeros.trans zeros', fun k => ?_, fun p => ?_⟩
  · rw [cal', applied]
    unfold adopted
    rw [cal, calsw]
  · rw [lcu, fitted]
  · obtain ⟨good, offZero, idle, -⟩ := states p
    rw [platforms]
    refine ⟨good, offZero, ?_, rfl⟩
    unfold ZclPlatform.unfreeze
    rw [if_neg (by rw [idle]; exact nofun)]
    exact idle

/-! ### The stations and the request -/

/-- What a close clears (R50). -/
theorem closePassage_clears (t : Nat) (c : CloseCause) (s : State) : (closePassage t c s).axt = Axt.reset ∧
    (closePassage t c s).zcl.freeze = false ∧ (closePassage t c s).fau.attention.getLsbD 2 = true ∧
    (closePassage t c s).seg.vehicles = [] ∧ (closePassage t c s).seg.cursor = 0 ∧ (closePassage t c s).seg.wait = .none ∧
    (closePassage t c s).seg.limit = false := by
  obtain ⟨axt, -, -, freeze, -, seg, bit⟩ := closeLast_frame (closeFirst t c s)
  exact ⟨axt, freeze, bit, congrArg Seg.vehicles seg, congrArg Seg.cursor seg, congrArg Seg.wait seg, congrArg Seg.limit seg⟩

theorem closePassage_stations (t : Nat) (c : CloseCause) (s : State) (k : Station) :
    ((closePassage t c s).wsu.get k).state = .ok ∧ ((closePassage t c s).wsu.get k).pending = none ∧
      ((closePassage t c s).wsu.get k).returns = 0 ∧ ((closePassage t c s).wsu.get k).latest = (s.wsu.get k).latest := by
  obtain ⟨latest, -⟩ := closePassage_stand t c s k
  obtain ⟨-, -, -, -, wsu, -⟩ := closeLast_frame (closeFirst t c s)
  have released : (closePassage t c s).wsu.get k = ((closeFirst t c s).wsu.get k).release :=
    (congrArg (fun w : Wsu => w.get k) wsu).trans (PerStation.get_map _ _ k)
  exact ⟨by rw [released]; rfl, by rw [released]; rfl, by rw [released]; rfl, latest⟩

theorem passCloseDo_other {s : State} {n : Nat} (h : s.openNumber ≠ some n) : passCloseDo n s = (s, .bare .state) := by
  unfold passCloseDo
  split
  · rfl
  · next m opened => exact if_pos fun same => h (opened.trans (congrArg some same))

theorem passCloseDo_named {s : State} {n : Nat} (h : s.openNumber = some n) : passCloseDo n s =
    if s.occupied then (s, .bare .busy) else (closePassage s.timebase .host s, .ok []) := by
  unfold passCloseDo
  rw [h]
  exact if_neg fun differs => differs rfl

theorem State.taking_occupied (s : State) (t : Nat) : (s.taking t).occupied = s.occupied := by
  have tracker := State.taking_axt s t
  have stations := State.taking_wsu s t
  generalize s.taking t = u at tracker stations
  unfold State.occupied State.isOpen State.holdsPending State.countsApproach State.inLastZone State.lastLow State.reachesApproach
    State.postOk State.direction
  rw [tracker, stations]

theorem exec_closeTimeout {s : State} (on : s.powered = true) : exec .closeTimeout s = .next (closeExpires s) :=
  congrArg Host.Outcome.next (ifPowered_on on _)

theorem closeExpires_open {s : State} {q : Passage} (h : s.axt.passage = some q) : closeExpires s =
    if s.occupied then s.advance (q.lastActivity + s.settings.closeTimeout * 20000)
    else closePassage (q.lastActivity + s.settings.closeTimeout * 20000) .idleTimeout
      (s.advance (q.lastActivity + s.settings.closeTimeout * 20000)) := by
  unfold closeExpires State.closeExpiry
  rw [h]
  rfl

/-- Settles O18: PASS_CLOSE and CLOSE_TIMEOUT end in one close, and a close applies a held commit. -/
theorem passageClosesOnRequestOrTimeout : Obligations.PassageClosesOnRequestOrTimeout := by
  unfold Obligations.PassageClosesOnRequestOrTimeout
  refine ⟨fun s t g n hs => ⟨fun other => ?_, fun named occupied => ?_, fun named free => ?_⟩,
    fun s on => ⟨fun none => ?_, fun q opened occupied => ?_, fun q opened free => ?_⟩⟩
  · exact serving_answer hs (a := passCloseDo n) (x := .bare .state) (passCloseDo_other (by rwa [State.taking_openNumber]))
  · exact serving_answer hs (a := passCloseDo n) (x := .bare .busy) ((passCloseDo_named (by rwa [State.taking_openNumber])).trans
      (if_pos (by rwa [State.taking_occupied])))
  · have accepted : passCloseDo n (s.taking t) = (closePassage (s.taking t).timebase .host (s.taking t), .ok []) :=
      (passCloseDo_named (by rwa [State.taking_openNumber])).trans (if_neg (by rw [State.taking_occupied, free]; exact nofun))
    have done := serving_done hs (g := g) (k := .pass) accepted (closePassage_slk _ _ _)
    rw [← State.taking_cal s t, ← State.taking_zcl s t, ← State.taking_wsu s t, ← State.taking_ptb s t, ← State.taking_calsw s t]
    generalize s.taking t = u at done
    obtain ⟨axt, freeze, bit, vehicles, cursor, wait, limit⟩ := closePassage_clears u.timebase .host u
    have stations := closePassage_stations u.timebase .host u
    have numbers := closePassage_numbers u.timebase .host u
    have entries := fun i e => closePassage_entry u.timebase .host (s := u) (i := i) (e := e)
    have stands := closePassage_without (t := u.timebase) (c := .host) (s := u)
    have applies := fun d => closePassage_applies (t := u.timebase) (c := .host) (s := u) (d := d)
    generalize closePassage u.timebase .host u = v at *
    exact ⟨_, done, axt, freeze, rfl, bit, stations, numbers, entries, vehicles, cursor, wait, limit, stands, applies⟩
  · rw [exec_closeTimeout on]
    unfold closeExpires State.closeExpiry
    rw [none]
    rfl
  · rw [exec_closeTimeout on, closeExpires_open opened, if_pos occupied]
  · generalize expiry : q.lastActivity + s.settings.closeTimeout * 20000 = x
    have closes : exec .closeTimeout s = .next (closePassage x .idleTimeout (s.advance x)) := by
      rw [exec_closeTimeout on, closeExpires_open opened, free, expiry]
      rfl
    obtain ⟨axt, freeze, bit, -⟩ := closePassage_clears x .idleTimeout (s.advance x)
    have entries := fun i e => closePassage_entry x .idleTimeout (s := s.advance x) (i := i) (e := e)
    have stands := closePassage_without (t := x) (c := .idleTimeout) (s := s.advance x)
    have applies := fun d => closePassage_applies (t := x) (c := .idleTimeout) (s := s.advance x) (d := d)
    generalize closePassage x .idleTimeout (s.advance x) = v at *
    refine ⟨v, closes, axt, bit, fun i e here opened => ?_, freeze, stands, applies⟩
    obtain ⟨e', there, closed, -⟩ := entries i e here opened
    exact ⟨e', there, closed⟩

end Sys2Proof.Machine
end

