-- ==== Sys2Proof/Proofs/PassageOpens.lean ====
section
/-! PROOFS. The opening of a passage: the directory, the pending set, the dropped passage and the first axle (R27, R28, R129, R148). -/

namespace Sys2Proof.Machine

/-! ### Tables and lists -/

theorem tmap_tmap {α β γ : Type} (f : Nat → α → β) (g : Nat → β → γ) (t : Table α) :
    tmap g (tmap f t) = tmap (fun k a => g k (f k a)) t := by
  induction t with
  | nil => rfl
  | cons r t ih => exact congrArg (List.cons (r.1, g r.1 (f r.1 r.2))) ih

/-- A key's thing that is kept is found after the others are taken away, in any table. -/
theorem tget_tkeep_kept {α : Type} {p : Nat → α → Bool} {k : Nat} {a : α} (kept : p k a = true) :
    ∀ {t : Table α}, tget t k = some a → tget (tkeep p t) k = some a
  | [], h => nomatch h
  | (j, b) :: t, h => by
    by_cases same : j = k
    · have found : b = a := by simpa [tget, same] using h
      simp [tkeep, same, found, kept, tget]
    · have later : tget t k = some a := by simpa [tget, same] using h
      have rest := tget_tkeep_kept kept later
      unfold tkeep
      split
      · simpa [tget, same] using rest
      · exact rest

theorem tget_tkeep_dropped {α : Type} {p : Nat → α → Bool} {t : Table α} {k : Nat} {a : α} (wf : Table.wf t = true)
    (h : tget t k = some a) (dropped : p k a = false) : tget (tkeep p t) k = none := by
  rw [tget_tkeep p wf, h]
  simp [dropped]

theorem length_tkeep_le {α : Type} (p : Nat → α → Bool) : ∀ t : Table α, (tkeep p t).length ≤ t.length
  | [] => Nat.le_refl _
  | (k, a) :: t => by
    have rest := length_tkeep_le p t
    unfold tkeep
    split <;> simp only [List.length_cons] <;> omega

theorem numberAfter_one {n : Nat} (h : n ≤ 4294967295) : numberAfter n 1 = if n < 4294967295 then n + 1 else 1 := by
  unfold numberAfter maxPassage
  split <;> omega

/-- With every entry CLOSED and one at least, the oldest is an entry of least open time. -/
theorem oldestClosed_spec {l : List DirEntry} (closed : ∀ e ∈ l, e.close.isSome = true) (inhabited : l ≠ []) :
    ∃ old, oldestClosed l = some old ∧ old ∈ l ∧ ∀ d ∈ l, old.openTime ≤ d.openTime := by
  have all : l.filter (·.close.isSome) = l := List.filter_eq_self.mpr closed
  have ordered := pairwise_sortBy (R := fun _ _ => True) (fun e : DirEntry => e.openTime) (l := l) (List.pairwise_of_forall fun _ _ => trivial)
  have members := fun x => mem_sortBy (fun e : DirEntry => e.openTime) x l
  have length := length_sortBy (fun e : DirEntry => e.openTime) l
  unfold oldestClosed
  rw [all]
  generalize sortBy (fun e : DirEntry => e.openTime) l = u at ordered members length
  cases u with
  | nil => exact absurd (List.eq_nil_of_length_eq_zero length.symm) inhabited
  | cons old u =>
    refine ⟨old, rfl, (members old).mp (List.mem_cons_self ..), fun d hd => ?_⟩
    rcases List.mem_cons.mp ((members d).mpr hd) with rfl | later
    · exact Nat.le_refl _
    · rcases (List.pairwise_cons.mp ordered).1 d later with less | ⟨equal, -⟩
      · exact Nat.le_of_lt less
      · exact Nat.le_of_eq equal

/-! ### Room in the directory (R148, step 2) -/

/-- The number that an opening gives. -/
def State.nextNumber (s : State) : Nat := numberAfter s.ptb.lastNumber 1

/-- The state once the number is drawn and the directory has room. -/
def State.roomMade (s : State) : State := dropOldest s.nextNumber (s.setPtb { s.ptb with lastNumber := s.nextNumber })

theorem roomMade_spare {s : State} (spare : s.ptb.directory.length < 8) :
    s.roomMade = s.setPtb { s.ptb with lastNumber := s.nextNumber } := if_pos spare

/-- The oldest passage's entry and records freed, before PERMIT is evaluated. -/
def State.withoutPassage (s : State) (old : DirEntry) : State :=
  s.setPtb { s.ptb with
    lastNumber := s.nextNumber
    directory := s.ptb.directory.filter fun d => decide (d ≠ old)
    slots := tkeep (fun _ w => decide (w.passage ≠ some old.number)) s.ptb.slots }

/-- PASSAGE_DROPPED for the new passage (R148). -/
def State.droppedOcc (s : State) (old : DirEntry) : FaultOcc :=
  ⟨.passageDropped, s.timebase, some s.nextNumber, none, some (.number old.number)⟩

theorem roomMade_full {s : State} {old : DirEntry} (full : s.ptb.directory.length = 8) (oldest : oldestClosed s.ptb.directory = some old) :
    s.roomMade = reportFault (s.droppedOcc old) (evalPermit (s.withoutPassage old)) := by
  have timebase : (evalPermit (s.withoutPassage old)).timebase = s.timebase := by
    rw [evalPermit_eq]
    rfl
  unfold State.roomMade dropOldest
  rw [if_neg (by exact Nat.not_lt.mpr (Nat.le_of_eq full.symm))]
  show (match oldestClosed s.ptb.directory with | none => _ | some e => _) = _
  rw [oldest]
  show reportFault ⟨.passageDropped, (evalPermit (s.withoutPassage old)).timebase, _, _, _⟩ (evalPermit (s.withoutPassage old)) = _
  rw [timebase]
  rfl

theorem roomMade_full_ptb {s : State} {old : DirEntry} (full : s.ptb.directory.length = 8)
    (oldest : oldestClosed s.ptb.directory = some old) :
    s.roomMade.ptb.directory = s.ptb.directory.filter (fun d => decide (d ≠ old)) ∧
      s.roomMade.ptb.slots = tkeep (fun _ w => decide (w.passage ≠ some old.number)) s.ptb.slots := by
  rw [roomMade_full full oldest, reportFault_eq]
  exact ⟨evalPermit_directory _, evalPermit_slots _⟩

/-- What making room leaves, with room or without. -/
theorem roomMade_ptb {s : State} (few : s.ptb.directory.length ≤ 8) (closed : ∀ e ∈ s.ptb.directory, e.close.isSome = true) :
    (∀ e ∈ s.roomMade.ptb.directory, e.close.isSome = true) ∧
      ∀ k w, tget s.ptb.slots k = some w → w.passage = none → tget s.roomMade.ptb.slots k = some w := by
  by_cases spare : s.ptb.directory.length < 8
  · rw [roomMade_spare spare]
    exact ⟨closed, fun _ _ h _ => h⟩
  · have full : s.ptb.directory.length = 8 := by omega
    obtain ⟨old, oldest, -, -⟩ := oldestClosed_spec closed fun empty => by simp [empty] at full
    obtain ⟨directory, slots⟩ := roomMade_full_ptb full oldest
    rw [directory, slots]
    exact ⟨fun e he => closed e (List.mem_filter.mp he).1, fun k w h free => tget_tkeep_kept (by simp [free]) h⟩

theorem roomMade_lastNumber (s : State) : s.roomMade.ptb.lastNumber = s.nextNumber := by
  unfold State.roomMade dropOldest
  split
  · rfl
  · split
    · rfl
    · simp only
      rw [reportFault_eq]
      exact evalPermit_lastNumber _

/-! ### The table of an opening (R148, step 3; R129) -/

theorem openTable_made (d : Direction) (t : Nat) (s : State) : openTable d t s = evalPermit ((s.roomMade.setDirectory
    (s.roomMade.ptb.directory ++ [DirEntry.start s.nextNumber d t])).setSlots (bindPending s.nextNumber s.roomMade.ptb.slots)) := rfl

theorem openTable_ptb (d : Direction) (t : Nat) (s : State) :
    (openTable d t s).ptb.directory = s.roomMade.ptb.directory ++ [DirEntry.start s.nextNumber d t] ∧
      (openTable d t s).ptb.slots = bindPending s.nextNumber s.roomMade.ptb.slots ∧
      (openTable d t s).ptb.lastNumber = s.roomMade.ptb.lastNumber := by
  rw [openTable_made]
  exact ⟨evalPermit_directory _, evalPermit_slots _, evalPermit_lastNumber _⟩

/-- PERMIT is withdrawn while the directory holds eight entries (R152). -/
theorem evalPermit_full {s : State} (full : s.ptb.directory.length = 8) : (evalPermit s).ptb.permit = .withdrawn := by
  rw [evalPermit_ptb]
  refine if_neg fun holds => ?_
  obtain ⟨-, -, -, room, -⟩ := (permitHolds_iff _).mp holds
  exact absurd room (Nat.not_lt.mpr (Nat.le_of_eq full.symm))

/-- PERMIT asserted where its conditions hold and it was withdrawn (R152, R153). -/
theorem evalPermit_asserts {s : State} (withdrawn : s.ptb.permit = .withdrawn) (ready : s.condition = .ready) (valid : s.cal.state = .valid)
    (served : s.lcu.platforms.a.service = .inService ∨ s.lcu.platforms.b.service = .inService)
    (room : s.ptb.directory.length < 8) (normal : s.ptb.water = .normal) (low : s.usedSlots < s.settings.highWater) :
    (evalPermit s).fau.attention.getLsbD 6 = true := by
  have water : waterNext s.ptb.water s.usedSlots s.settings.highWater s.settings.lowWater = .normal := by
    rw [normal]
    exact if_neg (Nat.not_le.mpr low)
  have asserted : (evalPermit s).ptb.permit = .asserted := by
    rw [evalPermit_ptb]
    exact if_pos ((permitHolds_iff (s.setPtb { s.ptb with
      water := waterNext s.ptb.water s.usedSlots s.settings.highWater s.settings.lowWater })).mpr ⟨ready, valid, served, room, water⟩)
  rw [evalPermit_fau, if_neg (by rw [asserted, withdrawn]; exact nofun)]
  simp [attSet, attNum]

/-! ### The calibration's step (R129, R84) -/

/-- An OPEN entry takes the calibration counter and the mark. -/
def DirEntry.calibrated (counter : Nat) (unverified : Bool) (e : DirEntry) : DirEntry :=
  if e.close = none then { e with calCounter := counter, unverified := unverified || e.unverified } else e

/-- A record of a passage takes the calibration counter and the mark. -/
def Wagon.calibrated (n : Option Nat) (counter : Nat) (unverified : Bool) (w : Wagon) : Wagon :=
  if w.passage = n then (if unverified then ({ w with calCounter := some counter }).unverify else { w with calCounter := some counter })
  else w

theorem takeCounter_eq (counter : Nat) (s : State) : takeCounter counter s = s.setPtb { s.ptb with
    directory := s.ptb.directory.map (DirEntry.calibrated counter false)
    slots := tmap (fun _ => Wagon.calibrated s.openNumber counter false) s.ptb.slots } := by
  rw [takeCounter, updOpenEntry_eq]
  rfl

theorem DirEntry.calibrated_marked (counter : Nat) (e : DirEntry) :
    (if (e.calibrated counter false).close = none then { e.calibrated counter false with unverified := true }
      else e.calibrated counter false) = e.calibrated counter true := by
  unfold calibrated
  by_cases opened : e.close = none
  · simp [opened]
  · simp [opened]

theorem Wagon.calibrated_marked (n : Option Nat) (counter : Nat) (w : Wagon) :
    (if (w.calibrated n counter false).passage = n then (w.calibrated n counter false).unverify else w.calibrated n counter false) =
      w.calibrated n counter true := by
  unfold calibrated
  by_cases bound : w.passage = n
  · simp [bound]
  · simp [bound]

theorem openCalibration_ptb (s : State) : (openCalibration s).ptb = { s.ptb with
    directory := s.ptb.directory.map (DirEntry.calibrated s.cal.counter (decide (s.calsw = .calibrate)))
    slots := tmap (fun _ => Wagon.calibrated s.openNumber s.cal.counter (decide (s.calsw = .calibrate))) s.ptb.slots } := by
  unfold openCalibration
  rw [takeCounter_eq]
  by_cases calibrating : s.calsw = .calibrate
  · have marks : (decide (s.calsw = .calibrate)) = true := decide_eq_true calibrating
    rw [marks]
    refine (congrArg State.ptb (if_pos (by exact calibrating))).trans ?_
    rw [markUnverified_eq]
    simp only [State.setPtb_ptb, List.map_map, tmap_tmap]
    have entries : (fun e : DirEntry => if e.close = none then { e with unverified := true } else e) ∘ DirEntry.calibrated s.cal.counter false =
        DirEntry.calibrated s.cal.counter true := funext (DirEntry.calibrated_marked s.cal.counter)
    have records := funext (Wagon.calibrated_marked s.openNumber s.cal.counter)
    rw [entries]
    congr 2
    exact funext fun _ => records
  · have plain : (decide (s.calsw = .calibrate)) = false := decide_eq_false calibrating
    rw [plain]
    exact congrArg State.ptb (if_neg (by exact calibrating))

/-! ### What an opening leaves -/

/-- A record, as an opening leaves it: bound to the new passage if it was pending, and with the calibration's counter. -/
def Wagon.openedFor (n counter : Nat) (unverified : Bool) (w : Wagon) : Wagon :=
  (if w.passage = none then { w with passage := some n } else w).calibrated (some n) counter unverified

theorem Wagon.openedFor_other {n counter : Nat} {unverified : Bool} {w : Wagon} (bound : w.passage ≠ none) (other : w.passage ≠ some n) :
    w.openedFor n counter unverified = w := by
  unfold openedFor calibrated
  rw [if_neg bound, if_neg other]

/-- A record taken in by an opening keeps its identity, and takes the number, the counter and the mark. -/
theorem Wagon.openedFor_pending {w : Wagon} (free : w.passage = none) (n counter : Nat) (unverified : Bool) :
    let w' := w.openedFor n counter unverified
    w'.passage = some n ∧ w'.calCounter = some counter ∧ w'.position = w.position ∧ w'.fleet = w.fleet ∧
      w'.expectedCls = w.expectedCls ∧ w'.kind = w.kind ∧ w'.state = w.state ∧ w'.origin = w.origin ∧
      (unverified = true → w'.own.unverified = true) := by
  unfold openedFor calibrated
  rw [if_pos free, if_pos rfl]
  cases unverified
  · exact ⟨rfl, rfl, rfl, rfl, rfl, rfl, rfl, rfl, nofun⟩
  · exact ⟨rfl, rfl, rfl, rfl, rfl, rfl, rfl, rfl, fun _ => rfl⟩

theorem Wagon.openedFor_bound (n counter : Nat) (unverified : Bool) (w : Wagon) : (w.openedFor n counter unverified).passage ≠ none := by
  by_cases free : w.passage = none
  · obtain ⟨passage, -⟩ := Wagon.openedFor_pending free n counter unverified
    rw [passage]
    exact nofun
  · by_cases own : w.passage = some n
    · unfold openedFor calibrated
      rw [if_neg free, if_pos own]
      cases unverified
      · exact free
      · exact free
    · rw [Wagon.openedFor_other free own]
      exact free

theorem openRecord_units (c : Crossing) (s : State) : (openRecord c s).cal = s.cal ∧ (openRecord c s).calsw = s.calsw ∧
    (openRecord c s).ptb = (openTable c.direction c.time s).ptb ∧
    (openRecord c s).axt = ⟨some ⟨s.nextNumber, c.direction, c.time, c.time⟩, [], 0, false, 0⟩ := by
  have table := openTable_eq c.direction c.time s
  obtain ⟨-, -, last⟩ := openTable_ptb c.direction c.time s
  rw [roomMade_lastNumber] at last
  unfold openRecord
  generalize openTable c.direction c.time s = m at table last
  have cal : m.cal = s.cal := by rw [table]; rfl
  have calsw : m.calsw = s.calsw := by rw [table]; rfl
  exact ⟨cal, calsw, rfl, by rw [← last]; rfl⟩

theorem openPassage_calibrated (c : Crossing) (s : State) : (openPassage c s).ptb = (openCalibration (openRecord c s)).ptb := by
  rw [openPassage_eq]
  generalize (openCalibration (openRecord c s)).ptb = y
  rfl

theorem openPassage_tracker (c : Crossing) (s : State) :
    (openPassage c s).axt = ⟨some ⟨s.nextNumber, c.direction, c.time, c.time⟩, [], 0, false, 0⟩ := by
  obtain ⟨-, -, -, axt⟩ := openRecord_units c s
  exact (openPassage_axt c s).trans axt

/-- The passage table of an opening: the calibration's step after the table's. -/
theorem openPassage_ptb (c : Crossing) (s : State) : (openPassage c s).ptb = { (openTable c.direction c.time s).ptb with
    directory := (openTable c.direction c.time s).ptb.directory.map (DirEntry.calibrated s.cal.counter (decide (s.calsw = .calibrate)))
    slots := tmap (fun _ => Wagon.calibrated (some s.nextNumber) s.cal.counter (decide (s.calsw = .calibrate)))
      (openTable c.direction c.time s).ptb.slots } := by
  obtain ⟨cal, calsw, ptb, axt⟩ := openRecord_units c s
  have number : (openRecord c s).openNumber = some s.nextNumber := by
    unfold State.openNumber
    rw [axt]
    rfl
  rw [openPassage_calibrated, openCalibration_ptb, cal, calsw, ptb, number]

theorem openPassage_slots (c : Crossing) (s : State) : (openPassage c s).ptb.slots =
    tmap (fun _ => Wagon.openedFor s.nextNumber s.cal.counter (decide (s.calsw = .calibrate))) s.roomMade.ptb.slots := by
  obtain ⟨-, slots, -⟩ := openTable_ptb c.direction c.time s
  rw [openPassage_ptb]
  show tmap _ (openTable c.direction c.time s).ptb.slots = _
  rw [slots, bindPending, tmap_tmap]
  rfl

/-- The new passage's entry. -/
def State.openingEntry (s : State) (c : Crossing) : DirEntry :=
  { DirEntry.start s.nextNumber c.direction c.time with unverified := decide (s.calsw = .calibrate), calCounter := s.cal.counter }

theorem openPassage_directory {s : State} (c : Crossing) (closed : ∀ e ∈ s.roomMade.ptb.directory, e.close.isSome = true) :
    (openPassage c s).ptb.directory = s.roomMade.ptb.directory ++ [s.openingEntry c] := by
  obtain ⟨directory, -, -⟩ := openTable_ptb c.direction c.time s
  have stands : s.roomMade.ptb.directory.map (DirEntry.calibrated s.cal.counter (decide (s.calsw = .calibrate))) =
      s.roomMade.ptb.directory := by
    refine (List.map_congr_left fun e he => if_neg fun opened => ?_).trans (List.map_id _)
    have shut := closed e he
    rw [opened] at shut
    exact nomatch shut
  rw [openPassage_ptb]
  show List.map _ (openTable c.direction c.time s).ptb.directory = _
  rw [directory, List.map_append, stands]
  show _ ++ [DirEntry.calibrated _ _ _] = _
  unfold DirEntry.calibrated
  rw [if_pos (by rfl)]
  simp [State.openingEntry, DirEntry.start]

theorem openPassage_lastNumber (c : Crossing) (s : State) : (openPassage c s).ptb.lastNumber = s.nextNumber := by
  obtain ⟨-, -, last⟩ := openTable_ptb c.direction c.time s
  rw [openPassage_ptb]
  exact last.trans (roomMade_lastNumber s)

theorem openPassage_withdrawn {c : Crossing} {s : State} (full : (openPassage c s).ptb.directory.length = 8) :
    (openPassage c s).ptb.permit = .withdrawn := by
  obtain ⟨directory, -, -⟩ := openTable_ptb c.direction c.time s
  rw [openPassage_ptb] at full ⊢
  have eight : (openTable c.direction c.time s).ptb.directory.length = 8 := by simpa using full
  show (openTable c.direction c.time s).ptb.permit = _
  rw [openTable_made] at eight ⊢
  rw [evalPermit_directory] at eight
  exact evalPermit_full eight

/-! ### The faults and the attention of an opening (R148, R152) -/

/-- An evaluation of PERMIT takes no occurrence, and of the attention bits raises PERMIT only. -/
theorem evalPermit_quiet (s : State) : (evalPermit s).fau.capture = s.fau.capture ∧ (evalPermit s).fau.counts = s.fau.counts ∧
    (evalPermit s).fau.worst = s.fau.worst ∧ (evalPermit s).fau.attention.getLsbD 3 = s.fau.attention.getLsbD 3 := by
  rw [evalPermit_fau]
  split
  · exact ⟨rfl, rfl, rfl, rfl⟩
  · exact ⟨rfl, rfl, rfl, by simp [attSet, attNum]⟩

/-- The last steps of an opening raise OPENED, and PERMIT at most. -/
theorem openPassage_fau (c : Crossing) (s : State) : (openPassage c s).fau.capture = s.roomMade.fau.capture ∧
    (openPassage c s).fau.counts = s.roomMade.fau.counts ∧ (openPassage c s).fau.worst = s.roomMade.fau.worst ∧
    (openPassage c s).fau.attention.getLsbD 3 = s.roomMade.fau.attention.getLsbD 3 ∧
    (s.roomMade.fau.attention.getLsbD 6 = true → (openPassage c s).fau.attention.getLsbD 6 = true) ∧
    (openPassage c s).fau.attention.getLsbD 1 = true := by
  have table := openTable_made c.direction c.time s
  obtain ⟨capture, counts, worst, bit⟩ := evalPermit_quiet ((s.roomMade.setDirectory
    (s.roomMade.ptb.directory ++ [DirEntry.start s.nextNumber c.direction c.time])).setSlots (bindPending s.nextNumber s.roomMade.ptb.slots))
  have keeps : s.roomMade.fau.attention.getLsbD 6 = true → (openTable c.direction c.time s).fau.attention.getLsbD 6 = true := fun h => by
    rw [table]
    exact evalPermit_keepsAttention h
  rw [← table] at capture counts worst bit
  rw [openPassage_eq]
  generalize (openTable c.direction c.time s).fau = f at *
  refine ⟨capture, counts, worst, ?_, fun h => ?_, ?_⟩
  · rw [← show f.attention.getLsbD 3 = s.roomMade.fau.attention.getLsbD 3 from bit]
    simp [raiseAtt, evalAttn, attSet, attNum]
  · simp [raiseAtt, evalAttn, keeps h]
  · simp [raiseAtt, evalAttn, attSet, attNum]

/-- The dropped passage's occurrence, taken after the evaluation of PERMIT that its freeing brings about. -/
theorem roomMade_full_fau {s : State} {old : DirEntry} (started : s.condition ≠ .starting) (full : s.ptb.directory.length = 8)
    (oldest : oldestClosed s.ptb.directory = some old) :
    s.roomMade.fau.capture = (takeFault (s.droppedOcc old) s).fau.capture ∧
    s.roomMade.fau.counts = (takeFault (s.droppedOcc old) s).fau.counts ∧
    s.roomMade.fau.worst = (takeFault (s.droppedOcc old) s).fau.worst ∧
    s.roomMade.fau.attention.getLsbD 3 = (takeFault (s.droppedOcc old) s).fau.attention.getLsbD 3 ∧
    ((evalPermit (s.withoutPassage old)).fau.attention.getLsbD 6 = true → s.roomMade.fau.attention.getLsbD 6 = true) := by
  obtain ⟨capture, counts, worst, bit⟩ := evalPermit_quiet (s.withoutPassage old)
  have condition : (evalPermit (s.withoutPassage old)).condition ≠ .starting := by
    rw [evalPermit_condition]
    exact started
  have settings := evalPermit_settings (s.withoutPassage old)
  rw [roomMade_full full oldest, reportFault_started condition, takeFault_fau, takeFault_fau]
  generalize evalPermit (s.withoutPassage old) = m at *
  rw [show m.settings = s.settings from settings]
  have counted : (countFault m.fau (s.droppedOcc old)).counts = (countFault s.fau (s.droppedOcc old)).counts ∧
      (countFault m.fau (s.droppedOcc old)).worst = (countFault s.fau (s.droppedOcc old)).worst := by
    unfold countFault
    rw [counts, worst]
    exact ⟨rfl, rfl⟩
  split
  · exact ⟨capture, counted.1, counted.2, bit, id⟩
  · refine ⟨?_, counted.1, counted.2, ?_, fun h => ?_⟩
    · show some (m.fau.capture.getD _) = some (s.fau.capture.getD _)
      rw [capture]
      rfl
    · simp [attSet, attNum]
    · simp [h]

/-- The freeing of the oldest passage asserts PERMIT where only the full directory withheld it. -/
theorem withoutPassage_asserts {s : State} {old : DirEntry} (full : s.ptb.directory.length = 8) (held : old ∈ s.ptb.directory)
    (withdrawn : s.ptb.permit = .withdrawn) (ready : s.condition = .ready) (valid : s.cal.state = .valid)
    (served : s.lcu.platforms.a.service = .inService ∨ s.lcu.platforms.b.service = .inService) (normal : s.ptb.water = .normal)
    (low : s.usedSlots < s.settings.highWater) : (evalPermit (s.withoutPassage old)).fau.attention.getLsbD 6 = true := by
  have fewer := filter_length_lt (p := fun d => decide (d ≠ old)) held (by simp)
  have used : (tkeep (fun _ (w : Wagon) => decide (w.passage ≠ some old.number)) s.ptb.slots).length ≤ s.usedSlots := length_tkeep_le _ _
  exact evalPermit_asserts (s := s.withoutPassage old) withdrawn ready valid served (Nat.lt_of_lt_of_eq fewer full) normal
    (Nat.lt_of_le_of_lt used low)

/-! ### The opening crossing (R27, R28) -/

theorem endStationTest_empty {x : Post} {c : Crossing} {s : State} (empty : s.axt.train = []) : (endStationTest x c s).axt = s.axt := by
  unfold endStationTest
  simp only
  split
  · exact headIncident_empty empty
  · rfl

theorem takeCrossing_none {s : State} (closed : s.axt.passage = none) (c : Crossing) : takeCrossing c s =
    appendAxle (postOf c.direction c.station) c (endStationTest (postOf c.direction c.station) c (openPassage c s)) := by
  unfold takeCrossing
  rw [closed]
  rfl

/-- The first axle stands behind the station of the opening crossing. -/
theorem takeCrossing_opens {s : State} (closed : s.axt.passage = none) (c : Crossing) :
    (takeCrossing c s).axt.passage = some ⟨s.nextNumber, c.direction, c.time, c.time⟩ ∧
    (takeCrossing c s).axt.train.map Axle.track = [(Axle.new (postOf c.direction c.station) c).track] := by
  have tracker : (endStationTest (postOf c.direction c.station) c (openPassage c s)).axt =
      ⟨some ⟨s.nextNumber, c.direction, c.time, c.time⟩, [], 0, false, 0⟩ :=
    (endStationTest_empty (by rw [openPassage_tracker])).trans (openPassage_tracker c s)
  rw [takeCrossing_none closed]
  generalize endStationTest (postOf c.direction c.station) c (openPassage c s) = m at tracker
  generalize postOf c.direction c.station = x
  unfold appendAxle
  simp only
  obtain ⟨tracks, passage⟩ := forwardEffects_tracked x c m.axt.train.length
    (reportTracker (touch c.time (m.setTrain (m.axt.train ++ [Axle.new x c]))))
  rw [tracks, passage]
  show m.axt.passage.map _ = _ ∧ (m.axt.train ++ [Axle.new x c]).map Axle.track = _
  rw [tracker]
  exact ⟨rfl, rfl⟩

/-- Settles O15: the table and the records of the opening, the dropped passage, and the opening crossing's axle. -/
theorem crossingOpensAPassage : Obligations.CrossingOpensAPassage := by
  unfold Obligations.CrossingOpensAPassage
  refine ⟨fun s c reset last few closed => ?_, fun s t k p h on ready ok held other reset => ?_⟩
  · have number : s.nextNumber = if s.ptb.lastNumber < 4294967295 then s.ptb.lastNumber + 1 else 1 := numberAfter_one last
    rw [← number]
    obtain ⟨shut, pending⟩ := roomMade_ptb few closed
    have directory := openPassage_directory c shut
    have slots := openPassage_slots c s
    obtain ⟨capture, counts, worst, bit, permit, raised⟩ := openPassage_fau c s
    refine ⟨openPassage_tracker c s, openPassage_lastNumber c s, fun spare => ?_, fun full => ?_, ?_, ?_, fun r hr => ?_, fun k w here free => ?_,
      fun full withdrawn ready valid served normal low => ?_, openPassage_withdrawn, raised, ?_⟩
    · rw [roomMade_spare spare] at directory slots capture counts worst
      refine ⟨directory, fun _ k w here bound foreign => ?_, capture, counts, worst⟩
      rw [slots, tget_tmap]
      exact (congrArg (Option.map _) here).trans (congrArg some (Wagon.openedFor_other bound foreign))
    · obtain ⟨old, oldest, held, least⟩ := oldestClosed_spec closed fun empty => by simp [empty] at full
      obtain ⟨kept, keptSlots⟩ := roomMade_full_ptb full oldest
      refine ⟨old, held, least, by rw [directory, kept]; rfl, fun wf k w here => ⟨fun dropped => ?_, fun bound stays foreign => ?_⟩,
        fun ready => ?_⟩
      · rw [slots, tget_tmap, keptSlots, tget_tkeep_dropped wf here (by simp [dropped])]
        rfl
      · rw [slots, tget_tmap, keptSlots, tget_tkeep_kept (by simp [stays]) here]
        exact congrArg some (Wagon.openedFor_other bound foreign)
      · obtain ⟨capture', counts', worst', bit', -⟩ := roomMade_full_fau (by rw [ready]; exact nofun) full oldest
        exact ⟨capture.trans capture', counts.trans counts', worst.trans worst', bit.trans bit'⟩
    · rw [openPassage_eq]
      rfl
    · rw [openPassage_eq]
      rfl
    · rw [slots] at hr
      obtain ⟨q, -, rfl⟩ := mem_tmap.mp hr
      exact Wagon.openedFor_bound _ _ _ _
    · obtain ⟨passage, counter, position, fleet, cls, kind, state, origin, marked⟩ :=
        Wagon.openedFor_pending free s.nextNumber s.cal.counter (decide (s.calsw = .calibrate))
      refine ⟨_, ?_, passage, counter, position, fleet, cls, kind, state, origin, fun calibrating => marked (decide_eq_true calibrating)⟩
      rw [slots, tget_tmap, pending k w here free]
      rfl
    · obtain ⟨old, oldest, held, -⟩ := oldestClosed_spec closed fun empty => by simp [empty] at full
      obtain ⟨-, -, -, -, keeps⟩ := roomMade_full_fau (by rw [ready]; exact nofun) full oldest
      exact permit (keeps (withoutPassage_asserts full held withdrawn ready valid served normal low))
    · exact takeCrossing_none (by rw [reset]; rfl) c
  · intro c
    have done := (exec_headEvent_partner on ready ok held other t).trans (congrArg Host.Outcome.next (completeCrossing_eq _ _ _ _))
    have shut : (touch (s.advance t).timebase (s.advance t)).axt.passage = none := by
      show s.axt.passage.map _ = none
      rw [reset]
      rfl
    have formed : crossingOf (touch (s.advance t).timebase (s.advance t)).cal.working.headSpacing k p (s.advance t).timebase = c := rfl
    rw [formed] at done
    obtain ⟨passage, train⟩ := takeCrossing_opens (s := (touch (s.advance t).timebase (s.advance t)).setWsu
      (stationsAfter k c (touch (s.advance t).timebase (s.advance t)).wsu)) shut c
    refine ⟨_, done, fun last => passage.trans ?_, train⟩
    rw [← numberAfter_one last]
    rfl

end Sys2Proof.Machine
end

