-- ==== Sys2Proof/Proofs/AxleMarks.lean ====
section
/-! PROOFS. What of an axle the tracker reads: its zone and times, its open windows and its settlement; and what cancellations and
settlements do to them (R41 to R44). -/

namespace Sys2Proof.Machine

/-! ### Operations that refill the train and the MEU only -/

/-- A state that differs from another in the axle entries and the MEU only. -/
def Refilled (s s' : State) : Prop := ∃ (l : List Axle) (m : Meu), s' = (s.setAxt { s.axt with train := l }).setMeu m

namespace Refilled

variable {s s' s'' : State}

theorem refl (s : State) : Refilled s s := ⟨s.axt.train, s.meu, rfl⟩

theorem trans (h : Refilled s s') (k : Refilled s' s'') : Refilled s s'' := by
  obtain ⟨l, m, rfl⟩ := h
  obtain ⟨l', m', rfl⟩ := k
  exact ⟨l', m', rfl⟩

theorem foldl {α : Type} {f : State → α → State} (h : ∀ s a, Refilled s (f s a)) (l : List α) : ∀ s, Refilled s (l.foldl f s) := by
  induction l with
  | nil => exact refl
  | cons a l ih => exact fun s => (h s a).trans (ih _)

theorem axle (i : Nat) (f : Axle → Axle) (s : State) : Refilled s (updAxle i f s) :=
  ⟨updateAt f i s.axt.train, s.meu, rfl⟩

theorem platform (p : Platform) (f : MeuPlatform → MeuPlatform) (s : State) : Refilled s (updMeu p f s) := ⟨s.axt.train, _, rfl⟩

theorem passage (h : Refilled s s') : s'.axt.passage = s.axt.passage := by
  obtain ⟨l, m, rfl⟩ := h
  rfl

theorem abandoned (h : Refilled s s') : s'.axt.abandoned = s.axt.abandoned := by
  obtain ⟨l, m, rfl⟩ := h
  rfl

theorem wsu (h : Refilled s s') : s'.wsu = s.wsu := by
  obtain ⟨l, m, rfl⟩ := h
  rfl

theorem direction (h : Refilled s s') : s'.direction = s.direction := by
  obtain ⟨l, m, rfl⟩ := h
  rfl

theorem measurable (h : Refilled s s') : s'.measurable = s.measurable := by
  obtain ⟨l, m, rfl⟩ := h
  rfl

theorem inLastZone (h : Refilled s s') : s'.inLastZone = s.inLastZone := by
  obtain ⟨l, m, rfl⟩ := h
  rfl

end Refilled

theorem resolveEntry_refilled (p : Platform) (x : Option (Int × Int)) (e : WindowEntry) (s : State) :
    Refilled s (resolveEntry p x e s) := by
  unfold resolveEntry
  split
  · exact (Refilled.platform p _ s).trans (.axle _ _ _)
  · exact .platform p _ s

theorem resolveWhere_refilled (p : Platform) (x : Option (Int × Int)) (q : WindowEntry → Bool) (s : State) :
    Refilled s (resolveWhere p x q s) := .foldl (fun s e => resolveEntry_refilled p x e s) _ _

theorem meuCancel_refilled (p : Platform) (i : Nat) (s : State) : Refilled s (meuCancel p i s) :=
  (Refilled.platform p _ s).trans (resolveWhere_refilled _ _ _ _)

theorem cancelWindow_refilled (x : Side) (i : Nat) (s : State) : Refilled s (cancelWindow x i s) := by
  unfold cancelWindow
  split
  · exact .refl s
  · exact (Refilled.axle i _ s).trans (meuCancel_refilled _ _ _)

theorem cancelWindows_refilled (i : Nat) (s : State) : Refilled s (cancelWindows i s) :=
  (cancelWindow_refilled _ _ _).trans (cancelWindow_refilled _ _ _)

theorem cancelUnmeasurable_refilled (x : Side) (i : Nat) (s : State) : Refilled s (cancelUnmeasurable x i s) := by
  unfold cancelUnmeasurable
  split
  · exact .refl s
  · exact cancelWindow_refilled _ _ _

theorem bound_refilled (x : Side) (i : Nat) (s : State) : Refilled s (bound x i s) := by
  unfold bound
  split
  · exact .refl s
  · exact .axle _ _ _

theorem combineSettled_refilled (i : Nat) (s : State) : Refilled s (combineSettled i s) :=
  ((resolveWhere_refilled _ _ _ _).trans (resolveWhere_refilled _ _ _ _)).trans (.axle _ _ _)

theorem settle_refilled (i : Nat) (s : State) : Refilled s (settle i s) :=
  (((bound_refilled _ _ _).trans (bound_refilled _ _ _)).trans (.axle _ _ _)).trans (combineSettled_refilled _ _)

/-! ### The marks of an axle -/

/-- What of an axle the tracker reads beside its measurements and its combination. -/
structure Marks where
  track : Zone × PerPost (Option PassTime)
  windows : PerSide (Option Nat)
  settled : Bool

def Axle.marks (a : Axle) : Marks := ⟨a.track, a.windows, a.settled⟩

/-- The marks of the axle at an index. -/
def State.marksAt (s : State) (j : Nat) : Option Marks := (s.axt.train[j]?).map Axle.marks

/-- No window open on a platform. -/
def Marks.cut (x : Side) (m : Marks) : Marks := { m with windows := m.windows.set x none }

def Marks.settle (m : Marks) : Marks := { m with settled := true }

theorem marksAt_of {s : State} {i : Nat} {a : Axle} (h : s.axt.train[i]? = some a) : s.marksAt i = some a.marks := by
  unfold State.marksAt
  rw [h]
  rfl

theorem axle_of_marksAt {s : State} {i : Nat} {m : Marks} (h : s.marksAt i = some m) :
    ∃ a, s.axt.train[i]? = some a ∧ a.track = m.track ∧ a.windows = m.windows ∧ a.settled = m.settled := by
  obtain ⟨a, here, rfl⟩ := Option.map_eq_some_iff.mp h
  exact ⟨a, here, rfl, rfl, rfl⟩

/-- An operation that changes the marks of one axle, in one way. -/
def Marked (i : Nat) (g : Marks → Marks) (s s' : State) : Prop :=
  ∀ j, s'.marksAt j = if j = i then (s.marksAt j).map g else s.marksAt j

theorem updAxle_marked {f : Axle → Axle} {g : Marks → Marks} (h : ∀ a, (f a).marks = g a.marks) (i : Nat) (s : State) :
    Marked i g s (updAxle i f s) := fun j => by
  show ((updateAt f i s.axt.train)[j]?).map Axle.marks = _
  rw [getElem?_updateAt]
  unfold State.marksAt
  split
  · rw [Option.map_map, Option.map_map]
    exact congrArg (fun k : Axle → Marks => Option.map k _) (funext h)
  · rfl

theorem Marked.stands {i : Nat} {s s' : State} (h : Marked i id s s') (j : Nat) : s'.marksAt j = s.marksAt j := by
  rw [h j, Option.map_id]
  exact ite_self _

theorem updAxle_marksAt {f : Axle → Axle} (h : ∀ a, (f a).marks = a.marks) (i : Nat) (s : State) (j : Nat) :
    (updAxle i f s).marksAt j = s.marksAt j := (updAxle_marked (g := id) h i s).stands j

theorem writeMeas_marksAt (p : Platform) (i : Nat) (m : Measurement) (j : Nat) (s : State) : (writeMeas p i m s).marksAt j = s.marksAt j :=
  updAxle_marksAt (f := fun a => a.write (sideOf s.direction p) m) (fun _ => rfl) i s j

theorem resolveWhere_marksAt (p : Platform) (x : Option (Int × Int)) (q : WindowEntry → Bool) (j : Nat) (s : State) :
    (resolveWhere p x q s).marksAt j = s.marksAt j := by
  have entry : ∀ (e : WindowEntry) (v : State), (resolveEntry p x e v).marksAt j = v.marksAt j := fun e v => by
    unfold resolveEntry
    split
    · exact writeMeas_marksAt _ _ _ j _
    · rfl
  have each : ∀ (l : List WindowEntry) (v : State), (l.foldl (fun v e => resolveEntry p x e v) v).marksAt j = v.marksAt j := fun l => by
    induction l with
    | nil => exact fun _ => rfl
    | cons e l ih => exact fun v => (ih _).trans (entry e v)
  exact each _ s

theorem meuCancel_marksAt (p : Platform) (i j : Nat) (s : State) : (meuCancel p i s).marksAt j = s.marksAt j :=
  resolveWhere_marksAt _ _ _ j (dropEntries p _ s)

theorem Marks.cut_closed {x : Side} {m : Marks} (h : m.windows.get x = none) : m.cut x = m := by
  obtain ⟨track, ⟨first, second⟩, settled⟩ := m
  cases x
  · obtain rfl : first = none := h
    rfl
  · obtain rfl : second = none := h
    rfl

/-- A cancellation closes the axle's window on its platform, if it was open. -/
theorem cancelWindow_marked (x : Side) (i : Nat) (s : State) : Marked i (Marks.cut x) s (cancelWindow x i s) := fun j => by
  unfold cancelWindow
  split
  · next closed =>
    split
    · next same =>
      subst same
      unfold State.marksAt
      cases here : s.axt.train[j]? with
      | none => rfl
      | some a =>
        rw [here] at closed
        exact congrArg some (Marks.cut_closed (m := a.marks) closed).symm
    · rfl
  · rw [meuCancel_marksAt]
    exact updAxle_marked (g := Marks.cut x) (fun _ => rfl) i s j

theorem cancelWindows_marked (i : Nat) (s : State) : Marked i (fun m => { m with windows := ⟨none, none⟩ }) s (cancelWindows i s) :=
  fun j => by
    unfold cancelWindows
    rw [cancelWindow_marked .second i _ j, cancelWindow_marked .first i s j]
    split
    · rw [Option.map_map]
      rfl
    · rfl

theorem combine_marks (c : CalSet) (a : Axle) : (a.combine c).marks = a.marks := by rw [combine_fields]; rfl

theorem bound_marksAt (x : Side) (i j : Nat) (s : State) : (bound x i s).marksAt j = s.marksAt j := by
  unfold bound
  split
  · rfl
  · refine updAxle_marksAt (fun a => ?_) i s j
    split <;> rfl

/-- A settlement sets the axle's mark. -/
theorem settle_marked (i : Nat) (s : State) : Marked i Marks.settle s (settle i s) := fun j => by
  have combined : (combineSettled i (updAxle i (fun a => { a with settled := true }) (bound .second i (bound .first i s)))).marksAt j =
      (updAxle i (fun a => { a with settled := true }) (bound .second i (bound .first i s))).marksAt j := by
    unfold combineSettled
    simp only
    rw [updAxle_marksAt (combine_marks _), resolveWhere_marksAt, resolveWhere_marksAt]
  refine combined.trans ?_
  rw [updAxle_marked (g := Marks.settle) (fun _ => rfl) i _ j, bound_marksAt, bound_marksAt]

/-- An operation on each axle of a list in turn, each changing its own axle's marks while a property of the state stands. -/
theorem foldl_marksAt {f : State → Nat → State} {g : Marks → Marks} {ok : State → Prop} (keeps : ∀ s i, ok s → ok (f s i))
    (acts : ∀ s i, ok s → Marked i g s (f s i)) (j : Nat) : ∀ (l : List Nat) (s : State), l.Nodup → ok s →
    (l.foldl f s).marksAt j = if j ∈ l then (s.marksAt j).map g else s.marksAt j
  | [], _, _, _ => rfl
  | i :: l, s, distinct, fine => by
    obtain ⟨fresh, distinct⟩ := List.nodup_cons.mp distinct
    have rest := foldl_marksAt keeps acts j l (f s i) distinct (keeps s i fine)
    have here := acts s i fine j
    rw [List.foldl_cons, rest, here]
    by_cases same : j = i
    · subst same
      simp [fresh]
    · simp [same]

/-! ### An axle moved back (R33, R44) -/

/-- The axle in its new zone, its windows cancelled, before its combination is withdrawn. -/
def movedBack (z : Zone) (i : Nat) (s : State) : State := cancelWindows i (updAxle i (fun a => { a with zone := z }) s)

theorem moveBack_axt {s : State} {i : Nat} {a : Axle} (here : s.axt.train[i]? = some a) (z : Zone) (t : Nat) :
    (moveBack z i t s).axt = (if a.settled then updAxle i Axle.uncombine (movedBack z i s) else movedBack z i s).axt := by
  unfold moveBack
  rw [here]
  simp only
  split
  · exact noticeAxle_axt _ _ _
  · rfl

theorem movedBack_axle {s : State} {i : Nat} {a : Axle} (here : s.axt.train[i]? = some a) (z : Zone) :
    ∃ b, (movedBack z i s).axt.train[i]? = some b ∧ b.track = (z, a.times) ∧ b.windows = ⟨none, none⟩ ∧ b.settled = a.settled := by
  have moved : (updAxle i (fun a => { a with zone := z }) s).axt.train[i]? = some { a with zone := z } := by
    show (updateAt _ i s.axt.train)[i]? = _
    rw [getElem?_updateAt, if_pos rfl, here]
    rfl
  have marks := cancelWindows_marked i (updAxle i (fun a => { a with zone := z }) s) i
  rw [if_pos rfl, marksAt_of moved] at marks
  exact axle_of_marksAt marks

theorem updAxle_axle {s : State} {i : Nat} {b : Axle} (here : s.axt.train[i]? = some b) (f : Axle → Axle) :
    (updAxle i f s).axt.train[i]? = some (f b) := by
  show (updateAt f i s.axt.train)[i]? = _
  rw [getElem?_updateAt, if_pos rfl, here]
  rfl

/-- The axle moved back: its zone, its times, no window, unsettled, and without a combination if it had been settled. -/
theorem moveBack_axle {s : State} {i : Nat} {a : Axle} (here : s.axt.train[i]? = some a) (z : Zone) (t : Nat) :
    ∃ b, (moveBack z i t s).axt.train[i]? = some b ∧ b.track = (z, a.times) ∧ b.windows = ⟨none, none⟩ ∧ b.settled = false ∧
      (a.settled = true → b.load = none ∧ b.rail1 = none ∧ b.rail2 = none ∧ b.speed = none ∧ b.comb = none) := by
  obtain ⟨b, there, track, windows, settled⟩ := movedBack_axle here z
  rw [moveBack_axt here]
  split
  · exact ⟨b.uncombine, updAxle_axle there _, track, windows, rfl, fun _ => ⟨rfl, rfl, rfl, rfl, rfl⟩⟩
  · next unsettled => exact ⟨b, there, track, windows, settled.trans (Bool.not_eq_true _ ▸ unsettled), fun h => absurd h unsettled⟩

/-- No other axle moves, and the passage stands. -/
theorem moveBack_tracks {s : State} {i : Nat} {a : Axle} (here : s.axt.train[i]? = some a) (z : Zone) (t : Nat) :
    (moveBack z i t s).axt.train.map Axle.track = (s.axt.train.map Axle.track).set i (z, a.times) ∧
      (moveBack z i t s).axt.passage = s.axt.passage := by
  have moved : (updAxle i (fun a => { a with zone := z }) s).axt.train.map Axle.track = (s.axt.train.map Axle.track).set i (z, a.times) :=
    map_updateAt_set (g := Axle.track) here
  have cancelled : Tracked (updAxle i (fun a => { a with zone := z }) s) (movedBack z i s) := cancelWindows_tracked _ _
  have left : Tracked (updAxle i (fun a => { a with zone := z }) s)
      (if a.settled then updAxle i Axle.uncombine (movedBack z i s) else movedBack z i s) := by
    split
    · exact cancelled.trans (updAxle_tracked _)
    · exact cancelled
  rw [moveBack_axt here]
  exact ⟨left.tracks.trans moved, left.passage⟩

end Sys2Proof.Machine
end

