-- ==== Sys2Proof/Proofs/Crossings.lean ====
section
/-! PROOFS. Crossings in an open passage: matching, moves, removal and phantom crossings (R31 to R36, R45). -/

namespace Sys2Proof.Machine

/-! ### Which axle a crossing takes (R32, R33) -/

/-- An axle lies in the merged zone before a station. -/
def State.Before (s : State) (x : Post) (a : Axle) : Prop := s.lowBefore x ≤ zoneRank a.zone ∧ zoneRank a.zone < zoneRank (zoneAfter x)

/-- An axle lies in the merged zone after a station. -/
def State.After (s : State) (x : Post) (a : Axle) : Prop := zoneRank (zoneAfter x) ≤ zoneRank a.zone ∧ zoneRank a.zone ≤ s.highAfter x

theorem both_true {p q : Prop} [Decidable p] [Decidable q] (h : p ∧ q) : (decide p && decide q) = true := by simpa using h

theorem both_false {p q : Prop} [Decidable p] [Decidable q] (h : ¬ (p ∧ q)) : (decide p && decide q) = false := by simpa using h

theorem axleBefore_lowest {s : State} {x : Post} {i : Nat} {a : Axle} (here : s.axt.train[i]? = some a) (within : s.Before x a)
    (lowest : ∀ (j : Nat) (b : Axle), j < i → s.axt.train[j]? = some b → ¬ s.Before x b) : s.axleBefore x = some i :=
  firstIdx_eq here (both_true within) fun j b less there => both_false (lowest j b less there)

theorem axleBefore_none {s : State} {x : Post} (empty : ∀ b ∈ s.axt.train, ¬ s.Before x b) : s.axleBefore x = none :=
  firstIdx_eq_none.mpr fun b hb => both_false (empty b hb)

theorem axleAfter_highest {s : State} {x : Post} {i : Nat} {a : Axle} (here : s.axt.train[i]? = some a) (within : s.After x a)
    (highest : ∀ (j : Nat) (b : Axle), i < j → s.axt.train[j]? = some b → ¬ s.After x b) : s.axleAfter x = some i :=
  lastIdx_eq here (both_true within) fun j b less there => both_false (highest j b less there)

theorem axleAfter_none {s : State} {x : Post} (empty : ∀ b ∈ s.axt.train, ¬ s.After x b) : s.axleAfter x = none :=
  lastIdx_eq_none.mpr fun b hb => both_false (empty b hb)

/-! ### A crossing by its passage and direction (R27, R32, R33, R47) -/

theorem takeCrossing_forward {s : State} {q : Passage} {c : Crossing} (opened : s.axt.passage = some q) (live : s.axt.abandoned = false)
    (same : c.direction = q.direction) : takeCrossing c s = forward (postOf q.direction c.station) c s := by
  unfold takeCrossing
  rw [opened, live]
  exact if_pos same

theorem takeCrossing_backward {s : State} {q : Passage} {c : Crossing} (opened : s.axt.passage = some q) (live : s.axt.abandoned = false)
    (other : c.direction ≠ q.direction) : takeCrossing c s = backward (postOf q.direction c.station) c s := by
  unfold takeCrossing
  rw [opened, live]
  exact if_neg other

theorem takeCrossing_abandoned {s : State} {q : Passage} {c : Crossing} (opened : s.axt.passage = some q) (given : s.axt.abandoned = true) :
    takeCrossing c s = countAbandoned c s := by
  unfold takeCrossing
  rw [opened, given]
  rfl

theorem touch_eq {s : State} {q : Passage} (opened : s.axt.passage = some q) (t : Nat) :
    touch t s = s.setAxt { s.axt with passage := some { q with lastActivity := t } } := by
  unfold touch
  rw [opened]
  rfl

/-! ### Forward crossings (R32, R34, R36) -/

/-- The axle that takes the crossing in its new zone, before windows and settlement. -/
def crossed (x : Post) (c : Crossing) (q : Passage) (i : Nat) (a : Axle) (s : State) : State :=
  s.setAxt { s.axt with
    passage := some { q with lastActivity := c.time }
    train := s.axt.train.set i { a with zone := zoneAfter x, times := a.times.set x (some ⟨c.time, c.interval⟩) } }

/-- The train with its new tail axle, before windows and settlement. -/
def appended (x : Post) (c : Crossing) (q : Passage) (s : State) : State :=
  reportTracker (s.setAxt { s.axt with passage := some { q with lastActivity := c.time }, train := s.axt.train ++ [Axle.new x c] })

theorem tryForward_matched {s : State} {x : Post} {c : Crossing} {q : Passage} {i : Nat} {a : Axle} (opened : s.axt.passage = some q)
    (here : s.axt.train[i]? = some a) (matched : s.axleBefore x = some i) :
    tryForward x c s = some (forwardEffects x c i (crossed x c q i a s)) := by
  have moved : touch c.time (updAxle i (Axle.cross x c) s) = crossed x c q i a s := by
    unfold updAxle
    rw [updateAt_eq_set here]
    exact touch_eq (by exact opened) c.time
  unfold tryForward
  rw [matched]
  simp only [moved]

theorem tryForward_appended {s : State} {x : Post} {c : Crossing} {q : Passage} (opened : s.axt.passage = some q)
    (unmatched : s.axleBefore x = none) (approach : s.lowBefore x = 0) (room : s.axt.train.length < 2048) :
    tryForward x c s = some (forwardEffects x c s.axt.train.length (appended x c q s)) := by
  have tail : appendAxle x c s = forwardEffects x c s.axt.train.length (appended x c q s) := by
    unfold appendAxle
    simp only
    rw [touch_eq (s := s.setTrain (s.axt.train ++ [Axle.new x c])) opened]
    rfl
  unfold tryForward
  rw [unmatched]
  show (if s.lowBefore x = 0 then some (if maxAxles ≤ s.axt.train.length then _ else _) else none) = _
  rw [if_pos approach, if_neg (show ¬ maxAxles ≤ _ from Nat.not_le.mpr room), tail]

theorem tryForward_full {s : State} {x : Post} (c : Crossing) (unmatched : s.axleBefore x = none) (approach : s.lowBefore x = 0)
    (full : 2048 ≤ s.axt.train.length) : tryForward x c s = some (abandon c s) := by
  unfold tryForward
  rw [unmatched]
  show (if s.lowBefore x = 0 then some (if maxAxles ≤ s.axt.train.length then _ else _) else none) = _
  rw [if_pos approach, if_pos (show maxAxles ≤ _ from full)]

theorem tryForward_unmatched {s : State} {x : Post} (c : Crossing) (unmatched : s.axleBefore x = none) (later : s.lowBefore x ≠ 0) :
    tryForward x c s = none := by
  unfold tryForward
  rw [unmatched]
  exact if_neg later

theorem forward_taken {s s' : State} {x : Post} {c : Crossing} (h : tryForward x c s = some s') : forward x c s = s' := by
  unfold forward
  rw [h]

theorem forward_phantom {s : State} {x : Post} {c : Crossing} (h : tryForward x c s = none) (clear : s.deadHead x = none) :
    forward x c s = phantom c s := by
  unfold forward
  rw [h, clear]

theorem forward_again {s : State} {x : Post} {c : Crossing} {k : Station} (h : tryForward x c s = none) (dead : s.deadHead x = some k) :
    forward x c s = (tryForward x c (headIncident .upstream c.time k s)).getD (phantom c (headIncident .upstream c.time k s)) := by
  unfold forward
  rw [h, dead]

theorem crossed_tracks {s : State} {i : Nat} {a : Axle} (x : Post) (c : Crossing) (q : Passage) :
    (crossed x c q i a s).axt.train.map Axle.track =
      (s.axt.train.map Axle.track).set i (zoneAfter x, a.times.set x (some ⟨c.time, c.interval⟩)) :=
  List.map_set

/-! ### Backward crossings (R33, R34, R45) -/

theorem backward_phantom {s : State} {x : Post} (c : Crossing) (unmatched : s.axleAfter x = none) : backward x c s = phantom c s := by
  unfold backward
  rw [unmatched]

theorem backward_moves {s : State} {x : Post} {i : Nat} {z : Zone} (c : Crossing) (matched : s.axleAfter x = some i)
    (zone : zoneBefore x = some z) : backward x c s = moveBack z i c.time (touch c.time s) := by
  unfold backward
  rw [matched]
  simp only [zone]

theorem backward_removes {s : State} {x : Post} {i : Nat} (c : Crossing) (matched : s.axleAfter x = some i) (zone : zoneBefore x = none) :
    backward x c s = if (removeTail (touch c.time s)).axt.train = [] then
      closePassage c.time .backedOff (removeTail (touch c.time s)) else removeTail (touch c.time s) := by
  unfold backward
  rw [matched]
  simp only [zone]

theorem removeTail_tracks {s : State} (inhabited : s.axt.train ≠ []) :
    (removeTail s).axt.train.map Axle.track = (s.axt.train.map Axle.track).dropLast ∧ (removeTail s).axt.passage = s.axt.passage := by
  unfold removeTail
  rw [List.getLast?_eq_some_getLast inhabited]
  simp only
  have cancelled := cancelWindows_tracked (s.axt.train.length - 1) s
  generalize cancelWindows (s.axt.train.length - 1) s = m at cancelled
  obtain ⟨tracks, passage⟩ := segRemoved_tracked (s.axt.train.getLast inhabited) (reportTracker (m.setTrain m.axt.train.dropLast))
  rw [tracks, passage]
  refine ⟨?_, cancelled.passage⟩
  show m.axt.train.dropLast.map Axle.track = _
  rw [List.map_dropLast, cancelled.tracks]

/-! ### Phantom crossings (R26, R35) -/

/-- The tracker's own part of a phantom crossing. -/
def phantomCounted (c : Crossing) (s : State) : State := reportTracker (touch c.time (s.setAxt { s.axt with phantom := satSucc 65535 s.axt.phantom }))

theorem phantom_eq {s : State} (started : s.condition ≠ .starting) (c : Crossing) : phantom c s =
    takeFault ⟨.phantomCrossing, c.time, s.openNumber, some (.station c.station), some (.direction c.direction)⟩ (phantomCounted c s) := by
  have number : (touch c.time (s.setAxt { s.axt with phantom := satSucc 65535 s.axt.phantom })).openNumber = s.openNumber :=
    touch_openNumber _ _
  have reported := reportFault_started (s := phantomCounted c s) started
  unfold phantom
  simp only
  unfold State.occNow
  rw [number]
  exact reported _

/-- Settles O16: which axle a crossing takes, what becomes of it, and the crossings that find none. -/
theorem crossingMovesAnAxleOrIsPhantom : Obligations.CrossingMovesAnAxleOrIsPhantom := by
  unfold Obligations.CrossingMovesAnAxleOrIsPhantom
  refine ⟨fun s c q i a opened live same here => ?_, fun s c q opened live same room => ?_, fun s c q i a opened live other here => ?_,
    fun s c q opened live other => ?_, fun s c q opened live same => ?_, fun s c ready => ?_⟩
  · intro x inZone within lowest
    rw [takeCrossing_forward opened live same, forward_taken (tryForward_matched opened here (axleBefore_lowest here within lowest))]
    obtain ⟨tracks, passage⟩ := forwardEffects_tracked x c i (crossed x c q i a s)
    exact ⟨tracks.trans (crossed_tracks x c q), passage⟩
  · intro x approach beyond
    have empty : ∀ b ∈ s.axt.train, ¬ s.Before x b := fun b hb within => absurd within.2 (Nat.not_lt.mpr (beyond b hb))
    rw [takeCrossing_forward opened live same, forward_taken (tryForward_appended opened (axleBefore_none empty) approach room)]
    obtain ⟨tracks, passage⟩ := forwardEffects_tracked x c s.axt.train.length (appended x c q s)
    exact ⟨tracks.trans List.map_append, passage⟩
  · intro x inZone within highest
    have matched : s.axleAfter x = some i := axleAfter_highest here within highest
    rw [takeCrossing_backward opened live other]
    have touched : (touch c.time s).axt.passage = some { q with lastActivity := c.time } := by
      rw [touch_eq opened]
      rfl
    have inhabited : s.axt.train ≠ [] := fun empty => by simp [empty] at here
    refine ⟨fun z zone => ?_, fun zone many => ?_, fun zone one => ?_⟩
    · rw [backward_moves c matched zone]
      obtain ⟨tracks, passage⟩ := moveBack_tracks (s := touch c.time s) here z c.time
      obtain ⟨b, there, -, windows, settled, -⟩ := moveBack_axle (s := touch c.time s) here z c.time
      exact ⟨tracks, passage.trans touched, b, there, windows, settled⟩
    · obtain ⟨tracks, passage⟩ := removeTail_tracks (s := touch c.time s) inhabited
      have left : (removeTail (touch c.time s)).axt.train ≠ [] := fun empty => by
        have length := congrArg List.length tracks
        simp only [empty, List.length_dropLast, List.length_map, List.map_nil, List.length_nil] at length
        exact absurd (show s.axt.train.length - 1 = 0 from length.symm) (by omega)
      rw [backward_removes c matched zone, if_neg left]
      exact ⟨tracks, passage.trans touched⟩
    · obtain ⟨tracks, -⟩ := removeTail_tracks (s := touch c.time s) inhabited
      have emptied : (removeTail (touch c.time s)).axt.train = [] := by
        refine List.eq_nil_of_length_eq_zero ?_
        have length := congrArg List.length tracks
        simp only [List.length_dropLast, List.length_map] at length
        exact length.trans (show s.axt.train.length - 1 = 0 by omega)
      rw [backward_removes c matched zone, if_pos emptied]
      obtain ⟨axt, -⟩ := closePassage_clears c.time .backedOff (removeTail (touch c.time s))
      exact axt
  · intro x empty
    rw [takeCrossing_backward opened live other, backward_phantom c (axleAfter_none empty)]
  · intro x later empty
    have unmatched := tryForward_unmatched c (axleBefore_none empty) later
    rw [takeCrossing_forward opened live same]
    exact ⟨fun clear => forward_phantom unmatched clear, fun k dead => forward_again unmatched dead⟩
  · rw [phantom_eq (by rw [ready]; exact nofun)]
    have fau := takeFault_fau_congr (s := s) (u := phantomCounted c s) rfl rfl
      ⟨.phantomCrossing, c.time, s.openNumber, some (.station c.station), some (.direction c.direction)⟩
    rw [takeFault_eq]
    refine ⟨rfl, rfl, rfl, rfl, rfl, rfl, rfl, ?_, fau⟩
    show (phantomCounted c s).ptb.directory = _
    unfold phantomCounted reportTracker
    rw [updOpenEntry_eq]
    rfl

end Sys2Proof.Machine
end

