-- ==== Sys2Proof/Proofs/CrossingEffects.lean ====
section
/-! PROOFS. What a crossing brings about: windows, settlement, the re-examination and the abandonment of tracking (R37 to R44, R47). -/

namespace Sys2Proof.Machine

/-! ### Zones and platforms (R31, R37) -/

theorem inLastZone_iff (s : State) (z : Zone) : s.inLastZone z = true ↔ s.lastLow ≤ zoneRank z := decide_eq_true_iff

theorem lastLow_f {s : State} (h : s.postOk .f = true) : s.lastLow = 3 := if_pos h

theorem lastLow_m {s : State} (h : s.postOk .f = false) (k : s.postOk .m = true) : s.lastLow = 2 := by
  unfold State.lastLow
  rw [h, k]
  rfl

theorem lastLow_low {s : State} (h : s.postOk .f = false) (k : s.postOk .m = false) : s.lastLow ≤ 1 := by
  unfold State.lastLow
  rw [h, k]
  cases s.postOk .e
  · exact Nat.zero_le 1
  · exact Nat.le_refl 1

theorem zoneRank_three (z : Zone) : 3 ≤ zoneRank z ↔ z = .exit := by cases z <;> decide

theorem zoneRank_two (z : Zone) : 2 ≤ zoneRank z ↔ z ≠ .first := by cases z <;> decide

theorem one_le_zoneRank (z : Zone) : 1 ≤ zoneRank z := by cases z <;> decide

/-! ### Windows (R38 to R41) -/

theorem markWindow_eq {s : State} {i : Nat} {a : Axle} (here : s.axt.train[i]? = some a) (side : Side) (v : Option Nat) :
    markWindow side v i s = s.setAxt { s.axt with train := s.axt.train.set i { a with windows := a.windows.set side v } } := by
  unfold markWindow updAxle
  rw [updateAt_eq_set here]

/-- A window in flight closes over a span that lasts, and is cancelled over one that does not. -/
theorem closeWindow_open {s : State} {i : Nat} {a : Axle} {side : Side} {t0 : Nat} (here : s.axt.train[i]? = some a)
    (flight : a.windows.get side = some t0) {x : Span} (own : x.axle = i) : closeWindow side x s =
    if x.tIn < x.tOut then meuClose (platformOf s.direction side) x (markWindow side none i s)
    else meuCancel (platformOf s.direction side) i (markWindow side none i s) := by
  have cancels : cancelWindow side i s = meuCancel (platformOf s.direction side) i (markWindow side none i s) := by
    unfold cancelWindow
    rw [here]
    simp only [Option.bind_some, flight]
  unfold closeWindow
  rw [own, cancels]

theorem closeWindow_direction (side : Side) (x : Span) (s : State) : (closeWindow side x s).direction = s.direction := by
  unfold State.direction
  rw [(closeWindow_tracked side x s).passage]

section Closing

variable {s : State} {i : Nat} {a : Axle} (here : s.axt.train[i]? = some a)

include here

theorem closeBefore_e (t : Nat) : closeBefore .e i t s = s := by
  unfold closeBefore
  rw [here]

theorem closeBefore_m (t : Nat) : closeBefore .m i t s = a.windows.first.elim s fun t0 => closeWindow .first ⟨i, t0, t, false, (.e, .m)⟩ s := by
  unfold closeBefore
  rw [here]
  simp only
  cases a.windows.first <;> rfl

theorem closeBefore_f (ok : s.postOk .m = true) (t : Nat) :
    closeBefore .f i t s = a.windows.second.elim s fun t0 => closeWindow .second ⟨i, t0, t, false, (.m, .f)⟩ s := by
  unfold closeBefore
  rw [here]
  simp only [ok, if_true]
  cases a.windows.second <;> rfl

theorem closeBefore_interpolated (faulted : s.postOk .m = false) (t : Nat) : closeBefore .f i t s = closeInterpolated i t a s := by
  unfold closeBefore
  rw [here]
  simp only [faulted]
  rfl

end Closing

theorem closeInterpolated_first {a : Axle} {t0 : Nat} (first : a.windows.first = some t0) (i t : Nat) (s : State) :
    closeInterpolated i t a s = if estimatedM s.cal.working s.direction t0 t < t
      then meuClose (platformOf s.direction .second) ⟨i, estimatedM s.cal.working s.direction t0 t, t, true, (.e, .f)⟩
        (closeWindow .first ⟨i, t0, estimatedM s.cal.working s.direction t0 t, true, (.e, .f)⟩ s)
      else closeWindow .first ⟨i, t0, estimatedM s.cal.working s.direction t0 t, true, (.e, .f)⟩ s := by
  unfold closeInterpolated
  rw [first]
  simp only [closeWindow_direction]

theorem closeInterpolated_second {a : Axle} {t0 : Nat} (first : a.windows.first = none) (second : a.windows.second = some t0) (i t : Nat)
    (s : State) : closeInterpolated i t a s = closeWindow .second ⟨i, t0, t, true, (.m, .f)⟩ s := by
  unfold closeInterpolated
  rw [first, second]

theorem closeInterpolated_neither {a : Axle} (first : a.windows.first = none) (second : a.windows.second = none) (i t : Nat)
    (s : State) : closeInterpolated i t a s = s := by
  unfold closeInterpolated
  rw [first, second]

theorem openWindow_eq {s : State} {i : Nat} {a : Axle} (here : s.axt.train[i]? = some a) (side : Side) (t : Nat) :
    openWindow side i t s = meuOpen (platformOf s.direction side) i t
      (s.setAxt { s.axt with train := s.axt.train.set i { a with windows := a.windows.set side (some t) } }) := by
  unfold openWindow
  rw [markWindow_eq here]

/-! ### Settlement (R43) -/

/-- UNBOUNDED where an axle holds no measurement on a platform. -/
def Axle.bounded (side : Side) (a : Axle) : Axle := { a with meas := a.meas.set side (some ((a.meas.get side).getD .unbounded)) }

theorem PerSide.set_get {α : Type} {x : PerSide α} {side : Side} {v : α} (h : x.get side = v) : x.set side v = x := by
  obtain ⟨first, second⟩ := x
  cases side
  · obtain rfl : first = v := h
    rfl
  · obtain rfl : second = v := h
    rfl

theorem Axle.bounded_eq (side : Side) (a : Axle) : (if (a.meas.get side).isSome then a
    else { a with meas := a.meas.set side (some .unbounded) }) = a.bounded side := by
  unfold bounded
  cases held : a.meas.get side with
  | none => rfl
  | some m =>
    have same : a.meas.set side (some m) = a.meas := PerSide.set_get held
    simp only [Option.isSome_some, if_true, Option.getD_some, same]

theorem updateAt_updateAt {α : Type} (f g : α → α) : ∀ (i : Nat) (l : List α), updateAt g i (updateAt f i l) = updateAt (g ∘ f) i l
  | _, [] => by simp [updateAt]
  | 0, _ :: _ => rfl
  | i + 1, a :: l => congrArg (List.cons a) (updateAt_updateAt f g i l)

theorem updAxle_updAxle (f g : Axle → Axle) (i : Nat) (s : State) : updAxle i g (updAxle i f s) = updAxle i (g ∘ f) s := by
  show s.setAxt { s.axt with train := updateAt g i (updateAt f i s.axt.train) } = _
  rw [updateAt_updateAt]
  rfl

/-- No platform defers a measurement of the axle. -/
def State.Undeferred (s : State) (i : Nat) : Prop := ∀ p, ∀ e ∈ (s.meu.get p).windows, e.deferred ≠ none → e.axle ≠ i

theorem bound_undeferred {s : State} {i : Nat} (free : s.Undeferred i) (side : Side) : bound side i s = updAxle i (Axle.bounded side) s := by
  have clear : ¬ (s.meu.get (platformOf s.direction side)).defers i = true := by
    unfold MeuPlatform.defers
    rw [List.any_eq_true]
    rintro ⟨e, he, own⟩
    rw [WindowEntry.isOpen_eq] at own
    simp only [Bool.and_eq_true, Bool.not_eq_true', decide_eq_false_iff_not, decide_eq_true_eq] at own
    exact free _ e he own.1 own.2
  unfold bound
  rw [if_neg clear]
  exact congrArg (fun f => updAxle i f s) (funext (Axle.bounded_eq side))

theorem resolveWhere_undeferred {s : State} {i : Nat} (free : s.Undeferred i) (p : Platform) (x : Option (Int × Int)) :
    resolveWhere p x (fun e => decide (e.axle = i)) s = s := by
  have empty : (s.meu.get p).windows.filter (fun e => decide (e.deferred ≠ none) && decide (e.axle = i)) = [] :=
    List.filter_eq_nil_iff.mpr fun e he own => by
      simp only [Bool.and_eq_true, decide_eq_true_eq] at own
      exact free p e he own.1 own.2
  rw [resolveWhere_eq, empty]
  rfl

theorem combineSettled_undeferred {s : State} {i : Nat} (free : s.Undeferred i) :
    combineSettled i s = updAxle i (Axle.combine s.cal.working) s := by
  unfold combineSettled
  simp only [resolveWhere_undeferred free]

theorem settle_undeferred {s : State} {i : Nat} {a : Axle} (here : s.axt.train[i]? = some a) (free : s.Undeferred i) :
    settle i s = s.setAxt { s.axt with train := s.axt.train.set i (Axle.combine s.cal.working { a with
      settled := true
      meas := ⟨some (a.meas.first.getD .unbounded), some (a.meas.second.getD .unbounded)⟩ }) } := by
  unfold settle
  rw [bound_undeferred free, bound_undeferred (s := updAxle i (Axle.bounded .first) s) free, combineSettled_undeferred (by exact free),
    updAxle_updAxle, updAxle_updAxle, updAxle_updAxle]
  unfold updAxle
  rw [updateAt_eq_set here]
  rfl

/-! ### The re-examination (R42) -/

/-- No window open where its platform is not measurable. -/
def Marks.measured (ok : Side → Bool) (m : Marks) : Marks :=
  { m with windows := ⟨if ok .first then m.windows.first else none, if ok .second then m.windows.second else none⟩ }

theorem cancelUnmeasurable_marked (x : Side) (i : Nat) (s : State) :
    Marked i (fun m => if s.measurable x then m else m.cut x) s (cancelUnmeasurable x i s) := fun j => by
  unfold cancelUnmeasurable
  split
  · simp only [Option.map_id']
    exact (ite_self _).symm
  · exact cancelWindow_marked x i s j

/-- Both platforms of one axle. -/
def cancelUnmeasurables (s : State) (i : Nat) : State := cancelUnmeasurable .second i (cancelUnmeasurable .first i s)

theorem cancelUnmeasurables_refilled (s : State) (i : Nat) : Refilled s (cancelUnmeasurables s i) :=
  (cancelUnmeasurable_refilled _ _ _).trans (cancelUnmeasurable_refilled _ _ _)

theorem cancelUnmeasurables_marked (s : State) (i : Nat) : Marked i (Marks.measured s.measurable) s (cancelUnmeasurables s i) := fun j => by
  have first := cancelUnmeasurable_marked .first i s j
  have second := cancelUnmeasurable_marked .second i (cancelUnmeasurable .first i s) j
  rw [(cancelUnmeasurable_refilled .first i s).measurable] at second
  unfold cancelUnmeasurables
  rw [second, first]
  split
  · rw [Option.map_map]
    refine congrArg (fun k : Marks → Marks => Option.map k _) (funext fun m => ?_)
    unfold Marks.measured Marks.cut
    cases s.measurable .first <;> cases s.measurable .second <;> rfl
  · rfl

/-- The first step of the re-examination, over the whole train. -/
def examined (s : State) : State := (List.range s.axt.train.length).foldl cancelUnmeasurables s

/-- The second step. -/
def resettled (s : State) : State := (settleLast (examined s)).foldl (fun s i => settle i s) (examined s)

theorem reexamine_axt (t : Nat) (s : State) : (reexamine t s).axt = (resettled s).axt := by
  have told : ∀ (l : List Nat) (v : State), (l.foldl (fun v i => noticeAxle t i v) v).axt = v.axt := fun l => by
    induction l with
    | nil => exact fun _ => rfl
    | cons i l ih => exact fun v => (ih _).trans (noticeAxle_axt t i v)
  exact told (settleLast (examined s)) (resettled s)

theorem examined_refilled (s : State) : Refilled s (examined s) := .foldl cancelUnmeasurables_refilled _ s

theorem examined_marksAt {s : State} {i : Nat} {a : Axle} (here : s.axt.train[i]? = some a) :
    (examined s).marksAt i = some (a.marks.measured s.measurable) := by
  have within : i ∈ List.range s.axt.train.length := List.mem_range.mpr (List.getElem?_eq_some_iff.mp here).1
  have each := foldl_marksAt (f := cancelUnmeasurables) (g := Marks.measured s.measurable) (ok := fun v => v.measurable = s.measurable)
    (fun v k ok => (cancelUnmeasurables_refilled v k).measurable.trans ok) (fun v k ok => ok ▸ cancelUnmeasurables_marked v k) i
    (List.range s.axt.train.length) s List.nodup_range rfl
  rw [if_pos within, marksAt_of here] at each
  exact each

theorem mem_settleLast {s : State} {i : Nat} {a : Axle} (here : s.axt.train[i]? = some a) :
    i ∈ settleLast s ↔ s.axt.abandoned = false ∧ a.settled = false ∧ s.inLastZone a.zone = true := by
  have within : i ∈ List.range s.axt.train.length := List.mem_range.mpr (List.getElem?_eq_some_iff.mp here).1
  have stands : s.toSettle i = (!a.settled && s.inLastZone a.zone) := by
    unfold State.toSettle
    rw [here]
  unfold settleLast
  cases s.axt.abandoned
  · simp only [Bool.false_eq_true, if_false, List.mem_filter, within, true_and, stands, Bool.and_eq_true, Bool.not_eq_true']
  · simp

theorem settleLast_nodup (s : State) : (settleLast s).Nodup := by
  unfold settleLast
  split
  · exact List.nodup_nil
  · exact List.nodup_range.filter _

/-- What the re-examination leaves of an axle: its windows where measurable, and settled in the last zone. -/
theorem reexamine_axle {s : State} {i : Nat} {a : Axle} (here : s.axt.train[i]? = some a) (t : Nat) :
    ∃ b, (reexamine t s).axt.train[i]? = some b ∧ b.track = a.track ∧
      (∀ side, b.windows.get side = if s.measurable side then a.windows.get side else none) ∧
      (b.settled = true ↔ a.settled = true ∨ (s.axt.abandoned = false ∧ s.inLastZone a.zone = true)) := by
  have marks := examined_marksAt here
  obtain ⟨m, there, track, windows, settled⟩ := axle_of_marksAt marks
  have zone : m.zone = a.zone := congrArg Prod.fst track
  have chosen := mem_settleLast there
  rw [(examined_refilled s).abandoned, (examined_refilled s).inLastZone, zone, settled] at chosen
  have each := foldl_marksAt (f := fun s i => settle i s) (g := Marks.settle) (ok := fun _ => True) (fun _ _ _ => trivial)
    (fun v k _ => settle_marked k v) i (settleLast (examined s)) (examined s) (settleLast_nodup _) trivial
  rw [marks] at each
  have sides : ∀ side, (a.marks.measured s.measurable).windows.get side = if s.measurable side then a.windows.get side else none :=
    fun side => by cases side <;> rfl
  rw [reexamine_axt]
  by_cases last : i ∈ settleLast (examined s)
  · rw [if_pos last] at each
    obtain ⟨b, final, track', windows', settled'⟩ := axle_of_marksAt each
    obtain ⟨live, -, within⟩ := chosen.mp last
    exact ⟨b, final, track', fun side => (congrArg (fun w : PerSide (Option Nat) => w.get side) windows').trans (sides side),
      ⟨fun _ => .inr ⟨live, within⟩, fun _ => settled'⟩⟩
  · rw [if_neg last] at each
    obtain ⟨b, final, track', windows', settled'⟩ := axle_of_marksAt each
    refine ⟨b, final, track', fun side => (congrArg (fun w : PerSide (Option Nat) => w.get side) windows').trans (sides side), ?_⟩
    have stands : b.settled = a.settled := settled'
    rw [stands]
    refine ⟨.inl, fun h => h.elim id fun ⟨live, within⟩ => ?_⟩
    refine Decidable.byContradiction fun unsettled => ?_
    exact last (chosen.mpr ⟨live, Bool.not_eq_true _ ▸ unsettled, within⟩)

/-! ### Abandonment (R47) -/

/-- The tracker abandoned and reported, and AXLE_OVERFLOW taken, before the windows are cancelled. -/
def overflowed (c : Crossing) (s : State) : State :=
  takeFault ⟨.axleOverflow, c.time, s.openNumber, some (.station c.station), none⟩ (reportTracker (s.setAxt { s.axt with abandoned := true }))

/-- Every window of the train cancelled. -/
def cleared (s : State) : State := (List.range s.axt.train.length).foldl (fun s i => cancelWindows i s) s

theorem abandon_eq {s : State} (started : s.condition ≠ .starting) (c : Crossing) : abandon c s =
    setWait .stopped (touch c.time ((cleared (overflowed c s)).setAxt { (cleared (overflowed c s)).axt with abandonedCount := 1 })) := by
  have reported := reportFault_started (s := reportTracker (s.setAxt { s.axt with abandoned := true })) started
    ⟨.axleOverflow, c.time, s.openNumber, some (.station c.station), none⟩
  unfold abandon
  simp only
  unfold State.occNow
  rw [show (reportTracker (s.setAxt { s.axt with abandoned := true })).openNumber = s.openNumber from rfl, reported]
  rfl

theorem cleared_refilled (s : State) : Refilled s (cleared s) := .foldl (fun s i => cancelWindows_refilled i s) _ s

theorem cleared_tracked (s : State) : Tracked s (cleared s) := .foldl (fun s i => cancelWindows_tracked i s) _ s

theorem cleared_windows {s : State} {b : Axle} (hb : b ∈ (cleared s).axt.train) : b.windows = ⟨none, none⟩ := by
  obtain ⟨i, there⟩ := List.mem_iff_getElem?.mp hb
  have short : i < s.axt.train.length := (cleared_tracked s).length ▸ (List.getElem?_eq_some_iff.mp there).1
  have each := foldl_marksAt (f := fun s i => cancelWindows i s) (ok := fun _ => True) (fun _ _ _ => trivial)
    (fun v k _ => cancelWindows_marked k v) i (List.range s.axt.train.length) s List.nodup_range trivial
  rw [if_pos (List.mem_range.mpr short)] at each
  have marks : (s.marksAt i).map (fun m : Marks => { m with windows := ⟨none, none⟩ }) = some b.marks :=
    each.symm.trans (marksAt_of (s := cleared s) there)
  obtain ⟨m, -, closed⟩ := Option.map_eq_some_iff.mp marks
  exact (congrArg Marks.windows closed).symm

theorem overflowed_ptb (c : Crossing) (s : State) : (overflowed c s).ptb.directory = s.ptb.directory.map fun e =>
    if e.close = none then { e with axleCount := s.axt.train.length, phantom := s.axt.phantom, abandoned := true } else e := by
  unfold overflowed
  rw [takeFault_eq]
  show (reportTracker _).ptb.directory = _
  unfold reportTracker
  rw [updOpenEntry_eq]
  rfl

/-- What the abandonment of tracking leaves. -/
theorem abandon_spec {s : State} {q : Passage} (started : s.condition ≠ .starting) (opened : s.axt.passage = some q) (c : Crossing) :
    (abandon c s).axt.abandoned = true ∧ (abandon c s).axt.abandonedCount = 1 ∧
    (abandon c s).axt.passage = some { q with lastActivity := c.time } ∧
    (abandon c s).axt.train.map Axle.track = s.axt.train.map Axle.track ∧ (∀ b ∈ (abandon c s).axt.train, b.windows = ⟨none, none⟩) ∧
    (abandon c s).seg = { s.seg with wait := .stopped } ∧ (∀ e ∈ (abandon c s).ptb.directory, e.close = none → e.abandoned = true) ∧
    (abandon c s).fau = (takeFault ⟨.axleOverflow, c.time, some q.number, some (.station c.station), none⟩ s).fau := by
  have number : s.openNumber = some q.number := by
    unfold State.openNumber
    rw [opened]
    rfl
  have fau : (overflowed c s).fau = (takeFault ⟨.axleOverflow, c.time, some q.number, some (.station c.station), none⟩ s).fau := by
    unfold overflowed
    rw [number]
    exact takeFault_fau_congr (by rfl) (by rfl) _
  have directory := overflowed_ptb c s
  have axt : (overflowed c s).axt = { s.axt with abandoned := true } := by
    unfold overflowed
    rw [takeFault_eq]
    rfl
  have seg : (overflowed c s).seg = s.seg := by
    unfold overflowed
    rw [takeFault_eq]
    rfl
  rw [abandon_eq started]
  generalize overflowed c s = m at fau directory axt seg
  have windows := fun b => cleared_windows (s := m) (b := b)
  have tracks := (cleared_tracked m).tracks
  have refilled := cleared_refilled m
  generalize cleared m = n at windows tracks refilled
  obtain ⟨l, x, rfl⟩ := refilled
  rw [touch_eq (q := q) (by show m.axt.passage = _; rw [axt]; exact opened)]
  refine ⟨?_, rfl, rfl, ?_, windows, ?_, fun e he isOpen => ?_, fau⟩
  · show m.axt.abandoned = true
    rw [axt]
  · refine tracks.trans ?_
    rw [axt]
  · exact congrArg (fun g : Seg => { g with wait := .stopped }) seg
  · have held : e ∈ m.ptb.directory := he
    rw [directory] at held
    obtain ⟨d, -, rfl⟩ := List.mem_map.mp held
    by_cases h : d.close = none
    · rw [if_pos h]
    · rw [if_neg h] at isOpen
      exact absurd isOpen h

/-! ### The effects of a forward crossing (R34) -/

theorem toSettle_iff {s : State} {i : Nat} : s.toSettle i = true ↔
    ∃ a, s.axt.train[i]? = some a ∧ a.settled = false ∧ s.inLastZone a.zone = true := by
  unfold State.toSettle
  cases s.axt.train[i]? with
  | none => simp
  | some a => simp

theorem forwardEffects_settles {x : Post} {c : Crossing} {i : Nat} {v : State}
    (h : (openAfter x i c.time (closeBefore x i c.time v)).toSettle i = true) : forwardEffects x c i v =
    noticeAxle c.time i (segTold c.time (settle i (openAfter x i c.time (closeBefore x i c.time v)))) := by
  unfold forwardEffects
  simp only [h, if_true]

theorem forwardEffects_stands {x : Post} {c : Crossing} {i : Nat} {v : State}
    (h : ¬ (openAfter x i c.time (closeBefore x i c.time v)).toSettle i = true) : forwardEffects x c i v =
    segTold c.time (openAfter x i c.time (closeBefore x i c.time v)) := by
  unfold forwardEffects
  simp only [h]
  rfl

/-- Settles O17, clause by clause: the matched crossing, the abandonment, the effects in order, the zones, and one axle's windows. -/
theorem crossingBoundsWindowsAndSettles : Obligations.CrossingBoundsWindowsAndSettles := by
  unfold Obligations.CrossingBoundsWindowsAndSettles
  refine ⟨fun s c q opened live same => ?_, fun s c q opened given => ?_, fun x c i v => ⟨fun stands => ?_, fun nobody => ?_⟩,
    fun s z => ⟨fun f => ?_, fun f m => ?_, fun f m => ?_, ?_, ?_⟩, fun s i t a here => ?_⟩
  · intro x inZone
    rw [takeCrossing_forward opened live same]
    refine ⟨fun i a here within lowest => ?_, fun approach empty => ⟨fun room => ?_, fun full ready => ?_⟩⟩
    · exact forward_taken (tryForward_matched opened here (axleBefore_lowest here within lowest))
    · exact forward_taken (tryForward_appended opened (axleBefore_none empty) approach room)
    · rw [forward_taken (tryForward_full c (axleBefore_none empty) approach full)]
      exact abandon_spec (by rw [ready]; exact nofun) opened c
  · rw [takeCrossing_abandoned opened given]
    exact touch_eq (by exact opened) c.time
  · exact forwardEffects_settles (toSettle_iff.mpr stands)
  · refine forwardEffects_stands fun settles => ?_
    obtain ⟨a, here, unsettled, last⟩ := toSettle_iff.mp settles
    rcases nobody a here with settled | outside
    · rw [settled] at unsettled
      exact nomatch unsettled
    · rw [outside] at last
      exact nomatch last
  · rw [inLastZone_iff, lastLow_f f]
    exact zoneRank_three z
  · rw [inLastZone_iff, lastLow_m f m]
    exact zoneRank_two z
  · exact (inLastZone_iff s z).mpr (Nat.le_trans (lastLow_low f m) (one_le_zoneRank z))
  · simp [State.measurable]
  · simp [State.measurable]
  · intro mark close
    have closes : ∀ (side : Side) (t0 : Nat) (y : Span), a.windows.get side = some t0 → y.axle = i → closeWindow side y s = close side y :=
      fun side t0 y flight own => by
        rw [closeWindow_open here flight own, markWindow_eq here]
    refine ⟨closeBefore_e here t, ?_, fun ok => ?_, fun faulted => ⟨fun t0 first => ?_, fun t0 first second => ?_, fun first second => ?_⟩,
      ?_, ?_, rfl, settle_undeferred here, reexamine_axle here t, fun z => moveBack_axle here z t⟩
    · rw [closeBefore_m here]
      cases first : a.windows.first with
      | none => rfl
      | some t0 => exact closes .first t0 _ first rfl
    · rw [closeBefore_f here ok]
      cases second : a.windows.second with
      | none => rfl
      | some t0 => exact closes .second t0 _ second rfl
    · intro l1 l2 tM u
      have closed : closeWindow .first ⟨i, t0, tM, true, (.e, .f)⟩ s = u := closes .first t0 _ first rfl
      rw [closeBefore_interpolated here faulted, closeInterpolated_first first, ← closed]
      rfl
    · rw [closeBefore_interpolated here faulted, closeInterpolated_second first second]
      exact closes .second t0 _ second rfl
    · rw [closeBefore_interpolated here faulted, closeInterpolated_neither first second]
    · rw [← openWindow_eq here]
      rfl
    · rw [← openWindow_eq here]
      rfl

end Sys2Proof.Machine
end
